-- ==== Sys2Proof/Word.lean ====
section
/-! DEFINITION. The word types of the block: a byte and a 16-bit window or length field. -/

namespace Sys2Proof

/-- A byte of `SRC`, `SEGBUF`, `PKTBUF`, a table or a packet (20_memory.md R72: every access moves one byte). -/
abbrev Byte := BitVec 8

/-- A 16-bit field: the marker window `MK`, a segment length, the restart interval (10_state.md R24, R25, R41). -/
abbrev Half := BitVec 16

end Sys2Proof
end

