-- ==== Sys2Proof/Config.lean ====
section
/-! DEFINITION. The parameters of the block: the constants the source fixes (00_scope.md R10, R11), those the spec
decides (R12), and the constant tables `ROM` that the spec leaves OPEN (20_memory.md R67, 92_eei_decisions.md D31).
The ROM is plain data held in `State` (10_state.md R20 counts it in the state), so every statement about every state
is a statement about every ROM. -/

namespace Sys2Proof

namespace Config

/-- `PKT_SIZE`: bytes in every packet (R10). -/
def pktSize : Nat := 256
/-- `HDR_SIZE`: header bytes of a packet (R11). -/
def hdrSize : Nat := 15
/-- `CRC_SIZE`: checksum bytes of a packet (R11). -/
def crcSize : Nat := 4
/-- `P`: payload bytes of a packet, 256 − 15 − 4 (R11). -/
def payload : Nat := 237
/-- `PRECISION`: the only sample precision accepted (R10). -/
def precision : Nat := 8
/-- `MAX_DIM`: largest width and height in pixels (R10). -/
def maxDim : Nat := 4080
/-- `DIM_ALIGN`: width and height are multiples of it (R10). -/
def dimAlign : Nat := 16
/-- `MAX_UNITS`: largest coding-unit count (R10). -/
def maxUnits : Nat := 65535
/-- `CS_BASE`: radix of the station-identifier code (R10). -/
def csBase : Nat := 40
/-- `LCG_MUL`: multiplier of the padding recurrence, the source's literal (R10; 90_conflicts.md C5). -/
def lcgMul : Byte := 254
/-- `LCG_INC`: increment of the padding recurrence (R10). -/
def lcgInc : Byte := 45
/-- `LCG_SEED`: seed of the padding recurrence, per packet (R10). -/
def lcgSeed : Byte := 0
/-- `CRC_POLY`, reflected (R10). -/
def crcPoly : BitVec 32 := 0xEDB88320
/-- `CRC_INIT` (R10). -/
def crcInit : BitVec 32 := 0xFFFFFFFF
/-- `CRC_XOROUT` (R10). -/
def crcXorOut : BitVec 32 := 0xFFFFFFFF
/-- `CRC_START`: first packet byte the checksum covers (R12; 90_conflicts.md C1). -/
def crcStart : Nat := 1
/-- `NONE_OFF`: header sentinel for "no boundary in this packet" (R10). -/
def noneOff : Byte := 0xFF
/-- `NONE_IDX`: header sentinel for "no boundary in this packet" (R10). -/
def noneIdx : Half := 0xFFFF
/-- `DQT_DEF_LEN`: bytes of one coefficient-table definition (R10). -/
def dqtDefLen : Nat := 65
/-- `DHT_DEF_HDR`: header bytes of one Huffman-table definition (R10). -/
def dhtDefHdr : Nat := 17
/-- `CLAMP_LO`: least destination coefficient step (R10). -/
def clampLo : Nat := 1
/-- `CLAMP_HI`: largest destination coefficient step (R10). -/
def clampHi : Nat := 255
/-- `SEGBUF_CAP`: bytes of the segment buffer (R12; 92_eei_decisions.md D33). -/
def segbufCap : Nat := 65533
/-- `HSYM_CAP`: symbols of one source Huffman table (R12; D11). -/
def hsymCap : Nat := 256
/-- `PAD_BIT`s appended by `Sync` to `n` missing bits: `n` one-bits (R12; D20). -/
def padBits (n : Nat) : Nat := 2 ^ n - 1
/-- `SAMP_BYTE[0..3]`: the luma sampling bytes of modes 0 to 3 (R12; 30_encoding.md R95). -/
def sampByte : List Byte := [0x22, 0x12, 0x21, 0x11]
/-- `YPARTS` of modes 0 to 3: the luma sub-block counts (30_encoding.md R95). -/
def ypartsOf : List Nat := [4, 2, 2, 1]
/-- `AREA` of modes 0 to 3: pixels of a coding unit (30_encoding.md R95). -/
def areaOf : List Nat := [256, 128, 128, 64]

end Config

/-- A canonical Huffman table: sixteen counts, the symbol count `nsym`, the symbols (10_state.md R43, R46). -/
structure HuffTable where
  /-- `count[1..16]`, `count[L]` at index `L − 1`. -/
  count : List Byte
  /-- `nsym`, the sum of the counts. -/
  nsym : Nat
  /-- `sym[0..nsym-1]`. -/
  sym : List Byte
  deriving DecidableEq, Repr

/-- Two of a kind, numbered 0 and 1: table slots, or luma and chroma usage. -/
structure Pair (α : Type) where
  s0 : α
  s1 : α
  deriving DecidableEq, Repr

/-- Three of a kind, one for each component 0, 1, 2. -/
structure Tri (α : Type) where
  c0 : α
  c1 : α
  c2 : α
  deriving DecidableEq, Repr

/-- The six character cells of a station identifier (30_encoding.md R109). -/
structure Callsign where
  c0 : Byte
  c1 : Byte
  c2 : Byte
  c3 : Byte
  c4 : Byte
  c5 : Byte
  deriving DecidableEq, Repr

/-- The constant tables `ROM` (20_memory.md R67). -/
structure Rom where
  /-- `QSEED[0..1]`: the two seed coefficient tables, 64 steps each, in coefficient-stream order. -/
  qseed : Pair (List Byte)
  /-- `QSCALE_NUM[0..7]`. -/
  qscaleNum : List Nat
  /-- `QSCALE_DEN`. -/
  qscaleDen : Nat
  /-- `DHT_DST[0][usage]`: the DC destination tables, luma then chroma. -/
  dhtDc : Pair HuffTable
  /-- `DHT_DST[1][usage]`: the AC destination tables, luma then chroma. -/
  dhtAc : Pair HuffTable
  /-- `SYNC_BYTE`. -/
  syncByte : Byte
  /-- `MODE_BYTE`. -/
  modeByte : Byte
  deriving DecidableEq, Repr

/-- The sum of `count[L]·2^(16−L)` over the counts from length `L` on (30_encoding.md R100). -/
def kraftFrom (L : Nat) : List Byte → Nat
  | [] => 0
  | c :: cs => c.toNat * 2 ^ (16 - L) + kraftFrom (L + 1) cs

/-- The number of codes the counts declare. -/
def countSum (cs : List Byte) : Nat := (cs.map BitVec.toNat).sum

/-- A table has the shape of 10_state.md R43: sixteen counts, `nsym` their sum, one symbol for each code. -/
def HuffTable.shaped (t : HuffTable) : Bool :=
  t.count.length == 16 && t.nsym == countSum t.count && t.sym.length == t.nsym && decide (t.nsym ≤ Config.hsymCap)

/-- What 93_implementation_defined.md U9 asks of a destination table: its shape, a code that is no wider than its
length, distinct symbols. -/
def HuffTable.wellFormed (t : HuffTable) : Bool :=
  t.shaped && decide (kraftFrom 1 t.count ≤ 65536) && decide t.sym.Nodup

/-- What the spec asks of a ROM: U9 for the four destination tables, with the symbols every image needs, and D31 for
the seeds and the scale factors (`QSCALE_DEN` ≥ 1, `QSCALE_NUM` non-increasing). -/
def Rom.wellFormed (r : Rom) : Bool :=
  r.qseed.s0.length == 64 && r.qseed.s1.length == 64
    && r.qscaleNum.length == 8 && decide (r.qscaleNum.Pairwise (· ≥ ·)) && decide (1 ≤ r.qscaleDen)
    && r.dhtDc.s0.wellFormed && r.dhtDc.s1.wellFormed && r.dhtAc.s0.wellFormed && r.dhtAc.s1.wellFormed
    && r.dhtDc.s0.sym.contains 0x00 && r.dhtDc.s1.sym.contains 0x00
    && r.dhtAc.s0.sym.contains 0x00 && r.dhtAc.s1.sym.contains 0x00
    && r.dhtAc.s0.sym.contains 0xF0 && r.dhtAc.s1.sym.contains 0xF0

namespace Config

/-! The candidate ROM of 93_implementation_defined.md section G2: PRESUMED (general knowledge, not in the source).
It is the value of `State.reset`'s ROM and of the tests, and no statement rests on it. -/

/-- `QSEED[0]` of the candidate (luma). -/
def candSeedLuma : List Byte :=
  [16, 11, 12, 14, 12, 10, 16, 14, 13, 14, 18, 17, 16, 19, 24, 40]
  ++ [26, 24, 22, 22, 24, 49, 35, 37, 29, 40, 58, 51, 61, 60, 57, 51]
  ++ [56, 55, 64, 72, 92, 78, 64, 68, 87, 69, 55, 56, 80, 109, 81, 87]
  ++ [95, 98, 103, 104, 103, 62, 77, 113, 121, 112, 100, 120, 92, 101, 103, 99]

/-- `QSEED[1]` of the candidate (chroma). -/
def candSeedChroma : List Byte :=
  [17, 18, 18, 24, 21, 24, 47, 26, 26, 47, 99, 66, 56, 66, 99, 99] ++ List.replicate 48 99

/-- `DHT_DST[0][0]` of the candidate (DC, luma). -/
def candDcLuma : HuffTable :=
  { count := [0, 1, 5, 1, 1, 1, 1, 1, 1, 0, 0, 0, 0, 0, 0, 0]
    nsym := 12
    sym := [0, 1, 2, 3, 4, 5, 6, 7, 8, 9, 10, 11] }

/-- `DHT_DST[0][1]` of the candidate (DC, chroma). -/
def candDcChroma : HuffTable :=
  { count := [0, 3, 1, 1, 1, 1, 1, 1, 1, 1, 1, 0, 0, 0, 0, 0]
    nsym := 12
    sym := [0, 1, 2, 3, 4, 5, 6, 7, 8, 9, 10, 11] }

/-- The symbols of `DHT_DST[1][0]` of the candidate. -/
def candAcLumaSym : List Byte :=
  [0x01, 0x02, 0x03, 0x00, 0x04, 0x11, 0x05, 0x12, 0x21, 0x31, 0x41, 0x06, 0x13, 0x51, 0x61, 0x07, 0x22, 0x71, 0x14, 0x32, 0x81, 0x91, 0xA1, 0x08, 0x23, 0x42, 0xB1, 0xC1, 0x15, 0x52, 0xD1, 0xF0]
  ++ [0x24, 0x33, 0x62, 0x72, 0x82, 0x09, 0x0A, 0x16, 0x17, 0x18, 0x19, 0x1A, 0x25, 0x26, 0x27, 0x28, 0x29, 0x2A, 0x34, 0x35, 0x36, 0x37, 0x38, 0x39, 0x3A, 0x43, 0x44, 0x45, 0x46, 0x47, 0x48, 0x49]
  ++ [0x4A, 0x53, 0x54, 0x55, 0x56, 0x57, 0x58, 0x59, 0x5A, 0x63, 0x64, 0x65, 0x66, 0x67, 0x68, 0x69, 0x6A, 0x73, 0x74, 0x75, 0x76, 0x77, 0x78, 0x79, 0x7A, 0x83, 0x84, 0x85, 0x86, 0x87, 0x88, 0x89]
  ++ [0x8A, 0x92, 0x93, 0x94, 0x95, 0x96, 0x97, 0x98, 0x99, 0x9A, 0xA2, 0xA3, 0xA4, 0xA5, 0xA6, 0xA7, 0xA8, 0xA9, 0xAA, 0xB2, 0xB3, 0xB4, 0xB5, 0xB6, 0xB7, 0xB8, 0xB9, 0xBA, 0xC2, 0xC3, 0xC4, 0xC5]
  ++ [0xC6, 0xC7, 0xC8, 0xC9, 0xCA, 0xD2, 0xD3, 0xD4, 0xD5, 0xD6, 0xD7, 0xD8, 0xD9, 0xDA, 0xE1, 0xE2, 0xE3, 0xE4, 0xE5, 0xE6, 0xE7, 0xE8, 0xE9, 0xEA, 0xF1, 0xF2, 0xF3, 0xF4, 0xF5, 0xF6, 0xF7, 0xF8]
  ++ [0xF9, 0xFA]

/-- The symbols of `DHT_DST[1][1]` of the candidate. -/
def candAcChromaSym : List Byte :=
  [0x00, 0x01, 0x02, 0x03, 0x11, 0x04, 0x05, 0x21, 0x31, 0x06, 0x12, 0x41, 0x51, 0x07, 0x61, 0x71, 0x13, 0x22, 0x32, 0x81, 0x08, 0x14, 0x42, 0x91, 0xA1, 0xB1, 0xC1, 0x09, 0x23, 0x33, 0x52, 0xF0]
  ++ [0x15, 0x62, 0x72, 0xD1, 0x0A, 0x16, 0x24, 0x34, 0xE1, 0x25, 0xF1, 0x17, 0x18, 0x19, 0x1A, 0x26, 0x27, 0x28, 0x29, 0x2A, 0x35, 0x36, 0x37, 0x38, 0x39, 0x3A, 0x43, 0x44, 0x45, 0x46, 0x47, 0x48]
  ++ [0x49, 0x4A, 0x53, 0x54, 0x55, 0x56, 0x57, 0x58, 0x59, 0x5A, 0x63, 0x64, 0x65, 0x66, 0x67, 0x68, 0x69, 0x6A, 0x73, 0x74, 0x75, 0x76, 0x77, 0x78, 0x79, 0x7A, 0x82, 0x83, 0x84, 0x85, 0x86, 0x87]
  ++ [0x88, 0x89, 0x8A, 0x92, 0x93, 0x94, 0x95, 0x96, 0x97, 0x98, 0x99, 0x9A, 0xA2, 0xA3, 0xA4, 0xA5, 0xA6, 0xA7, 0xA8, 0xA9, 0xAA, 0xB2, 0xB3, 0xB4, 0xB5, 0xB6, 0xB7, 0xB8, 0xB9, 0xBA, 0xC2, 0xC3]
  ++ [0xC4, 0xC5, 0xC6, 0xC7, 0xC8, 0xC9, 0xCA, 0xD2, 0xD3, 0xD4, 0xD5, 0xD6, 0xD7, 0xD8, 0xD9, 0xDA, 0xE2, 0xE3, 0xE4, 0xE5, 0xE6, 0xE7, 0xE8, 0xE9, 0xEA, 0xF2, 0xF3, 0xF4, 0xF5, 0xF6, 0xF7, 0xF8]
  ++ [0xF9, 0xFA]

/-- `DHT_DST[1][0]` of the candidate (AC, luma). -/
def candAcLuma : HuffTable :=
  { count := [0, 2, 1, 3, 3, 2, 4, 3, 5, 5, 4, 4, 0, 0, 1, 125], nsym := 162, sym := candAcLumaSym }

/-- `DHT_DST[1][1]` of the candidate (AC, chroma). -/
def candAcChroma : HuffTable :=
  { count := [0, 2, 1, 2, 4, 4, 3, 4, 7, 5, 4, 4, 0, 1, 2, 119], nsym := 162, sym := candAcChromaSym }

/-- The candidate ROM (93_implementation_defined.md G2; `SYNC_BYTE` and `MODE_BYTE` of 30_encoding.md R113). -/
def candidateRom : Rom :=
  { qseed := { s0 := candSeedLuma, s1 := candSeedChroma }
    qscaleNum := [5000, 357, 172, 116, 100, 58, 28, 0]
    qscaleDen := 100
    dhtDc := { s0 := candDcLuma, s1 := candDcChroma }
    dhtAc := { s0 := candAcLuma, s1 := candAcChroma }
    syncByte := 0x55
    modeByte := 0x67 }

end Config

end Sys2Proof
end

