-- ==== Sys2Proof/Machine/Flags.lean ====
section
/-! DEFINITION. The flags byte of a packet (30_encoding.md R114, 45_packet.md R245). The block has no arithmetic
condition codes (10_state.md R57), so there is no other flag computation. -/

namespace Sys2Proof.Machine

/-- The quality field: `(QUALITY − 4) mod 8`, a wrapping 3-bit subtraction (45_packet.md R245). -/
def qualityField (quality : BitVec 3) : BitVec 3 := quality - 4

/-- The flags byte: bits 7:6 zero, 5:3 the quality field, 2 the end-of-image flag, 1:0 the subsampling mode
(30_encoding.md R114). -/
def flagsByte (quality : BitVec 3) (eoi : Bool) (mode : BitVec 2) : Byte :=
  0#2 ++ qualityField quality ++ BitVec.ofBool eoi ++ mode

end Sys2Proof.Machine
end

