-- ==== Sys2Proof/Machine/Operands.lean ====
section
/-! DEFINITION. The operand forms of entropy-coded data: value fields (30_encoding.md R105, R106) and canonical Huffman
codes, decoded against a source table (41_entropy_decode.md R154) and encoded against a destination table
(43_entropy_encode.md R187). -/

namespace Sys2Proof.Machine

/-- `bitlen(n)`, the smallest `k` with `n < 2^k` (00_scope.md R13). -/
def bitlen (n : Nat) : Nat := if n = 0 then 0 else n.log2 + 1

/-- `vdecode(f, n)`: a field of `n` bits whose top bit is 1 is its own value, otherwise the negative of its complement
(30_encoding.md R106). -/
def vdecode (f n : Nat) : Int := if f.testBit (n - 1) then (f : Int) else -((f ^^^ (2 ^ n - 1) : Nat) : Int)

/-- `vencode(v)`: the field bits and the size (30_encoding.md R106; 43_entropy_encode.md R185). -/
def vencode (v : Int) : Nat × Nat :=
  if 0 ≤ v then (v.natAbs, bitlen v.natAbs)
  else (v.natAbs ^^^ (2 ^ bitlen v.natAbs - 1), bitlen v.natAbs)

/-- The `n` oldest bits of a window of `len` bits held in `bits`: `bits[len−1 : len−n]` (10_state.md R55). -/
def oldest (bits len n : Nat) : Nat := bits / 2 ^ (len - n) % 2 ^ n

/-- The answer of a Huffman lookup. -/
inductive Lookup where
  /-- A code of `w` bits matches; it stands for `sym`. -/
  | found (sym : Byte) (w : Nat)
  /-- The walk reached a length longer than the window (41_entropy_decode.md R162). -/
  | needInput
  /-- No code of 1 to 16 bits matches (41_entropy_decode.md R163). -/
  | noMatch
  /-- A code matches at a position past the table's symbols: not in a table the parser stored. -/
  | noEntry
  deriving DecidableEq, Repr

/-- The canonical walk from length `L` on: `code` is the first code of that length and `syms` the symbols from it on. A
window equals one of the length's codes exactly when it lies in the run of `count` codes that starts at `code`
(41_entropy_decode.md R154). -/
def huffWalk (ibits ilen : Nat) : List Byte → Nat → Nat → List Byte → Lookup
  | [], _, _, _ => .noMatch
  | c :: cs, L, code, syms =>
    if ilen < L then .needInput
    else if code ≤ oldest ibits ilen L ∧ oldest ibits ilen L < code + c.toNat then
      match syms[oldest ibits ilen L - code]? with
      | some sym => .found sym L
      | none => .noEntry
    else huffWalk ibits ilen cs (L + 1) ((code + c.toNat) * 2) (syms.drop c.toNat)

/-- `HuffLookup(T)` on the window `ibits`, `ilen` (41_entropy_decode.md R154). -/
def huffLookup (t : HuffTable) (ibits ilen : Nat) : Lookup := huffWalk ibits ilen t.count 1 0 t.sym

/-- The search for `sym` from length `L` on, in the order of increasing code; the first occurrence wins
(43_entropy_encode.md R187). -/
def huffFind (sym : Byte) : List Byte → Nat → Nat → List Byte → Option (Nat × Nat)
  | [], _, _, _ => none
  | c :: cs, L, code, syms =>
    match (syms.take c.toNat).findIdx? (· == sym) with
    | some i => some (code + i, L)
    | none => huffFind sym cs (L + 1) ((code + c.toNat) * 2) (syms.drop c.toNat)

/-- `HuffEncode(T, sym)`: the code and its width, or `none` for ABSENT (43_entropy_encode.md R187). -/
def huffEncode (t : HuffTable) (sym : Byte) : Option (Nat × Nat) := huffFind sym t.count 1 0 t.sym

end Sys2Proof.Machine
end

