-- ==== Sys2Proof/Syntax.lean ====
section
/-! DEFINITION. The instructions: one constructor for each row of spec/opcode_table.json (00_scope.md R18: an
instruction is one marker with its segment, one decoded symbol, one value field, one stuffed byte or one host
command). Segments carry the length field as it stands in the stream and their payload `d` (30_encoding.md R91). -/

namespace Sys2Proof

/-- The instructions of the block, in the order of the opcode table. -/
inductive Instr where
  /-- `TEM` 0xFF01, the reserved standalone marker (40_segment_parser.md R127). -/
  | tem
  /-- `SOI` 0xFFD8, start of image (R127). -/
  | soi
  /-- `RSTn` 0xFFD0..0xFFD7, restart marker number `n` (R124). -/
  | rst (n : BitVec 3)
  /-- `EOI` 0xFFD9, end of image (R125). -/
  | eoi
  /-- `SOF0` 0xFFC0, frame header (R128). -/
  | sof0 (len : Half) (d : List Byte)
  /-- `SOF2` 0xFFC2, progressive frame header (R123). -/
  | sof2
  /-- `DHT` 0xFFC4, Huffman-table definitions (R138). -/
  | dht (len : Half) (d : List Byte)
  /-- `SOS` 0xFFDA, scan header (R134). -/
  | sos (len : Half) (d : List Byte)
  /-- `DQT` 0xFFDB, coefficient-table definitions (R137). -/
  | dqt (len : Half) (d : List Byte)
  /-- `DRI` 0xFFDD, restart-interval definition (R139). -/
  | dri (len : Half) (d : List Byte)
  /-- `SKIP` 0xFFC1 (R126). -/
  | skipC1 (len : Half)
  /-- `SKIP` 0xFFC3 (R126). -/
  | skipC3 (len : Half)
  /-- `SKIP` 0xFFC5 (R126). -/
  | skipC5 (len : Half)
  /-- `SKIP` 0xFFC6 to 0xFFC7 (R126). -/
  | skipC6 (n : BitVec 1) (len : Half)
  /-- `SKIP` 0xFFC8 to 0xFFCF (R126). -/
  | skipC8 (n : BitVec 3) (len : Half)
  /-- `SKIP` 0xFFDC (R126). -/
  | skipDC (len : Half)
  /-- `SKIP` 0xFFDE to 0xFFDF (R126). -/
  | skipDE (n : BitVec 1) (len : Half)
  /-- `SKIP` 0xFFE0 to 0xFFEF (R126). -/
  | skipE0 (n : BitVec 4) (len : Half)
  /-- `SKIP` 0xFFF0 to 0xFFF7 (R126). -/
  | skipF0 (n : BitVec 3) (len : Half)
  /-- `SKIP` 0xFFF8 to 0xFFFB (R126). -/
  | skipF8 (n : BitVec 2) (len : Half)
  /-- `SKIP` 0xFFFC to 0xFFFD (R126). -/
  | skipFC (n : BitVec 1) (len : Half)
  /-- `SKIP` 0xFFFE (R126). -/
  | skipFE (len : Half)
  /-- `NONMARKER`: the window `w` is no marker (R140). -/
  | nonmarker (w : Half)
  /-- `DC.s`: a DC symbol, its ignored high nibble and its size (41_entropy_decode.md R156). -/
  | dc (hi size : BitVec 4)
  /-- `EOB`: the AC symbol 0x00 (R157). -/
  | eob
  /-- `ZRL`: the AC symbol 0xF0 (R158). -/
  | zrl
  /-- `AC.reserved`: an AC symbol of size 0 and run 1 to 14 (R160). -/
  | acReserved (run : BitVec 4)
  /-- `AC.r.s`: an AC symbol of size 1 to 15 (R159). -/
  | ac (run size : BitVec 4)
  /-- `V`: a value field of `n` bits holding `f` (R161). -/
  | v (n : BitVec 4) (f : BitVec 15)
  /-- `STUFF`: the byte pulled after a data byte 0xFF (R151). -/
  | stuff (b : Byte)
  /-- `CONSTRUCT`, the reset and configuration command (45_packet.md R230). -/
  | construct (callsign : Callsign) (imageId : Byte) (quality : BitVec 3) (source : List Byte)
  /-- `NEXT_PACKET`, the command that runs the block until one packet is ready (45_packet.md R235). -/
  | nextPacket
  deriving DecidableEq, Repr

end Sys2Proof
end

