-- ==== Sys2Proof/WellFormed.lean ====
section
/-! DEFINITION. Which terms of `Instr` are instructions of the stream: the checks on fields that the constructors'
types leave open. -/

namespace Sys2Proof

/-- The class (c) codes, the marker codes skipped unread (30_encoding.md R88). -/
def isSkipCode (w : Half) : Bool :=
  w == 0xFFC1 || w == 0xFFC3 || w == 0xFFC5 || w &&& 0xFFFE == 0xFFC6 || w &&& 0xFFF8 == 0xFFC8 || w == 0xFFDC
    || w &&& 0xFFFE == 0xFFDE || w &&& 0xFFF0 == 0xFFE0 || w &&& 0xFFF8 == 0xFFF0 || w &&& 0xFFFC == 0xFFF8
    || w &&& 0xFFFE == 0xFFFC || w == 0xFFFE

/-- The class (b) codes: the five buffered segments (30_encoding.md R87; 40_segment_parser.md R121). -/
def isBufferedCode (w : Half) : Bool :=
  w == 0xFFC0 || w == 0xFFC4 || w == 0xFFDA || w == 0xFFDB || w == 0xFFDD

/-- A marker followed by a length field: class (b) or (c) (40_segment_parser.md R120). -/
def hasLengthField (w : Half) : Bool := isBufferedCode w || isSkipCode w

/-- A window that is a marker: a row of 30_encoding.md R87 or R88. -/
def isMarker (w : Half) : Bool :=
  w == 0xFF01 || w == 0xFFD8 || w &&& 0xFFF8 == 0xFFD0 || w == 0xFFD9 || w == 0xFFC2 || hasLengthField w

/-- A buffered segment's payload has `L − 2` bytes; a length below 2 has none (30_encoding.md R91). -/
def segmentFits (len : Half) (d : List Byte) : Bool := d.length == len.toNat - 2

/-- The well-formed instructions: a payload of the declared length, a window that is no marker, a reserved AC symbol
of run 1 to 14, an AC symbol with a value field, a value field that fits its width. -/
def wellFormed : Instr → Bool
  | .tem => true
  | .soi => true
  | .rst _ => true
  | .eoi => true
  | .sof0 len d => segmentFits len d
  | .sof2 => true
  | .dht len d => segmentFits len d
  | .sos len d => segmentFits len d
  | .dqt len d => segmentFits len d
  | .dri len d => segmentFits len d
  | .skipC1 _ => true
  | .skipC3 _ => true
  | .skipC5 _ => true
  | .skipC6 _ _ => true
  | .skipC8 _ _ => true
  | .skipDC _ => true
  | .skipDE _ _ => true
  | .skipE0 _ _ => true
  | .skipF0 _ _ => true
  | .skipF8 _ _ => true
  | .skipFC _ _ => true
  | .skipFE _ => true
  | .nonmarker w => !isMarker w
  | .dc _ _ => true
  | .eob => true
  | .zrl => true
  | .acReserved run => run != 0 && run != 15
  | .ac _ size => size != 0
  | .v n f => n != 0 && decide (f.toNat < 2 ^ n.toNat)
  | .stuff _ => true
  | .construct _ _ _ _ => true
  | .nextPacket => true

end Sys2Proof
end

