-- ==== Sys2Proof/Decode.lean ====
section
/-! DEFINITION. The decoder, total on any input and rejecting by name, and the encoder. The block decodes five forms of
input and one form of command (30_encoding.md R85), told apart by the state of the machine and not by a prefix (R86);
`Code` names the form, `decode` reads it and `encode` writes it. -/

namespace Sys2Proof

/-- What the host may ask of the block (30_encoding.md R109; 60_exceptions.md R279). -/
inductive Command where
  /-- `CONSTRUCT(callsign, image_id, quality, source)` (45_packet.md R230). -/
  | construct (callsign : Callsign) (imageId : Byte) (quality : BitVec 3) (source : List Byte)
  /-- `NEXT_PACKET()` (45_packet.md R235). -/
  | nextPacket
  deriving DecidableEq, Repr

/-- One coded instruction, with the form in which the block meets it (30_encoding.md R85). -/
inductive Code where
  /-- Forms M and S: source bytes from the marker's first byte on, read in state `MARKER`. -/
  | bytes (l : List Byte)
  /-- Form H: the 8-bit symbol a Huffman code stands for; class DC when `K` = 0, else AC. -/
  | symbol (isDc : Bool) (sym : Byte)
  /-- Form V: the next `n` bits of the window. -/
  | field (n : BitVec 4) (f : BitVec 15)
  /-- Form B: the byte after a data byte 0xFF. -/
  | stuffed (b : Byte)
  /-- Form C: a host command, not a bit pattern. -/
  | command (c : Command)
  deriving DecidableEq, Repr

/-- Why a coded instruction is rejected. -/
inductive DecodeError where
  /-- The bytes end before the marker, the length field or the payload does. -/
  | truncated
  /-- Bytes are left over after one whole instruction. -/
  | trailing
  /-- A value field of no bits: a symbol of size 0 has none (30_encoding.md R105). -/
  | emptyField
  /-- A value field with a bit beyond its width. -/
  | wideField
  deriving DecidableEq, Repr

/-- The high nibble of a symbol or tag byte, bits 7:4. -/
def hiNibble (b : Byte) : BitVec 4 := b.extractLsb' 4 4

/-- The low nibble of a symbol or tag byte, bits 3:0. -/
def loNibble (b : Byte) : BitVec 4 := b.extractLsb' 0 4

/-- The instruction of the marker window `w`, with the length field `len` and the payload `d` where the marker has them
(30_encoding.md R87 to R89; the marker rows of the opcode table are disjoint, R117). -/
def markerInstr (w len : Half) (d : List Byte) : Instr :=
  if w == 0xFF01 then .tem
  else if w == 0xFFD8 then .soi
  else if w &&& 0xFFF8 == 0xFFD0 then .rst (w.extractLsb' 0 3)
  else if w == 0xFFD9 then .eoi
  else if w == 0xFFC0 then .sof0 len d
  else if w == 0xFFC2 then .sof2
  else if w == 0xFFC4 then .dht len d
  else if w == 0xFFDA then .sos len d
  else if w == 0xFFDB then .dqt len d
  else if w == 0xFFDD then .dri len d
  else if w == 0xFFC1 then .skipC1 len
  else if w == 0xFFC3 then .skipC3 len
  else if w == 0xFFC5 then .skipC5 len
  else if w &&& 0xFFFE == 0xFFC6 then .skipC6 (w.extractLsb' 0 1) len
  else if w &&& 0xFFF8 == 0xFFC8 then .skipC8 (w.extractLsb' 0 3) len
  else if w == 0xFFDC then .skipDC len
  else if w &&& 0xFFFE == 0xFFDE then .skipDE (w.extractLsb' 0 1) len
  else if w &&& 0xFFF0 == 0xFFE0 then .skipE0 (w.extractLsb' 0 4) len
  else if w &&& 0xFFF8 == 0xFFF0 then .skipF0 (w.extractLsb' 0 3) len
  else if w &&& 0xFFFC == 0xFFF8 then .skipF8 (w.extractLsb' 0 2) len
  else if w &&& 0xFFFE == 0xFFFC then .skipFC (w.extractLsb' 0 1) len
  else if w == 0xFFFE then .skipFE len
  else .nonmarker w

/-- Decode one instruction from source bytes in state `MARKER`: two bytes of window, then for a class (b) or (c) marker
two bytes of length, then for a class (b) marker the payload (30_encoding.md R91; a skipped payload is not read,
R126). The rest of the bytes comes back with it; a window that is no marker slides by one byte only, so that its second
byte is the first of the rest (R89). -/
def decodeBytes : List Byte → Except DecodeError (Instr × List Byte)
  | h :: l :: rest =>
    if hasLengthField (h ++ l) then
      match rest with
      | lh :: ll :: rest' =>
        if isBufferedCode (h ++ l) then
          if rest'.length < (lh ++ ll : Half).toNat - 2 then .error .truncated
          else .ok (markerInstr (h ++ l) (lh ++ ll) (rest'.take ((lh ++ ll : Half).toNat - 2)),
                rest'.drop ((lh ++ ll : Half).toNat - 2))
        else .ok (markerInstr (h ++ l) (lh ++ ll) [], rest')
      | _ => .error .truncated
    else if isMarker (h ++ l) then .ok (markerInstr (h ++ l) 0 [], rest)
    else .ok (.nonmarker (h ++ l), l :: rest)
  | _ => .error .truncated

/-- Decode a symbol: a DC symbol splits into its ignored nibble and its size (30_encoding.md R101); the AC rows are
tried in the table's order (R102, R117). -/
def decodeSymbol (isDc : Bool) (sym : Byte) : Instr :=
  if isDc then .dc (hiNibble sym) (loNibble sym)
  else if sym == 0x00 then .eob
  else if sym == 0xF0 then .zrl
  else if loNibble sym == 0 then .acReserved (hiNibble sym)
  else .ac (hiNibble sym) (loNibble sym)

/-- The instruction a host command is. -/
def decodeCommand : Command → Instr
  | .construct callsign imageId quality source => .construct callsign imageId quality source
  | .nextPacket => .nextPacket

/-- Decode one whole coded instruction. -/
def decode : Code → Except DecodeError Instr
  | .bytes l =>
    match decodeBytes l with
    | .ok (i, []) => .ok i
    | .ok (.nonmarker w, [_]) => .ok (.nonmarker w)
    | .ok (_, _ :: _) => .error .trailing
    | .error e => .error e
  | .symbol isDc sym => .ok (decodeSymbol isDc sym)
  | .field n f =>
    if n == 0 then .error .emptyField
    else if f.toNat < 2 ^ n.toNat then .ok (.v n f)
    else .error .wideField
  | .stuffed b => .ok (.stuff b)
  | .command c => .ok (decodeCommand c)

/-- A 16-bit field as its two bytes, most significant first (20_memory.md R64). -/
def halfBytes (w : Half) : List Byte := [w.extractLsb' 8 8, w.extractLsb' 0 8]

/-- A marker with its length field and payload (30_encoding.md R91). -/
def segmentBytes (w len : Half) (d : List Byte) : List Byte := halfBytes w ++ halfBytes len ++ d

/-- The coded form of an instruction, from the encoding tables of 30_encoding.md R87, R88, R91, R101, R102, R106. -/
def encode : Instr → Code
  | .tem => .bytes (halfBytes 0xFF01)
  | .soi => .bytes (halfBytes 0xFFD8)
  | .rst n => .bytes (halfBytes (0x1FFA#13 ++ n))
  | .eoi => .bytes (halfBytes 0xFFD9)
  | .sof0 len d => .bytes (segmentBytes 0xFFC0 len d)
  | .sof2 => .bytes (halfBytes 0xFFC2)
  | .dht len d => .bytes (segmentBytes 0xFFC4 len d)
  | .sos len d => .bytes (segmentBytes 0xFFDA len d)
  | .dqt len d => .bytes (segmentBytes 0xFFDB len d)
  | .dri len d => .bytes (segmentBytes 0xFFDD len d)
  | .skipC1 len => .bytes (segmentBytes 0xFFC1 len [])
  | .skipC3 len => .bytes (segmentBytes 0xFFC3 len [])
  | .skipC5 len => .bytes (segmentBytes 0xFFC5 len [])
  | .skipC6 n len => .bytes (segmentBytes (0x7FE3#15 ++ n) len [])
  | .skipC8 n len => .bytes (segmentBytes (0x1FF9#13 ++ n) len [])
  | .skipDC len => .bytes (segmentBytes 0xFFDC len [])
  | .skipDE n len => .bytes (segmentBytes (0x7FEF#15 ++ n) len [])
  | .skipE0 n len => .bytes (segmentBytes (0xFFE#12 ++ n) len [])
  | .skipF0 n len => .bytes (segmentBytes (0x1FFE#13 ++ n) len [])
  | .skipF8 n len => .bytes (segmentBytes (0x3FFE#14 ++ n) len [])
  | .skipFC n len => .bytes (segmentBytes (0x7FFE#15 ++ n) len [])
  | .skipFE len => .bytes (segmentBytes 0xFFFE len [])
  | .nonmarker w => .bytes (halfBytes w)
  | .dc hi size => .symbol true (hi ++ size)
  | .eob => .symbol false 0x00
  | .zrl => .symbol false 0xF0
  | .acReserved run => .symbol false (run ++ 0#4)
  | .ac run size => .symbol false (run ++ size)
  | .v n f => .field n f
  | .stuff b => .stuffed b
  | .construct callsign imageId quality source => .command (.construct callsign imageId quality source)
  | .nextPacket => .command .nextPacket

/-- Byte `i` of an instruction whose bits are `w` as the opcode table numbers them: 16-bit words from bit 0 up, each
word stored most significant byte first (20_memory.md R64). -/
def tableByte (w i : Nat) : Byte := BitVec.ofNat 8 (w / 2 ^ (16 * (i / 2) + (if i % 2 == 0 then 8 else 0)))

/-- The source bytes of the instruction whose bits are `w`: its window, its length field where it has one, the payload
that the length declares where it is buffered. -/
def tableBytes (w : Nat) : List Byte :=
  let window : Half := tableByte w 0 ++ tableByte w 1
  let len : Half := tableByte w 2 ++ tableByte w 3
  if isBufferedCode window then (List.range (4 + (len.toNat - 2))).map (tableByte w)
  else if isSkipCode window then (List.range 4).map (tableByte w)
  else (List.range 2).map (tableByte w)

/-- The instruction the decoder reads from a row of the opcode table: a row of 8 bits is a decoded symbol, read as an AC
symbol (the DC row fixes no bit, and the stuffed byte's row has the bits of `EOB`: notes/assumptions/11.md); a longer
row is source bytes. -/
def decodeTableWord (nbits w : Nat) : Option Instr :=
  if nbits ≤ 8 then some (decodeSymbol false (BitVec.ofNat 8 (w % 2 ^ nbits)))
  else
    match decodeBytes (tableBytes (w % 2 ^ nbits)) with
    | .ok (i, _) => some i
    | .error _ => none

end Sys2Proof
end

