-- ==== Sys2Proof/Machine/Arith.lean ====
section
/-! DEFINITION. The pure arithmetic of the block: the rounding division and the destination tables (42_rescale.md), the
station identifier, the padding recurrence and the checksum (45_packet.md). Integers are exact and narrowed where a
rule names a width (00_scope.md R13). -/

namespace Sys2Proof.Machine

/-- `rdiv(n, d)`, round-half-away-from-zero division: `sign(n)·floor((2·|n| + d) / (2·d))` (42_rescale.md R170). -/
def rdiv (n : Int) (d : Nat) : Int := n.sign * ((2 * n.natAbs + d) / (2 * d) : Nat)

/-- One destination step: a seed step scaled by `num/den` with rounding division and clamped to [1, 255]
(42_rescale.md R180). -/
def scaleStep (num den : Nat) (seed : Byte) : Byte :=
  BitVec.ofNat 8
    (min Config.clampHi (max Config.clampLo ((2 * seed.toNat * num + den) / (2 * den))))

/-- A destination coefficient table: a seed table scaled (42_rescale.md R180). -/
def scaleTable (num den : Nat) (seed : List Byte) : List Byte := seed.map (scaleStep num den)

/-- `DQT_DST` for a quality level (42_rescale.md R180). -/
def destinationSteps (rom : Rom) (quality : BitVec 3) : Pair (List Byte) :=
  { s0 := scaleTable (rom.qscaleNum.getD quality.toNat 0) rom.qscaleDen rom.qseed.s0
    s1 := scaleTable (rom.qscaleNum.getD quality.toNat 0) rom.qscaleDen rom.qseed.s1 }

/-- `digit40(ch)`: the base-40 digit of a character cell (45_packet.md R232; ASCII, 30_encoding.md R110). -/
def digit40 (ch : Byte) : Nat :=
  if 0x31 ≤ ch.toNat ∧ ch.toNat ≤ 0x39 then ch.toNat - 0x30
  else if 0x41 ≤ ch.toNat ∧ ch.toNat ≤ 0x5A then ch.toNat - 0x41 + 14
  else if 0x61 ≤ ch.toNat ∧ ch.toNat ≤ 0x7A then ch.toNat - 0x61 + 14
  else 0

/-- The six cells of a station identifier, first character first. -/
def callsignCells (c : Callsign) : List Byte := [c.c0, c.c1, c.c2, c.c3, c.c4, c.c5]

/-- The base-40 value of the cells, the first character the least significant digit (45_packet.md R232). -/
def callsignValue (cells : List Byte) : Nat := cells.foldr (fun ch x => x * Config.csBase + digit40 ch) 0

/-- `CallsignEncode(c[0..5])` (45_packet.md R232). -/
def callsignEncode (c : Callsign) : BitVec 32 := BitVec.ofNat 32 (callsignValue (callsignCells c))

/-- One step of the padding recurrence `x·LCG_MUL + LCG_INC mod 256` (45_packet.md R250). -/
def lcgNext (x : Byte) : Byte := x * Config.lcgMul + Config.lcgInc

/-- The next `n` padding bytes after `x` (45_packet.md R250: the first padding byte is the successor of the seed). -/
def padFrom (x : Byte) : Nat → List Byte
  | 0 => []
  | n + 1 => lcgNext x :: padFrom (lcgNext x) n

/-- One bit of the checksum: shift right, and the polynomial where a one-bit leaves (45_packet.md R252). -/
def crcBit (c : BitVec 32) : BitVec 32 :=
  if c.getLsbD 0 then (c >>> 1) ^^^ Config.crcPoly else c >>> 1

/-- `n` bits of the checksum. -/
def crcBits : Nat → BitVec 32 → BitVec 32
  | 0, c => c
  | n + 1, c => crcBits n (crcBit c)

/-- One byte of the checksum, taken into the low 8 bits (45_packet.md R252). -/
def crcByte (c : BitVec 32) (b : Byte) : BitVec 32 := crcBits 8 (c ^^^ b.setWidth 32)

/-- `CRC32(bytes)` (45_packet.md R252). -/
def crc32 (bytes : List Byte) : BitVec 32 := bytes.foldl crcByte Config.crcInit ^^^ Config.crcXorOut

/-- The four bytes of a 32-bit field, most significant first (20_memory.md R64). -/
def wordBytes (w : BitVec 32) : List Byte :=
  [w.extractLsb' 24 8, w.extractLsb' 16 8, w.extractLsb' 8 8, w.extractLsb' 0 8]

end Sys2Proof.Machine
end

