-- ==== Sys2Proof/Machine/State.lean ====
section
/-! DEFINITION. The state of one instance of the block, all of 10_state.md R20, with the read-only source and the ROM,
and the model's own fields for the host's side (the commands it will issue, whether one is in progress, the last
result). The state after reset. The reasons a step can stop. -/

namespace Sys2Proof.Machine

/-- `PSTATE`: which decoder interprets the next byte or bit (10_state.md R23). -/
inductive PState where
  /-- Looking for a two-byte marker. -/
  | marker
  /-- Reading the two length bytes of a segment. -/
  | len
  /-- Buffering the payload of a segmented marker. -/
  | data
  /-- Entropy mode, expecting a Huffman code. -/
  | huff
  /-- Entropy mode, expecting a value field of `NEEDBITS` bits. -/
  | int
  /-- All coding units done; only packets remain to be emitted. -/
  | finish
  deriving DecidableEq, Repr

/-- The twenty reasons of a fatal condition (60_exceptions.md R266). -/
inductive Reason where
  /-- 1: marker 0xFFC2 recognised. -/
  | progressive
  /-- 2: frame header precision not 8. -/
  | precision
  /-- 3: component count not 1 or 3, or the scan's not the frame's. -/
  | components
  /-- 4: a dimension 0, above 4080 or not a multiple of 16. -/
  | resolution
  /-- 5: a sampling byte that is not supported. -/
  | subsampling
  /-- 6: more than 65535 coding units. -/
  | blocks
  /-- 7: a scan header names a table that is undefined. -/
  | missingTable
  /-- 8: a table definition that does not fit its payload. -/
  | tableLength
  /-- 9: no code of 1 to 16 bits matches. -/
  | corrupt
  /-- 10: the source is exhausted, or an end-of-image marker met by the parser. -/
  | truncated
  /-- 11: a segment length below 2, or a payload shorter than its fields. -/
  | segmentLength
  /-- 12: a second frame or scan header, a restart marker before a scan. -/
  | sequence
  /-- 13: a table definition's tag. -/
  | tableTag
  /-- 14: a value or symbol that cannot be written. -/
  | encodeRange
  /-- 15: a scan header before any frame header. -/
  | noFrame
  /-- 16: an AC run that would pass coefficient 63. -/
  | coefOverrun
  /-- 17: an AC symbol of size 0 and run 1 to 14. -/
  | reservedSymbol
  /-- 18: the byte after an entropy-data byte 0xFF is not 0x00. -/
  | stuffing
  /-- 19: `DCRAW` would leave the signed 32-bit range. -/
  | arithOverflow
  /-- 20: a 65537th packet would be built. -/
  | seqOverflow
  deriving DecidableEq, Repr

/-- What `NEXT_PACKET` returns to the host (00_scope.md R17; 45_packet.md R235). -/
inductive Reply where
  /-- `PACKET`: one packet of 256 bytes. -/
  | packet (bytes : List Byte)
  /-- `END`: the end-of-image packet has been emitted before. -/
  | done
  /-- `FATAL(code)`. -/
  | fatal (code : BitVec 5)
  deriving DecidableEq, Repr

/-- A byte-addressed space in canonical form: addresses strictly rising, no entry equal to what an unlisted address
reads as (notes/assumptions/6.md). -/
abbrev Memory := List Host.Cell

/-- A coefficient-table slot `SQT[t]`: its valid bit and 64 steps (10_state.md R42). -/
structure StepSlot where
  /-- `SQT[t].V`. -/
  valid : Bool
  /-- `SQT[t][0..63]`. -/
  steps : List Byte
  deriving DecidableEq, Repr

/-- A Huffman-table slot `SHT[cls][idx]`: its valid bit and the table (10_state.md R43). -/
structure HuffSlot where
  /-- `SHT[cls][idx].V`. -/
  valid : Bool
  /-- `count[1..16]`, `nsym`, `sym`. -/
  table : HuffTable
  deriving DecidableEq, Repr

/-- The whole state (10_state.md R20). -/
structure State where
  /-- `SRC`: the source byte sequence (20_memory.md R61). -/
  src : Memory
  /-- `SRC_LEN`: its length in bytes (20_memory.md R60). -/
  srcLen : Nat
  /-- `ROM`: the constant tables (20_memory.md R67). -/
  rom : Rom
  /-- `SRC_POS`: source bytes consumed (10_state.md R22). -/
  srcPos : Nat
  /-- `PSTATE` (R23). -/
  pstate : PState
  /-- `MK`, 16 bits: the last two bytes seen in state `MARKER` (R24). -/
  mkReg : Half
  /-- `SEG_LEN`, 16 bits (R25). -/
  segLen : Half
  /-- `LEN_CNT`, 2 bits: length bytes still to read (R25). -/
  lenCnt : Nat
  /-- `SEGBUF`: the payload of the segment being buffered (R26). -/
  segbuf : Memory
  /-- `SEG_CNT`, 16 bits: payload bytes buffered (R26). -/
  segCnt : Nat
  /-- `SKIP_CNT`, 16 bits: payload bytes still to be discarded (R27). -/
  skipCnt : Nat
  /-- `STUFF_PENDING`: the next byte pulled is a stuffed byte (R28). -/
  stuffPending : Bool
  /-- `CALLSIGN_CODE`, 32 bits (R29). -/
  callsignCode : BitVec 32
  /-- `IMAGE_ID`, 8 bits (R30). -/
  imageId : Byte
  /-- `QUALITY`, 3 bits (R31). -/
  quality : BitVec 3
  /-- `HAVE_FRAME`: a frame header has been accepted (R34). -/
  haveFrame : Bool
  /-- `WIDTH`, 12 bits (R35). -/
  width : BitVec 12
  /-- `HEIGHT`, 12 bits (R35). -/
  height : BitVec 12
  /-- `NCOMP`, 2 bits (R36). -/
  ncomp : Nat
  /-- `MONO`: `NCOMP` = 1 (R36). -/
  mono : Bool
  /-- `MODE`, 2 bits (R37). -/
  mode : BitVec 2
  /-- `YPARTS`, 3 bits (R37). -/
  yparts : Nat
  /-- `NUNITS`, 16 bits (R38). -/
  nunits : Nat
  /-- `TQ[0..2]`, 8 bits each (R39). -/
  tq : Tri Byte
  /-- `SCAN_OK`: a scan header has been accepted (R40). -/
  scanOk : Bool
  /-- `TD[0..2]`, 4 bits each (R40). -/
  td : Tri (BitVec 4)
  /-- `TA[0..2]`, 4 bits each (R40). -/
  ta : Tri (BitVec 4)
  /-- `DRI`, 16 bits: the restart interval (R41). -/
  dri : Half
  /-- `SQT[0..1]`: the source coefficient tables (R42). -/
  sqt : Pair StepSlot
  /-- `SHT[0][0..1]`: the source DC Huffman tables (R43). -/
  shtDc : Pair HuffSlot
  /-- `SHT[1][0..1]`: the source AC Huffman tables (R43). -/
  shtAc : Pair HuffSlot
  /-- `DQT_DST[0..1]`: the destination coefficient tables (R45). -/
  dqtDst : Pair (List Byte)
  /-- `CU`, 16 bits: coding units completely transcoded (R47). -/
  cu : Nat
  /-- `PART`, 3 bits: the block's index in its unit (R48). -/
  part : Nat
  /-- `COMP`, 2 bits: the block's component (R48). -/
  comp : Nat
  /-- `K`, 7 bits: the coefficient index (R49). -/
  k : Nat
  /-- `DCRAW[0..2]`, 32-bit two's complement: the source-side DC predictors (R50). -/
  dcraw : Tri (BitVec 32)
  /-- `DCEMIT[0..2]`, 32-bit two's complement: the DC values last written (R51). -/
  dcemit : Tri (BitVec 32)
  /-- `ACRLE`, 4 bits: the run of the symbol whose value field is awaited (R52). -/
  acrle : BitVec 4
  /-- `ACCRLE`, 6 bits: zero coefficients not yet represented in the output (R52). -/
  accrle : Nat
  /-- `NEEDBITS`, 4 bits: width of the awaited value field (R53). -/
  needbits : BitVec 4
  /-- `RESET_CU`, 16 bits: the unit coded against zero predictors (R54). -/
  resetCu : Nat
  /-- `IBITS`: the inbound accumulator (R55). -/
  ibits : Nat
  /-- `ILEN`: its fill length (R55). -/
  ilen : Nat
  /-- `OBITS`: the outbound accumulator (R55). -/
  obits : Nat
  /-- `OLEN`: its fill length (R55). -/
  olen : Nat
  /-- `PKTBUF`: the payload bytes of the packet being filled (R56). -/
  pktbuf : Memory
  /-- `OUT_COUNT`, 8 bits: payload bytes filled (R56). -/
  outCount : Nat
  /-- `PKT_SEQ`, 17 bits: the sequence number of the next packet (R56). -/
  pktSeq : Nat
  /-- `PKT_CU_IDX`, 16 bits: unit index of the first boundary in this packet (R56). -/
  pktCuIdx : Half
  /-- `PKT_CU_OFF`, 8 bits: byte offset of that boundary (R56). -/
  pktCuOff : Byte
  /-- `NEXT_CU_IDX`, 16 bits: the same for the following packet (R56). -/
  nextCuIdx : Half
  /-- `NEXT_CU_OFF`, 8 bits (R56). -/
  nextCuOff : Byte
  /-- `DONE`: the end-of-image packet has been emitted (R57). -/
  done : Bool
  /-- `FAILED`: a fatal condition has occurred (R57). -/
  failed : Bool
  /-- `REASON`, 5 bits: its reason code (R57). -/
  reason : BitVec 5
  /-- The MODEL's own field: a `NEXT_PACKET` is in progress (notes/assumptions/4.md). -/
  running : Bool
  /-- The MODEL's own field: what the last command returned (notes/assumptions/4.md). -/
  reply : Option Reply
  /-- The MODEL's own field: the commands the host will issue, the next one first (notes/assumptions/4.md). -/
  hostq : List Command
  deriving DecidableEq, Repr

/-- A model fault: an address or index that the spec's spaces do not have. Each one stops the machine, is SAFE, and is
raised only in states that no run from reset reaches (10_state.md R59; notes/assumptions/9.md). -/
inductive Fault where
  /-- A payload byte stored at or beyond `SEGBUF_CAP` (20_memory.md R60). Raised by the fetch of a payload byte. Safe. -/
  | segmentAddress
  /-- A table slot above 1, or an index beyond a table's entries (20_memory.md R60). Raised by Huffman lookups and
  rescaling. Safe. -/
  | tableEntry
  /-- A component number above 2 (10_state.md R48). Raised by the DC predictors. Safe. -/
  | component
  deriving DecidableEq, Repr

/-- Why an instruction has no meaning in the model. -/
inductive Refusal where
  /-- The instruction is not modelled. Raised by no arm: every instruction has its meaning. Safe. -/
  | notModelled (mnemonic : String)
  /-- `CONSTRUCT` with a ROM that 93_implementation_defined.md U9 and 92_eei_decisions.md D31 do not accept ("refuse").
  Safe. -/
  | romNotAccepted
  deriving DecidableEq, Repr

/-- A coefficient-table slot after reset: not valid, its bytes unspecified and unread (10_state.md R42;
notes/assumptions/3.md). -/
def emptyStepSlot : StepSlot := { valid := false, steps := List.replicate 64 0 }

/-- A Huffman-table slot after reset: not valid, the rest unspecified and unread (10_state.md R43;
notes/assumptions/3.md). -/
def emptyHuffSlot : HuffSlot :=
  { valid := false, table := { count := List.replicate 16 0, nsym := 0, sym := [] } }

/-- Every register at its reset value, for a ROM and the arguments of `CONSTRUCT` (70_reset_and_hazards.md R295;
10_state.md R58). The host has issued nothing yet and no command is in progress. -/
def State.constructed (rom : Rom) (src : Memory) (srcLen : Nat) (callsign : Callsign) (imageId : Byte)
    (quality : BitVec 3) : State :=
  { src := src, srcLen := srcLen, rom := rom
    srcPos := 0, pstate := .marker
    mkReg := 0, segLen := 0, lenCnt := 0, segbuf := [], segCnt := 0, skipCnt := 0, stuffPending := false
    callsignCode := callsignEncode callsign, imageId := imageId, quality := quality
    haveFrame := false, width := 0, height := 0, ncomp := 0, mono := false, mode := 0, yparts := 0, nunits := 0
    tq := ⟨0, 0, 0⟩, scanOk := false, td := ⟨0, 0, 0⟩, ta := ⟨0, 0, 0⟩, dri := 0
    sqt := ⟨emptyStepSlot, emptyStepSlot⟩
    shtDc := ⟨emptyHuffSlot, emptyHuffSlot⟩, shtAc := ⟨emptyHuffSlot, emptyHuffSlot⟩
    dqtDst := destinationSteps rom quality
    cu := 0, part := 0, comp := 0, k := 0
    dcraw := ⟨0, 0, 0⟩, dcemit := ⟨0, 0, 0⟩
    acrle := 0, accrle := 0, needbits := 0, resetCu := 0
    ibits := 0, ilen := 0, obits := 0, olen := 0
    pktbuf := [], outCount := 0, pktSeq := 0
    pktCuIdx := 0, pktCuOff := 0, nextCuIdx := Config.noneIdx, nextCuOff := Config.noneOff
    done := false, failed := false, reason := 0
    running := false, reply := none, hostq := [] }

/-- The machine right after reset: `CONSTRUCT` with no character in the identifier, image identifier 0, quality level 0
and the empty source, over the candidate ROM (70_reset_and_hazards.md R295; the arguments and the ROM are the model's:
notes/assumptions/1.md and 2.md). -/
def State.reset : State := State.constructed Config.candidateRom [] 0 ⟨0, 0, 0, 0, 0, 0⟩ 0 0

end Sys2Proof.Machine
end

