-- ==== Sys2Proof/Machine/Ops.lean ====
section
/-! DEFINITION. The named operations over memory and registers that the meanings share: reading and writing the byte
spaces, the register files, the two bit accumulators; and taking a fatal condition, the block's one exception
(60_exceptions.md R270). There is no return from one: only a new `CONSTRUCT` clears `FAILED` (R273). -/

namespace Sys2Proof.Machine

/-- How an operation inside a step ends: normally, by `raise Fatal(e)` with the writes listed before the `raise` made
(20_memory.md R80), or at an address the spec's spaces do not have. -/
inductive Res where
  | ok (s : State)
  | fatal (e : Reason) (s : State)
  | fault (f : Fault)
  deriving DecidableEq, Repr

/-- Sequencing: a fatal or a fault ends the step, nothing written after it is executed (00_scope.md R16). -/
def Res.andThen (r : Res) (k : State → Res) : Res :=
  match r with
  | .ok s => k s
  | .fatal e s => .fatal e s
  | .fault f => .fault f

/-- The reason code of a fatal condition (60_exceptions.md R266). -/
def Reason.code : Reason → BitVec 5
  | .progressive => 1
  | .precision => 2
  | .components => 3
  | .resolution => 4
  | .subsampling => 5
  | .blocks => 6
  | .missingTable => 7
  | .tableLength => 8
  | .corrupt => 9
  | .truncated => 10
  | .segmentLength => 11
  | .sequence => 12
  | .tableTag => 13
  | .encodeRange => 14
  | .noFrame => 15
  | .coefOverrun => 16
  | .reservedSymbol => 17
  | .stuffing => 18
  | .arithOverflow => 19
  | .seqOverflow => 20

/-- Fatal entry: `FAILED` ← 1, `REASON` ← the code, and the `NEXT_PACKET` in progress returns `FATAL(code)`
(60_exceptions.md R270). Nothing else is saved or changed (R267). -/
def enterFatal (e : Reason) (s : State) : State :=
  { s with failed := true, reason := e.code, running := false, reply := some (.fatal e.code) }

/-- A command returns its result to the host. -/
def answer (r : Reply) (s : State) : State := { s with running := false, reply := some r }

/-- The outcome of a step that ends as `r`: a fatal condition is taken and gives a next state. -/
def Res.outcome : Res → Host.Outcome State Fault Refusal
  | .ok s => .next s
  | .fatal e s => .next (enterFatal e s)
  | .fault f => .fault f

/-! The byte spaces `SRC`, `SEG` and `PKT` (20_memory.md R60). -/

/-- What an address that is not listed reads as: zero (notes/assumptions/6.md). -/
def unlisted : Byte := 0

/-- One byte of a space. -/
def memRead : Memory → Nat → Byte
  | [], _ => unlisted
  | (a', b) :: m, a => if a = a' then b else memRead m a

/-- Store one byte, keeping the canonical form. -/
def memWrite : Memory → Nat → Byte → Memory
  | [], a, b => if b = unlisted then [] else [(a, b)]
  | (a', b') :: m, a, b =>
    if a < a' then (if b = unlisted then (a', b') :: m else (a, b) :: (a', b') :: m)
    else if a = a' then (if b = unlisted then m else (a, b) :: m)
    else (a', b') :: memWrite m a b

/-- `MemRead(space, addr, n)` (00_scope.md R16). -/
def memReadN (m : Memory) (a n : Nat) : List Byte := (List.range n).map (fun i => memRead m (a + i))

/-- The bytes of a sequence stored from address `a` on. -/
def memStore (m : Memory) (a : Nat) : List Byte → Memory
  | [] => m
  | b :: bs => memStore (memWrite m a b) (a + 1) bs

/-- A space that holds exactly a sequence of bytes from address `a` on. -/
def memOfBytes (a : Nat) : List Byte → Memory
  | [] => []
  | b :: bs => if b = unlisted then memOfBytes (a + 1) bs else (a, b) :: memOfBytes (a + 1) bs

/-- Every address is at least `lo`, addresses strictly rise, and no entry equals what an unlisted address reads as. -/
def memWfFrom (lo : Nat) : Memory → Bool
  | [] => true
  | (a, b) :: m => decide (lo ≤ a) && b != unlisted && memWfFrom (a + 1) m

/-- The canonical form of a space. -/
def Memory.wf (m : Memory) : Bool := memWfFrom 0 m

/-- Every listed address is below `bound`. -/
def memBelow (bound : Nat) (m : Memory) : Bool := m.all (fun c => decide (c.1 < bound))

/-! Register files. -/

/-- Entry `i` of a pair of slots; there is none above 1. -/
def pairGet? {α : Type} (p : Pair α) : Nat → Option α
  | 0 => some p.s0
  | 1 => some p.s1
  | _ => none

/-- Replace entry `i` of a pair of slots. -/
def pairSet {α : Type} (p : Pair α) (i : Nat) (a : α) : Pair α :=
  match i with
  | 0 => { p with s0 := a }
  | 1 => { p with s1 := a }
  | _ => p

/-- Entry `c` of a register file indexed by component; there is none above 2. -/
def triGet? {α : Type} (t : Tri α) : Nat → Option α
  | 0 => some t.c0
  | 1 => some t.c1
  | 2 => some t.c2
  | _ => none

/-- Write entry `c` of a register file indexed by component (00_scope.md R15). -/
def triSet {α : Type} (t : Tri α) (c : Nat) (a : α) : Tri α :=
  match c with
  | 0 => { t with c0 := a }
  | 1 => { t with c1 := a }
  | 2 => { t with c2 := a }
  | _ => t

/-- The member of a luma/chroma pair that component `c` uses: luma for component 0, else chroma
(43_entropy_encode.md R186; 42_rescale.md R176). -/
def usage {α : Type} (p : Pair α) (c : Nat) : α := if c = 0 then p.s0 else p.s1

/-- The class of a Huffman code: DC when `K` = 0, AC otherwise (30_encoding.md R104). -/
inductive HuffClass where
  | dc
  | ac
  deriving DecidableEq, Repr

/-- `DHT_DST[cls][usage]` for the current component (43_entropy_encode.md R186). -/
def destTable (cls : HuffClass) (s : State) : HuffTable :=
  match cls with
  | .dc => usage s.rom.dhtDc s.comp
  | .ac => usage s.rom.dhtAc s.comp

/-- The source table that decodes the next code: `SHT[0][TD[COMP]]` if `K` = 0, else `SHT[1][TA[COMP]]`
(30_encoding.md R104; 41_entropy_decode.md R153). -/
def sourceTable (s : State) : Option HuffTable :=
  if s.k = 0 then
    (triGet? s.td s.comp).bind (fun t => (pairGet? s.shtDc t.toNat).map HuffSlot.table)
  else
    (triGet? s.ta s.comp).bind (fun t => (pairGet? s.shtAc t.toNat).map HuffSlot.table)

/-- The source step `SQT[TQ[COMP]][k]` (42_rescale.md R176). -/
def sourceStep (s : State) (k : Nat) : Option Byte :=
  (triGet? s.tq s.comp).bind (fun t => (pairGet? s.sqt t.toNat).bind (fun slot => slot.steps[k]?))

/-- The destination step `DQT_DST[u][k]`, `u` = 0 for component 0 and 1 otherwise (42_rescale.md R176). -/
def destStep (s : State) (k : Nat) : Option Byte := (usage s.dqtDst s.comp)[k]?

/-! The bit accumulators. -/

/-- `Merge(b)`: the byte goes below the bits awaiting decode; a 0xFF announces a stuffed byte
(41_entropy_decode.md R150). -/
def merge (b : Byte) (s : State) : State :=
  { s with
    ibits := s.ibits * 256 + b.toNat
    ilen := s.ilen + 8
    stuffPending := s.stuffPending || b == 0xFF }

/-- `Consume(n)`: the `n` oldest bits leave the window (41_entropy_decode.md R152). -/
def consume (n : Nat) (s : State) : State :=
  { s with ibits := s.ibits % 2 ^ (s.ilen - n), ilen := s.ilen - n }

/-- One byte of `Drain`: the top 8 bits of the outbound accumulator go to the packet buffer (43_entropy_encode.md
R191). -/
def drainByte (s : State) : State :=
  { s with
    pktbuf := memWrite s.pktbuf s.outCount (BitVec.ofNat 8 (oldest s.obits s.olen 8))
    outCount := s.outCount + 1
    obits := s.obits % 2 ^ (s.olen - 8)
    olen := s.olen - 8 }

/-- At most `n` bytes of `Drain`, while the accumulator holds 8 bits and the packet buffer has room. -/
def drainUpTo : Nat → State → State
  | 0, s => s
  | n + 1, s => if 8 ≤ s.olen ∧ s.outCount < Config.payload then drainUpTo n (drainByte s) else s

/-- `Drain()` (43_entropy_encode.md R191): an accumulator of `OLEN` bits gives at most `OLEN`/8 bytes. -/
def drain (s : State) : State := drainUpTo (s.olen / 8) s

/-- `OutBits(x, n)`: append the `n` low bits of `x`, most significant first, then drain (43_entropy_encode.md R190). -/
def outBits (x n : Nat) (s : State) : State :=
  drain { s with obits := s.obits * 2 ^ n + x % 2 ^ n, olen := s.olen + n }

/-- `Sync()`: pad the outbound stream to a byte boundary (43_entropy_encode.md R193). -/
def sync (s : State) : State :=
  if s.olen % 8 = 0 then s else outBits (Config.padBits (8 - s.olen % 8)) (8 - s.olen % 8) s

/-- `Emit(cls, run, v)`: write one symbol and its value field to the outbound stream (43_entropy_encode.md R188); a size
above 15 or a symbol the destination table lacks is `E_ENCODE_RANGE` (R189). -/
def emit (cls : HuffClass) (run : Nat) (v : Int) (s : State) : Res :=
  if 15 < (vencode v).2 then .fatal .encodeRange s
  else
    match huffEncode (destTable cls s) (BitVec.ofNat 8 (run * 16 + (vencode v).2)) with
    | none => .fatal .encodeRange s
    | some (code, w) =>
      if (vencode v).2 = 0 then .ok (outBits code w s)
      else .ok (outBits (vencode v).1 (vencode v).2 (outBits code w s))

end Sys2Proof.Machine
end

