-- ==== Sys2Proof/Machine/Commands.lean ====
section
/-! DEFINITION. The two host commands and the packet assembler (45_packet.md). -/

namespace Sys2Proof.Machine

/-- `CONSTRUCT`, the block's reset (45_packet.md R230; 70_reset_and_hazards.md R295). It cannot fail; a ROM that the
spec does not accept is refused (93_implementation_defined.md U9). What the host has still to issue is the host's and
stays. -/
def execConstruct (callsign : Callsign) (imageId : Byte) (quality : BitVec 3) (source : List Byte) (s : State) :
    Host.Outcome State Fault Refusal :=
  if s.rom.wellFormed then
    .next { State.constructed s.rom (memOfBytes 0 source) source.length callsign imageId quality with
      hostq := s.hostq }
  else .refused .romNotAccepted

/-- Packet bytes 0 to 14 (45_packet.md R241 to R246; 30_encoding.md R112). -/
def packetHeader (eoi : Bool) (s : State) : List Byte :=
  [s.rom.syncByte, s.rom.modeByte]
    ++ wordBytes s.callsignCode
    ++ [s.imageId]
    ++ halfBytes (BitVec.ofNat 16 s.pktSeq)
    ++ [(s.width >>> 4).setWidth 8, (s.height >>> 4).setWidth 8, flagsByte s.quality eoi s.mode, s.pktCuOff]
    ++ halfBytes s.pktCuIdx

/-- Packet bytes 15 to 251: the payload, then the padding (45_packet.md R247, R250). -/
def packetPayload (s : State) : List Byte :=
  memReadN s.pktbuf 0 s.outCount ++ padFrom Config.lcgSeed (Config.payload - s.outCount)

/-- Packet bytes 0 to 251. -/
def packetBody (eoi : Bool) (s : State) : List Byte := packetHeader eoi s ++ packetPayload s

/-- The 256 bytes of a packet: the body and the checksum over it from byte `CRC_START` on (45_packet.md R240, R252). -/
def packetBytes (eoi : Bool) (s : State) : List Byte :=
  packetBody eoi s ++ wordBytes (crc32 ((packetBody eoi s).drop Config.crcStart))

/-- The registers after a packet: the next sequence number, an empty buffer, the deferred boundary moved up
(45_packet.md R253). -/
def afterPacket (s : State) : State :=
  { s with
    pktSeq := s.pktSeq + 1
    outCount := 0
    pktCuIdx := s.nextCuIdx, pktCuOff := s.nextCuOff
    nextCuIdx := Config.noneIdx, nextCuOff := Config.noneOff }

/-- `BuildPacket(eoi)` and the return of its packet to the host; the flagged packet is the last (45_packet.md R240,
R237). A 65537th packet is `E_SEQ_OVERFLOW` (R254). -/
def buildPacket (eoi : Bool) (s : State) : Res :=
  if 0xFFFF < s.pktSeq then .fatal .seqOverflow s
  else .ok (answer (.packet (packetBytes eoi s)) { afterPacket s with done := s.done || eoi })

/-- The tests at the head of `NEXT_PACKET`'s loop: end of image, buffer full, else a step is to run (45_packet.md R235,
R236, R237). -/
def packetLoop (s : State) : Res :=
  if s.pstate = .finish then buildPacket (decide (s.olen = 0)) s
  else if s.outCount = Config.payload then buildPacket false s
  else .ok { s with running := true, reply := none }

/-- `NEXT_PACKET` (45_packet.md R235): a failed or finished instance repeats its result; otherwise the accumulator is
drained and the loop's tests are made. While no packet is ready the command stays in progress and the machine steps
through the source; at the head of the loop it is run again and completes there (notes/assumptions/5.md). -/
def execNextPacket (s : State) : Host.Outcome State Fault Refusal :=
  Res.outcome
    (if s.failed then .ok (answer (.fatal s.reason) s)
    else if s.done then .ok (answer .done s)
    else packetLoop (drain s))

end Sys2Proof.Machine
end

