-- ==== Sys2Proof/Machine/Cursor.lean ====
section
/-! DEFINITION. The block/unit cursor (44_cursor.md) and the rescaler with its DC predictors and AC runs (42_rescale.md,
43_entropy_encode.md R196): the operations that the symbols and value fields share. -/

namespace Sys2Proof.Machine

/-- `StreamStart()` (44_cursor.md R205). -/
def streamStart (s : State) : State :=
  { s with
    cu := 0, part := 0, comp := 0, k := 0
    dcraw := ⟨0, 0, 0⟩, dcemit := ⟨0, 0, 0⟩
    acrle := 0, accrle := 0, needbits := 0
    ibits := 0, ilen := 0 }

/-- The writes of a restart marker: source-side predictors, within-unit cursor and inbound accumulator cleared,
entropy mode resumed; `DCEMIT` and the output side run on (40_segment_parser.md R124; 90_conflicts.md C3). -/
def restart (s : State) : State :=
  { s with
    dcraw := ⟨0, 0, 0⟩
    part := 0, comp := 0, k := 0
    acrle := 0, accrle := 0, needbits := 0
    ibits := 0, ilen := 0
    pstate := .huff }

/-- `comp_of(p)` (44_cursor.md R207). -/
def compOf (yparts p : Nat) : Nat := if p < yparts then 0 else p - yparts + 1

/-- The position of the outbound stream in bytes from the current packet's first payload byte (44_cursor.md R213). -/
def boundaryPos (s : State) : Nat := s.outCount + s.olen / 8

/-- The record of a boundary at the current, aligned position: for this packet, or deferred to the next
(44_cursor.md R213); the unit is a reset point (R214). -/
def storeBoundary (s : State) : State :=
  if boundaryPos s < Config.payload then
    { s with
      pktCuIdx := BitVec.ofNat 16 s.cu, pktCuOff := BitVec.ofNat 8 (boundaryPos s), resetCu := s.cu }
  else
    { s with
      nextCuIdx := BitVec.ofNat 16 s.cu, nextCuOff := BitVec.ofNat 8 (boundaryPos s - Config.payload)
      resetCu := s.cu }

/-- `RecordBoundary()` (44_cursor.md R213). -/
def recordBoundary (s : State) : State :=
  if s.pktCuIdx = Config.noneIdx ∨ s.outCount = Config.payload then storeBoundary (sync s) else s

/-- The restart arbiter (44_cursor.md R216). -/
def arbitrate (s : State) : State :=
  if 0 < s.dri.toNat ∧ s.cu % s.dri.toNat = 0 then { s with pstate := .marker } else s

/-- `UnitEnd()` (44_cursor.md R211). -/
def unitEnd (s : State) : State :=
  if s.cu + 1 = s.nunits then
    { sync { s with part := 0, comp := 0, cu := s.cu + 1 } with pstate := .finish }
  else arbitrate (recordBoundary { s with part := 0, comp := 0, cu := s.cu + 1 })

/-- One synthesized chroma block of a monochrome image: the symbols "no change" and "all zero" (44_cursor.md R210). -/
def synthesizeChroma (cc : Nat) (s : State) : Res :=
  ((emit .dc 0 0 { s with comp := cc }).andThen (emit .ac 0 0)).andThen
    (fun s => .ok { s with part := s.part + 1 })

/-- The end of `BlockEnd()`: the next block of the unit, or the unit's end (44_cursor.md R208). -/
def nextBlock (s : State) : State :=
  let s' := { s with k := 0, acrle := 0, accrle := 0 }
  if s'.part = s'.yparts + 2 then unitEnd s' else { s' with comp := compOf s'.yparts s'.part }

/-- `BlockEnd()` (44_cursor.md R208). -/
def blockEnd (s : State) : Res :=
  let s' := { s with part := s.part + 1 }
  if s'.mono ∧ s'.part = s'.yparts then
    ((synthesizeChroma 1 s').andThen (synthesizeChroma 2)).andThen (fun s => .ok (nextBlock s))
  else .ok (nextBlock s')

/-- The end of `TranscodeStep()`: a block whose 64 coefficients are done ends (41_entropy_decode.md R153). -/
def finishStep (s : State) : Res := if 64 ≤ s.k then blockEnd s else .ok s

/-- `at_reset`: the first block of each component in the reset unit (44_cursor.md R215). -/
def atReset (s : State) : Bool := decide (s.cu = s.resetCu) && decide (s.part = 0 ∨ s.yparts ≤ s.part)

/-- `DcEmit(c, new)` for the current component: the written difference is against zero at a reset point, else against
the value last written (44_cursor.md R215). -/
def dcEmit (new : Int) (s : State) : Res :=
  match triGet? s.dcemit s.comp with
  | none => .fault .component
  | some last =>
    (emit .dc 0 (new - if atReset s then 0 else last.toInt) s).andThen
      (fun s => .ok { s with dcemit := triSet s.dcemit s.comp (BitVec.ofInt 32 new) })

/-- The new value of `DCRAW` for delta `v`: steps equal pass it unchanged, others multiply it by the source step
(42_rescale.md R172). -/
def dcSum (old v : Int) (src dst : Byte) : Int := if src = dst then old + v else old + v * src.toNat

/-- A coefficient in destination units: unchanged when the steps are equal, else divided by the destination step
(42_rescale.md R172, R174). -/
def toDest (x : Int) (src dst : Byte) : Int := if src = dst then x else rdiv x dst.toNat

/-- `DcUpdate(v)` (42_rescale.md R172). -/
def dcUpdate (v : Int) (s : State) : Res :=
  match sourceStep s 0, destStep s 0, triGet? s.dcraw s.comp with
  | some src, some dst, some old =>
    if dcSum old.toInt v src dst < -(2 ^ 31) ∨ 2 ^ 31 - 1 < dcSum old.toInt v src dst then .fatal .arithOverflow s
    else
      dcEmit (toDest (dcSum old.toInt v src dst) src dst)
        { s with dcraw := triSet s.dcraw s.comp (BitVec.ofInt 32 (dcSum old.toInt v src dst)) }
  | _, _, none => .fault .component
  | _, _, _ => .fault .tableEntry

/-- `AcRescale(v)` for given steps (42_rescale.md R174). -/
def acRescale (v : Int) (src dst : Byte) : Int := if src = dst then v else rdiv (v * src.toNat) dst.toNat

/-- Write `n` destination `ZRL` symbols, each taking 16 zeros off the run accumulator (43_entropy_encode.md R196). -/
def emitZeroRuns : Nat → State → Res
  | 0, s => .ok s
  | n + 1, s =>
    ((emit .ac 15 0 s).andThen (fun s => .ok { s with accrle := s.accrle - 16 })).andThen (emitZeroRuns n)

/-- `AcValue(v)`: write the rescaled value after its run of zeros, or account for it as a zero
(43_entropy_encode.md R196). -/
def acValue (v : Int) (s : State) : Res :=
  match sourceStep s s.k, destStep s s.k with
  | some src, some dst =>
    if acRescale v src dst ≠ 0 then
      ((emitZeroRuns ((s.accrle + s.acrle.toNat) / 16) { s with accrle := s.accrle + s.acrle.toNat }).andThen
          (fun s => emit .ac s.accrle (acRescale v src dst) s)).andThen
        (fun s => .ok { s with accrle := 0 })
    else if 63 ≤ s.k then (emit .ac 0 0 s).andThen (fun s => .ok { s with accrle := 0 })
    else .ok { s with accrle := s.accrle + s.acrle.toNat + 1 }
  | _, _ => .fault .tableEntry

end Sys2Proof.Machine
end

