-- ==== Sys2Proof/Machine/Markers.lean ====
section
/-! DEFINITION. The standalone, rejected and skipped markers and the window that is no marker (40_segment_parser.md R123
to R127, R140). The window `MK` and the source position have moved on when a meaning runs: the fetch does that. -/

namespace Sys2Proof.Machine

/-- `TEM`: no operation (R127). -/
def execTem (s : State) : Host.Outcome State Fault Refusal := .next s

/-- `SOI`: no operation (R127). -/
def execSoi (s : State) : Host.Outcome State Fault Refusal := .next s

/-- `RSTn`: restart; the number is not used (R124). -/
def execRst (_n : BitVec 3) (s : State) : Host.Outcome State Fault Refusal :=
  Res.outcome (if s.scanOk then .ok (restart s) else .fatal .sequence s)

/-- `EOI` seen by the parser: units are missing (R125). -/
def execEoi (s : State) : Host.Outcome State Fault Refusal := Res.outcome (.fatal .truncated s)

/-- `SOF2`: rejected outright (R123). -/
def execSof2 (s : State) : Host.Outcome State Fault Refusal := Res.outcome (.fatal .progressive s)

/-- `NONMARKER`: no operation (R140). -/
def execNonmarker (_w : Half) (s : State) : Host.Outcome State Fault Refusal := .next s

/-- `SKIP`: after the length field, the next `L` − 2 source bytes are to be discarded (R121, R126). -/
def skipSegment (len : Half) (s : State) : Res :=
  if len.toNat < 2 then .fatal .segmentLength s
  else .ok { s with segLen := len - 2, skipCnt := len.toNat - 2, pstate := .marker }

/-- `SKIP` 0xFFC1 (R126). -/
def execSkipC1 (len : Half) (s : State) : Host.Outcome State Fault Refusal := Res.outcome (skipSegment len s)

/-- `SKIP` 0xFFC3 (R126). -/
def execSkipC3 (len : Half) (s : State) : Host.Outcome State Fault Refusal := Res.outcome (skipSegment len s)

/-- `SKIP` 0xFFC5 (R126). -/
def execSkipC5 (len : Half) (s : State) : Host.Outcome State Fault Refusal := Res.outcome (skipSegment len s)

/-- `SKIP` 0xFFC6, 0xFFC7 (R126). -/
def execSkipC6 (_n : BitVec 1) (len : Half) (s : State) : Host.Outcome State Fault Refusal :=
  Res.outcome (skipSegment len s)

/-- `SKIP` 0xFFC8 to 0xFFCF (R126). -/
def execSkipC8 (_n : BitVec 3) (len : Half) (s : State) : Host.Outcome State Fault Refusal :=
  Res.outcome (skipSegment len s)

/-- `SKIP` 0xFFDC (R126). -/
def execSkipDC (len : Half) (s : State) : Host.Outcome State Fault Refusal := Res.outcome (skipSegment len s)

/-- `SKIP` 0xFFDE, 0xFFDF (R126). -/
def execSkipDE (_n : BitVec 1) (len : Half) (s : State) : Host.Outcome State Fault Refusal :=
  Res.outcome (skipSegment len s)

/-- `SKIP` 0xFFE0 to 0xFFEF (R126). -/
def execSkipE0 (_n : BitVec 4) (len : Half) (s : State) : Host.Outcome State Fault Refusal :=
  Res.outcome (skipSegment len s)

/-- `SKIP` 0xFFF0 to 0xFFF7 (R126). -/
def execSkipF0 (_n : BitVec 3) (len : Half) (s : State) : Host.Outcome State Fault Refusal :=
  Res.outcome (skipSegment len s)

/-- `SKIP` 0xFFF8 to 0xFFFB (R126). -/
def execSkipF8 (_n : BitVec 2) (len : Half) (s : State) : Host.Outcome State Fault Refusal :=
  Res.outcome (skipSegment len s)

/-- `SKIP` 0xFFFC, 0xFFFD (R126). -/
def execSkipFC (_n : BitVec 1) (len : Half) (s : State) : Host.Outcome State Fault Refusal :=
  Res.outcome (skipSegment len s)

/-- `SKIP` 0xFFFE (R126). -/
def execSkipFE (len : Half) (s : State) : Host.Outcome State Fault Refusal := Res.outcome (skipSegment len s)

end Sys2Proof.Machine
end

