-- ==== Sys2Proof/Machine/Segments.lean ====
section
/-! DEFINITION. The five buffered segments (40_segment_parser.md R128 to R139), run at dispatch (R122): the payload `d`
is what `SEGBUF` holds, `PSTATE` goes back to `MARKER` first, and an accepted scan header then sets `HUFF`. -/

namespace Sys2Proof.Machine

/-- `Dispatch()` of a buffered segment whose length field was `len` (R121, R122): a length below 2 is impossible to
satisfy. -/
def dispatch (len : Half) (s : State) (op : State → Res) : Res :=
  if len.toNat < 2 then .fatal .segmentLength s else op { s with pstate := .marker }

/-- Byte `i` of a payload. -/
def payloadByte (d : List Byte) (i : Nat) : Byte := d.getD i 0

/-- Payload bytes `i` and `i + 1` as a big-endian field (20_memory.md R64). -/
def payloadHalf (d : List Byte) (i : Nat) : Half := payloadByte d i ++ payloadByte d (i + 1)

/-- A dimension is legal: 16 to 4080 and a multiple of 16 (40_segment_parser.md R128, R129). -/
def legalDim (x : Nat) : Bool := x != 0 && decide (x ≤ Config.maxDim) && x % Config.dimAlign == 0

/-- The `MODE` of a luma sampling byte, if it is one of the four patterns (30_encoding.md R95). -/
def sampMode (b : Byte) : Option Nat := Config.sampByte.findIdx? (· == b)

/-- The image parameters a frame header sets (10_state.md R33 to R39). -/
structure FrameParams where
  width : BitVec 12
  height : BitVec 12
  ncomp : Nat
  mode : Nat
  nunits : Nat
  tq : Tri Byte
  deriving DecidableEq, Repr

/-- Every component's sampling byte is supported: luma one of the four patterns, the others 1×1; the answer is the luma
mode (40_segment_parser.md R128). -/
def frameSampling (d : List Byte) (nc : Nat) : Except Reason Nat :=
  match sampMode (payloadByte d 7) with
  | none => .error .subsampling
  | some m =>
    if nc = 1 then .ok 3
    else if payloadByte d 10 = 0x11 ∧ payloadByte d 13 = 0x11 then .ok m
    else .error .subsampling

/-- `Frame(d, n)`, the checks in the order of 40_segment_parser.md R129. -/
def frameParams (haveFrame : Bool) (d : List Byte) : Except Reason FrameParams :=
  let nc := (payloadByte d 5).toNat
  let h := payloadHalf d 1
  let w := payloadHalf d 3
  if haveFrame then .error .sequence
  else if d.length < 6 then .error .segmentLength
  else if (payloadByte d 0).toNat ≠ Config.precision then .error .precision
  else if nc ≠ 1 ∧ nc ≠ 3 then .error .components
  else if !(legalDim w.toNat && legalDim h.toNat) then .error .resolution
  else if d.length < 6 + 3 * nc then .error .segmentLength
  else
    match frameSampling d nc with
    | .error e => .error e
    | .ok mode =>
      if Config.maxUnits < w.toNat * h.toNat / Config.areaOf.getD mode 0 then .error .blocks
      else .ok
        { width := w.setWidth 12, height := h.setWidth 12, ncomp := nc, mode := mode
          nunits := w.toNat * h.toNat / Config.areaOf.getD mode 0
          tq := if nc = 1 then ⟨payloadByte d 8, 0, 0⟩
                else ⟨payloadByte d 8, payloadByte d 11, payloadByte d 14⟩ }

/-- The writes of an accepted frame header (40_segment_parser.md R128). -/
def setFrame (f : FrameParams) (s : State) : State :=
  { s with
    width := f.width, height := f.height, ncomp := f.ncomp, mono := decide (f.ncomp = 1)
    mode := BitVec.ofNat 2 f.mode, yparts := Config.ypartsOf.getD f.mode 0, nunits := f.nunits
    tq := f.tq, haveFrame := true }

/-- `Frame(d, n)` (40_segment_parser.md R128): nothing is written if a check fails. -/
def frame (d : List Byte) (s : State) : Res :=
  match frameParams s.haveFrame d with
  | .error e => .fatal e s
  | .ok f => .ok (setFrame f s)

/-- `SOF0`, frame header (40_segment_parser.md R128). -/
def execSof0 (len : Half) (d : List Byte) (s : State) : Host.Outcome State Fault Refusal :=
  Res.outcome (dispatch len s (frame d))

/-- The tables that scan component `j` names are defined: its coefficient slot, and the DC and AC Huffman slots of the
nibbles of `d[2 + 2j]` (40_segment_parser.md R134). -/
def scanTablesOk (s : State) (d : List Byte) (j : Nat) (tq : Byte) : Bool :=
  (pairGet? s.sqt tq.toNat).any StepSlot.valid
    && (pairGet? s.shtDc (hiNibble (payloadByte d (2 + 2 * j))).toNat).any HuffSlot.valid
    && (pairGet? s.shtAc (loNibble (payloadByte d (2 + 2 * j))).toNat).any HuffSlot.valid

/-- The tables of every scan component are defined. -/
def scanAllTablesOk (s : State) (d : List Byte) (ns : Nat) : Bool :=
  scanTablesOk s d 0 s.tq.c0 && (ns == 1 || (scanTablesOk s d 1 s.tq.c1 && scanTablesOk s d 2 s.tq.c2))

/-- The reason a scan header is refused, in the order of 40_segment_parser.md R135. -/
def scanError (s : State) (d : List Byte) : Option Reason :=
  let ns := (payloadByte d 0).toNat
  if !s.haveFrame then some .noFrame
  else if s.scanOk then some .sequence
  else if d.length < 1 then some .segmentLength
  else if (ns ≠ 1 ∧ ns ≠ 3) ∨ ns ≠ s.ncomp then some .components
  else if d.length < 1 + 2 * ns then some .segmentLength
  else if !scanAllTablesOk s d ns then some .missingTable
  else none

/-- The first `ns` entries of `new`, the others of `old`. -/
def firstComps {α : Type} (ns : Nat) (old new : Tri α) : Tri α :=
  if ns = 1 then { old with c0 := new.c0 } else new

/-- The writes of an accepted scan header (40_segment_parser.md R134): the slot indices, `SCAN_OK`, the stream start,
entropy mode. -/
def setScan (d : List Byte) (s : State) : State :=
  let ns := (payloadByte d 0).toNat
  let sel (j : Nat) : Byte := payloadByte d (2 + 2 * j)
  { streamStart
      { s with
        td := firstComps ns s.td ⟨hiNibble (sel 0), hiNibble (sel 1), hiNibble (sel 2)⟩
        ta := firstComps ns s.ta ⟨loNibble (sel 0), loNibble (sel 1), loNibble (sel 2)⟩
        scanOk := true } with
    pstate := .huff }

/-- `Scan(d, n)` (40_segment_parser.md R134). -/
def scan (d : List Byte) (s : State) : Res :=
  match scanError s d with
  | some e => .fatal e s
  | none => .ok (setScan d s)

/-- `SOS`, scan header (40_segment_parser.md R134). -/
def execSos (len : Half) (d : List Byte) (s : State) : Host.Outcome State Fault Refusal :=
  Res.outcome (dispatch len s (scan d))

/-- Store the 64 steps of one definition in slot `t`; a slot above 1 is parsed and discarded
(40_segment_parser.md R137). -/
def storeSteps (t : Nat) (steps : List Byte) (s : State) : State :=
  { s with sqt := pairSet s.sqt t { valid := true, steps := steps } }

/-- `Dqt(d, n)` from a payload position on, at most `fuel` definitions (40_segment_parser.md R137). -/
def dqtDefs : Nat → List Byte → State → Res
  | 0, _, s => .ok s
  | fuel + 1, d, s =>
    if d.length = 0 then .ok s
    else if d.length < Config.dqtDefLen then .fatal .tableLength s
    else if hiNibble (payloadByte d 0) ≠ 0 then .fatal .tableTag s
    else
      dqtDefs fuel (d.drop Config.dqtDefLen)
        (storeSteps (loNibble (payloadByte d 0)).toNat ((d.drop 1).take 64) s)

/-- `DQT`, coefficient-table definitions (40_segment_parser.md R137). -/
def execDqt (len : Half) (d : List Byte) (s : State) : Host.Outcome State Fault Refusal :=
  Res.outcome (dispatch len s (dqtDefs d.length d))

/-- Store one Huffman table in the slot of its class and index; an index above 1 is parsed and discarded
(40_segment_parser.md R138). -/
def storeHuff (cls idx : Nat) (t : HuffTable) (s : State) : State :=
  if cls = 0 then { s with shtDc := pairSet s.shtDc idx { valid := true, table := t } }
  else { s with shtAc := pairSet s.shtAc idx { valid := true, table := t } }

/-- `Dht(d, n)` from a payload position on, at most `fuel` definitions (40_segment_parser.md R138). -/
def dhtDefs : Nat → List Byte → State → Res
  | 0, _, s => .ok s
  | fuel + 1, d, s =>
    let counts := (d.drop 1).take 16
    let m := countSum counts
    if d.length = 0 then .ok s
    else if d.length < Config.dhtDefHdr then .fatal .tableLength s
    else if Config.hsymCap < m ∨ d.length < Config.dhtDefHdr + m then .fatal .tableLength s
    else if 1 < (hiNibble (payloadByte d 0)).toNat then .fatal .tableTag s
    else
      dhtDefs fuel (d.drop (Config.dhtDefHdr + m))
        (storeHuff (hiNibble (payloadByte d 0)).toNat (loNibble (payloadByte d 0)).toNat
          { count := counts, nsym := m, sym := (d.drop Config.dhtDefHdr).take m } s)

/-- `DHT`, Huffman-table definitions (40_segment_parser.md R138). -/
def execDht (len : Half) (d : List Byte) (s : State) : Host.Outcome State Fault Refusal :=
  Res.outcome (dispatch len s (dhtDefs d.length d))

/-- `Dri(d, n)` (40_segment_parser.md R139). -/
def setInterval (d : List Byte) (s : State) : Res :=
  if d.length < 2 then .fatal .segmentLength s else .ok { s with dri := payloadHalf d 0 }

/-- `DRI`, restart-interval definition (40_segment_parser.md R139). -/
def execDri (len : Half) (d : List Byte) (s : State) : Host.Outcome State Fault Refusal :=
  Res.outcome (dispatch len s (setInterval d))

end Sys2Proof.Machine
end

