-- ==== Sys2Proof/Machine/Symbols.lean ====
section
/-! DEFINITION. The entropy-coded symbols, the value field and the stuffed byte (41_entropy_decode.md R151, R156 to
R161). The bits of the code or field have left the inbound accumulator when a meaning runs: the fetch consumes them
(R153). Each meaning ends with the block end that `K` ≥ 64 calls for. -/

namespace Sys2Proof.Machine

/-- `DC.s` (41_entropy_decode.md R156): size 0 is "no change", another size awaits its value field. -/
def execDc (_hi size : BitVec 4) (s : State) : Host.Outcome State Fault Refusal :=
  Res.outcome
    (if size = 0 then
      ((dcUpdate 0 { s with needbits := size }).andThen (fun s => .ok { s with k := 1 })).andThen finishStep
    else finishStep { s with needbits := size, pstate := .int })

/-- `EOB` (41_entropy_decode.md R157). -/
def execEob (s : State) : Host.Outcome State Fault Refusal :=
  Res.outcome (((emit .ac 0 0 { s with acrle := 0 }).andThen (fun s => .ok { s with k := 64 })).andThen finishStep)

/-- `ZRL` (41_entropy_decode.md R158). -/
def execZrl (s : State) : Host.Outcome State Fault Refusal :=
  Res.outcome
    (if 63 < s.k + 16 then .fatal .coefOverrun { s with acrle := 0 }
    else ((emit .ac 15 0 { s with acrle := 0 }).andThen (fun s => .ok { s with k := s.k + 16 })).andThen finishStep)

/-- `AC.reserved` (41_entropy_decode.md R160). -/
def execAcReserved (_run : BitVec 4) (s : State) : Host.Outcome State Fault Refusal :=
  Res.outcome (.fatal .reservedSymbol { s with acrle := 0 })

/-- `AC.r.s` (41_entropy_decode.md R159). -/
def execAc (run size : BitVec 4) (s : State) : Host.Outcome State Fault Refusal :=
  Res.outcome
    (if 63 < s.k + run.toNat then .fatal .coefOverrun { s with acrle := run }
    else finishStep { s with acrle := run, k := s.k + run.toNat, needbits := size, pstate := .int })

/-- `V`, the value field (41_entropy_decode.md R161). -/
def execV (n : BitVec 4) (f : BitVec 15) (s : State) : Host.Outcome State Fault Refusal :=
  Res.outcome
    (((if s.k = 0 then dcUpdate (vdecode f.toNat n.toNat) s else acValue (vdecode f.toNat n.toNat) s).andThen
        (fun s => .ok { s with k := s.k + 1, pstate := .huff })).andThen finishStep)

/-- `STUFF`, the byte after a data byte 0xFF (41_entropy_decode.md R151; 20_memory.md R63). -/
def execStuff (b : Byte) (s : State) : Host.Outcome State Fault Refusal :=
  Res.outcome
    (if b = 0x00 then .ok { s with stuffPending := false } else .fatal .stuffing { s with stuffPending := false })

end Sys2Proof.Machine
end

