-- ==== Sys2Proof/Machine/Dispatch.lean ====
section
/-! DEFINITION. The dispatch: one arm per instruction, each one direct call of its meaning. -/

namespace Sys2Proof.Machine

/-- The meaning of an instruction whose bytes or bits have been fetched. -/
def exec (i : Instr) (s : State) : Host.Outcome State Fault Refusal :=
  match i with
  | .tem => Sys2Proof.Machine.execTem s
  | .soi => Sys2Proof.Machine.execSoi s
  | .rst n => Sys2Proof.Machine.execRst n s
  | .eoi => Sys2Proof.Machine.execEoi s
  | .sof0 len d => Sys2Proof.Machine.execSof0 len d s
  | .sof2 => Sys2Proof.Machine.execSof2 s
  | .dht len d => Sys2Proof.Machine.execDht len d s
  | .sos len d => Sys2Proof.Machine.execSos len d s
  | .dqt len d => Sys2Proof.Machine.execDqt len d s
  | .dri len d => Sys2Proof.Machine.execDri len d s
  | .skipC1 len => Sys2Proof.Machine.execSkipC1 len s
  | .skipC3 len => Sys2Proof.Machine.execSkipC3 len s
  | .skipC5 len => Sys2Proof.Machine.execSkipC5 len s
  | .skipC6 n len => Sys2Proof.Machine.execSkipC6 n len s
  | .skipC8 n len => Sys2Proof.Machine.execSkipC8 n len s
  | .skipDC len => Sys2Proof.Machine.execSkipDC len s
  | .skipDE n len => Sys2Proof.Machine.execSkipDE n len s
  | .skipE0 n len => Sys2Proof.Machine.execSkipE0 n len s
  | .skipF0 n len => Sys2Proof.Machine.execSkipF0 n len s
  | .skipF8 n len => Sys2Proof.Machine.execSkipF8 n len s
  | .skipFC n len => Sys2Proof.Machine.execSkipFC n len s
  | .skipFE len => Sys2Proof.Machine.execSkipFE len s
  | .nonmarker w => Sys2Proof.Machine.execNonmarker w s
  | .dc hi size => Sys2Proof.Machine.execDc hi size s
  | .eob => Sys2Proof.Machine.execEob s
  | .zrl => Sys2Proof.Machine.execZrl s
  | .acReserved run => Sys2Proof.Machine.execAcReserved run s
  | .ac run size => Sys2Proof.Machine.execAc run size s
  | .v n f => Sys2Proof.Machine.execV n f s
  | .stuff b => Sys2Proof.Machine.execStuff b s
  | .construct callsign imageId quality source => Sys2Proof.Machine.execConstruct callsign imageId quality source s
  | .nextPacket => Sys2Proof.Machine.execNextPacket s

end Sys2Proof.Machine
end

