-- ==== Sys2Proof/Machine/Fetch.lean ====
section
/-! DEFINITION. Fetching: how the next source byte or the next bits of the window become an instruction. `Pull()`
(20_memory.md R63), the byte-level steps of the parser that assemble a marker and its segment (40_segment_parser.md
R120 to R122), the lookup and the value field of the transcoding step (41_entropy_decode.md R153). -/

namespace Sys2Proof.Machine

/-- What one fetch gives. -/
inductive Fetched where
  /-- An instruction is complete; the state has moved past its bytes or bits. -/
  | instr (i : Instr) (s : State)
  /-- A byte has been taken and no instruction is complete yet. -/
  | more (s : State)
  /-- A fatal condition of the fetch itself. -/
  | fatal (e : Reason) (s : State)
  /-- An address or index the spec's spaces do not have. -/
  | fault (f : Fault)
  deriving DecidableEq, Repr

/-- One byte of `Pull()` (20_memory.md R63): exhaustion first, then a stuffed byte, then a skipped payload's byte, else
the byte goes to `use`. -/
def pull (s : State) (use : Byte → State → Fetched) : Fetched :=
  if s.srcLen ≤ s.srcPos then .fatal .truncated s
  else
    let b := memRead s.src s.srcPos
    let s' := { s with srcPos := s.srcPos + 1 }
    if s'.stuffPending then .instr (.stuff b) s'
    else if 0 < s'.skipCnt then .more { s' with skipCnt := s'.skipCnt - 1 }
    else use b s'

/-- `ParserStep(b)` in state `MARKER`: the window slides; a marker with a length field goes on to `LEN`, any other
window is a whole instruction (40_segment_parser.md R120). -/
def markerByte (b : Byte) (s : State) : Fetched :=
  let w : Half := s.mkReg.extractLsb' 0 8 ++ b
  let s' := { s with mkReg := w }
  if hasLengthField w then .more { s' with pstate := .len, lenCnt := 2, segLen := 0 }
  else .instr (markerInstr w 0 []) s'

/-- The buffered payload, `SEGBUF[0 .. SEG_LEN−1]` (40_segment_parser.md R122). -/
def bufferedPayload (s : State) : List Byte := memReadN s.segbuf 0 s.segLen.toNat

/-- The length field `len` is complete (40_segment_parser.md R121): a length below 2 and a skipped marker are whole
instructions; a buffered segment's payload follows unless it is empty. -/
def lengthDone (len : Half) (s : State) : Fetched :=
  if isBufferedCode s.mkReg ∧ 2 ≤ len.toNat then
    if len = 2 then .instr (markerInstr s.mkReg len []) { s with segLen := 0, segCnt := 0 }
    else .more { s with segLen := len - 2, segCnt := 0, pstate := .data }
  else .instr (markerInstr s.mkReg len []) s

/-- `ParserStep(b)` in state `LEN` (40_segment_parser.md R121). -/
def lengthByte (b : Byte) (s : State) : Fetched :=
  let len : Half := s.segLen.extractLsb' 0 8 ++ b
  let s' := { s with segLen := len, lenCnt := s.lenCnt - 1 }
  if s'.lenCnt = 0 then lengthDone len s' else .more s'

/-- `ParserStep(b)` in state `DATA` (40_segment_parser.md R122). -/
def payloadStep (b : Byte) (s : State) : Fetched :=
  if Config.segbufCap ≤ s.segCnt then .fault .segmentAddress
  else
    let s' := { s with segbuf := memWrite s.segbuf s.segCnt b, segCnt := s.segCnt + 1 }
    if s'.segCnt = s'.segLen.toNat then .instr (markerInstr s'.mkReg (s'.segLen + 2) (bufferedPayload s')) s'
    else .more s'

/-- `Merge(Pull())` after `NEED_INPUT` (45_packet.md R235). -/
def needInput (s : State) : Fetched := pull s (fun b s => .more (merge b s))

/-- The Huffman code at the head of the window (41_entropy_decode.md R153, R154). -/
def fetchSymbol (s : State) : Fetched :=
  match sourceTable s with
  | none => .fault .tableEntry
  | some t =>
    match huffLookup t s.ibits s.ilen with
    | .found sym w => .instr (decodeSymbol (decide (s.k = 0)) sym) (consume w s)
    | .needInput => needInput s
    | .noMatch => .fatal .corrupt s
    | .noEntry => .fault .tableEntry

/-- The value field at the head of the window (41_entropy_decode.md R153, R161). -/
def fetchField (s : State) : Fetched :=
  if s.ilen < s.needbits.toNat then needInput s
  else
    .instr (.v s.needbits (BitVec.ofNat 15 (oldest s.ibits s.ilen s.needbits.toNat))) (consume s.needbits.toNat s)

/-- Fetch the next instruction of the source stream. In state `FINISH` none is fetched (45_packet.md R237): there the
instruction that runs is the `NEXT_PACKET` in progress. -/
def fetch (s : State) : Fetched :=
  match s.pstate with
  | .marker => pull s markerByte
  | .len => pull s lengthByte
  | .data => pull s payloadStep
  | .huff => fetchSymbol s
  | .int => fetchField s
  | .finish => .instr .nextPacket s

/-- One iteration of `NEXT_PACKET`'s loop as a fetch (45_packet.md R235): when the image is finished or the buffer is
full it is `NEXT_PACKET` itself that goes on, else the next instruction of the stream. -/
def fetchNext (s : State) : Fetched :=
  if s.pstate = .finish ∨ s.outCount = Config.payload then .instr .nextPacket s else fetch s

end Sys2Proof.Machine
end

