-- ==== Sys2Proof/Machine/Step.lean ====
section
/-! DEFINITION. One step of the machine: the next instruction is fetched and run, or one source byte of it is taken. -/

namespace Sys2Proof.Machine

/-- The outcome of a fetch: a complete instruction runs at once. -/
def Fetched.run : Fetched → Host.Outcome State Fault Refusal
  | .instr i s => exec i s
  | .more s => .next s
  | .fatal e s => .next (enterFatal e s)
  | .fault f => .fault f

/-- One step. While a `NEXT_PACKET` is in progress, one iteration of its loop (45_packet.md R235); otherwise the next
command of the host, or nothing: between two commands the state does not change (00_scope.md R8). -/
def step (s : State) : Host.Outcome State Fault Refusal :=
  if s.running then (fetchNext s).run
  else
    match s.hostq with
    | [] => .next s
    | c :: q => exec (decodeCommand c) { s with hostq := q }

/-- The parser as it stands after all but the last of the source bytes `l` of one instruction have been pulled
(40_segment_parser.md R120 to R122). -/
def State.atLastByte (s : State) (l : List Byte) : State :=
  let window : Half := l.getD 0 0 ++ l.getD 1 0
  if l.length ≤ 2 then { s with pstate := .marker, mkReg := (0x00 : Byte) ++ l.getD 0 0 }
  else if l.length ≤ 4 then
    { s with pstate := .len, mkReg := window, lenCnt := 1, segLen := (0x00 : Byte) ++ l.getD 2 0 }
  else
    { s with
      pstate := .data, mkReg := window, lenCnt := 0
      segLen := BitVec.ofNat 16 (l.length - 4), segCnt := l.length - 5
      segbuf := memStore s.segbuf 0 ((l.drop 4).take (l.length - 5)) }

/-- The source holds the bytes `l` of one instruction from `SRC_POS` on, all but the last of them pulled. -/
def State.withSourceBytes (s : State) (l : List Byte) : State :=
  { s.atLastByte l with
    src := memStore s.src s.srcPos l
    srcLen := max s.srcLen (s.srcPos + l.length)
    srcPos := s.srcPos + (l.length - 1) }

/-- Entropy mode inside a block, with one code of one bit in the window that stands for the AC symbol `sym`. -/
def State.withSymbol (s : State) (sym : Byte) : State :=
  { s with
    pstate := .huff
    k := if s.k = 0 then 1 else s.k
    comp := if s.comp ≤ 2 then s.comp else 0
    ta := ⟨0, 0, 0⟩
    shtAc := { s.shtAc with
      s0 := { valid := true, table := { count := 1 :: List.replicate 15 0, nsym := 1, sym := [sym] } } }
    ibits := 0, ilen := 1 }

/-- The instruction of an opcode-table word stored where the next step fetches: a `NEXT_PACKET` is in progress, the
packet buffer has room, nothing is pending, and the instruction's last byte, or its code, is next. It stands for the
host's `CONSTRUCT` with a source that holds the instruction (notes/assumptions/12.md). -/
def State.withFetchWord (s : State) (nbits w : Nat) : State :=
  let s' := { s with
    running := true
    stuffPending := false, skipCnt := 0
    outCount := if s.outCount = Config.payload then 0 else s.outCount }
  if nbits ≤ 8 then s'.withSymbol (BitVec.ofNat 8 (w % 2 ^ nbits))
  else s'.withSourceBytes (tableBytes (w % 2 ^ nbits))

end Sys2Proof.Machine
end

