-- ==== Sys2Proof/Safety.lean ====
section
/-! DEFINITION. What holds between any two steps (10_state.md R59), in the terms the statements use: the invariant, the
allowed control transfers, the outbound bit stream, and a command run to its end. -/

namespace Sys2Proof.Machine

/-- Two states agree on what only `CONSTRUCT` writes: the source, the ROM, the configuration registers and the
destination steps (10_state.md R56; 60_exceptions.md R278). -/
def sameConfig (s t : State) : Prop :=
  t.src = s.src ∧ t.srcLen = s.srcLen ∧ t.rom = s.rom ∧ t.callsignCode = s.callsignCode ∧ t.imageId = s.imageId
    ∧ t.quality = s.quality ∧ t.dqtDst = s.dqtDst

/-- Two states agree on the image parameters (10_state.md R33 to R39). -/
def sameImage (s t : State) : Prop :=
  t.haveFrame = s.haveFrame ∧ t.width = s.width ∧ t.height = s.height ∧ t.ncomp = s.ncomp ∧ t.mono = s.mono
    ∧ t.mode = s.mode ∧ t.yparts = s.yparts ∧ t.nunits = s.nunits ∧ t.tq = s.tq

/-- Two states agree on the source tables (10_state.md R42, R43), the scan registers (R40) and the restart interval
(R41). -/
def sameTables (s t : State) : Prop :=
  t.sqt = s.sqt ∧ t.shtDc = s.shtDc ∧ t.shtAc = s.shtAc ∧ t.scanOk = s.scanOk ∧ t.td = s.td ∧ t.ta = s.ta
    ∧ t.dri = s.dri

/-- Two states agree on the parser registers other than `PSTATE` (10_state.md R24 to R28). -/
def sameParser (s t : State) : Prop :=
  t.srcPos = s.srcPos ∧ t.mkReg = s.mkReg ∧ t.segLen = s.segLen ∧ t.lenCnt = s.lenCnt ∧ t.segbuf = s.segbuf
    ∧ t.segCnt = s.segCnt ∧ t.skipCnt = s.skipCnt ∧ t.stuffPending = s.stuffPending

/-- Two states agree on the coding cursor and the predictors (10_state.md R47 to R54). -/
def sameCursor (s t : State) : Prop :=
  t.cu = s.cu ∧ t.part = s.part ∧ t.comp = s.comp ∧ t.k = s.k ∧ t.dcraw = s.dcraw ∧ t.dcemit = s.dcemit
    ∧ t.acrle = s.acrle ∧ t.accrle = s.accrle ∧ t.needbits = s.needbits ∧ t.resetCu = s.resetCu

/-- Two states agree on the outbound accumulator, the packet buffer and its metadata (10_state.md R55, R56). -/
def sameOutput (s t : State) : Prop :=
  t.obits = s.obits ∧ t.olen = s.olen ∧ t.pktbuf = s.pktbuf ∧ t.outCount = s.outCount ∧ t.pktSeq = s.pktSeq
    ∧ t.pktCuIdx = s.pktCuIdx ∧ t.pktCuOff = s.pktCuOff ∧ t.nextCuIdx = s.nextCuIdx ∧ t.nextCuOff = s.nextCuOff

/-- Two states agree on the status flags (10_state.md R57) and the host's side of the model. -/
def sameStatus (s t : State) : Prop :=
  t.done = s.done ∧ t.failed = s.failed ∧ t.reason = s.reason ∧ t.running = s.running ∧ t.reply = s.reply
    ∧ t.hostq = s.hostq

/-- A header pair: the two sentinels together, or a real unit index with an offset inside the payload
(30_encoding.md R115). -/
def pairOk (idx : Half) (off : Byte) : Prop :=
  (idx = Config.noneIdx ∧ off = Config.noneOff) ∨ (idx ≠ Config.noneIdx ∧ off.toNat < Config.payload)

/-- Entropy mode: the next input is bits (10_state.md R23). -/
def PState.entropy : PState → Bool
  | .huff => true
  | .int => true
  | _ => false

/-- The image parameters of an accepted frame header (40_segment_parser.md R128, R130, R131). -/
structure FrameOk (s : State) : Prop where
  ncomp : s.ncomp = 1 ∨ s.ncomp = 3
  mono : s.mono = decide (s.ncomp = 1)
  yparts : s.yparts = Config.ypartsOf.getD s.mode.toNat 0
  layout : s.ncomp = 1 → s.mode = 3
  nunits : 1 ≤ s.nunits ∧ s.nunits ≤ Config.maxUnits
  width : 16 ≤ s.width.toNat ∧ s.width.toNat % 16 = 0
  height : 16 ≤ s.height.toNat ∧ s.height.toNat % 16 = 0

/-- Component `c` names source tables that are valid (10_state.md R59 (e)). -/
def tablesReady (s : State) (c : Nat) : Prop :=
  ((triGet? s.tq c).bind (fun t => pairGet? s.sqt t.toNat)).any StepSlot.valid
    ∧ ((triGet? s.td c).bind (fun t => pairGet? s.shtDc t.toNat)).any HuffSlot.valid
    ∧ ((triGet? s.ta c).bind (fun t => pairGet? s.shtAc t.toNat)).any HuffSlot.valid

/-- What holds of every state, failed or not. -/
structure StaticOk (s : State) : Prop where
  /-- The byte spaces are in canonical form (notes/assumptions/6.md). -/
  src : Memory.wf s.src
  segbuf : Memory.wf s.segbuf
  pktbuf : Memory.wf s.pktbuf
  /-- The ROM is one the spec accepts (93_implementation_defined.md U9). -/
  rom : s.rom.wellFormed
  /-- `DQT_DST` is what `CONSTRUCT` computed (42_rescale.md R182). -/
  steps : s.dqtDst = destinationSteps s.rom s.quality
  /-- `DONE` and `FAILED` are never both 1 (10_state.md R59 (h)). -/
  ended : ¬(s.done ∧ s.failed)
  /-- No command is in progress on an instance that has ended. -/
  running : s.running → s.done = false ∧ s.failed = false
  /-- `REASON` is 0 until a fatal condition and one of the codes 1 to 20 after (60_exceptions.md R266). -/
  reason : (s.failed = false → s.reason = 0) ∧ (s.failed → 1 ≤ s.reason.toNat ∧ s.reason.toNat ≤ 20)

/-- The cursor (10_state.md R59 (d), (f); 43_entropy_encode.md R197). -/
structure CursorOk (s : State) : Prop where
  /-- Outside entropy mode the cursor is at the start of a unit. -/
  outside : s.pstate.entropy = false → s.part = 0 ∧ s.comp = 0 ∧ s.k = 0 ∧ s.acrle = 0 ∧ s.accrle = 0
  /-- `PART` ≤ `YPARTS` + 1, `COMP` = `comp_of(PART)`, and a monochrome image reads part 0 only. -/
  inside : s.pstate.entropy →
    s.part ≤ s.yparts + 1 ∧ s.comp = compOf s.yparts s.part ∧ (s.mono → s.part = 0)
  /-- `K` ≤ 63. -/
  k : s.k ≤ 63
  /-- The zeros not yet written lie below `K`; in state `INT` the symbol's own run does too. -/
  zeros : s.pstate.entropy →
    (s.k = 0 → s.accrle = 0)
      ∧ (s.pstate = .huff → 1 ≤ s.k → s.accrle + 1 ≤ s.k)
      ∧ (s.pstate = .int → 1 ≤ s.k → s.accrle + s.acrle.toNat + 1 ≤ s.k)
  /-- In state `INT` a value field is awaited. -/
  needbits : s.pstate = .int → 1 ≤ s.needbits.toNat
  /-- `CU` < `NUNITS` until `FINISH`, where they are equal; 0 before a scan. -/
  cu : (s.scanOk = false → s.cu = 0) ∧ (s.haveFrame → s.pstate ≠ .finish → s.cu < s.nunits)
    ∧ (s.pstate = .finish → s.scanOk ∧ s.cu = s.nunits)

/-- The parser (40_segment_parser.md R120 to R122; 20_memory.md R63). -/
structure ParserOk (s : State) : Prop where
  len : s.pstate = .len → (s.lenCnt = 1 ∨ s.lenCnt = 2) ∧ hasLengthField s.mkReg
  data : s.pstate = .data → isBufferedCode s.mkReg ∧ s.segCnt < s.segLen.toNat ∧ s.segLen.toNat ≤ Config.segbufCap
  /-- A skipped payload is discarded in state `MARKER`, with no stuffed byte pending. -/
  skip : 0 < s.skipCnt → s.pstate = .marker ∧ s.stuffPending = false
  stuff : s.stuffPending → s.pstate ≠ .len ∧ s.pstate ≠ .data
  skipMax : s.skipCnt ≤ Config.segbufCap

/-- The accumulators and the packet buffer (10_state.md R55, R56, R59 (a), (b), (g); 43_entropy_encode.md R192). -/
structure OutputOk (s : State) : Prop where
  ilen : s.ilen ≤ 23
  ibits : s.ibits < 2 ^ s.ilen
  obits : s.obits < 2 ^ s.olen
  outCount : s.outCount ≤ Config.payload
  /-- Between the steps of a command at most 7 bits wait, or the buffer is full. -/
  waiting : s.running → s.olen < 8 ∨ s.outCount = Config.payload
  olen : s.olen ≤ 157
  /-- Between commands the buffer is empty. -/
  idle : s.running = false → s.outCount = 0
  /-- A deferred boundary means a full buffer. -/
  deferred : s.nextCuIdx ≠ Config.noneIdx → s.outCount = Config.payload
  pair : pairOk s.pktCuIdx s.pktCuOff
  nextPair : pairOk s.nextCuIdx s.nextCuOff
  /-- At the end of the image the outbound stream is byte aligned (45_packet.md R237). -/
  aligned : s.pstate = .finish → s.olen % 8 = 0
  done : s.done → s.pstate = .finish ∧ s.olen = 0
  pktSeq : s.pktSeq ≤ 65536

/-- The source tables (10_state.md R42, R43, R59 (e)). -/
structure TablesOk (s : State) : Prop where
  frame : s.haveFrame → FrameOk s
  scan : s.scanOk → s.haveFrame ∧ ∀ c, c < s.ncomp → tablesReady s c
  entropy : s.pstate.entropy → s.scanOk
  sqt : s.sqt.s0.steps.length = 64 ∧ s.sqt.s1.steps.length = 64
  shtDc : s.shtDc.s0.table.shaped ∧ s.shtDc.s1.table.shaped
  shtAc : s.shtAc.s0.table.shaped ∧ s.shtAc.s1.table.shaped

/-- The invariant of the machine. A failed instance is constrained only by the static part: nothing observes the rest
of it (20_memory.md R80). -/
structure Inv (s : State) : Prop where
  static : StaticOk s
  tables : s.failed = false → TablesOk s
  parser : s.failed = false → ParserOk s
  cursor : s.failed = false → CursorOk s
  output : s.failed = false → OutputOk s

/-- In entropy mode at most 7 bits of the window are older than the last byte asked for: a window that holds 8 or more
bits was too short without its newest byte (10_state.md R59 (c); 41_entropy_decode.md R152, R155). -/
def WindowOk (s : State) : Prop :=
  (s.pstate = .huff → s.ilen ≤ 7 ∨
    ∃ t, sourceTable s = some t ∧ huffLookup t (s.ibits / 256) (s.ilen - 8) = .needInput)
    ∧ (s.pstate = .int → s.ilen ≤ 7 ∨ s.ilen < s.needbits.toNat + 8)
    ∧ (s.pstate.entropy = false → s.ilen ≤ 7)

/-- The next step asks for a source byte: the parser does, and so does a Huffman code or a value field that the window
does not hold whole, `NEED_INPUT` (45_packet.md R235; 41_entropy_decode.md R153, R162). -/
def NeedsByte (s : State) : Prop :=
  (s.pstate.entropy = false ∧ s.pstate ≠ .finish)
    ∨ (s.pstate = .huff ∧ ∃ t, sourceTable s = some t ∧ huffLookup t s.ibits s.ilen = .needInput)
    ∨ (s.pstate = .int ∧ s.ilen < s.needbits.toNat)

/-- The next step runs a symbol or a value field: the window holds it whole (41_entropy_decode.md R153). -/
def WindowSuffices (s : State) : Prop :=
  (s.pstate = .huff ∧ ∃ t sym w, sourceTable s = some t ∧ huffLookup t s.ibits s.ilen = .found sym w)
    ∨ (s.pstate = .int ∧ s.needbits.toNat ≤ s.ilen)

/-- The changes of `PSTATE` that 44_cursor.md R222 lists. -/
def allowedTransfer : PState → PState → Bool
  | .marker, .len => true
  | .marker, .huff => true
  | .len, .data => true
  | .len, .marker => true
  | .data, .marker => true
  | .data, .huff => true
  | .huff, .int => true
  | .int, .huff => true
  | .huff, .marker => true
  | .int, .marker => true
  | .huff, .finish => true
  | .int, .finish => true
  | _, _ => false

/-- The `n` low bits of `x`, most significant first (20_memory.md R65). -/
def bitsOf (n x : Nat) : List Bool := (List.range n).map (fun i => x.testBit (n - 1 - i))

/-- The bits of the packet's payload so far, then those waiting in the accumulator: the outbound bit stream
(43_entropy_encode.md R191). -/
def outStream (s : State) : List Bool :=
  (memReadN s.pktbuf 0 s.outCount).flatMap (fun b => bitsOf 8 b.toNat) ++ bitsOf s.olen s.obits

/-- A bound on the steps that a command in progress can still take (70_reset_and_hazards.md R316): each source byte is
pulled at most once and brings at most 8 bits, each symbol or value field consumes at least one bit. -/
def stepsLeft (s : State) : Nat := 18 * (s.srcLen - s.srcPos) + 2 * s.ilen + if s.pstate = .int then 1 else 0

/-- A command run to its end: steps are taken while one is in progress. -/
def finishCommand : Nat → State → Host.Outcome State Fault Refusal
  | 0, s => .next s
  | n + 1, s =>
    if s.running then
      match step s with
      | .next t => finishCommand n t
      | .fault f => .fault f
      | .refused r => .refused r
    else .next s

/-- `n` steps, stopping at the first fault or refusal. -/
def stepN : Nat → State → Host.Outcome State Fault Refusal
  | 0, s => .next s
  | n + 1, s =>
    match step s with
    | .next t => stepN n t
    | .fault f => .fault f
    | .refused r => .refused r

/-- The parser after all the source bytes `l` of one marker or segment have been pulled, as the fetch leaves it for the
meaning: the marker in `MK`; the length bytes in `SEG_LEN`, less 2 where the payload is buffered; the payload in `SEGBUF`
(40_segment_parser.md R120 to R122). -/
def State.pulled (s : State) (l : List Byte) : State :=
  let window : Half := l.getD 0 0 ++ l.getD 1 0
  let len : Half := l.getD 2 0 ++ l.getD 3 0
  let s' := { s with srcPos := s.srcPos + l.length, mkReg := window }
  if l.length ≤ 2 then s'
  else if isBufferedCode window = true ∧ 2 ≤ len.toNat then
    { s' with
      pstate := if len = 2 then .len else .data
      lenCnt := 0, segLen := len - 2, segCnt := len.toNat - 2, segbuf := memStore s.segbuf 0 (l.drop 4) }
  else { s' with pstate := .len, lenCnt := 0, segLen := len }

/-- The state after `Emit` wrote the code and, where there is one, the value field (43_entropy_encode.md R188). -/
def emitted (code w : Nat) (v : Int) (s : State) : State :=
  if (vencode v).2 = 0 then outBits code w s else outBits (vencode v).1 (vencode v).2 (outBits code w s)

/-- An outcome is the end of a block whose last symbol has been written in `b` (44_cursor.md R208 to R210). Inside a unit
the next block begins; at the unit's end `UnitEnd` runs; in a monochrome image two chroma blocks of "no change" and "all
zero" are written first, with the chroma tables. -/
def BlockEnds (b : State) (o : Host.Outcome State Fault Refusal) : Prop :=
  (¬(b.mono = true ∧ b.part + 1 = b.yparts) → b.part + 1 ≠ b.yparts + 2 →
    o = .next { b with
      part := b.part + 1, comp := if b.part + 1 < b.yparts then 0 else b.part + 1 - b.yparts + 1
      k := 0, acrle := 0, accrle := 0 })
  ∧ (¬(b.mono = true ∧ b.part + 1 = b.yparts) → b.part + 1 = b.yparts + 2 →
    o = .next (unitEnd { b with part := b.part + 1, k := 0, acrle := 0, accrle := 0 }))
  ∧ (b.mono = true → b.part + 1 = b.yparts → ∀ dc dw ac aw,
    huffEncode b.rom.dhtDc.s1 0x00 = some (dc, dw) → huffEncode b.rom.dhtAc.s1 0x00 = some (ac, aw) →
    o = .next (unitEnd { outBits ac aw (outBits dc dw (outBits ac aw (outBits dc dw b))) with
      part := b.yparts + 2, comp := 2, k := 0, acrle := 0, accrle := 0 }))

/-- Slot `i` of two is there and valid; a slot number above 1 names none (40_segment_parser.md R134). -/
def slotValid (v0 v1 : Bool) (i : Nat) : Prop := (i = 0 ∧ v0 = true) ∨ (i = 1 ∧ v1 = true)

/-- The numbers of one DC step for a delta `v`: `raw` the new source-side predictor, `new` the value in destination
units, `diff` the difference to be written against the reset point or the value last written (42_rescale.md R172,
44_cursor.md R215). -/
def DcNumbers (s : State) (v raw new diff : Int) : Prop :=
  ∃ src dst old last,
    sourceStep s 0 = some src ∧ destStep s 0 = some dst ∧ triGet? s.dcraw s.comp = some old
      ∧ triGet? s.dcemit s.comp = some last
      ∧ raw = (if src = dst then old.toInt + v else old.toInt + v * src.toNat)
      ∧ new = (if src = dst then raw else rdiv raw dst.toNat)
      ∧ diff = new - (if s.cu = s.resetCu ∧ (s.part = 0 ∨ s.yparts ≤ s.part) then 0 else last.toInt)

/-- One definition of a `DHT` payload (30_encoding.md R98). -/
structure HuffDef where
  cls : BitVec 4
  idx : BitVec 4
  counts : List Byte
  syms : List Byte
  deriving DecidableEq, Repr

/-- The bytes of a definition: tag, sixteen counts, symbols. -/
def HuffDef.bytes (h : HuffDef) : List Byte := (h.cls ++ h.idx) :: h.counts ++ h.syms

/-- A definition the parser stores or discards without complaint (40_segment_parser.md R138). -/
def HuffDef.ok (h : HuffDef) : Prop :=
  h.cls.toNat ≤ 1 ∧ h.counts.length = 16 ∧ h.syms.length = countSum h.counts ∧ h.syms.length ≤ 256

/-- The slot contents a definition gives. -/
def HuffDef.slot (h : HuffDef) : HuffSlot :=
  { valid := true, table := { count := h.counts, nsym := h.syms.length, sym := h.syms } }

/-- The host asks for one packet: the command is issued and run to its end. -/
def requestPacket (s : State) : Host.Outcome State Fault Refusal :=
  match exec .nextPacket s with
  | .next t => finishCommand (stepsLeft t + 1) t
  | .fault f => .fault f
  | .refused r => .refused r

/-- What the host gets from `n` requests in a row (45_packet.md R256). -/
def replies : Nat → State → List Reply
  | 0, _ => []
  | n + 1, s =>
    match requestPacket s with
    | .next t => t.reply.toList ++ replies n t
    | _ => []

/-- A whole packet: 256 bytes, sequence number `i`, a checksum that verifies, the end-of-image flag as told
(45_packet.md R240 to R252). -/
def packetOk (i : Nat) (eoi : Bool) (p : List Byte) : Prop :=
  p.length = 256 ∧ p.getD 7 0 ++ p.getD 8 0 = BitVec.ofNat 16 i ∧ (p.getD 11 0).getLsbD 2 = eoi
    ∧ p.drop 252 = wordBytes (crc32 ((p.take 252).drop 1))

end Sys2Proof.Machine
end

