-- ==== Sys2Proof/Certificates/Slice0/Obligations.lean ====
section
/-! DEFINITION. The statements for the provers. A statement that gives a next state as a record update of `s` says the
whole frame with it: every register it does not name, and every byte of every space it does not name, is as before. -/

open Sys2Proof Sys2Proof.Machine

/-! Encodings. -/

/-- Decoding what the encoder wrote for a well-formed instruction gives that instruction back, whatever its operands.
Followed here are the spec's own decisions D3, D4 (92_eei_decisions.md; notes/assumptions/13.md). -/
def Obligations.DecodeInvertsEncode : Prop :=
  ∀ i : Instr, wellFormed i = true → decode (encode i) = .ok i

/-- Every code that decodes is the code of one well-formed instruction: nothing else decodes to it. Followed here are
the spec's own decisions D3, D4 (92_eei_decisions.md; notes/assumptions/13.md). -/
def Obligations.EncodeInvertsDecode : Prop :=
  ∀ (c : Code) (i : Instr), decode c = .ok i → wellFormed i = true ∧ encode i = c

/-- The markers are 0xFF01 and 0xFFC0 to 0xFFFE; the class (c) codes are those of them that no other row names.
Followed here are the spec's own decisions D3, D4 (92_eei_decisions.md; notes/assumptions/13.md). -/
def Obligations.MarkerCodesAreRanges : Prop :=
  ∀ w : Half,
    (isMarker w = true ↔ w = 0xFF01 ∨ (0xFFC0 ≤ w.toNat ∧ w.toNat ≤ 0xFFFE))
    ∧ (isSkipCode w = true ↔
        (0xFFC0 ≤ w.toNat ∧ w.toNat ≤ 0xFFFE) ∧ ¬(0xFFD0 ≤ w.toNat ∧ w.toNat ≤ 0xFFD7)
          ∧ w ≠ 0xFFC0 ∧ w ≠ 0xFFC2 ∧ w ≠ 0xFFC4 ∧ w ≠ 0xFFD8 ∧ w ≠ 0xFFD9 ∧ w ≠ 0xFFDA ∧ w ≠ 0xFFDB ∧ w ≠ 0xFFDD)

/-- A few words written out from the encoding tables decode to the instructions they stand for. Followed here are the
spec's own decisions D3, D4, D7 (92_eei_decisions.md; notes/assumptions/13.md). -/
def Obligations.WordsDecode : Prop :=
  decode (.bytes [0xFF, 0x01]) = .ok .tem
  ∧ decode (.bytes [0xFF, 0xD3]) = .ok (.rst 3)
  ∧ decode (.bytes [0xFF, 0xDD, 0x00, 0x04, 0x00, 0x03]) = .ok (.dri 4 [0x00, 0x03])
  ∧ decode (.bytes [0xFF, 0xE5, 0x00, 0x07]) = .ok (.skipE0 5 7)
  ∧ decode (.bytes [0xFF, 0xFF]) = .ok (.nonmarker 0xFFFF)
  ∧ decode (.symbol true 0x53) = .ok (.dc 5 3)
  ∧ decode (.symbol false 0x12) = .ok (.ac 1 2)
  ∧ decode (.symbol false 0x30) = .ok (.acReserved 3)
  ∧ decode (.field 3 5) = .ok (.v 3 5)

/-! Fetching. -/

/-- A step runs the decoded instruction. While a command is in progress and neither the end of the image nor a full
buffer is reached: a marker whose second byte is the next source byte runs as soon as that byte is pulled; a symbol
runs when its code is in the window, a value field when its bits are; a window that no code of the table matches is
`E_CORRUPT`. Where a byte is needed, by the parser or by a window that is too short: without one it is `E_TRUNCATED`;
a pending stuffed byte runs when it is pulled; a byte of a skipped payload is discarded; in entropy mode any other
byte is merged into the window, and nothing else changes. At the end of the image and with a full buffer the
`NEXT_PACKET` in progress goes on. Between commands the host's next command runs, and where the host has issued none
nothing changes. Followed here are the spec's own decisions D13, D14, D29, D36 (92_eei_decisions.md;
notes/assumptions/13.md). The model's own choices in it: notes/assumptions/4.md, notes/assumptions/5.md and
notes/assumptions/8.md. -/
def Obligations.StepRunsDecoded : Prop :=
  ∀ (s : State) (i : Instr),
    let b := memRead s.src s.srcPos
    (s.running = true → s.pstate ≠ .finish → s.outCount ≠ 237 →
      (s.pstate = .marker → s.srcPos < s.srcLen → s.stuffPending = false → s.skipCnt = 0 →
        hasLengthField (s.mkReg.extractLsb' 0 8 ++ b) = false →
        decode (.bytes (halfBytes (s.mkReg.extractLsb' 0 8 ++ b))) = .ok i →
        step s = exec i { s with srcPos := s.srcPos + 1, mkReg := s.mkReg.extractLsb' 0 8 ++ b })
      ∧ (∀ t, s.pstate = .huff → sourceTable s = some t →
          (∀ sym w, huffLookup t s.ibits s.ilen = .found sym w →
            decode (.symbol (decide (s.k = 0)) sym) = .ok i → step s = exec i (consume w s))
          ∧ (huffLookup t s.ibits s.ilen = .noMatch → step s = .next { s with
              failed := true, reason := 9, running := false, reply := some (.fatal 9) }))
      ∧ (s.pstate = .int → s.needbits.toNat ≤ s.ilen →
          decode (.field s.needbits (BitVec.ofNat 15 (oldest s.ibits s.ilen s.needbits.toNat))) = .ok i →
          step s = exec i (consume s.needbits.toNat s))
      ∧ (NeedsByte s → s.srcLen ≤ s.srcPos → step s = .next { s with
          failed := true, reason := 10, running := false, reply := some (.fatal 10) })
      ∧ (NeedsByte s → s.srcPos < s.srcLen →
          (s.stuffPending = true → decode (.stuffed b) = .ok i → step s = exec i { s with srcPos := s.srcPos + 1 })
          ∧ (s.stuffPending = false → 0 < s.skipCnt →
              step s = .next { s with srcPos := s.srcPos + 1, skipCnt := s.skipCnt - 1 })
          ∧ (s.stuffPending = false → s.skipCnt = 0 → s.pstate.entropy = true → step s = .next { s with
              srcPos := s.srcPos + 1, ibits := s.ibits * 256 + b.toNat, ilen := s.ilen + 8
              stuffPending := b == 0xFF })))
    ∧ (s.running = true → (s.pstate = .finish ∨ s.outCount = 237) → step s = exec .nextPacket s)
    ∧ (∀ c q, s.running = false → s.hostq = c :: q → decode (.command c) = .ok i →
        step s = exec i { s with hostq := q })
    ∧ (s.running = false → s.hostq = [] → step s = .next s)

/-- A whole marker or segment in the source runs as one instruction. In state `MARKER`, with nothing pending and a
buffer that is not full, if the source holds the bytes `l` from `SRC_POS` on and `l` decodes to the instruction `i` of
a marker, then the machine takes one step a byte and the last of them is `exec i`, on the state in which those bytes
have been pulled: `MK` is the marker; with a length field, `SEG_LEN` and `LEN_CNT` hold what the length bytes left;
with a payload, `SEGBUF` holds it. Followed here are the spec's own decisions D4, D12 (92_eei_decisions.md;
notes/assumptions/13.md). The model's own choices in it: notes/assumptions/5.md. -/
def Obligations.SourceBytesRunAsInstruction : Prop :=
  ∀ (s : State) (l : List Byte) (i : Instr),
    s.running = true → s.pstate = .marker → s.outCount ≠ 237 → s.stuffPending = false → s.skipCnt = 0 →
    Memory.wf s.segbuf = true → s.srcPos + l.length ≤ s.srcLen → memReadN s.src s.srcPos l.length = l →
    decode (.bytes l) = .ok i → isMarker (l.getD 0 0 ++ l.getD 1 0) = true →
    stepN l.length s = exec i (s.pulled l)

/-- `Pull()`: exhaustion is tested first, then a pending stuffed byte is taken and checked, then a byte of a skipped
payload is discarded, else the byte goes on; each byte pulled moves `SRC_POS` by one. Followed here are the spec's own
decisions D13, D14 (92_eei_decisions.md; notes/assumptions/13.md). The model's own choices in it:
notes/assumptions/4.md, notes/assumptions/5.md and notes/assumptions/8.md. -/
def Obligations.PullRule : Prop :=
  ∀ (s : State) (use : Byte → State → Fetched),
    (s.srcLen ≤ s.srcPos → (pull s use).run = .next { s with
        failed := true, reason := 10, running := false, reply := some (.fatal 10) })
    ∧ (s.srcPos < s.srcLen →
        (s.stuffPending = true →
          (memRead s.src s.srcPos = 0 →
            (pull s use).run = .next { s with srcPos := s.srcPos + 1, stuffPending := false })
          ∧ (memRead s.src s.srcPos ≠ 0 →
            (pull s use).run = .next { s with
              srcPos := s.srcPos + 1, stuffPending := false
              failed := true, reason := 18, running := false, reply := some (.fatal 18) }))
        ∧ (s.stuffPending = false →
          (0 < s.skipCnt →
            (pull s use).run = .next { s with srcPos := s.srcPos + 1, skipCnt := s.skipCnt - 1 })
          ∧ (s.skipCnt = 0 → pull s use = use (memRead s.src s.srcPos) { s with srcPos := s.srcPos + 1 })))

/-- The inbound window is a queue of bits. `Merge` appends the byte's eight bits, most significant first, and a byte
0xFF announces a stuffed byte; `Consume` removes the oldest bits; the value read at the head of the window is the
number the oldest bits spell. Nothing else changes. Followed here is the spec's own decision D13 (92_eei_decisions.md;
notes/assumptions/13.md). -/
def Obligations.InboundWindowIsQueue : Prop :=
  ∀ (s : State) (b : Byte) (n : Nat),
    (bitsOf (merge b s).ilen (merge b s).ibits = bitsOf s.ilen s.ibits ++ bitsOf 8 b.toNat
      ∧ merge b s = { s with
          ibits := (merge b s).ibits, ilen := s.ilen + 8
          stuffPending := if b = 0xFF then true else s.stuffPending })
    ∧ (n ≤ s.ilen →
        bitsOf (consume n s).ilen (consume n s).ibits = (bitsOf s.ilen s.ibits).drop n
        ∧ consume n s = { s with ibits := (consume n s).ibits, ilen := s.ilen - n }
        ∧ (consume n s).ibits < 2 ^ (s.ilen - n)
        ∧ bitsOf n (oldest s.ibits s.ilen n) = (bitsOf s.ilen s.ibits).take n)

/-! Codes and value fields. -/

/-- The decode is a function of the table and the window: a match does not depend on the bits that follow it, a
failure stays one and needs 16 bits, and after more input was asked for a match lies beyond the old window. -/
def Obligations.LookupIgnoresLaterBits : Prop :=
  ∀ (t : HuffTable) (bits len x m : Nat), bits < 2 ^ len → x < 2 ^ m →
    (∀ sym w, huffLookup t bits len = .found sym w → huffLookup t (bits * 2 ^ m + x) (len + m) = .found sym w)
    ∧ (huffLookup t bits len = .noMatch →
        (t.count.length = 16 → 16 ≤ len) ∧ huffLookup t (bits * 2 ^ m + x) (len + m) = .noMatch)
    ∧ (huffLookup t bits len = .needInput →
        ∀ sym w, huffLookup t (bits * 2 ^ m + x) (len + m) = .found sym w → len < w)

/-- For a table that is a prefix code, looking up the code that the encoder gives a symbol finds that symbol and
exactly the code's bits; every symbol of the table has a code. -/
def Obligations.LookupInvertsEncode : Prop :=
  ∀ (t : HuffTable) (sym : Byte), t.wellFormed = true →
    (sym ∈ t.sym ↔ (huffEncode t sym).isSome = true)
    ∧ ∀ code w, huffEncode t sym = some (code, w) →
        1 ≤ w ∧ w ≤ 16 ∧ code < 2 ^ w ∧ huffLookup t code w = .found sym w

/-- Value fields. A field of `n` bits whose top bit is 1 is its own value, another is that value less 2^n − 1; the
size of a value is the width of its magnitude, its field the value itself, or the value plus 2^n − 1 where it is
negative. Fields and values correspond one to one, in the ranges of the width, and no field of one bit or more is 0.
-/
def Obligations.ValueFieldsRoundTrip : Prop :=
  (∀ f n : Nat, 1 ≤ n → f < 2 ^ n →
    (2 ^ (n - 1) ≤ f → vdecode f n = f)
    ∧ (f < 2 ^ (n - 1) → vdecode f n = (f : Int) - (2 ^ n - 1)
        ∧ -(2 ^ n - 1 : Int) ≤ vdecode f n ∧ vdecode f n ≤ -(2 ^ (n - 1) : Int))
    ∧ vdecode f n ≠ 0
    ∧ vencode (vdecode f n) = (f, n))
  ∧ ∀ v : Int,
    (vencode v).2 = bitlen v.natAbs
    ∧ ((vencode v).1 : Int) = (if 0 ≤ v then v else v + (2 ^ bitlen v.natAbs - 1))
    ∧ vdecode (vencode v).1 (vencode v).2 = v

/-! Markers and segments. -/

/-- `TEM`, `SOI` and a window that is no marker complete in every state and change nothing. Followed here are the
spec's own decisions D4, D5 (92_eei_decisions.md; notes/assumptions/13.md). -/
def Obligations.StandaloneMarkersDoNothing : Prop :=
  ∀ s : State, exec .tem s = .next s ∧ exec .soi s = .next s ∧ ∀ w, exec (.nonmarker w) s = .next s

/-- The restart marker, whatever its number: after a scan header it clears the source-side predictors, the cursor
inside the unit and the inbound accumulator and resumes entropy mode, and changes nothing else; before one it is
`E_SEQUENCE`. Followed here are the spec's own decisions D12, D17, D32 (92_eei_decisions.md; notes/assumptions/13.md).
The model's own choices in it: notes/assumptions/4.md and notes/assumptions/8.md. -/
def Obligations.RestartMarker : Prop :=
  ∀ (n : BitVec 3) (s : State),
    (s.scanOk = true → exec (.rst n) s = .next { s with
      dcraw := ⟨0, 0, 0⟩, part := 0, comp := 0, k := 0, acrle := 0, accrle := 0, needbits := 0
      ibits := 0, ilen := 0, pstate := .huff })
    ∧ (s.scanOk = false → exec (.rst n) s = .next { s with
        failed := true, reason := 12, running := false, reply := some (.fatal 12) })

/-- An end-of-image marker seen by the parser is `E_TRUNCATED` and a progressive frame header is `E_PROGRESSIVE`,
wherever they appear; neither writes anything else. Followed here are the spec's own decisions D6, D29
(92_eei_decisions.md; notes/assumptions/13.md). The model's own choices in it: notes/assumptions/4.md and
notes/assumptions/8.md. -/
def Obligations.RejectedMarkers : Prop :=
  ∀ s : State,
    exec .eoi s = .next { s with failed := true, reason := 10, running := false, reply := some (.fatal 10) }
    ∧ exec .sof2 s = .next { s with failed := true, reason := 1, running := false, reply := some (.fatal 1) }

/-- Every skipped marker, whatever its code: after a length of 2 or more the declared payload is left for `Pull()` to
discard and the parser looks for the next marker; a length of 0 or 1 is `E_SEGMENT_LENGTH`, and so it is for the five
buffered segments. Nothing else changes. Followed here are the spec's own decisions D12, D29 (92_eei_decisions.md;
notes/assumptions/13.md). The model's own choices in it: notes/assumptions/4.md and notes/assumptions/8.md. -/
def Obligations.SegmentLengths : Prop :=
  ∀ (s : State) (len : Half) (n1 : BitVec 1) (n2 : BitVec 2) (n3 : BitVec 3) (n4 : BitVec 4) (d : List Byte),
    (∀ i ∈ [Instr.skipC1 len, .skipC3 len, .skipC5 len, .skipC6 n1 len, .skipC8 n3 len, .skipDC len, .skipDE n1 len,
        .skipE0 n4 len, .skipF0 n3 len, .skipF8 n2 len, .skipFC n1 len, .skipFE len],
      (2 ≤ len.toNat →
        exec i s = .next { s with segLen := len - 2, skipCnt := len.toNat - 2, pstate := .marker })
      ∧ (len.toNat < 2 → exec i s = .next { s with
          failed := true, reason := 11, running := false, reply := some (.fatal 11) }))
    ∧ (∀ i ∈ [Instr.sof0 len d, .dht len d, .sos len d, .dqt len d, .dri len d],
        len.toNat < 2 → exec i s = .next { s with
          failed := true, reason := 11, running := false, reply := some (.fatal 11) })

/-- A monochrome frame header with legal fields is accepted: the image parameters are set, the layout is the fixed
monochrome one whatever the (supported) sampling byte, and nothing else changes but `PSTATE`. Followed here are the
spec's own decisions D7, D8, D9 (92_eei_decisions.md; notes/assumptions/13.md). -/
def Obligations.FrameHeaderMonochrome : Prop :=
  ∀ (s : State) (len h w : Half) (id samp tq : Byte) (rest : List Byte),
    2 ≤ len.toNat → s.haveFrame = false →
    16 ≤ h.toNat → h.toNat ≤ 4080 → h.toNat % 16 = 0 → 16 ≤ w.toNat → w.toNat ≤ 4080 → w.toNat % 16 = 0 →
    (samp = 0x22 ∨ samp = 0x12 ∨ samp = 0x21 ∨ samp = 0x11) → w.toNat * h.toNat / 64 ≤ 65535 →
    exec (.sof0 len ([8] ++ halfBytes h ++ halfBytes w ++ [1, id, samp, tq] ++ rest)) s = .next { s with
      width := w.setWidth 12, height := h.setWidth 12, ncomp := 1, mono := true, mode := 3, yparts := 1
      nunits := w.toNat * h.toNat / 64, tq := ⟨tq, 0, 0⟩, haveFrame := true, pstate := .marker }

/-- A three-component frame header with legal fields is accepted: the luma sampling byte selects the mode, the number
of luma parts and the pixels of a unit. Followed here are the spec's own decisions D7, D8 (92_eei_decisions.md;
notes/assumptions/13.md). -/
def Obligations.FrameHeaderColour : Prop :=
  ∀ (s : State) (len h w : Half) (i0 i1 i2 samp t0 t1 t2 : Byte) (mode : BitVec 2) (yparts area : Nat)
    (rest : List Byte),
    2 ≤ len.toNat → s.haveFrame = false →
    16 ≤ h.toNat → h.toNat ≤ 4080 → h.toNat % 16 = 0 → 16 ≤ w.toNat → w.toNat ≤ 4080 → w.toNat % 16 = 0 →
    ((samp, mode, yparts, area) = ((0x22 : Byte), (0 : BitVec 2), 4, 256)
      ∨ (samp, mode, yparts, area) = ((0x12 : Byte), (1 : BitVec 2), 2, 128)
      ∨ (samp, mode, yparts, area) = ((0x21 : Byte), (2 : BitVec 2), 2, 128)
      ∨ (samp, mode, yparts, area) = ((0x11 : Byte), (3 : BitVec 2), 1, 64)) →
    w.toNat * h.toNat / area ≤ 65535 →
    exec (.sof0 len ([8] ++ halfBytes h ++ halfBytes w ++ [3, i0, samp, t0, i1, 0x11, t1, i2, 0x11, t2] ++ rest)) s
      = .next { s with
        width := w.setWidth 12, height := h.setWidth 12, ncomp := 3, mono := false, mode := mode, yparts := yparts
        nunits := w.toNat * h.toNat / area, tq := ⟨t0, t1, t2⟩, haveFrame := true, pstate := .marker }

/-- The frame header's checks, in their order: a second header; fewer than 6 bytes; a precision that is not 8; a count
that is not 1 or 3; a dimension that is 0, above 4080 or not a multiple of 16; a payload shorter than its components;
a luma sampling byte that is none of the four; in a three-component header a chroma sampling byte that is not 0x11;
more than 65535 coding units. The first check that fails gives the reason, and no image parameter is written; a header
that passes them all is accepted. Followed here are the spec's own decisions D7, D8, D9, D12, D29, D38
(92_eei_decisions.md; notes/assumptions/13.md). The model's own choices in it: notes/assumptions/4.md and
notes/assumptions/8.md. -/
def Obligations.FrameHeaderCheckOrder : Prop :=
  ∀ (s : State) (len : Half) (d : List Byte), 2 ≤ len.toNat →
    let fatal (c : BitVec 5) : Prop := exec (.sof0 len d) s = .next { s with
      pstate := .marker, failed := true, reason := c, running := false, reply := some (.fatal c) }
    let b (j : Nat) : Byte := d.getD j 0
    let h : Half := b 1 ++ b 2
    let w : Half := b 3 ++ b 4
    let area : Nat := if b 5 = 1 then 64 else if b 7 = 0x22 then 256 else if b 7 = 0x11 then 64 else 128
    if s.haveFrame = true then fatal 12
    else if d.length < 6 then fatal 11
    else if b 0 ≠ 8 then fatal 2
    else if b 5 ≠ 1 ∧ b 5 ≠ 3 then fatal 3
    else if w = 0 ∨ h = 0 ∨ 4080 < w.toNat ∨ 4080 < h.toNat ∨ w.toNat % 16 ≠ 0 ∨ h.toNat % 16 ≠ 0 then fatal 4
    else if d.length < 6 + 3 * (b 5).toNat then fatal 11
    else if b 7 ≠ 0x22 ∧ b 7 ≠ 0x12 ∧ b 7 ≠ 0x21 ∧ b 7 ≠ 0x11 then fatal 5
    else if b 5 = 3 ∧ (b 10 ≠ 0x11 ∨ b 13 ≠ 0x11) then fatal 5
    else if 65535 < w.toNat * h.toNat / area then fatal 6
    else ∃ t, exec (.sof0 len d) s = .next t ∧ t.haveFrame = true ∧ t.failed = s.failed
      ∧ t.nunits = w.toNat * h.toNat / area ∧ 1 ≤ t.nunits

/-- A scan header that names as many components as the frame, each with valid tables, is accepted: the Huffman slots
of its components are set, the cursor, the predictors and the inbound accumulator start from zero, and entropy mode
begins. The selector bytes and whatever follows the components are not looked at, and nothing else changes. Followed
here are the spec's own decisions D7, D10 (92_eei_decisions.md; notes/assumptions/13.md). -/
def Obligations.ScanHeaderAccepted : Prop :=
  ∀ (s : State) (len : Half) (c0 c1 c2 : Byte) (d0 d1 d2 a0 a1 a2 : BitVec 4) (rest : List Byte),
    2 ≤ len.toNat → s.haveFrame = true → s.scanOk = false →
    slotValid s.sqt.s0.valid s.sqt.s1.valid s.tq.c0.toNat →
    slotValid s.shtDc.s0.valid s.shtDc.s1.valid d0.toNat → slotValid s.shtAc.s0.valid s.shtAc.s1.valid a0.toNat →
    (s.ncomp = 1 →
      exec (.sos len ([1, c0, d0 ++ a0] ++ rest)) s = .next { s with
        td := ⟨d0, s.td.c1, s.td.c2⟩, ta := ⟨a0, s.ta.c1, s.ta.c2⟩, scanOk := true
        cu := 0, part := 0, comp := 0, k := 0, dcraw := ⟨0, 0, 0⟩, dcemit := ⟨0, 0, 0⟩
        acrle := 0, accrle := 0, needbits := 0, ibits := 0, ilen := 0, pstate := .huff })
    ∧ (s.ncomp = 3 →
      slotValid s.sqt.s0.valid s.sqt.s1.valid s.tq.c1.toNat → slotValid s.sqt.s0.valid s.sqt.s1.valid s.tq.c2.toNat →
      slotValid s.shtDc.s0.valid s.shtDc.s1.valid d1.toNat → slotValid s.shtDc.s0.valid s.shtDc.s1.valid d2.toNat →
      slotValid s.shtAc.s0.valid s.shtAc.s1.valid a1.toNat → slotValid s.shtAc.s0.valid s.shtAc.s1.valid a2.toNat →
      exec (.sos len ([3, c0, d0 ++ a0, c1, d1 ++ a1, c2, d2 ++ a2] ++ rest)) s = .next { s with
        td := ⟨d0, d1, d2⟩, ta := ⟨a0, a1, a2⟩, scanOk := true
        cu := 0, part := 0, comp := 0, k := 0, dcraw := ⟨0, 0, 0⟩, dcemit := ⟨0, 0, 0⟩
        acrle := 0, accrle := 0, needbits := 0, ibits := 0, ilen := 0, pstate := .huff })

/-- The scan header's checks, in their order: no frame header yet; a second scan header; an empty payload; a count
that is not 1 or 3 or not the frame's; a payload shorter than its components; a coefficient, DC or AC table that is
missing. The first check that fails gives the reason, and no scan register is written. Followed here are the spec's
own decisions D7, D10, D12, D29, D38 (92_eei_decisions.md; notes/assumptions/13.md). The model's own choices in it:
notes/assumptions/4.md and notes/assumptions/8.md. -/
def Obligations.ScanHeaderCheckOrder : Prop :=
  ∀ (s : State) (len : Half) (d : List Byte), 2 ≤ len.toNat →
    let fatal (c : BitVec 5) : Prop := exec (.sos len d) s = .next { s with
      pstate := .marker, failed := true, reason := c, running := false, reply := some (.fatal c) }
    let ns : Nat := (d.getD 0 0).toNat
    let tables (j : Nat) (tq : Byte) : Prop :=
      slotValid s.sqt.s0.valid s.sqt.s1.valid tq.toNat
      ∧ slotValid s.shtDc.s0.valid s.shtDc.s1.valid ((d.getD (2 + 2 * j) 0).toNat / 16)
      ∧ slotValid s.shtAc.s0.valid s.shtAc.s1.valid ((d.getD (2 + 2 * j) 0).toNat % 16)
    (s.haveFrame = false → fatal 15)
    ∧ (s.haveFrame = true → s.scanOk = true → fatal 12)
    ∧ (s.haveFrame = true → s.scanOk = false → d = [] → fatal 11)
    ∧ (s.haveFrame = true → s.scanOk = false → d ≠ [] → (ns ≠ 1 ∧ ns ≠ 3) ∨ ns ≠ s.ncomp → fatal 3)
    ∧ (s.haveFrame = true → s.scanOk = false → d ≠ [] → (ns = 1 ∨ ns = 3) → ns = s.ncomp →
        (d.length < 1 + 2 * ns → fatal 11)
        ∧ (1 + 2 * ns ≤ d.length →
            ¬(tables 0 s.tq.c0 ∧ (ns = 3 → tables 1 s.tq.c1 ∧ tables 2 s.tq.c2)) → fatal 7))

/-- A `DQT` payload of whole definitions stores each one's 64 steps, in the order they arrive, in the slot it names; a
slot number above 1 is parsed and discarded, a later definition of a slot replaces an earlier one, an empty payload
defines nothing. Nothing else changes but `PSTATE`. Followed here is the spec's own decision D11 (92_eei_decisions.md;
notes/assumptions/13.md). -/
def Obligations.CoefficientTableDefinitions : Prop :=
  ∀ (s : State) (len : Half) (defs : List (BitVec 4 × List Byte)),
    2 ≤ len.toNat → (∀ e ∈ defs, e.2.length = 64) →
    exec (.dqt len (defs.flatMap (fun e => (0#4 ++ e.1) :: e.2))) s = .next { s with
      pstate := .marker
      sqt := defs.foldl
        (fun q e =>
          if e.1 = 0 then { q with s0 := { valid := true, steps := e.2 } }
          else if e.1 = 1 then { q with s1 := { valid := true, steps := e.2 } }
          else q)
        s.sqt }

/-- A `DHT` payload of whole definitions stores each one's counts and symbols in the slot of its class and index; an
index above 1 is parsed and discarded, a later definition of a slot replaces an earlier one, an empty payload defines
nothing. Nothing else changes but `PSTATE`. Followed here is the spec's own decision D11 (92_eei_decisions.md;
notes/assumptions/13.md). -/
def Obligations.HuffmanTableDefinitions : Prop :=
  ∀ (s : State) (len : Half) (defs : List HuffDef),
    2 ≤ len.toNat → (∀ e ∈ defs, e.ok) →
    let store (cls : BitVec 4) (q : Pair HuffSlot) : Pair HuffSlot :=
      defs.foldl
        (fun q e =>
          if e.cls = cls ∧ e.idx = 0 then { q with s0 := e.slot }
          else if e.cls = cls ∧ e.idx = 1 then { q with s1 := e.slot }
          else q)
        q
    exec (.dht len (defs.flatMap HuffDef.bytes)) s = .next { s with
      pstate := .marker, shtDc := store 0 s.shtDc, shtAc := store 1 s.shtAc }

/-- Table definitions that do not fit their payload are `E_TABLE_LENGTH` and a wrong tag is `E_TABLE_TAG`, whatever
whole definitions stand before them; the length is tested before the tag. Followed here are the spec's own decisions
D11, D29 (92_eei_decisions.md; notes/assumptions/13.md). The model's own choices in it: notes/assumptions/4.md and
notes/assumptions/8.md. -/
def Obligations.TableDefinitionErrors : Prop :=
  ∀ (s : State) (len : Half) (defs : List (BitVec 4 × List Byte)) (hdefs : List HuffDef) (bad : List Byte),
    2 ≤ len.toNat → (∀ e ∈ defs, e.2.length = 64) → (∀ e ∈ hdefs, e.ok) → bad ≠ [] →
    let fails (i : Instr) (c : BitVec 5) : Prop :=
      ∃ t, exec i s = .next t ∧ t.failed = true ∧ t.reason = c ∧ t.running = false ∧ t.reply = some (.fatal c)
    let counts : List Byte := (bad.drop 1).take 16
    (bad.length < 65 → fails (.dqt len (defs.flatMap (fun e => (0#4 ++ e.1) :: e.2) ++ bad)) 8)
    ∧ (65 ≤ bad.length → 16 ≤ (bad.getD 0 0).toNat →
        fails (.dqt len (defs.flatMap (fun e => (0#4 ++ e.1) :: e.2) ++ bad)) 13)
    ∧ (bad.length < 17 ∨ 256 < countSum counts ∨ bad.length < 17 + countSum counts →
        fails (.dht len (hdefs.flatMap HuffDef.bytes ++ bad)) 8)
    ∧ (17 + countSum counts ≤ bad.length → 17 ≤ bad.length → countSum counts ≤ 256 → 32 ≤ (bad.getD 0 0).toNat →
        fails (.dht len (hdefs.flatMap HuffDef.bytes ++ bad)) 13)

/-- A restart-interval definition stores its first two bytes, big-endian, whatever follows them; a payload of fewer
than two bytes is `E_SEGMENT_LENGTH`. Nothing else changes but `PSTATE`. Followed here are the spec's own decisions
D7, D12, D29 (92_eei_decisions.md; notes/assumptions/13.md). The model's own choices in it: notes/assumptions/4.md and
notes/assumptions/8.md. -/
def Obligations.RestartInterval : Prop :=
  ∀ (s : State) (len : Half) (hi lo : Byte) (rest d : List Byte), 2 ≤ len.toNat →
    exec (.dri len (hi :: lo :: rest)) s = .next { s with dri := hi ++ lo, pstate := .marker }
    ∧ (d.length < 2 → exec (.dri len d) s = .next { s with
        pstate := .marker, failed := true, reason := 11, running := false, reply := some (.fatal 11) })

/-! Symbols, value fields, the stuffed byte. -/

/-- A symbol with a value field leaves only its size, and an AC symbol its run, and awaits the field: nothing is
written to the outbound stream yet. An AC run that would pass coefficient 63 is `E_COEF_OVERRUN`. A DC symbol's high
nibble is ignored. Followed here are the spec's own decisions D15, D29 (92_eei_decisions.md; notes/assumptions/13.md).
The model's own choices in it: notes/assumptions/4.md and notes/assumptions/8.md. -/
def Obligations.SizedSymbolsAwaitValue : Prop :=
  ∀ (s : State) (hi run size : BitVec 4), size ≠ 0 →
    (s.k = 0 → exec (.dc hi size) s = .next { s with needbits := size, pstate := .int })
    ∧ (s.k + run.toNat ≤ 63 → exec (.ac run size) s = .next { s with
        acrle := run, k := s.k + run.toNat, needbits := size, pstate := .int })
    ∧ (63 < s.k + run.toNat → exec (.ac run size) s = .next { s with
        acrle := run, failed := true, reason := 16, running := false, reply := some (.fatal 16) })

/-- A DC step. The delta of the value field, or 0 for a symbol of size 0, goes into the source-side predictor; the
difference of the rescaled value against the reset point or the value last written goes out as one symbol with its
value field; both predictors of the component are updated, those of the others and everything else stay. Followed here
are the spec's own decisions D15, D17 (92_eei_decisions.md; notes/assumptions/13.md). -/
def Obligations.DcStepWritesDifference : Prop :=
  ∀ (s : State) (v raw new diff : Int) (code w : Nat) (hi n : BitVec 4) (f : BitVec 15),
    s.k = 0 → DcNumbers s v raw new diff → -(2 ^ 31) ≤ raw → raw ≤ 2 ^ 31 - 1 → (vencode diff).2 ≤ 15 →
    huffEncode (destTable .dc s) (BitVec.ofNat 8 (vencode diff).2) = some (code, w) →
    (v = 0 → exec (.dc hi 0) s = .next { emitted code w diff s with
      needbits := 0, dcraw := triSet s.dcraw s.comp (BitVec.ofInt 32 raw)
      dcemit := triSet s.dcemit s.comp (BitVec.ofInt 32 new), k := 1 })
    ∧ (v = vdecode f.toNat n.toNat → exec (.v n f) s = .next { emitted code w diff s with
      dcraw := triSet s.dcraw s.comp (BitVec.ofInt 32 raw)
      dcemit := triSet s.dcemit s.comp (BitVec.ofInt 32 new), k := 1, pstate := .huff })

/-- Where a DC step fails, for a value field and for a symbol of size 0. A source-side predictor outside the signed
32-bit range is `E_ARITH_OVERFLOW`, and nothing has been written; a symbol of size 0 never leaves the range. A
difference that needs more than 15 bits, or whose size the destination table lacks, is `E_ENCODE_RANGE`, and only
`DCRAW`, and `NEEDBITS` by the symbol, have been written. Followed here are the spec's own decisions D16, D17, D19,
D29 (92_eei_decisions.md; notes/assumptions/13.md). The model's own choices in it: notes/assumptions/4.md and
notes/assumptions/8.md. -/
def Obligations.DcStepFatals : Prop :=
  ∀ (s : State) (v raw new diff : Int) (hi n : BitVec 4) (f : BitVec 15),
    s.k = 0 → DcNumbers s v raw new diff →
    (v = 0 → -(2 ^ 31) ≤ raw ∧ raw ≤ 2 ^ 31 - 1)
    ∧ (v = vdecode f.toNat n.toNat → raw < -(2 ^ 31) ∨ 2 ^ 31 - 1 < raw → exec (.v n f) s = .next { s with
        failed := true, reason := 19, running := false, reply := some (.fatal 19) })
    ∧ (-(2 ^ 31) ≤ raw → raw ≤ 2 ^ 31 - 1 →
        15 < (vencode diff).2 ∨ huffEncode (destTable .dc s) (BitVec.ofNat 8 (vencode diff).2) = none →
        (v = 0 → exec (.dc hi 0) s = .next { s with
          needbits := 0, dcraw := triSet s.dcraw s.comp (BitVec.ofInt 32 raw)
          failed := true, reason := 14, running := false, reply := some (.fatal 14) })
        ∧ (v = vdecode f.toNat n.toNat → exec (.v n f) s = .next { s with
          dcraw := triSet s.dcraw s.comp (BitVec.ofInt 32 raw)
          failed := true, reason := 14, running := false, reply := some (.fatal 14) }))

/-- `EOB` writes the destination table's `EOB` and ends the block. Inside a unit the next block begins; at the unit's
end `UnitEnd` runs; in a monochrome image two chroma blocks of "no change" and "all zero" are written first, with the
chroma tables. Followed here is the spec's own decision D9 (92_eei_decisions.md; notes/assumptions/13.md). -/
def Obligations.EndOfBlockSymbol : Prop :=
  ∀ (s : State) (code w : Nat), huffEncode (destTable .ac s) 0x00 = some (code, w) →
    BlockEnds (outBits code w s) (exec .eob s)

/-- `ZRL` writes the destination table's `ZRL` at once and passes 16 coefficients; the zeros not yet represented stay
in the run accumulator. With fewer than 17 coefficients left it is `E_COEF_OVERRUN`. Followed here are the spec's own
decisions D15, D18, D29 (92_eei_decisions.md; notes/assumptions/13.md). The model's own choices in it:
notes/assumptions/4.md and notes/assumptions/8.md. -/
def Obligations.ZeroRunSymbol : Prop :=
  ∀ (s : State) (code w : Nat),
    (huffEncode (destTable .ac s) 0xF0 = some (code, w) → s.k + 16 ≤ 63 →
      exec .zrl s = .next { outBits code w s with acrle := 0, k := s.k + 16 })
    ∧ (63 < s.k + 16 → exec .zrl s = .next { s with
        acrle := 0, failed := true, reason := 16, running := false, reply := some (.fatal 16) })

/-- The AC symbols 0x10, 0x20, ..., 0xE0 are the reserved ones, and each is `E_RESERVED_SYMBOL` after clearing
`ACRLE`. Followed here are the spec's own decisions D15, D29 (92_eei_decisions.md; notes/assumptions/13.md). The
model's own choices in it: notes/assumptions/4.md and notes/assumptions/8.md. -/
def Obligations.ReservedSymbolRejected : Prop :=
  ∀ (s : State) (run : BitVec 4),
    exec (.acReserved run) s = .next { s with
      acrle := 0, failed := true, reason := 17, running := false, reply := some (.fatal 17) }
    ∧ (1 ≤ run.toNat → run.toNat ≤ 14 → decode (.symbol false (run ++ 0#4)) = .ok (.acReserved run))

/-- An AC value inside a block (before coefficient 63). A value that is not zero in destination units is written after
the zeros that wait: one `ZRL` for every 16 of them, then the symbol of the rest of the run and the value's size, then
the field. A value that is rescaled to zero is counted with its run. Followed here is the spec's own decision D18
(92_eei_decisions.md; notes/assumptions/13.md). -/
def Obligations.AcValueInBlock : Prop :=
  ∀ (s : State) (n : BitVec 4) (f : BitVec 15) (src dst : Byte) (r : Int),
    1 ≤ s.k → s.k < 63 → sourceStep s s.k = some src → destStep s s.k = some dst →
    r = (if src = dst then vdecode f.toNat n.toNat else rdiv (vdecode f.toNat n.toNat * src.toNat) dst.toNat) →
    let zeros := s.accrle + s.acrle.toNat
    (r ≠ 0 → (vencode r).2 ≤ 15 → ∀ zc zw code w, (16 ≤ zeros → huffEncode (destTable .ac s) 0xF0 = some (zc, zw)) →
      huffEncode (destTable .ac s) (BitVec.ofNat 8 (zeros % 16 * 16 + (vencode r).2)) = some (code, w) →
      exec (.v n f) s = .next
        { emitted code w r ((outBits zc zw)^[zeros / 16] s) with accrle := 0, k := s.k + 1, pstate := .huff })
    ∧ (r = 0 → exec (.v n f) s = .next { s with accrle := zeros + 1, k := s.k + 1, pstate := .huff })

/-- The value of coefficient 63 ends the block, in every kind of image and in every part of a unit. A value that is
not zero in destination units is written after the zeros that wait, one `ZRL` for every 16 of them, and ends the block
without an `EOB`; a value that is rescaled to zero is replaced by an `EOB`, which covers its run as well. Then the
next block begins, or the unit ends, in a monochrome image after two chroma blocks. Followed here are the spec's own
decisions D9, D18 (92_eei_decisions.md; notes/assumptions/13.md). -/
def Obligations.LastCoefficientEndsBlock : Prop :=
  ∀ (s : State) (n : BitVec 4) (f : BitVec 15) (src dst : Byte) (r : Int),
    s.k = 63 → sourceStep s 63 = some src → destStep s 63 = some dst →
    r = (if src = dst then vdecode f.toNat n.toNat else rdiv (vdecode f.toNat n.toNat * src.toNat) dst.toNat) →
    let zeros := s.accrle + s.acrle.toNat
    (r ≠ 0 → (vencode r).2 ≤ 15 → ∀ zc zw code w, (16 ≤ zeros → huffEncode (destTable .ac s) 0xF0 = some (zc, zw)) →
      huffEncode (destTable .ac s) (BitVec.ofNat 8 (zeros % 16 * 16 + (vencode r).2)) = some (code, w) →
      BlockEnds { emitted code w r ((outBits zc zw)^[zeros / 16] s) with pstate := .huff } (exec (.v n f) s))
    ∧ (r = 0 → ∀ code w, huffEncode (destTable .ac s) 0x00 = some (code, w) →
        BlockEnds { outBits code w s with pstate := .huff } (exec (.v n f) s))

/-- Equal steps: an AC value whose source and destination steps are equal, with no zeros waiting, goes out as the
symbol and the very field bits it came in with, and at coefficient 63 ends the block. -/
def Obligations.EqualStepsPassThrough : Prop :=
  ∀ (s : State) (n : BitVec 4) (f : BitVec 15) (step' : Byte) (code w : Nat),
    1 ≤ s.k → s.k ≤ 63 → s.accrle = 0 → sourceStep s s.k = some step' → destStep s s.k = some step' →
    wellFormed (.v n f) = true → huffEncode (destTable .ac s) (s.acrle ++ n) = some (code, w) →
    let b : State := { outBits f.toNat n.toNat (outBits code w s) with pstate := .huff }
    (s.k < 63 → exec (.v n f) s = .next { b with accrle := 0, k := s.k + 1 })
    ∧ (s.k = 63 → BlockEnds b (exec (.v n f) s))

/-- The byte after a data byte 0xFF carries no data: 0x00 is discarded, any other is `E_STUFFING`. Followed here are
the spec's own decisions D13, D29 (92_eei_decisions.md; notes/assumptions/13.md). The model's own choices in it:
notes/assumptions/4.md and notes/assumptions/8.md. -/
def Obligations.StuffedByte : Prop :=
  ∀ (s : State) (b : Byte),
    (b = 0 → exec (.stuff b) s = .next { s with stuffPending := false })
    ∧ (b ≠ 0 → exec (.stuff b) s = .next { s with
        stuffPending := false, failed := true, reason := 18, running := false, reply := some (.fatal 18) })

/-- Round-half-away-from-zero division: the nearest integer, a tie going to the larger magnitude; its laws; and the
divisors, the entries of the destination tables, are 1 to 255. -/
def Obligations.RoundingDivision : Prop :=
  (∀ (n : Int) (d : Nat), 1 ≤ d →
    rdiv n d = n.sign * ((2 * n.natAbs + d) / (2 * d) : Nat)
    ∧ 2 * (n - d * rdiv n d).natAbs ≤ d
    ∧ (2 * (n - d * rdiv n d).natAbs = d → n.natAbs < d * (rdiv n d).natAbs)
    ∧ (d % 2 = 0 → (rdiv n d).natAbs = (n.natAbs + d / 2) / d)
    ∧ (d % 2 = 1 → 2 * (n - d * rdiv n d).natAbs < d)
    ∧ rdiv n d = -rdiv (-n) d
    ∧ rdiv 0 d = 0
    ∧ rdiv n 1 = n
    ∧ (rdiv n d).natAbs ≤ n.natAbs
    ∧ (rdiv n d = 0 ↔ 2 * n.natAbs < d)
    ∧ rdiv (n * d) d = n)
  ∧ ∀ (rom : Rom) (q : BitVec 3), ∀ e ∈ (destinationSteps rom q).s0 ++ (destinationSteps rom q).s1,
      1 ≤ e.toNat ∧ e.toNat ≤ 255

/-! The outbound stream and the cursor. -/

/-- The outbound stream loses and reorders nothing: `OutBits` appends the bits of its operand, `Drain` none, `Sync`
the one-bits up to the next byte boundary. They change the accumulator, the packet buffer and its count and nothing
else; no byte of the buffer before the old count or from the new count on changes; afterwards at most 7 bits wait or
the buffer is full. Followed here is the spec's own decision D20 (92_eei_decisions.md; notes/assumptions/13.md). -/
def Obligations.OutboundStream : Prop :=
  ∀ (s : State) (x n : Nat), Memory.wf s.pktbuf = true → s.outCount ≤ 237 →
    let frame (t : State) : Prop :=
      t = { s with pktbuf := t.pktbuf, outCount := t.outCount, obits := t.obits, olen := t.olen }
      ∧ s.outCount ≤ t.outCount ∧ t.outCount ≤ 237
      ∧ ∀ a, a < s.outCount ∨ t.outCount ≤ a → memRead t.pktbuf a = memRead s.pktbuf a
    (frame (outBits x n s) ∧ outStream (outBits x n s) = outStream s ++ bitsOf n x
      ∧ ((outBits x n s).olen < 8 ∨ (outBits x n s).outCount = 237))
    ∧ (frame (drain s) ∧ outStream (drain s) = outStream s ∧ ((drain s).olen < 8 ∨ (drain s).outCount = 237))
    ∧ (frame (sync s) ∧ outStream (sync s) = outStream s ++ List.replicate ((8 - s.olen % 8) % 8) true
      ∧ (sync s).olen % 8 = 0)

/-- A unit boundary is recorded where the packet has none yet or its buffer is full: aligned to a byte, at the
position counted from the packet's first payload byte, for this packet or, past its end, for the next; the unit
becomes the reset point. Otherwise nothing changes. With room in the buffer the recorded position is the count of
bytes in it; with a full buffer it is the number of bytes, rounded up, that wait in the accumulator. Followed here are
the spec's own decisions D20, D21 (92_eei_decisions.md; notes/assumptions/13.md). -/
def Obligations.RecordedBoundary : Prop :=
  ∀ s : State, s.outCount ≤ 237 → (s.olen < 8 ∨ s.outCount = 237) →
    (s.pktCuIdx ≠ 0xFFFF → s.outCount < 237 → recordBoundary s = s)
    ∧ (s.pktCuIdx = 0xFFFF ∨ s.outCount = 237 →
        let u := sync s
        let pos := u.outCount + u.olen / 8
        (pos < 237 → recordBoundary s = { u with
          pktCuIdx := BitVec.ofNat 16 s.cu, pktCuOff := BitVec.ofNat 8 pos, resetCu := s.cu })
        ∧ (237 ≤ pos → recordBoundary s = { u with
          nextCuIdx := BitVec.ofNat 16 s.cu, nextCuOff := BitVec.ofNat 8 (pos - 237), resetCu := s.cu })
        ∧ u.olen % 8 = 0
        ∧ (s.outCount < 237 → u.olen = 0 ∧ pos = u.outCount ∧ pos = s.outCount + (s.olen + 7) / 8)
        ∧ (s.outCount = 237 → u.outCount = 237 ∧ pos - 237 = (s.olen + 7) / 8))

/-- The end of a unit: the cursor goes to the start of the next unit. The last unit aligns the stream and ends the
image; another may record its boundary, and on a multiple of a configured restart interval control goes back to the
parser. Followed here are the spec's own decisions D20, D32 (92_eei_decisions.md; notes/assumptions/13.md). -/
def Obligations.UnitEndRule : Prop :=
  ∀ s : State,
    let u : State := { s with part := 0, comp := 0, cu := s.cu + 1 }
    (s.cu + 1 = s.nunits → unitEnd s = { sync u with pstate := .finish })
    ∧ (s.cu + 1 ≠ s.nunits → 0 < s.dri.toNat → (s.cu + 1) % s.dri.toNat = 0 →
        unitEnd s = { recordBoundary u with pstate := .marker })
    ∧ (s.cu + 1 ≠ s.nunits → s.dri.toNat = 0 ∨ (s.cu + 1) % s.dri.toNat ≠ 0 → unitEnd s = recordBoundary u)

/-- What no entropy-coded symbol or value field changes, in any form and even where it ends in a fatal condition (its
writes before the `raise` stay, 20_memory.md R80): the configuration, the image parameters, the tables and scan
registers, the parser registers, the inbound accumulator, the sequence number, `DONE`, the predictors of the other
components; and of the packet buffer every byte before the old count or from the new count on. The commands that the
host has still to issue, a field of the model's own, stay as well. The model's own choices in it:
notes/assumptions/4.md and notes/assumptions/8.md. -/
def Obligations.EntropyFrame : Prop :=
  ∀ (s t : State) (hi size run n : BitVec 4) (f : BitVec 15),
    ∀ i ∈ [Instr.dc hi size, .eob, .zrl, .acReserved run, .ac run size, .v n f],
      exec i s = .next t →
        sameConfig s t ∧ sameImage s t ∧ sameTables s t ∧ sameParser s t
        ∧ t.ibits = s.ibits ∧ t.ilen = s.ilen ∧ t.pktSeq = s.pktSeq ∧ t.done = s.done ∧ t.hostq = s.hostq
        ∧ (∀ c, c ≠ s.comp → triGet? t.dcraw c = triGet? s.dcraw c ∧ triGet? t.dcemit c = triGet? s.dcemit c)
        ∧ s.outCount ≤ t.outCount
        ∧ ∀ a, a < s.outCount ∨ t.outCount ≤ a → memRead t.pktbuf a = memRead s.pktbuf a

/-- The fixed symbols always complete: in a state that the invariant describes, inside a block, `EOB` never ends in a
fatal condition, and `ZRL` does not while 17 coefficients are left. Followed here are the spec's own decisions D19,
D31 (92_eei_decisions.md; notes/assumptions/13.md). The model's own choices in it: notes/assumptions/10.md. -/
def Obligations.FixedSymbolsComplete : Prop :=
  ∀ s : State, Inv s → s.running = true → s.pstate = .huff → 1 ≤ s.k →
    (∃ t, exec .eob s = .next t ∧ t.failed = false ∧ t.k = 0)
    ∧ (s.k + 16 ≤ 63 → ∃ t, exec .zrl s = .next t ∧ t.failed = false ∧ t.k = s.k + 16)

/-! Commands and packets. -/

/-- `CONSTRUCT` sets every register to its reset value, from any state, with an accepted ROM; the configuration
registers and the destination steps are those of its arguments; the source is the given bytes. A ROM that is not
accepted is refused. Followed here are the spec's own decisions D2, D21, D31 (92_eei_decisions.md;
notes/assumptions/13.md). The model's own choices in it: notes/assumptions/4.md, notes/assumptions/6.md and
notes/assumptions/10.md. -/
def Obligations.ConstructResets : Prop :=
  ∀ (s : State) (callsign : Callsign) (imageId : Byte) (quality : BitVec 3) (source : List Byte),
    (s.rom.wellFormed = true → ∃ t, exec (.construct callsign imageId quality source) s = .next t
      ∧ (∀ a, memRead t.src a = source.getD a 0) ∧ t.srcLen = source.length ∧ t.rom = s.rom
      ∧ t.srcPos = 0 ∧ t.pstate = .marker ∧ t.mkReg = 0 ∧ t.segLen = 0 ∧ t.lenCnt = 0 ∧ t.segCnt = 0 ∧ t.skipCnt = 0
      ∧ t.stuffPending = false
      ∧ t.callsignCode = callsignEncode callsign ∧ t.imageId = imageId ∧ t.quality = quality
      ∧ t.dqtDst = destinationSteps s.rom quality
      ∧ t.haveFrame = false ∧ t.scanOk = false ∧ t.mono = false
      ∧ t.width = 0 ∧ t.height = 0 ∧ t.ncomp = 0 ∧ t.mode = 0 ∧ t.yparts = 0 ∧ t.nunits = 0 ∧ t.dri = 0
      ∧ t.tq = ⟨0, 0, 0⟩ ∧ t.td = ⟨0, 0, 0⟩ ∧ t.ta = ⟨0, 0, 0⟩
      ∧ t.sqt.s0.valid = false ∧ t.sqt.s1.valid = false ∧ t.shtDc.s0.valid = false ∧ t.shtDc.s1.valid = false
      ∧ t.shtAc.s0.valid = false ∧ t.shtAc.s1.valid = false
      ∧ t.cu = 0 ∧ t.part = 0 ∧ t.comp = 0 ∧ t.k = 0 ∧ t.dcraw = ⟨0, 0, 0⟩ ∧ t.dcemit = ⟨0, 0, 0⟩
      ∧ t.acrle = 0 ∧ t.accrle = 0 ∧ t.needbits = 0 ∧ t.resetCu = 0
      ∧ t.ibits = 0 ∧ t.ilen = 0 ∧ t.obits = 0 ∧ t.olen = 0 ∧ t.outCount = 0 ∧ t.pktSeq = 0
      ∧ t.pktCuIdx = 0 ∧ t.pktCuOff = 0 ∧ t.nextCuIdx = 0xFFFF ∧ t.nextCuOff = 0xFF
      ∧ t.done = false ∧ t.failed = false ∧ t.reason = 0
      ∧ t.running = false ∧ t.hostq = s.hostq)
    ∧ (s.rom.wellFormed = false →
        exec (.construct callsign imageId quality source) s = .refused .romNotAccepted)

/-- `NEXT_PACKET` where no packet comes out at once: a failed instance answers its reason again and a finished one
`END`, both without a step; otherwise the accumulator is drained and, with room in the buffer and the image not
finished, the command stays in progress. A 65537th packet is `E_SEQ_OVERFLOW`, and nothing of it is written. Followed
here are the spec's own decisions D28, D29, D36 (92_eei_decisions.md; notes/assumptions/13.md). The model's own
choices in it: notes/assumptions/4.md, notes/assumptions/5.md and notes/assumptions/8.md. -/
def Obligations.NextPacketWithoutPacket : Prop :=
  ∀ s : State,
    (s.failed = true → exec .nextPacket s = .next { s with running := false, reply := some (.fatal s.reason) })
    ∧ (s.failed = false → s.done = true → exec .nextPacket s = .next { s with running := false, reply := some .done })
    ∧ (s.failed = false → s.done = false → s.pstate ≠ .finish → (drain s).outCount ≠ 237 →
        exec .nextPacket s = .next { drain s with running := true, reply := none })
    ∧ (s.failed = false → s.done = false → s.pstate = .finish ∨ (drain s).outCount = 237 → 65535 < s.pktSeq →
        exec .nextPacket s = .next { drain s with
          failed := true, reason := 20, running := false, reply := some (.fatal 20) })

/-- `NEXT_PACKET` with a packet ready: a full buffer, or the end of the image. The packet is returned; its number goes
up, the buffer is empty, the deferred boundary moves up and the deferred pair goes back to the sentinels; the
accumulator and everything else stay. The packet is flagged, and the instance done, exactly when the image is finished
and no bit waits. Followed here are the spec's own decisions D22, D36 (92_eei_decisions.md; notes/assumptions/13.md).
The model's own choices in it: notes/assumptions/4.md. -/
def Obligations.NextPacketReturnsPacket : Prop :=
  ∀ s : State, s.failed = false → s.done = false → s.pktSeq ≤ 65535 →
    (s.pstate = .finish ∨ (drain s).outCount = 237) →
    let last : Bool := decide (s.pstate = .finish ∧ (drain s).olen = 0)
    exec .nextPacket s = .next { drain s with
      pktSeq := s.pktSeq + 1, outCount := 0, pktCuIdx := s.nextCuIdx, pktCuOff := s.nextCuOff
      nextCuIdx := 0xFFFF, nextCuOff := 0xFF, done := last, running := false
      reply := some (.packet (packetBytes last (drain s))) }

/-- The byte map of a packet: prefix, station identifier, image identifier, sequence number, size in sixteens, flags,
boundary, payload in order, padding from the packet's own sequence, checksum over bytes 1 to 251; 256 bytes in all.
Followed here are the spec's own decisions D23, D24, D26, D27 (92_eei_decisions.md; notes/assumptions/13.md). The
model's own choices in it: notes/assumptions/15.md. -/
def Obligations.PacketLayout : Prop :=
  ∀ (s : State) (eoi : Bool), s.outCount ≤ 237 →
    let p := packetBytes eoi s
    let byte (i : Nat) : Nat := (p.getD i 0).toNat
    p.length = 256
    ∧ p.getD 0 0 = s.rom.syncByte ∧ p.getD 1 0 = s.rom.modeByte
    ∧ byte 2 * 2 ^ 24 + byte 3 * 2 ^ 16 + byte 4 * 2 ^ 8 + byte 5 = s.callsignCode.toNat
    ∧ p.getD 6 0 = s.imageId
    ∧ byte 7 * 256 + byte 8 = s.pktSeq % 65536
    ∧ byte 9 = s.width.toNat / 16 ∧ byte 10 = s.height.toNat / 16
    ∧ byte 11 = (s.quality.toNat + 4) % 8 * 8 + (if eoi = true then 4 else 0) + s.mode.toNat
    ∧ p.getD 12 0 = s.pktCuOff ∧ byte 13 * 256 + byte 14 = s.pktCuIdx.toNat
    ∧ (∀ i, i < s.outCount → p.getD (15 + i) 0 = memRead s.pktbuf i)
    ∧ (∀ j, s.outCount + j < 237 → p.getD (15 + s.outCount + j) 0 = (padFrom 0 (j + 1)).getD j 0)
    ∧ byte 252 * 2 ^ 24 + byte 253 * 2 ^ 16 + byte 254 * 2 ^ 8 + byte 255 = (crc32 ((p.take 252).drop 1)).toNat

/-- The padding: each byte is the recurrence x·254 + 45 mod 256 of the one before it, starting from 0; it is 45, 211,
135, 31, 239, 79, 143 and then 15 for ever. -/
def Obligations.PaddingSequence : Prop :=
  ∀ n i : Nat, i < n →
    (padFrom 0 n).length = n
    ∧ ((padFrom 0 n).getD i 0).toNat
        = ((if i = 0 then 0 else ((padFrom 0 n).getD (i - 1) 0).toNat) * 254 + 45) % 256
    ∧ ((padFrom 0 n).getD i 0).toNat = [45, 211, 135, 31, 239, 79, 143].getD i 15

/-- The checksum: its check value, and that two byte sequences which differ in exactly one byte never have the same
one. The model's own choices in it: notes/assumptions/15.md. -/
def Obligations.ChecksumDetectsOneByte : Prop :=
  crc32 [0x31, 0x32, 0x33, 0x34, 0x35, 0x36, 0x37, 0x38, 0x39] = 0xCBF43926
  ∧ ∀ (l r : List Byte) (b c : Byte), b ≠ c → crc32 (l ++ b :: r) ≠ crc32 (l ++ c :: r)

/-- The station identifier: the base-40 value of the cells, the first one the least significant, always below 2^32;
and identifiers of upper-case letters and digits 1 to 9 have different codes. Followed here is the spec's own decision
D25 (92_eei_decisions.md; notes/assumptions/13.md). -/
def Obligations.CallsignCode : Prop :=
  (∀ c : Callsign, (callsignEncode c).toNat
      = digit40 c.c0 + 40 * digit40 c.c1 + 40 ^ 2 * digit40 c.c2 + 40 ^ 3 * digit40 c.c3 + 40 ^ 4 * digit40 c.c4
        + 40 ^ 5 * digit40 c.c5
    ∧ (callsignEncode c).toNat ≤ 40 ^ 6 - 1)
  ∧ ∀ c c' : Callsign,
      (∀ ch ∈ callsignCells c ++ callsignCells c',
        (0x31 ≤ ch.toNat ∧ ch.toNat ≤ 0x39) ∨ (0x41 ≤ ch.toNat ∧ ch.toNat ≤ 0x5A)) →
      callsignEncode c = callsignEncode c' → c = c'

/-- The destination steps of a quality level: each seed step scaled by the level's ratio with rounding division and
clamped to [1, 255]; over an accepted ROM a finer level never has a larger step. Followed here are the spec's own
decisions D24, D31 (92_eei_decisions.md; notes/assumptions/13.md). -/
def Obligations.DestinationSteps : Prop :=
  ∀ (rom : Rom) (q q' : BitVec 3) (k : Nat),
    (∀ (num : Nat) (seed : Byte), rom.qscaleNum[q.toNat]? = some num →
      (rom.qseed.s0[k]? = some seed → ∃ e, (destinationSteps rom q).s0[k]? = some e
        ∧ e.toNat = min 255 (max 1 ((2 * seed.toNat * num + rom.qscaleDen) / (2 * rom.qscaleDen))))
      ∧ (rom.qseed.s1[k]? = some seed → ∃ e, (destinationSteps rom q).s1[k]? = some e
        ∧ e.toNat = min 255 (max 1 ((2 * seed.toNat * num + rom.qscaleDen) / (2 * rom.qscaleDen)))))
    ∧ (rom.wellFormed = true → q.toNat ≤ q'.toNat → k < 64 →
        ((destinationSteps rom q').s0.getD k 0).toNat ≤ ((destinationSteps rom q).s0.getD k 0).toNat
        ∧ ((destinationSteps rom q').s1.getD k 0).toNat ≤ ((destinationSteps rom q).s1.getD k 0).toNat)

/-- A packet carries the stream on: its payload bytes, followed by the bits left waiting for the next packet, are the
outbound stream as it stood when the packet was asked for. No bit is lost or duplicated between packets. The model's
own choices in it: notes/assumptions/6.md. -/
def Obligations.PacketCarriesStream : Prop :=
  ∀ (s t : State) (p : List Byte), Memory.wf s.pktbuf = true → s.outCount ≤ 237 →
    exec .nextPacket s = .next t → t.reply = some (.packet p) →
    t.outCount = 0
    ∧ outStream s = ((p.drop 15).take (drain s).outCount).flatMap (fun b => bitsOf 8 b.toNat) ++ outStream t

/-! The whole machine. -/

/-- The invariant holds right after reset. Its clause on the ROM holds there for the candidate ROM, which is the
model's choice (notes/assumptions/1.md); the clauses on the header pairs, the accumulators and the flags are the
spec's reset values. Followed here are the spec's own decisions D21, D31 (92_eei_decisions.md;
notes/assumptions/13.md). The model's own choices in it: notes/assumptions/1.md, notes/assumptions/2.md and
notes/assumptions/3.md. -/
def Obligations.InvAtReset : Prop := Inv State.reset

/-- Every step from a state that meets the invariant leads to a state that meets it. Followed here is the spec's own
decision D16 (92_eei_decisions.md; notes/assumptions/13.md). The model's own choices in it: notes/assumptions/5.md,
notes/assumptions/6.md, notes/assumptions/7.md, notes/assumptions/8.md and notes/assumptions/14.md. -/
def Obligations.InvKept : Prop :=
  ∀ s t : State, Inv s → step s = .next t → Inv t

/-- No step from a state that meets the invariant stops the machine: a fatal condition is a next state, and the
model's faults and refusals are never reached. Followed here is the spec's own decision D31 (92_eei_decisions.md;
notes/assumptions/13.md). The model's own choices in it: notes/assumptions/5.md, notes/assumptions/9.md and
notes/assumptions/10.md. -/
def Obligations.StepNeverStops : Prop :=
  ∀ s : State, Inv s → ∃ t, step s = .next t

/-- Every command terminates, within a bound that the unread source bytes and the bits of the window give, and returns
a result to the host. The model's own choices in it: notes/assumptions/4.md and notes/assumptions/5.md. -/
def Obligations.CommandTerminates : Prop :=
  ∀ s : State, Inv s → s.running = true →
    ∃ t, finishCommand (stepsLeft s + 1) s = .next t ∧ t.running = false ∧ t.reply ≠ none

/-- At most 7 bits are in the window after a step that ran a symbol or a value field, whether control stays in entropy
mode or not, and at most 23 ever. In between, a window is never more than one byte longer than a window that was too
short: `WindowOk` is kept by every step. The model's own choices in it: notes/assumptions/5.md and
notes/assumptions/8.md. -/
def Obligations.WindowKept : Prop :=
  ∀ s t : State, Inv s → s.failed = false → WindowOk s → step s = .next t →
    WindowOk t ∧ t.ilen ≤ 23
    ∧ (s.running = true → s.outCount ≠ 237 → WindowSuffices s → t.ilen ≤ 7)

/-- Control moves only as the list of `PSTATE` changes allows while a command is in progress; `FINISH` is absorbing.
The model's own choices in it: notes/assumptions/5.md and notes/assumptions/8.md. -/
def Obligations.PstateTransfers : Prop :=
  ∀ s t : State, Inv s → s.running = true → step s = .next t →
    t.pstate = s.pstate ∨ allowedTransfer s.pstate t.pstate = true

/-- What no step of a command in progress changes: the source, the ROM, the configuration registers and the
destination steps; once a frame header has been accepted, the image parameters. The program position never decreases,
moves by at most one byte a step and never passes the end of the source; an accepted scan header stays accepted. The
model's own choices in it: notes/assumptions/4.md, notes/assumptions/5.md and notes/assumptions/8.md. -/
def Obligations.ImmutableRegisters : Prop :=
  ∀ s t : State, s.running = true → step s = .next t →
    sameConfig s t
    ∧ (s.haveFrame = true → sameImage s t)
    ∧ s.srcPos ≤ t.srcPos ∧ t.srcPos ≤ s.srcPos + 1 ∧ (s.srcPos ≤ s.srcLen → t.srcPos ≤ t.srcLen)
    ∧ (s.scanOk = true → t.scanOk = true)
    ∧ t.hostq = s.hostq

/-- A failed instance stays failed with its reason and a finished one stays finished: until the host constructs anew,
each request gets the same answer, no byte is pulled and no step runs. Followed here is the spec's own decision D29
(92_eei_decisions.md; notes/assumptions/13.md). The model's own choices in it: notes/assumptions/4.md. -/
def Obligations.EndedInstanceStays : Prop :=
  ∀ s t : State, Inv s → (s.failed = true ∨ s.done = true) → step s = .next t →
    (∀ c i q l rest, s.hostq ≠ .construct c i q l :: rest) →
    t = { s with hostq := s.hostq.tail, reply := t.reply }
    ∧ (s.hostq ≠ [] → t.reply = some (if s.failed = true then .fatal s.reason else .done))

/-- The output contract: from a constructed instance, whatever the source, the answers to any number of requests are
packets without the flag, numbered from 0; then, if it comes so far, one packet with the flag and `END` for ever, or
one and the same fatal code for ever. Every packet is whole and verifies. Followed here are the spec's own decisions
D22, D23, D26, D28, D29 (92_eei_decisions.md; notes/assumptions/13.md). The model's own choices in it:
notes/assumptions/4.md and notes/assumptions/15.md. -/
def Obligations.OutputContract : Prop :=
  ∀ (s : State) (n : Nat), Inv s → s.running = false → s.done = false → s.failed = false → s.pktSeq = 0 →
    ∃ (ps : List (List Byte)) (tail : List Reply),
      replies n s = ps.map Reply.packet ++ tail
      ∧ (replies n s).length = n
      ∧ (∀ i p, ps[i]? = some p → packetOk i false p)
      ∧ (tail = []
        ∨ (∃ p m, tail = Reply.packet p :: List.replicate m Reply.done ∧ packetOk ps.length true p)
        ∨ (∃ c m, tail = List.replicate (m + 1) (Reply.fatal c) ∧ 1 ≤ c.toNat ∧ c.toNat ≤ 20))

/-- Where an AC symbol or value cannot be written: a value that needs more than 15 bits, or a symbol that the
destination table lacks, is `E_ENCODE_RANGE`. The `ZRL` symbols of its run have gone out by then and the run
accumulator holds the rest of the run; where the table lacks `ZRL` itself, or the `EOB` that closes a block, no bit
has been. Followed here are the spec's own decisions D18, D19, D29 (92_eei_decisions.md; notes/assumptions/13.md). The
model's own choices in it: notes/assumptions/4.md and notes/assumptions/8.md. -/
def Obligations.AcEncodeRange : Prop :=
  ∀ (s : State) (n : BitVec 4) (f : BitVec 15) (src dst : Byte) (r : Int),
    let zeros := s.accrle + s.acrle.toNat
    (1 ≤ s.k → sourceStep s s.k = some src → destStep s s.k = some dst →
      r = (if src = dst then vdecode f.toNat n.toNat else rdiv (vdecode f.toNat n.toNat * src.toNat) dst.toNat) →
      (r ≠ 0 → ∀ zc zw, (16 ≤ zeros → huffEncode (destTable .ac s) 0xF0 = some (zc, zw)) →
        15 < (vencode r).2
          ∨ huffEncode (destTable .ac s) (BitVec.ofNat 8 (zeros % 16 * 16 + (vencode r).2)) = none →
        exec (.v n f) s = .next { (outBits zc zw)^[zeros / 16] s with
          accrle := zeros % 16
          failed := true, reason := 14, running := false, reply := some (.fatal 14) })
      ∧ (r ≠ 0 → 16 ≤ zeros → huffEncode (destTable .ac s) 0xF0 = none → exec (.v n f) s = .next { s with
          accrle := zeros
          failed := true, reason := 14, running := false, reply := some (.fatal 14) })
      ∧ (r = 0 → 63 ≤ s.k → huffEncode (destTable .ac s) 0x00 = none → exec (.v n f) s = .next { s with
          failed := true, reason := 14, running := false, reply := some (.fatal 14) }))
    ∧ (huffEncode (destTable .ac s) 0x00 = none → exec .eob s = .next { s with
        acrle := 0, failed := true, reason := 14, running := false, reply := some (.fatal 14) })
    ∧ (s.k + 16 ≤ 63 → huffEncode (destTable .ac s) 0xF0 = none → exec .zrl s = .next { s with
        acrle := 0, failed := true, reason := 14, running := false, reply := some (.fatal 14) })
end

