-- ==== Sys2Proof/Laws/Codes.lean ====
section
/-! SUPPORT. Canonical Huffman codes and value fields: what a lookup and a search can answer. -/

namespace Sys2Proof.Machine

/-- What a walk that starts at length `L` can answer: a match lies at a length from `L` to 16 inside the window; more
input is asked for only at a length beyond the window; no match means all lengths were in the window; a missing entry
means the table's symbols are fewer than its counts declare. -/
theorem huffWalk_cases (ibits ilen : Nat) (cs : List Byte) (L code : Nat) (syms : List Byte) :
    (∃ sym w, huffWalk ibits ilen cs L code syms = .found sym w ∧ L ≤ w ∧ w ≤ ilen ∧ w < L + cs.length)
      ∨ (huffWalk ibits ilen cs L code syms = .needInput ∧ ilen + 1 < L + cs.length)
      ∨ (huffWalk ibits ilen cs L code syms = .noMatch ∧ (cs ≠ [] → L + cs.length ≤ ilen + 1))
      ∨ (huffWalk ibits ilen cs L code syms = .noEntry ∧ syms.length < countSum cs) := by
  induction cs generalizing L code syms with
  | nil => right; right; left; exact ⟨rfl, fun h => absurd rfl h⟩
  | cons c cs ih =>
    unfold huffWalk
    split
    · right; left; refine ⟨rfl, ?_⟩; simp only [List.length_cons]; omega
    · rename_i hL
      split
      · rename_i hm
        split
        · rename_i sym hs
          left; exact ⟨sym, L, rfl, Nat.le_refl _, by omega, by simp only [List.length_cons]; omega⟩
        · rename_i hs
          right; right; right
          refine ⟨rfl, ?_⟩
          rw [List.getElem?_eq_none_iff] at hs
          simp only [countSum, List.map_cons, List.sum_cons]
          omega
      · rcases ih (L + 1) ((code + c.toNat) * 2) (syms.drop c.toNat) with
          ⟨sym, w, h1, h2, h3, h4⟩ | ⟨h1, h2⟩ | ⟨h1, h2⟩ | ⟨h1, h2⟩
        · left; exact ⟨sym, w, h1, by omega, h3, by simp only [List.length_cons]; omega⟩
        · right; left; exact ⟨h1, by simp only [List.length_cons]; omega⟩
        · right; right; left
          refine ⟨h1, fun _ => ?_⟩
          cases cs with
          | nil => simp only [List.length_cons, List.length_nil]; omega
          | cons c' cs =>
            have := h2 (by simp)
            simp only [List.length_cons] at this ⊢; omega
        · right; right; right
          refine ⟨h1, ?_⟩
          simp only [List.length_drop, countSum, List.map_cons, List.sum_cons] at h2 ⊢
          omega

/-- What a lookup in a table of the right shape can answer (41_entropy_decode.md R154, R162, R163): a match of 1 to 16
bits inside the window, more input below 16 bits, no match from 16 bits on. -/
theorem huffLookup_cases {t : HuffTable} (h : t.shaped) (ibits ilen : Nat) :
    (∃ sym w, huffLookup t ibits ilen = .found sym w ∧ 1 ≤ w ∧ w ≤ ilen ∧ w ≤ 16)
      ∨ (huffLookup t ibits ilen = .needInput ∧ ilen ≤ 15)
      ∨ (huffLookup t ibits ilen = .noMatch ∧ 16 ≤ ilen) := by
  simp only [HuffTable.shaped, Bool.and_eq_true, beq_iff_eq, decide_eq_true_eq] at h
  obtain ⟨⟨⟨hc, hn⟩, hs⟩, _⟩ := h
  rcases huffWalk_cases ibits ilen t.count 1 0 t.sym with
    ⟨sym, w, h1, h2, h3, h4⟩ | ⟨h1, h2⟩ | ⟨h1, h2⟩ | ⟨_, h2⟩
  · left; exact ⟨sym, w, h1, h2, h3, by omega⟩
  · right; left; exact ⟨h1, by omega⟩
  · right; right
    have hne : t.count ≠ [] := fun h0 => by simp [h0] at hc
    have := h2 hne
    exact ⟨h1, by omega⟩
  · exact absurd h2 (by omega)

/-- A search from length `L` on answers a width from `L` to the last length. -/
theorem huffFind_width {sym : Byte} {cs : List Byte} {L code : Nat} {syms : List Byte} {c w : Nat}
    (h : huffFind sym cs L code syms = some (c, w)) : L ≤ w ∧ w < L + cs.length := by
  induction cs generalizing L code syms with
  | nil => simp [huffFind] at h
  | cons x cs ih =>
    unfold huffFind at h
    split at h
    · simp only [Option.some.injEq, Prod.mk.injEq] at h
      simp only [List.length_cons]; omega
    · have := ih h
      simp only [List.length_cons]; omega

/-- A code has 1 to 16 bits (43_entropy_encode.md R187). -/
theorem huffEncode_width {t : HuffTable} (ht : t.count.length = 16) {sym : Byte} {code w : Nat}
    (h : huffEncode t sym = some (code, w)) : 1 ≤ w ∧ w ≤ 16 := by
  have := huffFind_width h
  omega

/-- A symbol of the table has a code. -/
theorem huffFind_isSome {sym : Byte} {cs : List Byte} (L code : Nat) {syms : List Byte}
    (hl : syms.length = countSum cs) (hm : sym ∈ syms) : (huffFind sym cs L code syms).isSome := by
  induction cs generalizing L code syms with
  | nil =>
    simp only [countSum, List.map_nil, List.sum_nil, List.length_eq_zero_iff] at hl
    simp [hl] at hm
  | cons x cs ih =>
    unfold huffFind
    split
    · rfl
    · rename_i hn
      refine ih _ _ ?_ ?_
      · simp only [List.length_drop, hl, countSum, List.map_cons, List.sum_cons]; omega
      · rw [← List.take_append_drop x.toNat syms, List.mem_append] at hm
        rcases hm with hm | hm
        · rw [List.findIdx?_eq_none_iff] at hn
          have := hn sym hm
          simp at this
        · exact hm

/-- A symbol of a table of the right shape has a code (43_entropy_encode.md R187). -/
theorem huffEncode_isSome {t : HuffTable} (ht : t.shaped) {sym : Byte} (hm : sym ∈ t.sym) :
    (huffEncode t sym).isSome := by
  simp only [HuffTable.shaped, Bool.and_eq_true, beq_iff_eq, decide_eq_true_eq] at ht
  exact huffFind_isSome 1 0 (by omega) hm

/-- The size of 0 is 0. -/
@[simp] theorem vencode_zero : vencode 0 = (0, 0) := rfl

end Sys2Proof.Machine
end

