-- ==== Sys2Proof/Laws/Memory.lean ====
section
/-! SUPPORT. The byte spaces: what a read gives after a write, and that every memory operation keeps the canonical
form. -/

namespace Sys2Proof.Machine

/-- A space whose addresses all lie at or above `lo` reads as unlisted below `lo`. -/
theorem memRead_below {m : Memory} {lo a : Nat} (h : memWfFrom lo m) (ha : a < lo) : memRead m a = unlisted := by
  induction m generalizing lo with
  | nil => rfl
  | cons c m ih =>
    obtain ⟨a', b⟩ := c
    simp only [memWfFrom, Bool.and_eq_true, decide_eq_true_eq] at h
    have : a ≠ a' := by omega
    simp only [memRead, this, if_false]
    exact ih h.2 (by omega)

/-- Raising nothing: a space in form from `lo` is in form from anything lower. -/
theorem memWfFrom_mono {m : Memory} {lo lo' : Nat} (h : memWfFrom lo m) (hl : lo' ≤ lo) : memWfFrom lo' m := by
  cases m with
  | nil => rfl
  | cons c m =>
    obtain ⟨a', b⟩ := c
    simp only [memWfFrom, Bool.and_eq_true, decide_eq_true_eq] at h ⊢
    exact ⟨⟨by omega, h.1.2⟩, h.2⟩

/-- A write keeps the canonical form. -/
theorem memWrite_wfFrom {m : Memory} {lo a : Nat} (b : Byte) (h : memWfFrom lo m) (ha : lo ≤ a) :
    memWfFrom lo (memWrite m a b) := by
  induction m generalizing lo with
  | nil =>
    by_cases hb : b = unlisted <;> simp [memWrite, memWfFrom, hb, ha]
  | cons c m ih =>
    obtain ⟨a', b'⟩ := c
    simp only [memWfFrom, Bool.and_eq_true, decide_eq_true_eq, bne_iff_ne] at h
    unfold memWrite
    split
    · split
      · simp only [memWfFrom, Bool.and_eq_true, decide_eq_true_eq, bne_iff_ne]; exact h
      · rename_i hb
        simp only [memWfFrom, Bool.and_eq_true, decide_eq_true_eq, bne_iff_ne]
        exact ⟨⟨ha, hb⟩, ⟨by omega, h.1.2⟩, h.2⟩
    · split
      · split
        · exact memWfFrom_mono h.2 (by omega)
        · rename_i hb
          simp only [memWfFrom, Bool.and_eq_true, decide_eq_true_eq, bne_iff_ne]
          subst a; exact ⟨⟨ha, hb⟩, h.2⟩
      · simp only [memWfFrom, Bool.and_eq_true, decide_eq_true_eq, bne_iff_ne]
        exact ⟨h.1, ih h.2 (by omega)⟩

/-- A write keeps the canonical form. -/
theorem memWrite_wf {m : Memory} (a : Nat) (b : Byte) (h : Memory.wf m) : Memory.wf (memWrite m a b) :=
  memWrite_wfFrom b h (Nat.zero_le a)

/-- A read after a write to the same address gives the byte written. -/
theorem memRead_memWrite_same {m : Memory} {lo a : Nat} (b : Byte) (h : memWfFrom lo m) :
    memRead (memWrite m a b) a = b := by
  induction m generalizing lo with
  | nil => by_cases hb : b = unlisted <;> simp [memWrite, memRead, hb]
  | cons c m ih =>
    obtain ⟨a', b'⟩ := c
    simp only [memWfFrom, Bool.and_eq_true, decide_eq_true_eq, bne_iff_ne] at h
    unfold memWrite
    split
    · split
      · rename_i hlt hb
        have : a ≠ a' := by omega
        simp only [memRead, this, if_false, hb]
        exact memRead_below h.2 (by omega)
      · simp [memRead]
    · split
      · split
        · rename_i heq hb
          rw [hb]; exact memRead_below h.2 (by omega)
        · simp [memRead]
      · rename_i h1 h2
        simp only [memRead, h2, if_false]
        exact ih h.2

/-- A write leaves every other address as it was. -/
theorem memRead_memWrite_other (m : Memory) {a a' : Nat} (b : Byte) (hne : a' ≠ a) :
    memRead (memWrite m a b) a' = memRead m a' := by
  induction m with
  | nil => by_cases hb : b = unlisted <;> simp [memWrite, memRead, hb, hne]
  | cons c m ih =>
    obtain ⟨x, y⟩ := c
    unfold memWrite
    split
    · split
      · rfl
      · simp [memRead, hne]
    · split
      · rename_i heq
        have hx : a' ≠ x := by omega
        split <;> simp [memRead, hne, hx]
      · simp only [memRead, ih]

/-- Storing a sequence keeps the canonical form. -/
theorem memStore_wf {m : Memory} (a : Nat) (bs : List Byte) (h : Memory.wf m) : Memory.wf (memStore m a bs) := by
  induction bs generalizing m a with
  | nil => exact h
  | cons b bs ih => exact ih (a + 1) (memWrite_wf a b h)

/-- A space that holds a sequence from address `a` on is in canonical form. -/
theorem memOfBytes_wfFrom (a : Nat) (bs : List Byte) : memWfFrom a (memOfBytes a bs) := by
  induction bs generalizing a with
  | nil => rfl
  | cons b bs ih =>
    unfold memOfBytes
    split
    · exact memWfFrom_mono (ih (a + 1)) (by omega)
    · rename_i hb
      simp only [memWfFrom, Bool.and_eq_true, decide_eq_true_eq, bne_iff_ne]
      exact ⟨⟨Nat.le_refl a, hb⟩, ih (a + 1)⟩

/-- A source of bytes is in canonical form. -/
theorem memOfBytes_wf (bs : List Byte) : Memory.wf (memOfBytes 0 bs) := memOfBytes_wfFrom 0 bs

/-- Reading a space built from a sequence gives the sequence's bytes, and the unlisted byte beyond it. -/
theorem memRead_memOfBytes (a : Nat) (bs : List Byte) (i : Nat) :
    memRead (memOfBytes a bs) (a + i) = bs.getD i unlisted := by
  induction bs generalizing a i with
  | nil => simp [memOfBytes, memRead]
  | cons b bs ih =>
    unfold memOfBytes
    cases i with
    | zero =>
      split
      · rename_i hb
        rw [memRead_below (memOfBytes_wfFrom (a + 1) bs) (by omega)]; simp [hb]
      · simp [memRead]
    | succ i =>
      have h := ih (a + 1) i
      rw [show a + 1 + i = a + (i + 1) by omega] at h
      split
      · simpa using h
      · rw [memRead]; simpa using h

/-- Two spaces in canonical form that read alike are the same data. -/
theorem memory_ext {m m' : Memory} {lo : Nat} (h : memWfFrom lo m) (h' : memWfFrom lo m')
    (hr : ∀ a, memRead m a = memRead m' a) : m = m' := by
  induction m generalizing lo m' with
  | nil =>
    cases m' with
    | nil => rfl
    | cons c m' =>
      obtain ⟨a, b⟩ := c
      simp only [memWfFrom, Bool.and_eq_true, decide_eq_true_eq, bne_iff_ne] at h'
      have := hr a
      simp only [memRead, if_true] at this
      exact absurd this.symm h'.1.2
  | cons c m ih =>
    obtain ⟨a, b⟩ := c
    simp only [memWfFrom, Bool.and_eq_true, decide_eq_true_eq, bne_iff_ne] at h
    cases m' with
    | nil =>
      have := hr a
      simp only [memRead, if_true] at this
      exact absurd this h.1.2
    | cons c' m' =>
      obtain ⟨a', b'⟩ := c'
      simp only [memWfFrom, Bool.and_eq_true, decide_eq_true_eq, bne_iff_ne] at h'
      have haa : a = a' := by
        rcases Nat.lt_trichotomy a a' with hlt | heq | hgt
        · have := hr a
          rw [memRead, if_pos rfl, memRead, if_neg (by omega), memRead_below h'.2 (by omega)] at this
          exact absurd this h.1.2
        · exact heq
        · have := hr a'
          rw [memRead, if_neg (by omega), memRead_below h.2 (by omega), memRead, if_pos rfl] at this
          exact absurd this.symm h'.1.2
      subst haa
      have hb : b = b' := by have := hr a; simpa [memRead] using this
      subst hb
      have : m = m' := by
        refine ih h.2 h'.2 (fun x => ?_)
        by_cases hx : x = a
        · subst hx; rw [memRead_below h.2 (by omega), memRead_below h'.2 (by omega)]
        · have := hr x
          simpa [memRead, hx] using this
      rw [this]

end Sys2Proof.Machine
end

