-- ==== Sys2Proof/Laws/State.lean ====
section
/-! SUPPORT. One lemma per field of `State` per named update, each true by unfolding: later proofs rewrite with these
and never unfold a record update. -/

namespace Sys2Proof.Machine

@[simp] theorem enterFatal_src (e : Reason) (s : State) : (enterFatal e s).src = s.src := rfl
@[simp] theorem enterFatal_srcLen (e : Reason) (s : State) : (enterFatal e s).srcLen = s.srcLen := rfl
@[simp] theorem enterFatal_rom (e : Reason) (s : State) : (enterFatal e s).rom = s.rom := rfl
@[simp] theorem enterFatal_srcPos (e : Reason) (s : State) : (enterFatal e s).srcPos = s.srcPos := rfl
@[simp] theorem enterFatal_pstate (e : Reason) (s : State) : (enterFatal e s).pstate = s.pstate := rfl
@[simp] theorem enterFatal_mkReg (e : Reason) (s : State) : (enterFatal e s).mkReg = s.mkReg := rfl
@[simp] theorem enterFatal_segLen (e : Reason) (s : State) : (enterFatal e s).segLen = s.segLen := rfl
@[simp] theorem enterFatal_lenCnt (e : Reason) (s : State) : (enterFatal e s).lenCnt = s.lenCnt := rfl
@[simp] theorem enterFatal_segbuf (e : Reason) (s : State) : (enterFatal e s).segbuf = s.segbuf := rfl
@[simp] theorem enterFatal_segCnt (e : Reason) (s : State) : (enterFatal e s).segCnt = s.segCnt := rfl
@[simp] theorem enterFatal_skipCnt (e : Reason) (s : State) : (enterFatal e s).skipCnt = s.skipCnt := rfl
@[simp] theorem enterFatal_stuffPending (e : Reason) (s : State) : (enterFatal e s).stuffPending = s.stuffPending := rfl
@[simp] theorem enterFatal_callsignCode (e : Reason) (s : State) : (enterFatal e s).callsignCode = s.callsignCode := rfl
@[simp] theorem enterFatal_imageId (e : Reason) (s : State) : (enterFatal e s).imageId = s.imageId := rfl
@[simp] theorem enterFatal_quality (e : Reason) (s : State) : (enterFatal e s).quality = s.quality := rfl
@[simp] theorem enterFatal_haveFrame (e : Reason) (s : State) : (enterFatal e s).haveFrame = s.haveFrame := rfl
@[simp] theorem enterFatal_width (e : Reason) (s : State) : (enterFatal e s).width = s.width := rfl
@[simp] theorem enterFatal_height (e : Reason) (s : State) : (enterFatal e s).height = s.height := rfl
@[simp] theorem enterFatal_ncomp (e : Reason) (s : State) : (enterFatal e s).ncomp = s.ncomp := rfl
@[simp] theorem enterFatal_mono (e : Reason) (s : State) : (enterFatal e s).mono = s.mono := rfl
@[simp] theorem enterFatal_mode (e : Reason) (s : State) : (enterFatal e s).mode = s.mode := rfl
@[simp] theorem enterFatal_yparts (e : Reason) (s : State) : (enterFatal e s).yparts = s.yparts := rfl
@[simp] theorem enterFatal_nunits (e : Reason) (s : State) : (enterFatal e s).nunits = s.nunits := rfl
@[simp] theorem enterFatal_tq (e : Reason) (s : State) : (enterFatal e s).tq = s.tq := rfl
@[simp] theorem enterFatal_scanOk (e : Reason) (s : State) : (enterFatal e s).scanOk = s.scanOk := rfl
@[simp] theorem enterFatal_td (e : Reason) (s : State) : (enterFatal e s).td = s.td := rfl
@[simp] theorem enterFatal_ta (e : Reason) (s : State) : (enterFatal e s).ta = s.ta := rfl
@[simp] theorem enterFatal_dri (e : Reason) (s : State) : (enterFatal e s).dri = s.dri := rfl
@[simp] theorem enterFatal_sqt (e : Reason) (s : State) : (enterFatal e s).sqt = s.sqt := rfl
@[simp] theorem enterFatal_shtDc (e : Reason) (s : State) : (enterFatal e s).shtDc = s.shtDc := rfl
@[simp] theorem enterFatal_shtAc (e : Reason) (s : State) : (enterFatal e s).shtAc = s.shtAc := rfl
@[simp] theorem enterFatal_dqtDst (e : Reason) (s : State) : (enterFatal e s).dqtDst = s.dqtDst := rfl
@[simp] theorem enterFatal_cu (e : Reason) (s : State) : (enterFatal e s).cu = s.cu := rfl
@[simp] theorem enterFatal_part (e : Reason) (s : State) : (enterFatal e s).part = s.part := rfl
@[simp] theorem enterFatal_comp (e : Reason) (s : State) : (enterFatal e s).comp = s.comp := rfl
@[simp] theorem enterFatal_k (e : Reason) (s : State) : (enterFatal e s).k = s.k := rfl
@[simp] theorem enterFatal_dcraw (e : Reason) (s : State) : (enterFatal e s).dcraw = s.dcraw := rfl
@[simp] theorem enterFatal_dcemit (e : Reason) (s : State) : (enterFatal e s).dcemit = s.dcemit := rfl
@[simp] theorem enterFatal_acrle (e : Reason) (s : State) : (enterFatal e s).acrle = s.acrle := rfl
@[simp] theorem enterFatal_accrle (e : Reason) (s : State) : (enterFatal e s).accrle = s.accrle := rfl
@[simp] theorem enterFatal_needbits (e : Reason) (s : State) : (enterFatal e s).needbits = s.needbits := rfl
@[simp] theorem enterFatal_resetCu (e : Reason) (s : State) : (enterFatal e s).resetCu = s.resetCu := rfl
@[simp] theorem enterFatal_ibits (e : Reason) (s : State) : (enterFatal e s).ibits = s.ibits := rfl
@[simp] theorem enterFatal_ilen (e : Reason) (s : State) : (enterFatal e s).ilen = s.ilen := rfl
@[simp] theorem enterFatal_obits (e : Reason) (s : State) : (enterFatal e s).obits = s.obits := rfl
@[simp] theorem enterFatal_olen (e : Reason) (s : State) : (enterFatal e s).olen = s.olen := rfl
@[simp] theorem enterFatal_pktbuf (e : Reason) (s : State) : (enterFatal e s).pktbuf = s.pktbuf := rfl
@[simp] theorem enterFatal_outCount (e : Reason) (s : State) : (enterFatal e s).outCount = s.outCount := rfl
@[simp] theorem enterFatal_pktSeq (e : Reason) (s : State) : (enterFatal e s).pktSeq = s.pktSeq := rfl
@[simp] theorem enterFatal_pktCuIdx (e : Reason) (s : State) : (enterFatal e s).pktCuIdx = s.pktCuIdx := rfl
@[simp] theorem enterFatal_pktCuOff (e : Reason) (s : State) : (enterFatal e s).pktCuOff = s.pktCuOff := rfl
@[simp] theorem enterFatal_nextCuIdx (e : Reason) (s : State) : (enterFatal e s).nextCuIdx = s.nextCuIdx := rfl
@[simp] theorem enterFatal_nextCuOff (e : Reason) (s : State) : (enterFatal e s).nextCuOff = s.nextCuOff := rfl
@[simp] theorem enterFatal_done (e : Reason) (s : State) : (enterFatal e s).done = s.done := rfl
@[simp] theorem enterFatal_failed (e : Reason) (s : State) : (enterFatal e s).failed = true := rfl
@[simp] theorem enterFatal_reason (e : Reason) (s : State) : (enterFatal e s).reason = e.code := rfl
@[simp] theorem enterFatal_running (e : Reason) (s : State) : (enterFatal e s).running = false := rfl
@[simp] theorem enterFatal_reply (e : Reason) (s : State) : (enterFatal e s).reply = some (.fatal e.code) := rfl
@[simp] theorem enterFatal_hostq (e : Reason) (s : State) : (enterFatal e s).hostq = s.hostq := rfl

@[simp] theorem answer_src (r : Reply) (s : State) : (answer r s).src = s.src := rfl
@[simp] theorem answer_srcLen (r : Reply) (s : State) : (answer r s).srcLen = s.srcLen := rfl
@[simp] theorem answer_rom (r : Reply) (s : State) : (answer r s).rom = s.rom := rfl
@[simp] theorem answer_srcPos (r : Reply) (s : State) : (answer r s).srcPos = s.srcPos := rfl
@[simp] theorem answer_pstate (r : Reply) (s : State) : (answer r s).pstate = s.pstate := rfl
@[simp] theorem answer_mkReg (r : Reply) (s : State) : (answer r s).mkReg = s.mkReg := rfl
@[simp] theorem answer_segLen (r : Reply) (s : State) : (answer r s).segLen = s.segLen := rfl
@[simp] theorem answer_lenCnt (r : Reply) (s : State) : (answer r s).lenCnt = s.lenCnt := rfl
@[simp] theorem answer_segbuf (r : Reply) (s : State) : (answer r s).segbuf = s.segbuf := rfl
@[simp] theorem answer_segCnt (r : Reply) (s : State) : (answer r s).segCnt = s.segCnt := rfl
@[simp] theorem answer_skipCnt (r : Reply) (s : State) : (answer r s).skipCnt = s.skipCnt := rfl
@[simp] theorem answer_stuffPending (r : Reply) (s : State) : (answer r s).stuffPending = s.stuffPending := rfl
@[simp] theorem answer_callsignCode (r : Reply) (s : State) : (answer r s).callsignCode = s.callsignCode := rfl
@[simp] theorem answer_imageId (r : Reply) (s : State) : (answer r s).imageId = s.imageId := rfl
@[simp] theorem answer_quality (r : Reply) (s : State) : (answer r s).quality = s.quality := rfl
@[simp] theorem answer_haveFrame (r : Reply) (s : State) : (answer r s).haveFrame = s.haveFrame := rfl
@[simp] theorem answer_width (r : Reply) (s : State) : (answer r s).width = s.width := rfl
@[simp] theorem answer_height (r : Reply) (s : State) : (answer r s).height = s.height := rfl
@[simp] theorem answer_ncomp (r : Reply) (s : State) : (answer r s).ncomp = s.ncomp := rfl
@[simp] theorem answer_mono (r : Reply) (s : State) : (answer r s).mono = s.mono := rfl
@[simp] theorem answer_mode (r : Reply) (s : State) : (answer r s).mode = s.mode := rfl
@[simp] theorem answer_yparts (r : Reply) (s : State) : (answer r s).yparts = s.yparts := rfl
@[simp] theorem answer_nunits (r : Reply) (s : State) : (answer r s).nunits = s.nunits := rfl
@[simp] theorem answer_tq (r : Reply) (s : State) : (answer r s).tq = s.tq := rfl
@[simp] theorem answer_scanOk (r : Reply) (s : State) : (answer r s).scanOk = s.scanOk := rfl
@[simp] theorem answer_td (r : Reply) (s : State) : (answer r s).td = s.td := rfl
@[simp] theorem answer_ta (r : Reply) (s : State) : (answer r s).ta = s.ta := rfl
@[simp] theorem answer_dri (r : Reply) (s : State) : (answer r s).dri = s.dri := rfl
@[simp] theorem answer_sqt (r : Reply) (s : State) : (answer r s).sqt = s.sqt := rfl
@[simp] theorem answer_shtDc (r : Reply) (s : State) : (answer r s).shtDc = s.shtDc := rfl
@[simp] theorem answer_shtAc (r : Reply) (s : State) : (answer r s).shtAc = s.shtAc := rfl
@[simp] theorem answer_dqtDst (r : Reply) (s : State) : (answer r s).dqtDst = s.dqtDst := rfl
@[simp] theorem answer_cu (r : Reply) (s : State) : (answer r s).cu = s.cu := rfl
@[simp] theorem answer_part (r : Reply) (s : State) : (answer r s).part = s.part := rfl
@[simp] theorem answer_comp (r : Reply) (s : State) : (answer r s).comp = s.comp := rfl
@[simp] theorem answer_k (r : Reply) (s : State) : (answer r s).k = s.k := rfl
@[simp] theorem answer_dcraw (r : Reply) (s : State) : (answer r s).dcraw = s.dcraw := rfl
@[simp] theorem answer_dcemit (r : Reply) (s : State) : (answer r s).dcemit = s.dcemit := rfl
@[simp] theorem answer_acrle (r : Reply) (s : State) : (answer r s).acrle = s.acrle := rfl
@[simp] theorem answer_accrle (r : Reply) (s : State) : (answer r s).accrle = s.accrle := rfl
@[simp] theorem answer_needbits (r : Reply) (s : State) : (answer r s).needbits = s.needbits := rfl
@[simp] theorem answer_resetCu (r : Reply) (s : State) : (answer r s).resetCu = s.resetCu := rfl
@[simp] theorem answer_ibits (r : Reply) (s : State) : (answer r s).ibits = s.ibits := rfl
@[simp] theorem answer_ilen (r : Reply) (s : State) : (answer r s).ilen = s.ilen := rfl
@[simp] theorem answer_obits (r : Reply) (s : State) : (answer r s).obits = s.obits := rfl
@[simp] theorem answer_olen (r : Reply) (s : State) : (answer r s).olen = s.olen := rfl
@[simp] theorem answer_pktbuf (r : Reply) (s : State) : (answer r s).pktbuf = s.pktbuf := rfl
@[simp] theorem answer_outCount (r : Reply) (s : State) : (answer r s).outCount = s.outCount := rfl
@[simp] theorem answer_pktSeq (r : Reply) (s : State) : (answer r s).pktSeq = s.pktSeq := rfl
@[simp] theorem answer_pktCuIdx (r : Reply) (s : State) : (answer r s).pktCuIdx = s.pktCuIdx := rfl
@[simp] theorem answer_pktCuOff (r : Reply) (s : State) : (answer r s).pktCuOff = s.pktCuOff := rfl
@[simp] theorem answer_nextCuIdx (r : Reply) (s : State) : (answer r s).nextCuIdx = s.nextCuIdx := rfl
@[simp] theorem answer_nextCuOff (r : Reply) (s : State) : (answer r s).nextCuOff = s.nextCuOff := rfl
@[simp] theorem answer_done (r : Reply) (s : State) : (answer r s).done = s.done := rfl
@[simp] theorem answer_failed (r : Reply) (s : State) : (answer r s).failed = s.failed := rfl
@[simp] theorem answer_reason (r : Reply) (s : State) : (answer r s).reason = s.reason := rfl
@[simp] theorem answer_running (r : Reply) (s : State) : (answer r s).running = false := rfl
@[simp] theorem answer_reply (r : Reply) (s : State) : (answer r s).reply = some r := rfl
@[simp] theorem answer_hostq (r : Reply) (s : State) : (answer r s).hostq = s.hostq := rfl

@[simp] theorem merge_src (b : Byte) (s : State) : (merge b s).src = s.src := rfl
@[simp] theorem merge_srcLen (b : Byte) (s : State) : (merge b s).srcLen = s.srcLen := rfl
@[simp] theorem merge_rom (b : Byte) (s : State) : (merge b s).rom = s.rom := rfl
@[simp] theorem merge_srcPos (b : Byte) (s : State) : (merge b s).srcPos = s.srcPos := rfl
@[simp] theorem merge_pstate (b : Byte) (s : State) : (merge b s).pstate = s.pstate := rfl
@[simp] theorem merge_mkReg (b : Byte) (s : State) : (merge b s).mkReg = s.mkReg := rfl
@[simp] theorem merge_segLen (b : Byte) (s : State) : (merge b s).segLen = s.segLen := rfl
@[simp] theorem merge_lenCnt (b : Byte) (s : State) : (merge b s).lenCnt = s.lenCnt := rfl
@[simp] theorem merge_segbuf (b : Byte) (s : State) : (merge b s).segbuf = s.segbuf := rfl
@[simp] theorem merge_segCnt (b : Byte) (s : State) : (merge b s).segCnt = s.segCnt := rfl
@[simp] theorem merge_skipCnt (b : Byte) (s : State) : (merge b s).skipCnt = s.skipCnt := rfl
@[simp] theorem merge_stuffPending (b : Byte) (s : State) : (merge b s).stuffPending = (s.stuffPending || b == 0xFF) := rfl
@[simp] theorem merge_callsignCode (b : Byte) (s : State) : (merge b s).callsignCode = s.callsignCode := rfl
@[simp] theorem merge_imageId (b : Byte) (s : State) : (merge b s).imageId = s.imageId := rfl
@[simp] theorem merge_quality (b : Byte) (s : State) : (merge b s).quality = s.quality := rfl
@[simp] theorem merge_haveFrame (b : Byte) (s : State) : (merge b s).haveFrame = s.haveFrame := rfl
@[simp] theorem merge_width (b : Byte) (s : State) : (merge b s).width = s.width := rfl
@[simp] theorem merge_height (b : Byte) (s : State) : (merge b s).height = s.height := rfl
@[simp] theorem merge_ncomp (b : Byte) (s : State) : (merge b s).ncomp = s.ncomp := rfl
@[simp] theorem merge_mono (b : Byte) (s : State) : (merge b s).mono = s.mono := rfl
@[simp] theorem merge_mode (b : Byte) (s : State) : (merge b s).mode = s.mode := rfl
@[simp] theorem merge_yparts (b : Byte) (s : State) : (merge b s).yparts = s.yparts := rfl
@[simp] theorem merge_nunits (b : Byte) (s : State) : (merge b s).nunits = s.nunits := rfl
@[simp] theorem merge_tq (b : Byte) (s : State) : (merge b s).tq = s.tq := rfl
@[simp] theorem merge_scanOk (b : Byte) (s : State) : (merge b s).scanOk = s.scanOk := rfl
@[simp] theorem merge_td (b : Byte) (s : State) : (merge b s).td = s.td := rfl
@[simp] theorem merge_ta (b : Byte) (s : State) : (merge b s).ta = s.ta := rfl
@[simp] theorem merge_dri (b : Byte) (s : State) : (merge b s).dri = s.dri := rfl
@[simp] theorem merge_sqt (b : Byte) (s : State) : (merge b s).sqt = s.sqt := rfl
@[simp] theorem merge_shtDc (b : Byte) (s : State) : (merge b s).shtDc = s.shtDc := rfl
@[simp] theorem merge_shtAc (b : Byte) (s : State) : (merge b s).shtAc = s.shtAc := rfl
@[simp] theorem merge_dqtDst (b : Byte) (s : State) : (merge b s).dqtDst = s.dqtDst := rfl
@[simp] theorem merge_cu (b : Byte) (s : State) : (merge b s).cu = s.cu := rfl
@[simp] theorem merge_part (b : Byte) (s : State) : (merge b s).part = s.part := rfl
@[simp] theorem merge_comp (b : Byte) (s : State) : (merge b s).comp = s.comp := rfl
@[simp] theorem merge_k (b : Byte) (s : State) : (merge b s).k = s.k := rfl
@[simp] theorem merge_dcraw (b : Byte) (s : State) : (merge b s).dcraw = s.dcraw := rfl
@[simp] theorem merge_dcemit (b : Byte) (s : State) : (merge b s).dcemit = s.dcemit := rfl
@[simp] theorem merge_acrle (b : Byte) (s : State) : (merge b s).acrle = s.acrle := rfl
@[simp] theorem merge_accrle (b : Byte) (s : State) : (merge b s).accrle = s.accrle := rfl
@[simp] theorem merge_needbits (b : Byte) (s : State) : (merge b s).needbits = s.needbits := rfl
@[simp] theorem merge_resetCu (b : Byte) (s : State) : (merge b s).resetCu = s.resetCu := rfl
@[simp] theorem merge_ibits (b : Byte) (s : State) : (merge b s).ibits = s.ibits * 256 + b.toNat := rfl
@[simp] theorem merge_ilen (b : Byte) (s : State) : (merge b s).ilen = s.ilen + 8 := rfl
@[simp] theorem merge_obits (b : Byte) (s : State) : (merge b s).obits = s.obits := rfl
@[simp] theorem merge_olen (b : Byte) (s : State) : (merge b s).olen = s.olen := rfl
@[simp] theorem merge_pktbuf (b : Byte) (s : State) : (merge b s).pktbuf = s.pktbuf := rfl
@[simp] theorem merge_outCount (b : Byte) (s : State) : (merge b s).outCount = s.outCount := rfl
@[simp] theorem merge_pktSeq (b : Byte) (s : State) : (merge b s).pktSeq = s.pktSeq := rfl
@[simp] theorem merge_pktCuIdx (b : Byte) (s : State) : (merge b s).pktCuIdx = s.pktCuIdx := rfl
@[simp] theorem merge_pktCuOff (b : Byte) (s : State) : (merge b s).pktCuOff = s.pktCuOff := rfl
@[simp] theorem merge_nextCuIdx (b : Byte) (s : State) : (merge b s).nextCuIdx = s.nextCuIdx := rfl
@[simp] theorem merge_nextCuOff (b : Byte) (s : State) : (merge b s).nextCuOff = s.nextCuOff := rfl
@[simp] theorem merge_done (b : Byte) (s : State) : (merge b s).done = s.done := rfl
@[simp] theorem merge_failed (b : Byte) (s : State) : (merge b s).failed = s.failed := rfl
@[simp] theorem merge_reason (b : Byte) (s : State) : (merge b s).reason = s.reason := rfl
@[simp] theorem merge_running (b : Byte) (s : State) : (merge b s).running = s.running := rfl
@[simp] theorem merge_reply (b : Byte) (s : State) : (merge b s).reply = s.reply := rfl
@[simp] theorem merge_hostq (b : Byte) (s : State) : (merge b s).hostq = s.hostq := rfl

@[simp] theorem consume_src (n : Nat) (s : State) : (consume n s).src = s.src := rfl
@[simp] theorem consume_srcLen (n : Nat) (s : State) : (consume n s).srcLen = s.srcLen := rfl
@[simp] theorem consume_rom (n : Nat) (s : State) : (consume n s).rom = s.rom := rfl
@[simp] theorem consume_srcPos (n : Nat) (s : State) : (consume n s).srcPos = s.srcPos := rfl
@[simp] theorem consume_pstate (n : Nat) (s : State) : (consume n s).pstate = s.pstate := rfl
@[simp] theorem consume_mkReg (n : Nat) (s : State) : (consume n s).mkReg = s.mkReg := rfl
@[simp] theorem consume_segLen (n : Nat) (s : State) : (consume n s).segLen = s.segLen := rfl
@[simp] theorem consume_lenCnt (n : Nat) (s : State) : (consume n s).lenCnt = s.lenCnt := rfl
@[simp] theorem consume_segbuf (n : Nat) (s : State) : (consume n s).segbuf = s.segbuf := rfl
@[simp] theorem consume_segCnt (n : Nat) (s : State) : (consume n s).segCnt = s.segCnt := rfl
@[simp] theorem consume_skipCnt (n : Nat) (s : State) : (consume n s).skipCnt = s.skipCnt := rfl
@[simp] theorem consume_stuffPending (n : Nat) (s : State) : (consume n s).stuffPending = s.stuffPending := rfl
@[simp] theorem consume_callsignCode (n : Nat) (s : State) : (consume n s).callsignCode = s.callsignCode := rfl
@[simp] theorem consume_imageId (n : Nat) (s : State) : (consume n s).imageId = s.imageId := rfl
@[simp] theorem consume_quality (n : Nat) (s : State) : (consume n s).quality = s.quality := rfl
@[simp] theorem consume_haveFrame (n : Nat) (s : State) : (consume n s).haveFrame = s.haveFrame := rfl
@[simp] theorem consume_width (n : Nat) (s : State) : (consume n s).width = s.width := rfl
@[simp] theorem consume_height (n : Nat) (s : State) : (consume n s).height = s.height := rfl
@[simp] theorem consume_ncomp (n : Nat) (s : State) : (consume n s).ncomp = s.ncomp := rfl
@[simp] theorem consume_mono (n : Nat) (s : State) : (consume n s).mono = s.mono := rfl
@[simp] theorem consume_mode (n : Nat) (s : State) : (consume n s).mode = s.mode := rfl
@[simp] theorem consume_yparts (n : Nat) (s : State) : (consume n s).yparts = s.yparts := rfl
@[simp] theorem consume_nunits (n : Nat) (s : State) : (consume n s).nunits = s.nunits := rfl
@[simp] theorem consume_tq (n : Nat) (s : State) : (consume n s).tq = s.tq := rfl
@[simp] theorem consume_scanOk (n : Nat) (s : State) : (consume n s).scanOk = s.scanOk := rfl
@[simp] theorem consume_td (n : Nat) (s : State) : (consume n s).td = s.td := rfl
@[simp] theorem consume_ta (n : Nat) (s : State) : (consume n s).ta = s.ta := rfl
@[simp] theorem consume_dri (n : Nat) (s : State) : (consume n s).dri = s.dri := rfl
@[simp] theorem consume_sqt (n : Nat) (s : State) : (consume n s).sqt = s.sqt := rfl
@[simp] theorem consume_shtDc (n : Nat) (s : State) : (consume n s).shtDc = s.shtDc := rfl
@[simp] theorem consume_shtAc (n : Nat) (s : State) : (consume n s).shtAc = s.shtAc := rfl
@[simp] theorem consume_dqtDst (n : Nat) (s : State) : (consume n s).dqtDst = s.dqtDst := rfl
@[simp] theorem consume_cu (n : Nat) (s : State) : (consume n s).cu = s.cu := rfl
@[simp] theorem consume_part (n : Nat) (s : State) : (consume n s).part = s.part := rfl
@[simp] theorem consume_comp (n : Nat) (s : State) : (consume n s).comp = s.comp := rfl
@[simp] theorem consume_k (n : Nat) (s : State) : (consume n s).k = s.k := rfl
@[simp] theorem consume_dcraw (n : Nat) (s : State) : (consume n s).dcraw = s.dcraw := rfl
@[simp] theorem consume_dcemit (n : Nat) (s : State) : (consume n s).dcemit = s.dcemit := rfl
@[simp] theorem consume_acrle (n : Nat) (s : State) : (consume n s).acrle = s.acrle := rfl
@[simp] theorem consume_accrle (n : Nat) (s : State) : (consume n s).accrle = s.accrle := rfl
@[simp] theorem consume_needbits (n : Nat) (s : State) : (consume n s).needbits = s.needbits := rfl
@[simp] theorem consume_resetCu (n : Nat) (s : State) : (consume n s).resetCu = s.resetCu := rfl
@[simp] theorem consume_ibits (n : Nat) (s : State) : (consume n s).ibits = s.ibits % 2 ^ (s.ilen - n) := rfl
@[simp] theorem consume_ilen (n : Nat) (s : State) : (consume n s).ilen = s.ilen - n := rfl
@[simp] theorem consume_obits (n : Nat) (s : State) : (consume n s).obits = s.obits := rfl
@[simp] theorem consume_olen (n : Nat) (s : State) : (consume n s).olen = s.olen := rfl
@[simp] theorem consume_pktbuf (n : Nat) (s : State) : (consume n s).pktbuf = s.pktbuf := rfl
@[simp] theorem consume_outCount (n : Nat) (s : State) : (consume n s).outCount = s.outCount := rfl
@[simp] theorem consume_pktSeq (n : Nat) (s : State) : (consume n s).pktSeq = s.pktSeq := rfl
@[simp] theorem consume_pktCuIdx (n : Nat) (s : State) : (consume n s).pktCuIdx = s.pktCuIdx := rfl
@[simp] theorem consume_pktCuOff (n : Nat) (s : State) : (consume n s).pktCuOff = s.pktCuOff := rfl
@[simp] theorem consume_nextCuIdx (n : Nat) (s : State) : (consume n s).nextCuIdx = s.nextCuIdx := rfl
@[simp] theorem consume_nextCuOff (n : Nat) (s : State) : (consume n s).nextCuOff = s.nextCuOff := rfl
@[simp] theorem consume_done (n : Nat) (s : State) : (consume n s).done = s.done := rfl
@[simp] theorem consume_failed (n : Nat) (s : State) : (consume n s).failed = s.failed := rfl
@[simp] theorem consume_reason (n : Nat) (s : State) : (consume n s).reason = s.reason := rfl
@[simp] theorem consume_running (n : Nat) (s : State) : (consume n s).running = s.running := rfl
@[simp] theorem consume_reply (n : Nat) (s : State) : (consume n s).reply = s.reply := rfl
@[simp] theorem consume_hostq (n : Nat) (s : State) : (consume n s).hostq = s.hostq := rfl

@[simp] theorem drainByte_src (s : State) : (drainByte s).src = s.src := rfl
@[simp] theorem drainByte_srcLen (s : State) : (drainByte s).srcLen = s.srcLen := rfl
@[simp] theorem drainByte_rom (s : State) : (drainByte s).rom = s.rom := rfl
@[simp] theorem drainByte_srcPos (s : State) : (drainByte s).srcPos = s.srcPos := rfl
@[simp] theorem drainByte_pstate (s : State) : (drainByte s).pstate = s.pstate := rfl
@[simp] theorem drainByte_mkReg (s : State) : (drainByte s).mkReg = s.mkReg := rfl
@[simp] theorem drainByte_segLen (s : State) : (drainByte s).segLen = s.segLen := rfl
@[simp] theorem drainByte_lenCnt (s : State) : (drainByte s).lenCnt = s.lenCnt := rfl
@[simp] theorem drainByte_segbuf (s : State) : (drainByte s).segbuf = s.segbuf := rfl
@[simp] theorem drainByte_segCnt (s : State) : (drainByte s).segCnt = s.segCnt := rfl
@[simp] theorem drainByte_skipCnt (s : State) : (drainByte s).skipCnt = s.skipCnt := rfl
@[simp] theorem drainByte_stuffPending (s : State) : (drainByte s).stuffPending = s.stuffPending := rfl
@[simp] theorem drainByte_callsignCode (s : State) : (drainByte s).callsignCode = s.callsignCode := rfl
@[simp] theorem drainByte_imageId (s : State) : (drainByte s).imageId = s.imageId := rfl
@[simp] theorem drainByte_quality (s : State) : (drainByte s).quality = s.quality := rfl
@[simp] theorem drainByte_haveFrame (s : State) : (drainByte s).haveFrame = s.haveFrame := rfl
@[simp] theorem drainByte_width (s : State) : (drainByte s).width = s.width := rfl
@[simp] theorem drainByte_height (s : State) : (drainByte s).height = s.height := rfl
@[simp] theorem drainByte_ncomp (s : State) : (drainByte s).ncomp = s.ncomp := rfl
@[simp] theorem drainByte_mono (s : State) : (drainByte s).mono = s.mono := rfl
@[simp] theorem drainByte_mode (s : State) : (drainByte s).mode = s.mode := rfl
@[simp] theorem drainByte_yparts (s : State) : (drainByte s).yparts = s.yparts := rfl
@[simp] theorem drainByte_nunits (s : State) : (drainByte s).nunits = s.nunits := rfl
@[simp] theorem drainByte_tq (s : State) : (drainByte s).tq = s.tq := rfl
@[simp] theorem drainByte_scanOk (s : State) : (drainByte s).scanOk = s.scanOk := rfl
@[simp] theorem drainByte_td (s : State) : (drainByte s).td = s.td := rfl
@[simp] theorem drainByte_ta (s : State) : (drainByte s).ta = s.ta := rfl
@[simp] theorem drainByte_dri (s : State) : (drainByte s).dri = s.dri := rfl
@[simp] theorem drainByte_sqt (s : State) : (drainByte s).sqt = s.sqt := rfl
@[simp] theorem drainByte_shtDc (s : State) : (drainByte s).shtDc = s.shtDc := rfl
@[simp] theorem drainByte_shtAc (s : State) : (drainByte s).shtAc = s.shtAc := rfl
@[simp] theorem drainByte_dqtDst (s : State) : (drainByte s).dqtDst = s.dqtDst := rfl
@[simp] theorem drainByte_cu (s : State) : (drainByte s).cu = s.cu := rfl
@[simp] theorem drainByte_part (s : State) : (drainByte s).part = s.part := rfl
@[simp] theorem drainByte_comp (s : State) : (drainByte s).comp = s.comp := rfl
@[simp] theorem drainByte_k (s : State) : (drainByte s).k = s.k := rfl
@[simp] theorem drainByte_dcraw (s : State) : (drainByte s).dcraw = s.dcraw := rfl
@[simp] theorem drainByte_dcemit (s : State) : (drainByte s).dcemit = s.dcemit := rfl
@[simp] theorem drainByte_acrle (s : State) : (drainByte s).acrle = s.acrle := rfl
@[simp] theorem drainByte_accrle (s : State) : (drainByte s).accrle = s.accrle := rfl
@[simp] theorem drainByte_needbits (s : State) : (drainByte s).needbits = s.needbits := rfl
@[simp] theorem drainByte_resetCu (s : State) : (drainByte s).resetCu = s.resetCu := rfl
@[simp] theorem drainByte_ibits (s : State) : (drainByte s).ibits = s.ibits := rfl
@[simp] theorem drainByte_ilen (s : State) : (drainByte s).ilen = s.ilen := rfl
@[simp] theorem drainByte_obits (s : State) : (drainByte s).obits = s.obits % 2 ^ (s.olen - 8) := rfl
@[simp] theorem drainByte_olen (s : State) : (drainByte s).olen = s.olen - 8 := rfl
@[simp] theorem drainByte_pktbuf (s : State) : (drainByte s).pktbuf = memWrite s.pktbuf s.outCount (BitVec.ofNat 8 (oldest s.obits s.olen 8)) := rfl
@[simp] theorem drainByte_outCount (s : State) : (drainByte s).outCount = s.outCount + 1 := rfl
@[simp] theorem drainByte_pktSeq (s : State) : (drainByte s).pktSeq = s.pktSeq := rfl
@[simp] theorem drainByte_pktCuIdx (s : State) : (drainByte s).pktCuIdx = s.pktCuIdx := rfl
@[simp] theorem drainByte_pktCuOff (s : State) : (drainByte s).pktCuOff = s.pktCuOff := rfl
@[simp] theorem drainByte_nextCuIdx (s : State) : (drainByte s).nextCuIdx = s.nextCuIdx := rfl
@[simp] theorem drainByte_nextCuOff (s : State) : (drainByte s).nextCuOff = s.nextCuOff := rfl
@[simp] theorem drainByte_done (s : State) : (drainByte s).done = s.done := rfl
@[simp] theorem drainByte_failed (s : State) : (drainByte s).failed = s.failed := rfl
@[simp] theorem drainByte_reason (s : State) : (drainByte s).reason = s.reason := rfl
@[simp] theorem drainByte_running (s : State) : (drainByte s).running = s.running := rfl
@[simp] theorem drainByte_reply (s : State) : (drainByte s).reply = s.reply := rfl
@[simp] theorem drainByte_hostq (s : State) : (drainByte s).hostq = s.hostq := rfl

@[simp] theorem streamStart_src (s : State) : (streamStart s).src = s.src := rfl
@[simp] theorem streamStart_srcLen (s : State) : (streamStart s).srcLen = s.srcLen := rfl
@[simp] theorem streamStart_rom (s : State) : (streamStart s).rom = s.rom := rfl
@[simp] theorem streamStart_srcPos (s : State) : (streamStart s).srcPos = s.srcPos := rfl
@[simp] theorem streamStart_pstate (s : State) : (streamStart s).pstate = s.pstate := rfl
@[simp] theorem streamStart_mkReg (s : State) : (streamStart s).mkReg = s.mkReg := rfl
@[simp] theorem streamStart_segLen (s : State) : (streamStart s).segLen = s.segLen := rfl
@[simp] theorem streamStart_lenCnt (s : State) : (streamStart s).lenCnt = s.lenCnt := rfl
@[simp] theorem streamStart_segbuf (s : State) : (streamStart s).segbuf = s.segbuf := rfl
@[simp] theorem streamStart_segCnt (s : State) : (streamStart s).segCnt = s.segCnt := rfl
@[simp] theorem streamStart_skipCnt (s : State) : (streamStart s).skipCnt = s.skipCnt := rfl
@[simp] theorem streamStart_stuffPending (s : State) : (streamStart s).stuffPending = s.stuffPending := rfl
@[simp] theorem streamStart_callsignCode (s : State) : (streamStart s).callsignCode = s.callsignCode := rfl
@[simp] theorem streamStart_imageId (s : State) : (streamStart s).imageId = s.imageId := rfl
@[simp] theorem streamStart_quality (s : State) : (streamStart s).quality = s.quality := rfl
@[simp] theorem streamStart_haveFrame (s : State) : (streamStart s).haveFrame = s.haveFrame := rfl
@[simp] theorem streamStart_width (s : State) : (streamStart s).width = s.width := rfl
@[simp] theorem streamStart_height (s : State) : (streamStart s).height = s.height := rfl
@[simp] theorem streamStart_ncomp (s : State) : (streamStart s).ncomp = s.ncomp := rfl
@[simp] theorem streamStart_mono (s : State) : (streamStart s).mono = s.mono := rfl
@[simp] theorem streamStart_mode (s : State) : (streamStart s).mode = s.mode := rfl
@[simp] theorem streamStart_yparts (s : State) : (streamStart s).yparts = s.yparts := rfl
@[simp] theorem streamStart_nunits (s : State) : (streamStart s).nunits = s.nunits := rfl
@[simp] theorem streamStart_tq (s : State) : (streamStart s).tq = s.tq := rfl
@[simp] theorem streamStart_scanOk (s : State) : (streamStart s).scanOk = s.scanOk := rfl
@[simp] theorem streamStart_td (s : State) : (streamStart s).td = s.td := rfl
@[simp] theorem streamStart_ta (s : State) : (streamStart s).ta = s.ta := rfl
@[simp] theorem streamStart_dri (s : State) : (streamStart s).dri = s.dri := rfl
@[simp] theorem streamStart_sqt (s : State) : (streamStart s).sqt = s.sqt := rfl
@[simp] theorem streamStart_shtDc (s : State) : (streamStart s).shtDc = s.shtDc := rfl
@[simp] theorem streamStart_shtAc (s : State) : (streamStart s).shtAc = s.shtAc := rfl
@[simp] theorem streamStart_dqtDst (s : State) : (streamStart s).dqtDst = s.dqtDst := rfl
@[simp] theorem streamStart_cu (s : State) : (streamStart s).cu = 0 := rfl
@[simp] theorem streamStart_part (s : State) : (streamStart s).part = 0 := rfl
@[simp] theorem streamStart_comp (s : State) : (streamStart s).comp = 0 := rfl
@[simp] theorem streamStart_k (s : State) : (streamStart s).k = 0 := rfl
@[simp] theorem streamStart_dcraw (s : State) : (streamStart s).dcraw = ⟨0, 0, 0⟩ := rfl
@[simp] theorem streamStart_dcemit (s : State) : (streamStart s).dcemit = ⟨0, 0, 0⟩ := rfl
@[simp] theorem streamStart_acrle (s : State) : (streamStart s).acrle = 0 := rfl
@[simp] theorem streamStart_accrle (s : State) : (streamStart s).accrle = 0 := rfl
@[simp] theorem streamStart_needbits (s : State) : (streamStart s).needbits = 0 := rfl
@[simp] theorem streamStart_resetCu (s : State) : (streamStart s).resetCu = s.resetCu := rfl
@[simp] theorem streamStart_ibits (s : State) : (streamStart s).ibits = 0 := rfl
@[simp] theorem streamStart_ilen (s : State) : (streamStart s).ilen = 0 := rfl
@[simp] theorem streamStart_obits (s : State) : (streamStart s).obits = s.obits := rfl
@[simp] theorem streamStart_olen (s : State) : (streamStart s).olen = s.olen := rfl
@[simp] theorem streamStart_pktbuf (s : State) : (streamStart s).pktbuf = s.pktbuf := rfl
@[simp] theorem streamStart_outCount (s : State) : (streamStart s).outCount = s.outCount := rfl
@[simp] theorem streamStart_pktSeq (s : State) : (streamStart s).pktSeq = s.pktSeq := rfl
@[simp] theorem streamStart_pktCuIdx (s : State) : (streamStart s).pktCuIdx = s.pktCuIdx := rfl
@[simp] theorem streamStart_pktCuOff (s : State) : (streamStart s).pktCuOff = s.pktCuOff := rfl
@[simp] theorem streamStart_nextCuIdx (s : State) : (streamStart s).nextCuIdx = s.nextCuIdx := rfl
@[simp] theorem streamStart_nextCuOff (s : State) : (streamStart s).nextCuOff = s.nextCuOff := rfl
@[simp] theorem streamStart_done (s : State) : (streamStart s).done = s.done := rfl
@[simp] theorem streamStart_failed (s : State) : (streamStart s).failed = s.failed := rfl
@[simp] theorem streamStart_reason (s : State) : (streamStart s).reason = s.reason := rfl
@[simp] theorem streamStart_running (s : State) : (streamStart s).running = s.running := rfl
@[simp] theorem streamStart_reply (s : State) : (streamStart s).reply = s.reply := rfl
@[simp] theorem streamStart_hostq (s : State) : (streamStart s).hostq = s.hostq := rfl

@[simp] theorem restart_src (s : State) : (restart s).src = s.src := rfl
@[simp] theorem restart_srcLen (s : State) : (restart s).srcLen = s.srcLen := rfl
@[simp] theorem restart_rom (s : State) : (restart s).rom = s.rom := rfl
@[simp] theorem restart_srcPos (s : State) : (restart s).srcPos = s.srcPos := rfl
@[simp] theorem restart_pstate (s : State) : (restart s).pstate = .huff := rfl
@[simp] theorem restart_mkReg (s : State) : (restart s).mkReg = s.mkReg := rfl
@[simp] theorem restart_segLen (s : State) : (restart s).segLen = s.segLen := rfl
@[simp] theorem restart_lenCnt (s : State) : (restart s).lenCnt = s.lenCnt := rfl
@[simp] theorem restart_segbuf (s : State) : (restart s).segbuf = s.segbuf := rfl
@[simp] theorem restart_segCnt (s : State) : (restart s).segCnt = s.segCnt := rfl
@[simp] theorem restart_skipCnt (s : State) : (restart s).skipCnt = s.skipCnt := rfl
@[simp] theorem restart_stuffPending (s : State) : (restart s).stuffPending = s.stuffPending := rfl
@[simp] theorem restart_callsignCode (s : State) : (restart s).callsignCode = s.callsignCode := rfl
@[simp] theorem restart_imageId (s : State) : (restart s).imageId = s.imageId := rfl
@[simp] theorem restart_quality (s : State) : (restart s).quality = s.quality := rfl
@[simp] theorem restart_haveFrame (s : State) : (restart s).haveFrame = s.haveFrame := rfl
@[simp] theorem restart_width (s : State) : (restart s).width = s.width := rfl
@[simp] theorem restart_height (s : State) : (restart s).height = s.height := rfl
@[simp] theorem restart_ncomp (s : State) : (restart s).ncomp = s.ncomp := rfl
@[simp] theorem restart_mono (s : State) : (restart s).mono = s.mono := rfl
@[simp] theorem restart_mode (s : State) : (restart s).mode = s.mode := rfl
@[simp] theorem restart_yparts (s : State) : (restart s).yparts = s.yparts := rfl
@[simp] theorem restart_nunits (s : State) : (restart s).nunits = s.nunits := rfl
@[simp] theorem restart_tq (s : State) : (restart s).tq = s.tq := rfl
@[simp] theorem restart_scanOk (s : State) : (restart s).scanOk = s.scanOk := rfl
@[simp] theorem restart_td (s : State) : (restart s).td = s.td := rfl
@[simp] theorem restart_ta (s : State) : (restart s).ta = s.ta := rfl
@[simp] theorem restart_dri (s : State) : (restart s).dri = s.dri := rfl
@[simp] theorem restart_sqt (s : State) : (restart s).sqt = s.sqt := rfl
@[simp] theorem restart_shtDc (s : State) : (restart s).shtDc = s.shtDc := rfl
@[simp] theorem restart_shtAc (s : State) : (restart s).shtAc = s.shtAc := rfl
@[simp] theorem restart_dqtDst (s : State) : (restart s).dqtDst = s.dqtDst := rfl
@[simp] theorem restart_cu (s : State) : (restart s).cu = s.cu := rfl
@[simp] theorem restart_part (s : State) : (restart s).part = 0 := rfl
@[simp] theorem restart_comp (s : State) : (restart s).comp = 0 := rfl
@[simp] theorem restart_k (s : State) : (restart s).k = 0 := rfl
@[simp] theorem restart_dcraw (s : State) : (restart s).dcraw = ⟨0, 0, 0⟩ := rfl
@[simp] theorem restart_dcemit (s : State) : (restart s).dcemit = s.dcemit := rfl
@[simp] theorem restart_acrle (s : State) : (restart s).acrle = 0 := rfl
@[simp] theorem restart_accrle (s : State) : (restart s).accrle = 0 := rfl
@[simp] theorem restart_needbits (s : State) : (restart s).needbits = 0 := rfl
@[simp] theorem restart_resetCu (s : State) : (restart s).resetCu = s.resetCu := rfl
@[simp] theorem restart_ibits (s : State) : (restart s).ibits = 0 := rfl
@[simp] theorem restart_ilen (s : State) : (restart s).ilen = 0 := rfl
@[simp] theorem restart_obits (s : State) : (restart s).obits = s.obits := rfl
@[simp] theorem restart_olen (s : State) : (restart s).olen = s.olen := rfl
@[simp] theorem restart_pktbuf (s : State) : (restart s).pktbuf = s.pktbuf := rfl
@[simp] theorem restart_outCount (s : State) : (restart s).outCount = s.outCount := rfl
@[simp] theorem restart_pktSeq (s : State) : (restart s).pktSeq = s.pktSeq := rfl
@[simp] theorem restart_pktCuIdx (s : State) : (restart s).pktCuIdx = s.pktCuIdx := rfl
@[simp] theorem restart_pktCuOff (s : State) : (restart s).pktCuOff = s.pktCuOff := rfl
@[simp] theorem restart_nextCuIdx (s : State) : (restart s).nextCuIdx = s.nextCuIdx := rfl
@[simp] theorem restart_nextCuOff (s : State) : (restart s).nextCuOff = s.nextCuOff := rfl
@[simp] theorem restart_done (s : State) : (restart s).done = s.done := rfl
@[simp] theorem restart_failed (s : State) : (restart s).failed = s.failed := rfl
@[simp] theorem restart_reason (s : State) : (restart s).reason = s.reason := rfl
@[simp] theorem restart_running (s : State) : (restart s).running = s.running := rfl
@[simp] theorem restart_reply (s : State) : (restart s).reply = s.reply := rfl
@[simp] theorem restart_hostq (s : State) : (restart s).hostq = s.hostq := rfl

@[simp] theorem setFrame_src (f : FrameParams) (s : State) : (setFrame f s).src = s.src := rfl
@[simp] theorem setFrame_srcLen (f : FrameParams) (s : State) : (setFrame f s).srcLen = s.srcLen := rfl
@[simp] theorem setFrame_rom (f : FrameParams) (s : State) : (setFrame f s).rom = s.rom := rfl
@[simp] theorem setFrame_srcPos (f : FrameParams) (s : State) : (setFrame f s).srcPos = s.srcPos := rfl
@[simp] theorem setFrame_pstate (f : FrameParams) (s : State) : (setFrame f s).pstate = s.pstate := rfl
@[simp] theorem setFrame_mkReg (f : FrameParams) (s : State) : (setFrame f s).mkReg = s.mkReg := rfl
@[simp] theorem setFrame_segLen (f : FrameParams) (s : State) : (setFrame f s).segLen = s.segLen := rfl
@[simp] theorem setFrame_lenCnt (f : FrameParams) (s : State) : (setFrame f s).lenCnt = s.lenCnt := rfl
@[simp] theorem setFrame_segbuf (f : FrameParams) (s : State) : (setFrame f s).segbuf = s.segbuf := rfl
@[simp] theorem setFrame_segCnt (f : FrameParams) (s : State) : (setFrame f s).segCnt = s.segCnt := rfl
@[simp] theorem setFrame_skipCnt (f : FrameParams) (s : State) : (setFrame f s).skipCnt = s.skipCnt := rfl
@[simp] theorem setFrame_stuffPending (f : FrameParams) (s : State) : (setFrame f s).stuffPending = s.stuffPending := rfl
@[simp] theorem setFrame_callsignCode (f : FrameParams) (s : State) : (setFrame f s).callsignCode = s.callsignCode := rfl
@[simp] theorem setFrame_imageId (f : FrameParams) (s : State) : (setFrame f s).imageId = s.imageId := rfl
@[simp] theorem setFrame_quality (f : FrameParams) (s : State) : (setFrame f s).quality = s.quality := rfl
@[simp] theorem setFrame_haveFrame (f : FrameParams) (s : State) : (setFrame f s).haveFrame = true := rfl
@[simp] theorem setFrame_width (f : FrameParams) (s : State) : (setFrame f s).width = f.width := rfl
@[simp] theorem setFrame_height (f : FrameParams) (s : State) : (setFrame f s).height = f.height := rfl
@[simp] theorem setFrame_ncomp (f : FrameParams) (s : State) : (setFrame f s).ncomp = f.ncomp := rfl
@[simp] theorem setFrame_mono (f : FrameParams) (s : State) : (setFrame f s).mono = decide (f.ncomp = 1) := rfl
@[simp] theorem setFrame_mode (f : FrameParams) (s : State) : (setFrame f s).mode = BitVec.ofNat 2 f.mode := rfl
@[simp] theorem setFrame_yparts (f : FrameParams) (s : State) : (setFrame f s).yparts = Config.ypartsOf.getD f.mode 0 := rfl
@[simp] theorem setFrame_nunits (f : FrameParams) (s : State) : (setFrame f s).nunits = f.nunits := rfl
@[simp] theorem setFrame_tq (f : FrameParams) (s : State) : (setFrame f s).tq = f.tq := rfl
@[simp] theorem setFrame_scanOk (f : FrameParams) (s : State) : (setFrame f s).scanOk = s.scanOk := rfl
@[simp] theorem setFrame_td (f : FrameParams) (s : State) : (setFrame f s).td = s.td := rfl
@[simp] theorem setFrame_ta (f : FrameParams) (s : State) : (setFrame f s).ta = s.ta := rfl
@[simp] theorem setFrame_dri (f : FrameParams) (s : State) : (setFrame f s).dri = s.dri := rfl
@[simp] theorem setFrame_sqt (f : FrameParams) (s : State) : (setFrame f s).sqt = s.sqt := rfl
@[simp] theorem setFrame_shtDc (f : FrameParams) (s : State) : (setFrame f s).shtDc = s.shtDc := rfl
@[simp] theorem setFrame_shtAc (f : FrameParams) (s : State) : (setFrame f s).shtAc = s.shtAc := rfl
@[simp] theorem setFrame_dqtDst (f : FrameParams) (s : State) : (setFrame f s).dqtDst = s.dqtDst := rfl
@[simp] theorem setFrame_cu (f : FrameParams) (s : State) : (setFrame f s).cu = s.cu := rfl
@[simp] theorem setFrame_part (f : FrameParams) (s : State) : (setFrame f s).part = s.part := rfl
@[simp] theorem setFrame_comp (f : FrameParams) (s : State) : (setFrame f s).comp = s.comp := rfl
@[simp] theorem setFrame_k (f : FrameParams) (s : State) : (setFrame f s).k = s.k := rfl
@[simp] theorem setFrame_dcraw (f : FrameParams) (s : State) : (setFrame f s).dcraw = s.dcraw := rfl
@[simp] theorem setFrame_dcemit (f : FrameParams) (s : State) : (setFrame f s).dcemit = s.dcemit := rfl
@[simp] theorem setFrame_acrle (f : FrameParams) (s : State) : (setFrame f s).acrle = s.acrle := rfl
@[simp] theorem setFrame_accrle (f : FrameParams) (s : State) : (setFrame f s).accrle = s.accrle := rfl
@[simp] theorem setFrame_needbits (f : FrameParams) (s : State) : (setFrame f s).needbits = s.needbits := rfl
@[simp] theorem setFrame_resetCu (f : FrameParams) (s : State) : (setFrame f s).resetCu = s.resetCu := rfl
@[simp] theorem setFrame_ibits (f : FrameParams) (s : State) : (setFrame f s).ibits = s.ibits := rfl
@[simp] theorem setFrame_ilen (f : FrameParams) (s : State) : (setFrame f s).ilen = s.ilen := rfl
@[simp] theorem setFrame_obits (f : FrameParams) (s : State) : (setFrame f s).obits = s.obits := rfl
@[simp] theorem setFrame_olen (f : FrameParams) (s : State) : (setFrame f s).olen = s.olen := rfl
@[simp] theorem setFrame_pktbuf (f : FrameParams) (s : State) : (setFrame f s).pktbuf = s.pktbuf := rfl
@[simp] theorem setFrame_outCount (f : FrameParams) (s : State) : (setFrame f s).outCount = s.outCount := rfl
@[simp] theorem setFrame_pktSeq (f : FrameParams) (s : State) : (setFrame f s).pktSeq = s.pktSeq := rfl
@[simp] theorem setFrame_pktCuIdx (f : FrameParams) (s : State) : (setFrame f s).pktCuIdx = s.pktCuIdx := rfl
@[simp] theorem setFrame_pktCuOff (f : FrameParams) (s : State) : (setFrame f s).pktCuOff = s.pktCuOff := rfl
@[simp] theorem setFrame_nextCuIdx (f : FrameParams) (s : State) : (setFrame f s).nextCuIdx = s.nextCuIdx := rfl
@[simp] theorem setFrame_nextCuOff (f : FrameParams) (s : State) : (setFrame f s).nextCuOff = s.nextCuOff := rfl
@[simp] theorem setFrame_done (f : FrameParams) (s : State) : (setFrame f s).done = s.done := rfl
@[simp] theorem setFrame_failed (f : FrameParams) (s : State) : (setFrame f s).failed = s.failed := rfl
@[simp] theorem setFrame_reason (f : FrameParams) (s : State) : (setFrame f s).reason = s.reason := rfl
@[simp] theorem setFrame_running (f : FrameParams) (s : State) : (setFrame f s).running = s.running := rfl
@[simp] theorem setFrame_reply (f : FrameParams) (s : State) : (setFrame f s).reply = s.reply := rfl
@[simp] theorem setFrame_hostq (f : FrameParams) (s : State) : (setFrame f s).hostq = s.hostq := rfl

@[simp] theorem storeSteps_src (t : Nat) (l : List Byte) (s : State) : (storeSteps t l s).src = s.src := rfl
@[simp] theorem storeSteps_srcLen (t : Nat) (l : List Byte) (s : State) : (storeSteps t l s).srcLen = s.srcLen := rfl
@[simp] theorem storeSteps_rom (t : Nat) (l : List Byte) (s : State) : (storeSteps t l s).rom = s.rom := rfl
@[simp] theorem storeSteps_srcPos (t : Nat) (l : List Byte) (s : State) : (storeSteps t l s).srcPos = s.srcPos := rfl
@[simp] theorem storeSteps_pstate (t : Nat) (l : List Byte) (s : State) : (storeSteps t l s).pstate = s.pstate := rfl
@[simp] theorem storeSteps_mkReg (t : Nat) (l : List Byte) (s : State) : (storeSteps t l s).mkReg = s.mkReg := rfl
@[simp] theorem storeSteps_segLen (t : Nat) (l : List Byte) (s : State) : (storeSteps t l s).segLen = s.segLen := rfl
@[simp] theorem storeSteps_lenCnt (t : Nat) (l : List Byte) (s : State) : (storeSteps t l s).lenCnt = s.lenCnt := rfl
@[simp] theorem storeSteps_segbuf (t : Nat) (l : List Byte) (s : State) : (storeSteps t l s).segbuf = s.segbuf := rfl
@[simp] theorem storeSteps_segCnt (t : Nat) (l : List Byte) (s : State) : (storeSteps t l s).segCnt = s.segCnt := rfl
@[simp] theorem storeSteps_skipCnt (t : Nat) (l : List Byte) (s : State) : (storeSteps t l s).skipCnt = s.skipCnt := rfl
@[simp] theorem storeSteps_stuffPending (t : Nat) (l : List Byte) (s : State) : (storeSteps t l s).stuffPending = s.stuffPending := rfl
@[simp] theorem storeSteps_callsignCode (t : Nat) (l : List Byte) (s : State) : (storeSteps t l s).callsignCode = s.callsignCode := rfl
@[simp] theorem storeSteps_imageId (t : Nat) (l : List Byte) (s : State) : (storeSteps t l s).imageId = s.imageId := rfl
@[simp] theorem storeSteps_quality (t : Nat) (l : List Byte) (s : State) : (storeSteps t l s).quality = s.quality := rfl
@[simp] theorem storeSteps_haveFrame (t : Nat) (l : List Byte) (s : State) : (storeSteps t l s).haveFrame = s.haveFrame := rfl
@[simp] theorem storeSteps_width (t : Nat) (l : List Byte) (s : State) : (storeSteps t l s).width = s.width := rfl
@[simp] theorem storeSteps_height (t : Nat) (l : List Byte) (s : State) : (storeSteps t l s).height = s.height := rfl
@[simp] theorem storeSteps_ncomp (t : Nat) (l : List Byte) (s : State) : (storeSteps t l s).ncomp = s.ncomp := rfl
@[simp] theorem storeSteps_mono (t : Nat) (l : List Byte) (s : State) : (storeSteps t l s).mono = s.mono := rfl
@[simp] theorem storeSteps_mode (t : Nat) (l : List Byte) (s : State) : (storeSteps t l s).mode = s.mode := rfl
@[simp] theorem storeSteps_yparts (t : Nat) (l : List Byte) (s : State) : (storeSteps t l s).yparts = s.yparts := rfl
@[simp] theorem storeSteps_nunits (t : Nat) (l : List Byte) (s : State) : (storeSteps t l s).nunits = s.nunits := rfl
@[simp] theorem storeSteps_tq (t : Nat) (l : List Byte) (s : State) : (storeSteps t l s).tq = s.tq := rfl
@[simp] theorem storeSteps_scanOk (t : Nat) (l : List Byte) (s : State) : (storeSteps t l s).scanOk = s.scanOk := rfl
@[simp] theorem storeSteps_td (t : Nat) (l : List Byte) (s : State) : (storeSteps t l s).td = s.td := rfl
@[simp] theorem storeSteps_ta (t : Nat) (l : List Byte) (s : State) : (storeSteps t l s).ta = s.ta := rfl
@[simp] theorem storeSteps_dri (t : Nat) (l : List Byte) (s : State) : (storeSteps t l s).dri = s.dri := rfl
@[simp] theorem storeSteps_sqt (t : Nat) (l : List Byte) (s : State) : (storeSteps t l s).sqt = pairSet s.sqt t { valid := true, steps := l } := rfl
@[simp] theorem storeSteps_shtDc (t : Nat) (l : List Byte) (s : State) : (storeSteps t l s).shtDc = s.shtDc := rfl
@[simp] theorem storeSteps_shtAc (t : Nat) (l : List Byte) (s : State) : (storeSteps t l s).shtAc = s.shtAc := rfl
@[simp] theorem storeSteps_dqtDst (t : Nat) (l : List Byte) (s : State) : (storeSteps t l s).dqtDst = s.dqtDst := rfl
@[simp] theorem storeSteps_cu (t : Nat) (l : List Byte) (s : State) : (storeSteps t l s).cu = s.cu := rfl
@[simp] theorem storeSteps_part (t : Nat) (l : List Byte) (s : State) : (storeSteps t l s).part = s.part := rfl
@[simp] theorem storeSteps_comp (t : Nat) (l : List Byte) (s : State) : (storeSteps t l s).comp = s.comp := rfl
@[simp] theorem storeSteps_k (t : Nat) (l : List Byte) (s : State) : (storeSteps t l s).k = s.k := rfl
@[simp] theorem storeSteps_dcraw (t : Nat) (l : List Byte) (s : State) : (storeSteps t l s).dcraw = s.dcraw := rfl
@[simp] theorem storeSteps_dcemit (t : Nat) (l : List Byte) (s : State) : (storeSteps t l s).dcemit = s.dcemit := rfl
@[simp] theorem storeSteps_acrle (t : Nat) (l : List Byte) (s : State) : (storeSteps t l s).acrle = s.acrle := rfl
@[simp] theorem storeSteps_accrle (t : Nat) (l : List Byte) (s : State) : (storeSteps t l s).accrle = s.accrle := rfl
@[simp] theorem storeSteps_needbits (t : Nat) (l : List Byte) (s : State) : (storeSteps t l s).needbits = s.needbits := rfl
@[simp] theorem storeSteps_resetCu (t : Nat) (l : List Byte) (s : State) : (storeSteps t l s).resetCu = s.resetCu := rfl
@[simp] theorem storeSteps_ibits (t : Nat) (l : List Byte) (s : State) : (storeSteps t l s).ibits = s.ibits := rfl
@[simp] theorem storeSteps_ilen (t : Nat) (l : List Byte) (s : State) : (storeSteps t l s).ilen = s.ilen := rfl
@[simp] theorem storeSteps_obits (t : Nat) (l : List Byte) (s : State) : (storeSteps t l s).obits = s.obits := rfl
@[simp] theorem storeSteps_olen (t : Nat) (l : List Byte) (s : State) : (storeSteps t l s).olen = s.olen := rfl
@[simp] theorem storeSteps_pktbuf (t : Nat) (l : List Byte) (s : State) : (storeSteps t l s).pktbuf = s.pktbuf := rfl
@[simp] theorem storeSteps_outCount (t : Nat) (l : List Byte) (s : State) : (storeSteps t l s).outCount = s.outCount := rfl
@[simp] theorem storeSteps_pktSeq (t : Nat) (l : List Byte) (s : State) : (storeSteps t l s).pktSeq = s.pktSeq := rfl
@[simp] theorem storeSteps_pktCuIdx (t : Nat) (l : List Byte) (s : State) : (storeSteps t l s).pktCuIdx = s.pktCuIdx := rfl
@[simp] theorem storeSteps_pktCuOff (t : Nat) (l : List Byte) (s : State) : (storeSteps t l s).pktCuOff = s.pktCuOff := rfl
@[simp] theorem storeSteps_nextCuIdx (t : Nat) (l : List Byte) (s : State) : (storeSteps t l s).nextCuIdx = s.nextCuIdx := rfl
@[simp] theorem storeSteps_nextCuOff (t : Nat) (l : List Byte) (s : State) : (storeSteps t l s).nextCuOff = s.nextCuOff := rfl
@[simp] theorem storeSteps_done (t : Nat) (l : List Byte) (s : State) : (storeSteps t l s).done = s.done := rfl
@[simp] theorem storeSteps_failed (t : Nat) (l : List Byte) (s : State) : (storeSteps t l s).failed = s.failed := rfl
@[simp] theorem storeSteps_reason (t : Nat) (l : List Byte) (s : State) : (storeSteps t l s).reason = s.reason := rfl
@[simp] theorem storeSteps_running (t : Nat) (l : List Byte) (s : State) : (storeSteps t l s).running = s.running := rfl
@[simp] theorem storeSteps_reply (t : Nat) (l : List Byte) (s : State) : (storeSteps t l s).reply = s.reply := rfl
@[simp] theorem storeSteps_hostq (t : Nat) (l : List Byte) (s : State) : (storeSteps t l s).hostq = s.hostq := rfl

@[simp] theorem afterPacket_src (s : State) : (afterPacket s).src = s.src := rfl
@[simp] theorem afterPacket_srcLen (s : State) : (afterPacket s).srcLen = s.srcLen := rfl
@[simp] theorem afterPacket_rom (s : State) : (afterPacket s).rom = s.rom := rfl
@[simp] theorem afterPacket_srcPos (s : State) : (afterPacket s).srcPos = s.srcPos := rfl
@[simp] theorem afterPacket_pstate (s : State) : (afterPacket s).pstate = s.pstate := rfl
@[simp] theorem afterPacket_mkReg (s : State) : (afterPacket s).mkReg = s.mkReg := rfl
@[simp] theorem afterPacket_segLen (s : State) : (afterPacket s).segLen = s.segLen := rfl
@[simp] theorem afterPacket_lenCnt (s : State) : (afterPacket s).lenCnt = s.lenCnt := rfl
@[simp] theorem afterPacket_segbuf (s : State) : (afterPacket s).segbuf = s.segbuf := rfl
@[simp] theorem afterPacket_segCnt (s : State) : (afterPacket s).segCnt = s.segCnt := rfl
@[simp] theorem afterPacket_skipCnt (s : State) : (afterPacket s).skipCnt = s.skipCnt := rfl
@[simp] theorem afterPacket_stuffPending (s : State) : (afterPacket s).stuffPending = s.stuffPending := rfl
@[simp] theorem afterPacket_callsignCode (s : State) : (afterPacket s).callsignCode = s.callsignCode := rfl
@[simp] theorem afterPacket_imageId (s : State) : (afterPacket s).imageId = s.imageId := rfl
@[simp] theorem afterPacket_quality (s : State) : (afterPacket s).quality = s.quality := rfl
@[simp] theorem afterPacket_haveFrame (s : State) : (afterPacket s).haveFrame = s.haveFrame := rfl
@[simp] theorem afterPacket_width (s : State) : (afterPacket s).width = s.width := rfl
@[simp] theorem afterPacket_height (s : State) : (afterPacket s).height = s.height := rfl
@[simp] theorem afterPacket_ncomp (s : State) : (afterPacket s).ncomp = s.ncomp := rfl
@[simp] theorem afterPacket_mono (s : State) : (afterPacket s).mono = s.mono := rfl
@[simp] theorem afterPacket_mode (s : State) : (afterPacket s).mode = s.mode := rfl
@[simp] theorem afterPacket_yparts (s : State) : (afterPacket s).yparts = s.yparts := rfl
@[simp] theorem afterPacket_nunits (s : State) : (afterPacket s).nunits = s.nunits := rfl
@[simp] theorem afterPacket_tq (s : State) : (afterPacket s).tq = s.tq := rfl
@[simp] theorem afterPacket_scanOk (s : State) : (afterPacket s).scanOk = s.scanOk := rfl
@[simp] theorem afterPacket_td (s : State) : (afterPacket s).td = s.td := rfl
@[simp] theorem afterPacket_ta (s : State) : (afterPacket s).ta = s.ta := rfl
@[simp] theorem afterPacket_dri (s : State) : (afterPacket s).dri = s.dri := rfl
@[simp] theorem afterPacket_sqt (s : State) : (afterPacket s).sqt = s.sqt := rfl
@[simp] theorem afterPacket_shtDc (s : State) : (afterPacket s).shtDc = s.shtDc := rfl
@[simp] theorem afterPacket_shtAc (s : State) : (afterPacket s).shtAc = s.shtAc := rfl
@[simp] theorem afterPacket_dqtDst (s : State) : (afterPacket s).dqtDst = s.dqtDst := rfl
@[simp] theorem afterPacket_cu (s : State) : (afterPacket s).cu = s.cu := rfl
@[simp] theorem afterPacket_part (s : State) : (afterPacket s).part = s.part := rfl
@[simp] theorem afterPacket_comp (s : State) : (afterPacket s).comp = s.comp := rfl
@[simp] theorem afterPacket_k (s : State) : (afterPacket s).k = s.k := rfl
@[simp] theorem afterPacket_dcraw (s : State) : (afterPacket s).dcraw = s.dcraw := rfl
@[simp] theorem afterPacket_dcemit (s : State) : (afterPacket s).dcemit = s.dcemit := rfl
@[simp] theorem afterPacket_acrle (s : State) : (afterPacket s).acrle = s.acrle := rfl
@[simp] theorem afterPacket_accrle (s : State) : (afterPacket s).accrle = s.accrle := rfl
@[simp] theorem afterPacket_needbits (s : State) : (afterPacket s).needbits = s.needbits := rfl
@[simp] theorem afterPacket_resetCu (s : State) : (afterPacket s).resetCu = s.resetCu := rfl
@[simp] theorem afterPacket_ibits (s : State) : (afterPacket s).ibits = s.ibits := rfl
@[simp] theorem afterPacket_ilen (s : State) : (afterPacket s).ilen = s.ilen := rfl
@[simp] theorem afterPacket_obits (s : State) : (afterPacket s).obits = s.obits := rfl
@[simp] theorem afterPacket_olen (s : State) : (afterPacket s).olen = s.olen := rfl
@[simp] theorem afterPacket_pktbuf (s : State) : (afterPacket s).pktbuf = s.pktbuf := rfl
@[simp] theorem afterPacket_outCount (s : State) : (afterPacket s).outCount = 0 := rfl
@[simp] theorem afterPacket_pktSeq (s : State) : (afterPacket s).pktSeq = s.pktSeq + 1 := rfl
@[simp] theorem afterPacket_pktCuIdx (s : State) : (afterPacket s).pktCuIdx = s.nextCuIdx := rfl
@[simp] theorem afterPacket_pktCuOff (s : State) : (afterPacket s).pktCuOff = s.nextCuOff := rfl
@[simp] theorem afterPacket_nextCuIdx (s : State) : (afterPacket s).nextCuIdx = Config.noneIdx := rfl
@[simp] theorem afterPacket_nextCuOff (s : State) : (afterPacket s).nextCuOff = Config.noneOff := rfl
@[simp] theorem afterPacket_done (s : State) : (afterPacket s).done = s.done := rfl
@[simp] theorem afterPacket_failed (s : State) : (afterPacket s).failed = s.failed := rfl
@[simp] theorem afterPacket_reason (s : State) : (afterPacket s).reason = s.reason := rfl
@[simp] theorem afterPacket_running (s : State) : (afterPacket s).running = s.running := rfl
@[simp] theorem afterPacket_reply (s : State) : (afterPacket s).reply = s.reply := rfl
@[simp] theorem afterPacket_hostq (s : State) : (afterPacket s).hostq = s.hostq := rfl

end Sys2Proof.Machine
end

