-- ==== Sys2Proof/Laws/Output.lean ====
section
/-! SUPPORT. The outbound accumulator: what `drain`, `outBits` and `sync` can do. They change `PKTBUF`, `OUT_COUNT`,
`OBITS` and `OLEN` and nothing else; the bytes before `OUT_COUNT` stay; the position of the stream grows by the bits
appended. -/

namespace Sys2Proof.Machine

/-- Everything a move of bits towards the packet buffer can do: `n` bits were appended to the stream. -/
structure Flushed (n : Nat) (s t : State) : Prop where
  frame : t = { s with pktbuf := t.pktbuf, outCount := t.outCount, obits := t.obits, olen := t.olen }
  total : t.olen + 8 * t.outCount = s.olen + 8 * s.outCount + n
  grows : s.outCount ≤ t.outCount
  room : s.outCount ≤ Config.payload → t.outCount ≤ Config.payload
  wf : Memory.wf s.pktbuf → Memory.wf t.pktbuf
  below : ∀ a, a < s.outCount ∨ t.outCount ≤ a → memRead t.pktbuf a = memRead s.pktbuf a
  obits : s.obits < 2 ^ s.olen → t.obits < 2 ^ t.olen

theorem Flushed.refl (s : State) : Flushed 0 s s where
  frame := rfl
  total := rfl
  grows := Nat.le_refl _
  room := id
  wf := id
  below := fun _ _ => rfl
  obits := id

theorem Flushed.trans {n m : Nat} {s t u : State} (h : Flushed n s t) (h' : Flushed m t u) : Flushed (n + m) s u where
  frame := by rw [h'.frame]; rw [h.frame]
  total := by have := h.total; have := h'.total; omega
  grows := Nat.le_trans h.grows h'.grows
  room := fun hr => h'.room (h.room hr)
  wf := fun hw => h'.wf (h.wf hw)
  below := fun a ha => by
    have := h.grows; have := h'.grows
    rw [h'.below a (by omega), h.below a (by omega)]
  obits := fun hb => h'.obits (h.obits hb)

theorem drainByte_flushed {s : State} (h8 : 8 ≤ s.olen) (hr : s.outCount < Config.payload) :
    Flushed 0 s (drainByte s) where
  frame := rfl
  total := by simp only [drainByte_olen, drainByte_outCount]; omega
  grows := by simp
  room := fun _ => by simpa using hr
  wf := fun hw => memWrite_wf _ _ hw
  below := fun a ha => by
    simp only [drainByte_outCount] at ha
    simp only [drainByte_pktbuf]
    exact memRead_memWrite_other _ _ (by omega)
  obits := fun _ => by
    simp only [drainByte_obits, drainByte_olen]
    exact Nat.mod_lt _ (Nat.two_pow_pos _)

theorem drainUpTo_flushed (n : Nat) (s : State) : Flushed 0 s (drainUpTo n s) := by
  induction n generalizing s with
  | zero => exact Flushed.refl s
  | succ n ih =>
    unfold drainUpTo
    split
    · rename_i h
      exact (drainByte_flushed h.1 h.2).trans (ih _)
    · exact Flushed.refl s

/-- `drain` moves bits, it appends none (43_entropy_encode.md R191). -/
theorem drain_flushed (s : State) : Flushed 0 s (drain s) := drainUpTo_flushed _ s

theorem drainUpTo_settled (n : Nat) {s : State} (hn : s.olen / 8 ≤ n) (hr : s.outCount ≤ Config.payload) :
    (drainUpTo n s).olen < 8 ∨ (drainUpTo n s).outCount = Config.payload := by
  induction n generalizing s with
  | zero => left; unfold drainUpTo; omega
  | succ n ih =>
    unfold drainUpTo
    split
    · rename_i h
      refine ih ?_ ?_
      · simp only [drainByte_olen]; omega
      · simpa using h.2
    · omega

/-- After `drain` at most 7 bits wait, or the packet buffer is full (43_entropy_encode.md R192). -/
theorem drain_settled {s : State} (hr : s.outCount ≤ Config.payload) :
    (drain s).olen < 8 ∨ (drain s).outCount = Config.payload := drainUpTo_settled _ (Nat.le_refl _) hr

/-- Nothing to move: `drain` changes nothing. -/
theorem drain_eq_self {s : State} (h : s.olen < 8 ∨ Config.payload ≤ s.outCount) : drain s = s := by
  unfold drain
  cases hn : s.olen / 8 with
  | zero => rfl
  | succ n => unfold drainUpTo; rw [if_neg]; omega

/-- `outBits` appends `n` bits (43_entropy_encode.md R190). -/
theorem outBits_flushed (x n : Nat) (s : State) : Flushed n s (outBits x n s) := by
  have h := drain_flushed { s with obits := s.obits * 2 ^ n + x % 2 ^ n, olen := s.olen + n }
  refine ⟨?_, ?_, h.grows, h.room, h.wf, h.below, ?_⟩
  · exact h.frame
  · have := h.total; simp only at this; unfold outBits; omega
  · intro hb
    refine h.obits ?_
    simp only
    have hx : x % 2 ^ n < 2 ^ n := Nat.mod_lt _ (Nat.two_pow_pos n)
    calc s.obits * 2 ^ n + x % 2 ^ n < s.obits * 2 ^ n + 2 ^ n := by omega
      _ = (s.obits + 1) * 2 ^ n := by rw [Nat.succ_mul]
      _ ≤ 2 ^ s.olen * 2 ^ n := Nat.mul_le_mul_right _ hb
      _ = 2 ^ (s.olen + n) := (Nat.pow_add 2 s.olen n).symm

theorem outBits_settled (x n : Nat) {s : State} (hr : s.outCount ≤ Config.payload) :
    (outBits x n s).olen < 8 ∨ (outBits x n s).outCount = Config.payload :=
  drain_settled (s := { s with obits := s.obits * 2 ^ n + x % 2 ^ n, olen := s.olen + n }) hr

/-- The number of bits `sync` appends. -/
def syncBits (s : State) : Nat := if s.olen % 8 = 0 then 0 else 8 - s.olen % 8

/-- `sync` appends what is missing to a whole byte (43_entropy_encode.md R193). -/
theorem sync_flushed (s : State) : Flushed (syncBits s) s (sync s) := by
  unfold sync syncBits
  split
  · exact Flushed.refl s
  · exact outBits_flushed _ _ s

/-- After `sync` the stream is byte aligned. -/
theorem sync_aligned (s : State) : (sync s).olen % 8 = 0 := by
  have h := (sync_flushed s).total
  unfold syncBits at h
  split at h <;> omega

theorem sync_settled {s : State} (hr : s.outCount ≤ Config.payload) (h : s.olen < 8 ∨ s.outCount = Config.payload) :
    (sync s).olen < 8 ∨ (sync s).outCount = Config.payload := by
  unfold sync
  split
  · exact h
  · exact outBits_settled _ _ hr

/-! The fields that the outbound accumulator's operations leave alone. -/

@[simp] theorem drain_src (s : State) : (drain s).src = s.src := by rw [(drain_flushed s).frame]
@[simp] theorem drain_srcLen (s : State) : (drain s).srcLen = s.srcLen := by rw [(drain_flushed s).frame]
@[simp] theorem drain_rom (s : State) : (drain s).rom = s.rom := by rw [(drain_flushed s).frame]
@[simp] theorem drain_srcPos (s : State) : (drain s).srcPos = s.srcPos := by rw [(drain_flushed s).frame]
@[simp] theorem drain_pstate (s : State) : (drain s).pstate = s.pstate := by rw [(drain_flushed s).frame]
@[simp] theorem drain_mkReg (s : State) : (drain s).mkReg = s.mkReg := by rw [(drain_flushed s).frame]
@[simp] theorem drain_segLen (s : State) : (drain s).segLen = s.segLen := by rw [(drain_flushed s).frame]
@[simp] theorem drain_lenCnt (s : State) : (drain s).lenCnt = s.lenCnt := by rw [(drain_flushed s).frame]
@[simp] theorem drain_segbuf (s : State) : (drain s).segbuf = s.segbuf := by rw [(drain_flushed s).frame]
@[simp] theorem drain_segCnt (s : State) : (drain s).segCnt = s.segCnt := by rw [(drain_flushed s).frame]
@[simp] theorem drain_skipCnt (s : State) : (drain s).skipCnt = s.skipCnt := by rw [(drain_flushed s).frame]
@[simp] theorem drain_stuffPending (s : State) : (drain s).stuffPending = s.stuffPending := by rw [(drain_flushed s).frame]
@[simp] theorem drain_callsignCode (s : State) : (drain s).callsignCode = s.callsignCode := by rw [(drain_flushed s).frame]
@[simp] theorem drain_imageId (s : State) : (drain s).imageId = s.imageId := by rw [(drain_flushed s).frame]
@[simp] theorem drain_quality (s : State) : (drain s).quality = s.quality := by rw [(drain_flushed s).frame]
@[simp] theorem drain_haveFrame (s : State) : (drain s).haveFrame = s.haveFrame := by rw [(drain_flushed s).frame]
@[simp] theorem drain_width (s : State) : (drain s).width = s.width := by rw [(drain_flushed s).frame]
@[simp] theorem drain_height (s : State) : (drain s).height = s.height := by rw [(drain_flushed s).frame]
@[simp] theorem drain_ncomp (s : State) : (drain s).ncomp = s.ncomp := by rw [(drain_flushed s).frame]
@[simp] theorem drain_mono (s : State) : (drain s).mono = s.mono := by rw [(drain_flushed s).frame]
@[simp] theorem drain_mode (s : State) : (drain s).mode = s.mode := by rw [(drain_flushed s).frame]
@[simp] theorem drain_yparts (s : State) : (drain s).yparts = s.yparts := by rw [(drain_flushed s).frame]
@[simp] theorem drain_nunits (s : State) : (drain s).nunits = s.nunits := by rw [(drain_flushed s).frame]
@[simp] theorem drain_tq (s : State) : (drain s).tq = s.tq := by rw [(drain_flushed s).frame]
@[simp] theorem drain_scanOk (s : State) : (drain s).scanOk = s.scanOk := by rw [(drain_flushed s).frame]
@[simp] theorem drain_td (s : State) : (drain s).td = s.td := by rw [(drain_flushed s).frame]
@[simp] theorem drain_ta (s : State) : (drain s).ta = s.ta := by rw [(drain_flushed s).frame]
@[simp] theorem drain_dri (s : State) : (drain s).dri = s.dri := by rw [(drain_flushed s).frame]
@[simp] theorem drain_sqt (s : State) : (drain s).sqt = s.sqt := by rw [(drain_flushed s).frame]
@[simp] theorem drain_shtDc (s : State) : (drain s).shtDc = s.shtDc := by rw [(drain_flushed s).frame]
@[simp] theorem drain_shtAc (s : State) : (drain s).shtAc = s.shtAc := by rw [(drain_flushed s).frame]
@[simp] theorem drain_dqtDst (s : State) : (drain s).dqtDst = s.dqtDst := by rw [(drain_flushed s).frame]
@[simp] theorem drain_cu (s : State) : (drain s).cu = s.cu := by rw [(drain_flushed s).frame]
@[simp] theorem drain_part (s : State) : (drain s).part = s.part := by rw [(drain_flushed s).frame]
@[simp] theorem drain_comp (s : State) : (drain s).comp = s.comp := by rw [(drain_flushed s).frame]
@[simp] theorem drain_k (s : State) : (drain s).k = s.k := by rw [(drain_flushed s).frame]
@[simp] theorem drain_dcraw (s : State) : (drain s).dcraw = s.dcraw := by rw [(drain_flushed s).frame]
@[simp] theorem drain_dcemit (s : State) : (drain s).dcemit = s.dcemit := by rw [(drain_flushed s).frame]
@[simp] theorem drain_acrle (s : State) : (drain s).acrle = s.acrle := by rw [(drain_flushed s).frame]
@[simp] theorem drain_accrle (s : State) : (drain s).accrle = s.accrle := by rw [(drain_flushed s).frame]
@[simp] theorem drain_needbits (s : State) : (drain s).needbits = s.needbits := by rw [(drain_flushed s).frame]
@[simp] theorem drain_resetCu (s : State) : (drain s).resetCu = s.resetCu := by rw [(drain_flushed s).frame]
@[simp] theorem drain_ibits (s : State) : (drain s).ibits = s.ibits := by rw [(drain_flushed s).frame]
@[simp] theorem drain_ilen (s : State) : (drain s).ilen = s.ilen := by rw [(drain_flushed s).frame]
@[simp] theorem drain_pktSeq (s : State) : (drain s).pktSeq = s.pktSeq := by rw [(drain_flushed s).frame]
@[simp] theorem drain_pktCuIdx (s : State) : (drain s).pktCuIdx = s.pktCuIdx := by rw [(drain_flushed s).frame]
@[simp] theorem drain_pktCuOff (s : State) : (drain s).pktCuOff = s.pktCuOff := by rw [(drain_flushed s).frame]
@[simp] theorem drain_nextCuIdx (s : State) : (drain s).nextCuIdx = s.nextCuIdx := by rw [(drain_flushed s).frame]
@[simp] theorem drain_nextCuOff (s : State) : (drain s).nextCuOff = s.nextCuOff := by rw [(drain_flushed s).frame]
@[simp] theorem drain_done (s : State) : (drain s).done = s.done := by rw [(drain_flushed s).frame]
@[simp] theorem drain_failed (s : State) : (drain s).failed = s.failed := by rw [(drain_flushed s).frame]
@[simp] theorem drain_reason (s : State) : (drain s).reason = s.reason := by rw [(drain_flushed s).frame]
@[simp] theorem drain_running (s : State) : (drain s).running = s.running := by rw [(drain_flushed s).frame]
@[simp] theorem drain_reply (s : State) : (drain s).reply = s.reply := by rw [(drain_flushed s).frame]
@[simp] theorem drain_hostq (s : State) : (drain s).hostq = s.hostq := by rw [(drain_flushed s).frame]

@[simp] theorem outBits_src (x n : Nat) (s : State) : (outBits x n s).src = s.src := by rw [(outBits_flushed x n s).frame]
@[simp] theorem outBits_srcLen (x n : Nat) (s : State) : (outBits x n s).srcLen = s.srcLen := by rw [(outBits_flushed x n s).frame]
@[simp] theorem outBits_rom (x n : Nat) (s : State) : (outBits x n s).rom = s.rom := by rw [(outBits_flushed x n s).frame]
@[simp] theorem outBits_srcPos (x n : Nat) (s : State) : (outBits x n s).srcPos = s.srcPos := by rw [(outBits_flushed x n s).frame]
@[simp] theorem outBits_pstate (x n : Nat) (s : State) : (outBits x n s).pstate = s.pstate := by rw [(outBits_flushed x n s).frame]
@[simp] theorem outBits_mkReg (x n : Nat) (s : State) : (outBits x n s).mkReg = s.mkReg := by rw [(outBits_flushed x n s).frame]
@[simp] theorem outBits_segLen (x n : Nat) (s : State) : (outBits x n s).segLen = s.segLen := by rw [(outBits_flushed x n s).frame]
@[simp] theorem outBits_lenCnt (x n : Nat) (s : State) : (outBits x n s).lenCnt = s.lenCnt := by rw [(outBits_flushed x n s).frame]
@[simp] theorem outBits_segbuf (x n : Nat) (s : State) : (outBits x n s).segbuf = s.segbuf := by rw [(outBits_flushed x n s).frame]
@[simp] theorem outBits_segCnt (x n : Nat) (s : State) : (outBits x n s).segCnt = s.segCnt := by rw [(outBits_flushed x n s).frame]
@[simp] theorem outBits_skipCnt (x n : Nat) (s : State) : (outBits x n s).skipCnt = s.skipCnt := by rw [(outBits_flushed x n s).frame]
@[simp] theorem outBits_stuffPending (x n : Nat) (s : State) : (outBits x n s).stuffPending = s.stuffPending := by rw [(outBits_flushed x n s).frame]
@[simp] theorem outBits_callsignCode (x n : Nat) (s : State) : (outBits x n s).callsignCode = s.callsignCode := by rw [(outBits_flushed x n s).frame]
@[simp] theorem outBits_imageId (x n : Nat) (s : State) : (outBits x n s).imageId = s.imageId := by rw [(outBits_flushed x n s).frame]
@[simp] theorem outBits_quality (x n : Nat) (s : State) : (outBits x n s).quality = s.quality := by rw [(outBits_flushed x n s).frame]
@[simp] theorem outBits_haveFrame (x n : Nat) (s : State) : (outBits x n s).haveFrame = s.haveFrame := by rw [(outBits_flushed x n s).frame]
@[simp] theorem outBits_width (x n : Nat) (s : State) : (outBits x n s).width = s.width := by rw [(outBits_flushed x n s).frame]
@[simp] theorem outBits_height (x n : Nat) (s : State) : (outBits x n s).height = s.height := by rw [(outBits_flushed x n s).frame]
@[simp] theorem outBits_ncomp (x n : Nat) (s : State) : (outBits x n s).ncomp = s.ncomp := by rw [(outBits_flushed x n s).frame]
@[simp] theorem outBits_mono (x n : Nat) (s : State) : (outBits x n s).mono = s.mono := by rw [(outBits_flushed x n s).frame]
@[simp] theorem outBits_mode (x n : Nat) (s : State) : (outBits x n s).mode = s.mode := by rw [(outBits_flushed x n s).frame]
@[simp] theorem outBits_yparts (x n : Nat) (s : State) : (outBits x n s).yparts = s.yparts := by rw [(outBits_flushed x n s).frame]
@[simp] theorem outBits_nunits (x n : Nat) (s : State) : (outBits x n s).nunits = s.nunits := by rw [(outBits_flushed x n s).frame]
@[simp] theorem outBits_tq (x n : Nat) (s : State) : (outBits x n s).tq = s.tq := by rw [(outBits_flushed x n s).frame]
@[simp] theorem outBits_scanOk (x n : Nat) (s : State) : (outBits x n s).scanOk = s.scanOk := by rw [(outBits_flushed x n s).frame]
@[simp] theorem outBits_td (x n : Nat) (s : State) : (outBits x n s).td = s.td := by rw [(outBits_flushed x n s).frame]
@[simp] theorem outBits_ta (x n : Nat) (s : State) : (outBits x n s).ta = s.ta := by rw [(outBits_flushed x n s).frame]
@[simp] theorem outBits_dri (x n : Nat) (s : State) : (outBits x n s).dri = s.dri := by rw [(outBits_flushed x n s).frame]
@[simp] theorem outBits_sqt (x n : Nat) (s : State) : (outBits x n s).sqt = s.sqt := by rw [(outBits_flushed x n s).frame]
@[simp] theorem outBits_shtDc (x n : Nat) (s : State) : (outBits x n s).shtDc = s.shtDc := by rw [(outBits_flushed x n s).frame]
@[simp] theorem outBits_shtAc (x n : Nat) (s : State) : (outBits x n s).shtAc = s.shtAc := by rw [(outBits_flushed x n s).frame]
@[simp] theorem outBits_dqtDst (x n : Nat) (s : State) : (outBits x n s).dqtDst = s.dqtDst := by rw [(outBits_flushed x n s).frame]
@[simp] theorem outBits_cu (x n : Nat) (s : State) : (outBits x n s).cu = s.cu := by rw [(outBits_flushed x n s).frame]
@[simp] theorem outBits_part (x n : Nat) (s : State) : (outBits x n s).part = s.part := by rw [(outBits_flushed x n s).frame]
@[simp] theorem outBits_comp (x n : Nat) (s : State) : (outBits x n s).comp = s.comp := by rw [(outBits_flushed x n s).frame]
@[simp] theorem outBits_k (x n : Nat) (s : State) : (outBits x n s).k = s.k := by rw [(outBits_flushed x n s).frame]
@[simp] theorem outBits_dcraw (x n : Nat) (s : State) : (outBits x n s).dcraw = s.dcraw := by rw [(outBits_flushed x n s).frame]
@[simp] theorem outBits_dcemit (x n : Nat) (s : State) : (outBits x n s).dcemit = s.dcemit := by rw [(outBits_flushed x n s).frame]
@[simp] theorem outBits_acrle (x n : Nat) (s : State) : (outBits x n s).acrle = s.acrle := by rw [(outBits_flushed x n s).frame]
@[simp] theorem outBits_accrle (x n : Nat) (s : State) : (outBits x n s).accrle = s.accrle := by rw [(outBits_flushed x n s).frame]
@[simp] theorem outBits_needbits (x n : Nat) (s : State) : (outBits x n s).needbits = s.needbits := by rw [(outBits_flushed x n s).frame]
@[simp] theorem outBits_resetCu (x n : Nat) (s : State) : (outBits x n s).resetCu = s.resetCu := by rw [(outBits_flushed x n s).frame]
@[simp] theorem outBits_ibits (x n : Nat) (s : State) : (outBits x n s).ibits = s.ibits := by rw [(outBits_flushed x n s).frame]
@[simp] theorem outBits_ilen (x n : Nat) (s : State) : (outBits x n s).ilen = s.ilen := by rw [(outBits_flushed x n s).frame]
@[simp] theorem outBits_pktSeq (x n : Nat) (s : State) : (outBits x n s).pktSeq = s.pktSeq := by rw [(outBits_flushed x n s).frame]
@[simp] theorem outBits_pktCuIdx (x n : Nat) (s : State) : (outBits x n s).pktCuIdx = s.pktCuIdx := by rw [(outBits_flushed x n s).frame]
@[simp] theorem outBits_pktCuOff (x n : Nat) (s : State) : (outBits x n s).pktCuOff = s.pktCuOff := by rw [(outBits_flushed x n s).frame]
@[simp] theorem outBits_nextCuIdx (x n : Nat) (s : State) : (outBits x n s).nextCuIdx = s.nextCuIdx := by rw [(outBits_flushed x n s).frame]
@[simp] theorem outBits_nextCuOff (x n : Nat) (s : State) : (outBits x n s).nextCuOff = s.nextCuOff := by rw [(outBits_flushed x n s).frame]
@[simp] theorem outBits_done (x n : Nat) (s : State) : (outBits x n s).done = s.done := by rw [(outBits_flushed x n s).frame]
@[simp] theorem outBits_failed (x n : Nat) (s : State) : (outBits x n s).failed = s.failed := by rw [(outBits_flushed x n s).frame]
@[simp] theorem outBits_reason (x n : Nat) (s : State) : (outBits x n s).reason = s.reason := by rw [(outBits_flushed x n s).frame]
@[simp] theorem outBits_running (x n : Nat) (s : State) : (outBits x n s).running = s.running := by rw [(outBits_flushed x n s).frame]
@[simp] theorem outBits_reply (x n : Nat) (s : State) : (outBits x n s).reply = s.reply := by rw [(outBits_flushed x n s).frame]
@[simp] theorem outBits_hostq (x n : Nat) (s : State) : (outBits x n s).hostq = s.hostq := by rw [(outBits_flushed x n s).frame]

@[simp] theorem sync_src (s : State) : (sync s).src = s.src := by rw [(sync_flushed s).frame]
@[simp] theorem sync_srcLen (s : State) : (sync s).srcLen = s.srcLen := by rw [(sync_flushed s).frame]
@[simp] theorem sync_rom (s : State) : (sync s).rom = s.rom := by rw [(sync_flushed s).frame]
@[simp] theorem sync_srcPos (s : State) : (sync s).srcPos = s.srcPos := by rw [(sync_flushed s).frame]
@[simp] theorem sync_pstate (s : State) : (sync s).pstate = s.pstate := by rw [(sync_flushed s).frame]
@[simp] theorem sync_mkReg (s : State) : (sync s).mkReg = s.mkReg := by rw [(sync_flushed s).frame]
@[simp] theorem sync_segLen (s : State) : (sync s).segLen = s.segLen := by rw [(sync_flushed s).frame]
@[simp] theorem sync_lenCnt (s : State) : (sync s).lenCnt = s.lenCnt := by rw [(sync_flushed s).frame]
@[simp] theorem sync_segbuf (s : State) : (sync s).segbuf = s.segbuf := by rw [(sync_flushed s).frame]
@[simp] theorem sync_segCnt (s : State) : (sync s).segCnt = s.segCnt := by rw [(sync_flushed s).frame]
@[simp] theorem sync_skipCnt (s : State) : (sync s).skipCnt = s.skipCnt := by rw [(sync_flushed s).frame]
@[simp] theorem sync_stuffPending (s : State) : (sync s).stuffPending = s.stuffPending := by rw [(sync_flushed s).frame]
@[simp] theorem sync_callsignCode (s : State) : (sync s).callsignCode = s.callsignCode := by rw [(sync_flushed s).frame]
@[simp] theorem sync_imageId (s : State) : (sync s).imageId = s.imageId := by rw [(sync_flushed s).frame]
@[simp] theorem sync_quality (s : State) : (sync s).quality = s.quality := by rw [(sync_flushed s).frame]
@[simp] theorem sync_haveFrame (s : State) : (sync s).haveFrame = s.haveFrame := by rw [(sync_flushed s).frame]
@[simp] theorem sync_width (s : State) : (sync s).width = s.width := by rw [(sync_flushed s).frame]
@[simp] theorem sync_height (s : State) : (sync s).height = s.height := by rw [(sync_flushed s).frame]
@[simp] theorem sync_ncomp (s : State) : (sync s).ncomp = s.ncomp := by rw [(sync_flushed s).frame]
@[simp] theorem sync_mono (s : State) : (sync s).mono = s.mono := by rw [(sync_flushed s).frame]
@[simp] theorem sync_mode (s : State) : (sync s).mode = s.mode := by rw [(sync_flushed s).frame]
@[simp] theorem sync_yparts (s : State) : (sync s).yparts = s.yparts := by rw [(sync_flushed s).frame]
@[simp] theorem sync_nunits (s : State) : (sync s).nunits = s.nunits := by rw [(sync_flushed s).frame]
@[simp] theorem sync_tq (s : State) : (sync s).tq = s.tq := by rw [(sync_flushed s).frame]
@[simp] theorem sync_scanOk (s : State) : (sync s).scanOk = s.scanOk := by rw [(sync_flushed s).frame]
@[simp] theorem sync_td (s : State) : (sync s).td = s.td := by rw [(sync_flushed s).frame]
@[simp] theorem sync_ta (s : State) : (sync s).ta = s.ta := by rw [(sync_flushed s).frame]
@[simp] theorem sync_dri (s : State) : (sync s).dri = s.dri := by rw [(sync_flushed s).frame]
@[simp] theorem sync_sqt (s : State) : (sync s).sqt = s.sqt := by rw [(sync_flushed s).frame]
@[simp] theorem sync_shtDc (s : State) : (sync s).shtDc = s.shtDc := by rw [(sync_flushed s).frame]
@[simp] theorem sync_shtAc (s : State) : (sync s).shtAc = s.shtAc := by rw [(sync_flushed s).frame]
@[simp] theorem sync_dqtDst (s : State) : (sync s).dqtDst = s.dqtDst := by rw [(sync_flushed s).frame]
@[simp] theorem sync_cu (s : State) : (sync s).cu = s.cu := by rw [(sync_flushed s).frame]
@[simp] theorem sync_part (s : State) : (sync s).part = s.part := by rw [(sync_flushed s).frame]
@[simp] theorem sync_comp (s : State) : (sync s).comp = s.comp := by rw [(sync_flushed s).frame]
@[simp] theorem sync_k (s : State) : (sync s).k = s.k := by rw [(sync_flushed s).frame]
@[simp] theorem sync_dcraw (s : State) : (sync s).dcraw = s.dcraw := by rw [(sync_flushed s).frame]
@[simp] theorem sync_dcemit (s : State) : (sync s).dcemit = s.dcemit := by rw [(sync_flushed s).frame]
@[simp] theorem sync_acrle (s : State) : (sync s).acrle = s.acrle := by rw [(sync_flushed s).frame]
@[simp] theorem sync_accrle (s : State) : (sync s).accrle = s.accrle := by rw [(sync_flushed s).frame]
@[simp] theorem sync_needbits (s : State) : (sync s).needbits = s.needbits := by rw [(sync_flushed s).frame]
@[simp] theorem sync_resetCu (s : State) : (sync s).resetCu = s.resetCu := by rw [(sync_flushed s).frame]
@[simp] theorem sync_ibits (s : State) : (sync s).ibits = s.ibits := by rw [(sync_flushed s).frame]
@[simp] theorem sync_ilen (s : State) : (sync s).ilen = s.ilen := by rw [(sync_flushed s).frame]
@[simp] theorem sync_pktSeq (s : State) : (sync s).pktSeq = s.pktSeq := by rw [(sync_flushed s).frame]
@[simp] theorem sync_pktCuIdx (s : State) : (sync s).pktCuIdx = s.pktCuIdx := by rw [(sync_flushed s).frame]
@[simp] theorem sync_pktCuOff (s : State) : (sync s).pktCuOff = s.pktCuOff := by rw [(sync_flushed s).frame]
@[simp] theorem sync_nextCuIdx (s : State) : (sync s).nextCuIdx = s.nextCuIdx := by rw [(sync_flushed s).frame]
@[simp] theorem sync_nextCuOff (s : State) : (sync s).nextCuOff = s.nextCuOff := by rw [(sync_flushed s).frame]
@[simp] theorem sync_done (s : State) : (sync s).done = s.done := by rw [(sync_flushed s).frame]
@[simp] theorem sync_failed (s : State) : (sync s).failed = s.failed := by rw [(sync_flushed s).frame]
@[simp] theorem sync_reason (s : State) : (sync s).reason = s.reason := by rw [(sync_flushed s).frame]
@[simp] theorem sync_running (s : State) : (sync s).running = s.running := by rw [(sync_flushed s).frame]
@[simp] theorem sync_reply (s : State) : (sync s).reply = s.reply := by rw [(sync_flushed s).frame]
@[simp] theorem sync_hostq (s : State) : (sync s).hostq = s.hostq := by rw [(sync_flushed s).frame]

end Sys2Proof.Machine
end

