-- ==== Sys2Proof/Laws/Emit.lean ====
section
/-! SUPPORT. What writing symbols can do: `emit`, the synthesized chroma blocks and the runs of zeros. -/

namespace Sys2Proof.Machine

theorem Res.andThen_ok {r : Res} {k : State → Res} {t : State} :
    r.andThen k = .ok t ↔ ∃ s, r = .ok s ∧ k s = .ok t := by
  cases r <;> simp [Res.andThen]

@[simp] theorem Res.ok_andThen (s : State) (k : State → Res) : (Res.ok s).andThen k = k s := rfl
@[simp] theorem Res.fatal_andThen (e : Reason) (s : State) (k : State → Res) :
    (Res.fatal e s).andThen k = .fatal e s := rfl
@[simp] theorem Res.fault_andThen (f : Fault) (k : State → Res) : (Res.fault f).andThen k = .fault f := rfl
@[simp] theorem Res.outcome_ok (s : State) : (Res.ok s).outcome = .next s := rfl
@[simp] theorem Res.outcome_fatal (e : Reason) (s : State) : (Res.fatal e s).outcome = .next (enterFatal e s) := rfl
@[simp] theorem Res.outcome_fault (f : Fault) : (Res.fault f).outcome = .fault f := rfl

/-- The buffer is within its bound and, unless it is full, at most 7 bits wait (43_entropy_encode.md R192). -/
def Settled (s : State) : Prop := s.outCount ≤ Config.payload ∧ (s.olen < 8 ∨ s.outCount = Config.payload)

/-- `n` bits were appended to the outbound stream and whole bytes moved to the buffer; nothing else changed. -/
structure Wrote (n : Nat) (s t : State) : Prop where
  flushed : Flushed n s t
  settled : Settled s → Settled t

theorem Wrote.refl (s : State) : Wrote 0 s s := ⟨Flushed.refl s, id⟩

theorem Wrote.trans {n m : Nat} {s t u : State} (h : Wrote n s t) (h' : Wrote m t u) : Wrote (n + m) s u :=
  ⟨h.flushed.trans h'.flushed, fun hs => h'.settled (h.settled hs)⟩

theorem Wrote.frame {n : Nat} {s t : State} (h : Wrote n s t) :
    t = { s with pktbuf := t.pktbuf, outCount := t.outCount, obits := t.obits, olen := t.olen } := h.flushed.frame

theorem outBits_wrote (x n : Nat) (s : State) : Wrote n s (outBits x n s) :=
  ⟨outBits_flushed x n s, fun h => ⟨(outBits_flushed x n s).room h.1, outBits_settled x n h.1⟩⟩

theorem sync_wrote (s : State) : Wrote (syncBits s) s (sync s) :=
  ⟨sync_flushed s, fun h => ⟨(sync_flushed s).room h.1, sync_settled h.1 h.2⟩⟩

theorem syncBits_le (s : State) : syncBits s ≤ 7 := by unfold syncBits; split <;> omega

/-- What an accepted ROM gives the encoder (93_implementation_defined.md U9). -/
theorem Rom.wellFormed_dest {r : Rom} (h : r.wellFormed) :
    (∀ c, (usage r.dhtDc c).shaped ∧ (0x00 : Byte) ∈ (usage r.dhtDc c).sym)
      ∧ ∀ c, (usage r.dhtAc c).shaped ∧ (0x00 : Byte) ∈ (usage r.dhtAc c).sym ∧ (0xF0 : Byte) ∈ (usage r.dhtAc c).sym := by
  simp only [Rom.wellFormed, Bool.and_eq_true, HuffTable.wellFormed, List.contains_eq_mem, decide_eq_true_eq] at h
  refine ⟨fun c => ?_, fun c => ?_⟩ <;> unfold usage <;> split <;> simp_all

theorem HuffTable.shaped_count {t : HuffTable} (h : t.shaped) : t.count.length = 16 := by
  simp only [HuffTable.shaped, Bool.and_eq_true, beq_iff_eq] at h
  exact h.1.1.1

theorem destTable_shaped {s : State} (hr : s.rom.wellFormed) (cls : HuffClass) : (destTable cls s).shaped := by
  cases cls
  · exact ((Rom.wellFormed_dest hr).1 s.comp).1
  · exact ((Rom.wellFormed_dest hr).2 s.comp).1

/-- `Emit` succeeds exactly when the size is at most 15 and the destination table has the symbol. -/
theorem emit_ok {cls : HuffClass} {run : Nat} {v : Int} {s : State} {code w : Nat} (hn : (vencode v).2 ≤ 15)
    (hc : huffEncode (destTable cls s) (BitVec.ofNat 8 (run * 16 + (vencode v).2)) = some (code, w)) :
    emit cls run v s = .ok (emitted code w v s) := by
  unfold emit emitted
  rw [if_neg (by omega), hc]
  simp only
  split <;> rfl

/-- A value of more than 15 bits, or a symbol that the destination table lacks, writes nothing. -/
theorem emit_range {cls : HuffClass} {run : Nat} {v : Int} {s : State}
    (h : 15 < (vencode v).2
      ∨ huffEncode (destTable cls s) (BitVec.ofNat 8 (run * 16 + (vencode v).2)) = none) :
    emit cls run v s = .fatal .encodeRange s := by
  unfold emit
  split
  · rfl
  · rename_i hn; rw [h.resolve_left hn]

theorem emitted_wrote (code w : Nat) (v : Int) (s : State) : Wrote (w + (vencode v).2) s (emitted code w v s) := by
  unfold emitted
  split
  · rename_i h; rw [h]; exact outBits_wrote _ _ _
  · exact (outBits_wrote _ _ _).trans (outBits_wrote _ _ _)

/-- Everything `Emit` can do: refuse, or append 1 to 31 bits, at most 16 of them where there is no value field
(43_entropy_encode.md R188, R189). -/
theorem emit_cases {s : State} (hr : s.rom.wellFormed) (cls : HuffClass) (run : Nat) (v : Int) :
    emit cls run v s = .fatal .encodeRange s
      ∨ ∃ t n, emit cls run v s = .ok t ∧ Wrote n s t ∧ 1 ≤ n ∧ n ≤ 31 ∧ (v = 0 → n ≤ 16) := by
  by_cases hn : 15 < (vencode v).2
  · left; simp [emit, hn]
  · cases hc : huffEncode (destTable cls s) (BitVec.ofNat 8 (run * 16 + (vencode v).2)) with
    | none => left; simp [emit, hn, hc]
    | some p =>
      obtain ⟨code, w⟩ := p
      have hw := huffEncode_width (HuffTable.shaped_count (destTable_shaped hr cls)) hc
      refine .inr ⟨_, _, emit_ok (by omega) hc, emitted_wrote code w v s, by omega, by omega, ?_⟩
      rintro rfl
      simp only [vencode_zero]; omega

/-- The three fixed symbols are in every accepted ROM: writing one always succeeds (43_entropy_encode.md R188). -/
theorem emit_fixed {s : State} (hr : s.rom.wellFormed) (cls : HuffClass) (run : Nat)
    (h : run = 0 ∨ (cls = .ac ∧ run = 15)) :
    ∃ t n, emit cls run 0 s = .ok t ∧ Wrote n s t ∧ 1 ≤ n ∧ n ≤ 16 := by
  have hd := Rom.wellFormed_dest hr
  have hs : (huffEncode (destTable cls s) (BitVec.ofNat 8 (run * 16 + (vencode 0).2))).isSome := by
    refine huffEncode_isSome (destTable_shaped hr cls) ?_
    rcases h with rfl | ⟨rfl, rfl⟩
    · cases cls
      · exact (hd.1 s.comp).2
      · exact (hd.2 s.comp).2.1
    · exact (hd.2 s.comp).2.2
  obtain ⟨⟨code, w⟩, hc⟩ := Option.isSome_iff_exists.mp hs
  have hw := huffEncode_width (HuffTable.shaped_count (destTable_shaped hr cls)) hc
  exact ⟨_, _, emit_ok (by simp) hc, emitted_wrote code w 0 s, by simp only [vencode_zero]; omega,
    by simp only [vencode_zero]; omega⟩

/-- A synthesized chroma block: two fixed symbols with the chroma tables, at most 32 bits (44_cursor.md R210). -/
theorem synthesizeChroma_ok {s : State} (hr : s.rom.wellFormed) (cc : Nat) :
    ∃ t n, synthesizeChroma cc s = .ok { t with part := s.part + 1 } ∧ Wrote n { s with comp := cc } t
      ∧ 1 ≤ n ∧ n ≤ 32 := by
  obtain ⟨t, n, h1, h2, h3, h4⟩ := emit_fixed (s := { s with comp := cc }) hr .dc 0 (.inl rfl)
  have hr' : t.rom.wellFormed := by rw [h2.frame]; exact hr
  obtain ⟨u, m, g1, g2, g3, g4⟩ := emit_fixed (s := t) hr' .ac 0 (.inl rfl)
  refine ⟨u, n + m, ?_, h2.trans g2, by omega, by omega⟩
  unfold synthesizeChroma
  rw [h1, Res.ok_andThen, g1, Res.ok_andThen, g2.frame, h2.frame]

/-- Writing `n` runs of sixteen zeros: each takes 16 off the run accumulator and at most 16 bits
(43_entropy_encode.md R196). -/
theorem emitZeroRuns_cases (n : Nat) {s : State} (hr : s.rom.wellFormed) (hz : 16 * n ≤ s.accrle) :
    ∃ t m, emitZeroRuns n s = .ok { t with accrle := s.accrle - 16 * n } ∧ Wrote m s t ∧ m ≤ 16 * n := by
  induction n generalizing s with
  | zero => exact ⟨s, 0, rfl, Wrote.refl s, by omega⟩
  | succ n ih =>
    obtain ⟨t, m, h1, h2, _, h4⟩ := emit_fixed hr .ac 15 (.inr ⟨rfl, rfl⟩)
    have ht : t.accrle = s.accrle := by rw [h2.frame]
    have hr' : t.rom.wellFormed := by rw [h2.frame]; exact hr
    obtain ⟨u, k, g1, g2, g3⟩ := ih (s := { t with accrle := t.accrle - 16 }) hr' (by simp only; omega)
    refine ⟨{ u with accrle := s.accrle }, m + k, ?_, ?_, by omega⟩
    · unfold emitZeroRuns
      rw [h1, Res.ok_andThen, Res.ok_andThen, g1]
      simp only [ht]
      rw [show s.accrle - 16 - 16 * n = s.accrle - 16 * (n + 1) by omega]
    · refine h2.trans ⟨?_, ?_⟩
      · have hf := g2.flushed
        refine ⟨?_, hf.total, hf.grows, hf.room, hf.wf, hf.below, hf.obits⟩
        have := hf.frame
        rw [this, ← ht]
      · exact g2.settled

end Sys2Proof.Machine
end

