-- ==== Sys2Proof/Laws/Cursor.lean ====
section
/-! SUPPORT. What the ends of blocks and units, the DC step and an AC value can do. -/

namespace Sys2Proof.Machine

/-- The header pairs are legal, and a deferred boundary means a full buffer (30_encoding.md R115; 10_state.md R59
(g)). -/
structure Pairs (s : State) : Prop where
  pair : pairOk s.pktCuIdx s.pktCuOff
  nextPair : pairOk s.nextCuIdx s.nextCuOff
  deferred : s.nextCuIdx ≠ Config.noneIdx → s.outCount = Config.payload

theorem pairOk_real {cu pos : Nat} (hc : cu < 65535) (hp : pos < Config.payload) :
    pairOk (BitVec.ofNat 16 cu) (BitVec.ofNat 8 pos) := by
  right
  refine ⟨fun h => ?_, ?_⟩
  · have := congrArg BitVec.toNat h
    simp only [BitVec.toNat_ofNat, Config.noneIdx] at this
    simp at this; omega
  · simp only [BitVec.toNat_ofNat, Config.payload] at *; omega

/-- Writing keeps the header pairs legal: the buffer only fills. -/
theorem Pairs.wrote {n : Nat} {s t : State} (h : Pairs s) (hw : Wrote n s t) (hs : Settled s) : Pairs t := by
  have hf := hw.frame
  refine ⟨by rw [hf]; exact h.pair, by rw [hf]; exact h.nextPair, fun hd => ?_⟩
  have hd' : s.nextCuIdx ≠ Config.noneIdx := by rw [hf] at hd; exact hd
  have := h.deferred hd'
  have := hw.flushed.grows
  have := (hw.settled hs).1
  omega

/-- Everything `RecordBoundary` can do (44_cursor.md R213): nothing, or align the stream, store a pair and make the
unit a reset point. -/
theorem recordBoundary_cases (s : State) :
    recordBoundary s = s
      ∨ ∃ u, Wrote (syncBits s) s u ∧ u.olen % 8 = 0 ∧ recordBoundary s = storeBoundary u := by
  unfold recordBoundary
  split
  · exact .inr ⟨_, sync_wrote s, sync_aligned s, rfl⟩
  · exact .inl rfl

theorem storeBoundary_frame (u : State) :
    storeBoundary u =
      { u with
        resetCu := u.cu, pktCuIdx := (storeBoundary u).pktCuIdx, pktCuOff := (storeBoundary u).pktCuOff
        nextCuIdx := (storeBoundary u).nextCuIdx, nextCuOff := (storeBoundary u).nextCuOff } := by
  unfold storeBoundary
  split <;> rfl

/-- A boundary stored at an aligned position of a settled stream keeps the header pairs legal (44_cursor.md R213, facts
(1) and (2)). -/
theorem storeBoundary_pairs {u : State} (h : Pairs u) (hs : Settled u) (ha : u.olen % 8 = 0) (hc : u.cu < 65535)
    (ho : u.olen ≤ 157) : Pairs (storeBoundary u) := by
  unfold storeBoundary
  split
  · rename_i hp
    exact ⟨pairOk_real hc hp, h.nextPair, h.deferred⟩
  · rename_i hp
    have hfull : u.outCount = Config.payload := by
      rcases hs with ⟨h1, h2 | h2⟩
      · unfold boundaryPos at hp; omega
      · exact h2
    refine ⟨h.pair, pairOk_real hc ?_, fun _ => hfull⟩
    unfold boundaryPos
    have : Config.payload = 237 := rfl
    omega

theorem arbitrate_frame (s : State) : arbitrate s = { s with pstate := (arbitrate s).pstate } := by
  unfold arbitrate; split <;> rfl

theorem arbitrate_pstate (s : State) : (arbitrate s).pstate = s.pstate ∨ (arbitrate s).pstate = .marker := by
  unfold arbitrate; split <;> simp

/-- Everything `UnitEnd` can do (44_cursor.md R211): at most 7 alignment bits are written, the cursor moves to the start
of the next unit, the boundary registers may change; the last unit ends the image byte aligned. -/
theorem unitEnd_cases (s : State) :
    ∃ u n, Wrote n s u ∧ n ≤ 7
      ∧ unitEnd s =
          { u with
            part := 0, comp := 0, cu := s.cu + 1, pstate := (unitEnd s).pstate, resetCu := (unitEnd s).resetCu
            pktCuIdx := (unitEnd s).pktCuIdx, pktCuOff := (unitEnd s).pktCuOff
            nextCuIdx := (unitEnd s).nextCuIdx, nextCuOff := (unitEnd s).nextCuOff }
      ∧ (s.cu + 1 = s.nunits → (unitEnd s).pstate = .finish ∧ u.olen % 8 = 0)
      ∧ (s.cu + 1 ≠ s.nunits → (unitEnd s).pstate = s.pstate ∨ (unitEnd s).pstate = .marker)
      ∧ (Pairs s → Settled s → s.olen ≤ 150 → s.cu + 1 ≤ s.nunits → s.nunits ≤ 65535 →
          Pairs (unitEnd s)) := by
  by_cases hl : s.cu + 1 = s.nunits
  · have he : unitEnd s = { sync { s with part := 0, comp := 0, cu := s.cu + 1 } with pstate := .finish } := by
      unfold unitEnd; rw [if_pos hl]
    have hw := sync_wrote { s with part := 0, comp := 0, cu := s.cu + 1 }
    refine ⟨{ sync { s with part := 0, comp := 0, cu := s.cu + 1 } with part := s.part, comp := s.comp, cu := s.cu },
      _, ⟨⟨?_, hw.flushed.total, hw.flushed.grows, hw.flushed.room, hw.flushed.wf, hw.flushed.below,
        hw.flushed.obits⟩, hw.settled⟩, syncBits_le _, ?_, ?_, ?_, ?_⟩
    · rw [hw.frame]
    · rw [he, hw.frame]
    · intro _; rw [he]; exact ⟨rfl, sync_aligned _⟩
    · intro h; exact absurd hl h
    · intro hp hs _ _ _
      have hp' : Pairs { s with part := 0, comp := 0, cu := s.cu + 1 } := ⟨hp.pair, hp.nextPair, hp.deferred⟩
      have := hp'.wrote hw hs
      rw [he]
      exact ⟨this.pair, this.nextPair, this.deferred⟩
  · have he : unitEnd s = arbitrate (recordBoundary { s with part := 0, comp := 0, cu := s.cu + 1 }) := by
      unfold unitEnd; rw [if_neg hl]
    rcases recordBoundary_cases { s with part := 0, comp := 0, cu := s.cu + 1 } with hr | ⟨u, hw, ha, hr⟩
    · rw [hr] at he
      refine ⟨s, 0, Wrote.refl s, by omega, ?_, fun h => absurd h hl, fun _ => ?_, ?_⟩
      · rw [he, arbitrate_frame]
      · rw [he]; exact arbitrate_pstate _
      · intro hp _ _ _ _
        rw [he, arbitrate_frame]
        exact ⟨hp.pair, hp.nextPair, hp.deferred⟩
    · rw [hr] at he
      refine ⟨{ u with part := s.part, comp := s.comp, cu := s.cu }, _,
        ⟨⟨?_, hw.flushed.total, hw.flushed.grows, hw.flushed.room, hw.flushed.wf, hw.flushed.below,
          hw.flushed.obits⟩, hw.settled⟩, syncBits_le _, ?_, fun h => absurd h hl, fun _ => ?_, ?_⟩
      · rw [hw.frame]
      · rw [he, arbitrate_frame, storeBoundary_frame, hw.frame]
      · rw [he]
        have := arbitrate_pstate (storeBoundary u)
        rw [storeBoundary_frame] at this ⊢
        rw [hw.frame] at this ⊢
        exact this
      · intro hp hs ho _ _
        have hs' : Settled { s with part := 0, comp := 0, cu := s.cu + 1 } := hs
        have hp' : Pairs { s with part := 0, comp := 0, cu := s.cu + 1 } := ⟨hp.pair, hp.nextPair, hp.deferred⟩
        have hu := hw.settled hs'
        have hcu : u.cu = s.cu + 1 := by rw [hw.frame]
        have hb := syncBits_le { s with part := 0, comp := 0, cu := s.cu + 1 }
        have ht := hw.flushed.total
        have hg := hw.flushed.grows
        simp only at ht hg
        have := storeBoundary_pairs (hp'.wrote hw hs') hu ha (by omega) (by omega)
        rw [he, arbitrate_frame]
        exact ⟨this.pair, this.nextPair, this.deferred⟩

/-- Everything `BlockEnd` can do (44_cursor.md R208 to R210): go on to the next block of the unit, or end the unit, in a
monochrome image after at most 64 bits of synthesized chroma. It never fails with an accepted ROM. -/
theorem blockEnd_cases {s : State} (hr : s.rom.wellFormed) (hp : s.part ≤ s.yparts + 1)
    (hm : s.mono → s.part = 0 ∧ s.yparts = 1) :
    (blockEnd s = .ok { s with
        part := s.part + 1, comp := compOf s.yparts (s.part + 1), k := 0, acrle := 0, accrle := 0 }
      ∧ s.mono = false ∧ s.part < s.yparts + 1)
    ∨ ∃ u n c, Wrote n s u ∧ n ≤ 64
      ∧ blockEnd s = .ok (unitEnd { u with part := s.yparts + 2, comp := c, k := 0, acrle := 0, accrle := 0 }) := by
  by_cases hmono : s.mono = true
  · right
    obtain ⟨h0, h1⟩ := hm hmono
    obtain ⟨t, n, t1, t2, _, t4⟩ := synthesizeChroma_ok (s := { s with part := s.part + 1 }) hr 1
    have hr' : t.rom.wellFormed := by rw [t2.frame]; exact hr
    have htp : t.part = s.part + 1 := by rw [t2.frame]
    obtain ⟨u, m, u1, u2, _, u4⟩ := synthesizeChroma_ok (s := { t with part := s.part + 1 + 1 }) hr' 2
    have hw : Wrote (n + m) s { u with part := s.part, comp := s.comp } := by
      refine ⟨⟨?_, ?_, ?_, ?_, ?_, ?_, ?_⟩, ?_⟩
      · rw [u2.frame, t2.frame]
      · have a := t2.flushed.total; have b := u2.flushed.total; simp only at a b ⊢; omega
      · exact Nat.le_trans t2.flushed.grows u2.flushed.grows
      · exact fun h => u2.flushed.room (t2.flushed.room h)
      · exact fun h => u2.flushed.wf (t2.flushed.wf h)
      · intro a ha
        have g1 := t2.flushed.grows; have g2 := u2.flushed.grows
        simp only at g1 g2 ha ⊢
        rw [u2.flushed.below a (by simp only; omega)]
        exact t2.flushed.below a (by simp only; omega)
      · exact fun h => u2.flushed.obits (t2.flushed.obits h)
      · exact fun h => u2.settled (t2.settled h)
    refine ⟨_, n + m, 2, hw, by omega, ?_⟩
    unfold blockEnd
    simp only
    rw [if_pos ⟨hmono, by omega⟩, t1, Res.ok_andThen]
    simp only
    rw [u1, Res.ok_andThen]
    unfold nextBlock
    simp only
    rw [if_pos (by rw [u2.frame, t2.frame]; simp only; omega)]
    rw [u2.frame, t2.frame]
    simp only
    rw [show s.part + 1 + 1 + 1 = s.yparts + 2 by omega]
  · have hmf : s.mono = false := by simpa using hmono
    unfold blockEnd
    simp only
    rw [if_neg (by simp [hmf])]
    unfold nextBlock
    simp only
    split
    · rename_i he
      right
      exact ⟨s, 0, s.comp, Wrote.refl s, by omega, by rw [he]⟩
    · rename_i he
      left
      exact ⟨rfl, hmf, by omega⟩

/-- Everything `DcUpdate` can do (42_rescale.md R172, 44_cursor.md R215): refuse, having at most changed `DCRAW`, or
write one DC symbol of at most 31 bits and change the two predictors. -/
theorem dcUpdate_cases {s : State} (hr : s.rom.wellFormed) (hc : s.comp ≤ 2) (hs : (sourceStep s 0).isSome)
    (hd : (destStep s 0).isSome) (v : Int) :
    (∃ e r, dcUpdate v s = .fatal e { s with dcraw := r })
      ∨ ∃ u n r w, dcUpdate v s = .ok { u with dcraw := r, dcemit := w } ∧ Wrote n s u ∧ n ≤ 31 := by
  obtain ⟨src, hs⟩ := Option.isSome_iff_exists.mp hs
  obtain ⟨dst, hd⟩ := Option.isSome_iff_exists.mp hd
  have hg : ∀ t : Tri (BitVec 32), ∃ x, triGet? t s.comp = some x := by
    intro t
    have : s.comp = 0 ∨ s.comp = 1 ∨ s.comp = 2 := by omega
    rcases this with h | h | h <;> rw [h] <;> exact ⟨_, rfl⟩
  obtain ⟨old, ho⟩ := hg s.dcraw
  obtain ⟨last, hl⟩ := hg s.dcemit
  unfold dcUpdate
  rw [hs, hd, ho]
  simp only
  split
  · exact .inl ⟨_, s.dcraw, rfl⟩
  · unfold dcEmit
    simp only
    rw [hl]
    simp only
    generalize hs' : ({ s with dcraw := triSet s.dcraw s.comp (BitVec.ofInt 32 (dcSum old.toInt v src dst)) } : State) = s'
    have hr' : s'.rom.wellFormed := by rw [← hs']; exact hr
    rcases emit_cases hr' .dc 0 (toDest (dcSum old.toInt v src dst) src dst - if atReset s' then 0 else last.toInt) with
      h | ⟨t, n, h1, h2, _, h4, _⟩
    · rw [h, Res.fatal_andThen]
      exact .inl ⟨_, s'.dcraw, by rw [← hs']⟩
    · rw [h1, Res.ok_andThen]
      right
      refine ⟨{ t with dcraw := s.dcraw }, n, t.dcraw, _, rfl, ⟨⟨?_, ?_, ?_, ?_, ?_, ?_, ?_⟩, ?_⟩, h4⟩
      · rw [h2.frame, ← hs']
      · have := h2.flushed.total; rw [← hs'] at this; exact this
      · have := h2.flushed.grows; rw [← hs'] at this; exact this
      · have := h2.flushed.room; rw [← hs'] at this; exact this
      · have := h2.flushed.wf; rw [← hs'] at this; exact this
      · have := h2.flushed.below; rw [← hs'] at this; exact this
      · have := h2.flushed.obits; rw [← hs'] at this; exact this
      · have := h2.settled; rw [← hs'] at this; exact this

/-- Everything an AC value can do (43_entropy_encode.md R196): refuse, or write at most three zero runs and one symbol,
79 bits in all, and leave the zeros it did not write in the run accumulator. -/
theorem acValue_cases {s : State} (hr : s.rom.wellFormed) (hs : (sourceStep s s.k).isSome)
    (hd : (destStep s s.k).isSome) (hz : s.accrle + s.acrle.toNat ≤ 62) (v : Int) :
    (∃ e u n z, acValue v s = .fatal e { u with accrle := z } ∧ Wrote n s u)
      ∨ ∃ u n z, acValue v s = .ok { u with accrle := z } ∧ Wrote n s u ∧ n ≤ 79
          ∧ (z = 0 ∨ z = s.accrle + s.acrle.toNat + 1) := by
  obtain ⟨src, hs⟩ := Option.isSome_iff_exists.mp hs
  obtain ⟨dst, hd⟩ := Option.isSome_iff_exists.mp hd
  unfold acValue
  rw [hs, hd]
  simp only
  split
  · have hz' : 16 * ((s.accrle + s.acrle.toNat) / 16) ≤ s.accrle + s.acrle.toNat := by omega
    obtain ⟨t, m, t1, t2, t3⟩ := emitZeroRuns_cases ((s.accrle + s.acrle.toNat) / 16)
      (s := { s with accrle := s.accrle + s.acrle.toNat }) hr hz'
    rw [t1, Res.ok_andThen]
    generalize ht' : ({ t with accrle := s.accrle + s.acrle.toNat - 16 * ((s.accrle + s.acrle.toNat) / 16) } : State) = t'
    have hw : Wrote m s { t with accrle := s.accrle } := by
      refine ⟨⟨?_, t2.flushed.total, t2.flushed.grows, t2.flushed.room, t2.flushed.wf, t2.flushed.below,
        t2.flushed.obits⟩, t2.settled⟩
      rw [t2.frame]
    have hr' : t'.rom.wellFormed := by rw [← ht', t2.frame]; exact hr
    rcases emit_cases hr' .ac t'.accrle (acRescale v src dst) with h | ⟨u, n, h1, h2, _, h4, _⟩
    · left
      refine ⟨.encodeRange, { t with accrle := s.accrle }, m, t'.accrle, ?_, hw⟩
      simp only [h, Res.fatal_andThen]
      rw [← ht']
    · right
      refine ⟨{ u with accrle := s.accrle }, m + n, 0, ?_, ?_, by omega, .inl rfl⟩
      · simp only [h1, Res.ok_andThen]
      · refine hw.trans ⟨⟨?_, ?_, ?_, ?_, ?_, ?_, ?_⟩, ?_⟩
        · rw [h2.frame, ← ht']
        · have := h2.flushed.total; rw [← ht'] at this; exact this
        · have := h2.flushed.grows; rw [← ht'] at this; exact this
        · have := h2.flushed.room; rw [← ht'] at this; exact this
        · have := h2.flushed.wf; rw [← ht'] at this; exact this
        · have := h2.flushed.below; rw [← ht'] at this; exact this
        · have := h2.flushed.obits; rw [← ht'] at this; exact this
        · have := h2.settled; rw [← ht'] at this; exact this
  · split
    · obtain ⟨t, n, h1, h2, _, h4⟩ := emit_fixed hr .ac 0 (.inl rfl)
      right
      exact ⟨t, n, 0, by rw [h1, Res.ok_andThen], h2, by omega, .inl rfl⟩
    · right
      exact ⟨s, 0, _, rfl, Wrote.refl s, by omega, .inr rfl⟩

end Sys2Proof.Machine
end

