-- ==== Sys2Proof/Laws/Invariant.lean ====
section
/-! SUPPORT. Carrying the parts of the invariant from one state to another: each part depends only on the registers its
premises here name. -/

namespace Sys2Proof.Machine

theorem FrameOk.congr {s t : State} (h : FrameOk s) (hi : sameImage s t) : FrameOk t := by
  obtain ⟨_, h2, h3, h4, h5, h6, h7, h8, _⟩ := hi
  exact ⟨by rw [h4]; exact h.ncomp, by rw [h4, h5]; exact h.mono, by rw [h6, h7]; exact h.yparts,
    by rw [h4, h6]; exact h.layout, by rw [h8]; exact h.nunits, by rw [h2]; exact h.width, by rw [h3]; exact h.height⟩

theorem tablesReady.congr {s t : State} {c : Nat} (h : tablesReady s c) (hq : t.tq = s.tq) (ht : sameTables s t) :
    tablesReady t c := by
  obtain ⟨h1, h2, h3, _, h5, h6, _⟩ := ht
  unfold tablesReady at h ⊢
  rw [hq, h1, h2, h3, h5, h6]
  exact h

theorem TablesOk.congr {s t : State} (h : TablesOk s) (hi : sameImage s t) (ht : sameTables s t)
    (he : t.pstate.entropy → s.scanOk) : TablesOk t := by
  have hq : t.tq = s.tq := hi.2.2.2.2.2.2.2.2
  refine ⟨?_, ?_, ?_, ?_, ?_, ?_⟩
  · intro hf; exact (h.frame (by rw [← hi.1]; exact hf)).congr hi
  · intro hs
    have hs' : s.scanOk := by rw [← ht.2.2.2.1]; exact hs
    refine ⟨by rw [hi.1]; exact (h.scan hs').1, fun c hc => ?_⟩
    exact ((h.scan hs').2 c (by rw [← hi.2.2.2.1]; exact hc)).congr hq ht
  · intro h'; rw [ht.2.2.2.1]; exact he h'
  · rw [ht.1]; exact h.sqt
  · rw [ht.2.1]; exact h.shtDc
  · rw [ht.2.2.1]; exact h.shtAc

/-- What the output part needs where the accumulators, the buffer and its metadata do not change. -/
theorem OutputOk.congr {s t : State} (h : OutputOk s) (hi : t.ilen = s.ilen) (hb : t.ibits = s.ibits)
    (ho : sameOutput s t) (hr : t.running = s.running) (hd : t.done = s.done)
    (hp : t.pstate = .finish ↔ s.pstate = .finish) : OutputOk t := by
  obtain ⟨h1, h2, h3, h4, h5, h6, h7, h8, h9⟩ := ho
  refine ⟨by rw [hi]; exact h.ilen, by rw [hi, hb]; exact h.ibits, by rw [h1, h2]; exact h.obits,
    by rw [h4]; exact h.outCount, ?_, by rw [h2]; exact h.olen, ?_, ?_, by rw [h6, h7]; exact h.pair,
    by rw [h8, h9]; exact h.nextPair, ?_, ?_, by rw [h5]; exact h.pktSeq⟩
  · rw [h2, h4, hr]; exact h.waiting
  · rw [h4, hr]; exact h.idle
  · rw [h4, h8]; exact h.deferred
  · rw [h2, hp]; exact h.aligned
  · rw [h2, hp, hd]; exact h.done

/-- The cursor part outside entropy mode: the cursor does not move. -/
theorem CursorOk.outside_congr {s t : State} (h : CursorOk s) (hc : sameCursor s t) (hs : t.scanOk = s.scanOk)
    (hi : t.haveFrame = s.haveFrame ∧ t.nunits = s.nunits) (h1 : s.pstate.entropy = false)
    (h2 : t.pstate.entropy = false) (h3 : s.pstate ≠ .finish) (h4 : t.pstate ≠ .finish) : CursorOk t := by
  obtain ⟨c1, c2, c3, c4, _, _, c7, c8, _, _⟩ := hc
  have h0 := h.outside h1
  refine ⟨fun _ => by rw [c2, c3, c4, c7, c8]; exact h0, fun he => ?_, by rw [c4]; exact h.k, fun he => ?_,
    fun he => ?_, ?_, ?_, fun hf => absurd hf h4⟩
  · rw [h2] at he; cases he
  · rw [h2] at he; cases he
  · rw [he] at h2; cases h2
  · rw [hs, c1]; exact h.cu.1
  · rw [hi.1, hi.2, c1]; exact fun hf _ => h.cu.2.1 hf h3

/-- The reason codes are 1 to 20 (60_exceptions.md R266). -/
theorem reason_code (e : Reason) : 1 ≤ e.code.toNat ∧ e.code.toNat ≤ 20 := by cases e <;> decide

/-- A fatal condition entered from a state with the static part leaves only the static part. -/
theorem Inv.fatal {s : State} (e : Reason) (h : StaticOk s) (hd : s.done = false) : Inv (enterFatal e s) where
  static :=
    { src := h.src, segbuf := h.segbuf, pktbuf := h.pktbuf, rom := h.rom, steps := h.steps
      ended := fun ⟨h1, _⟩ => by rw [enterFatal_done, hd] at h1; cases h1
      running := fun h1 => by cases h1
      reason := ⟨fun h1 => (by cases h1), fun _ => reason_code e⟩ }
  tables := fun h1 => by cases h1
  parser := fun h1 => by cases h1
  cursor := fun h1 => by cases h1
  output := fun h1 => by cases h1

/-- The static part where the byte spaces stay in form and the rest of what it names does not change. -/
theorem StaticOk.congr {s t : State} (h : StaticOk s) (h1 : Memory.wf t.src) (h2 : Memory.wf t.segbuf)
    (h3 : Memory.wf t.pktbuf) (h4 : t.rom = s.rom) (h5 : t.quality = s.quality) (h6 : t.dqtDst = s.dqtDst)
    (h7 : t.done = s.done) (h8 : t.failed = s.failed) (h9 : t.running = s.running) (h10 : t.reason = s.reason) :
    StaticOk t :=
  ⟨h1, h2, h3, by rw [h4]; exact h.rom, by rw [h4, h5, h6]; exact h.steps, by rw [h7, h8]; exact h.ended,
    by rw [h7, h8, h9]; exact h.running, by rw [h8, h10]; exact h.reason⟩

/-! The tables that the entropy decoder reads. -/

theorem any_some {α : Type} {o : Option α} {p : α → Bool} (h : o.any p = true) : ∃ x, o = some x ∧ p x = true := by
  cases o with
  | none => cases h
  | some x => exact ⟨x, rfl, h⟩

theorem triGet_isSome {α : Type} (t : Tri α) {c : Nat} (h : c ≤ 2) : ∃ x, triGet? t c = some x := by
  have : c = 0 ∨ c = 1 ∨ c = 2 := by omega
  rcases this with h | h | h <;> subst h <;> exact ⟨_, rfl⟩

theorem pairGet_cases {α : Type} {p : Pair α} {i : Nat} {x : α} (h : pairGet? p i = some x) : x = p.s0 ∨ x = p.s1 := by
  unfold pairGet? at h
  split at h
  · left; exact (Option.some.inj h).symm
  · right; exact (Option.some.inj h).symm
  · cases h

/-- In entropy mode the component is one of the frame's (10_state.md R59). -/
theorem comp_lt {s : State} (ht : TablesOk s) (hc : CursorOk s) (he : s.pstate.entropy) : s.comp < s.ncomp := by
  have hf := ht.frame (ht.scan (ht.entropy he)).1
  obtain ⟨h1, h2, h3⟩ := hc.inside he
  rcases hf.ncomp with hn | hn
  · have hm : s.mono = true := by rw [hf.mono, hn]; rfl
    have hy : s.yparts = 1 := by rw [hf.yparts, hf.layout hn]; rfl
    rw [h2, h3 hm, hy, hn]; decide
  · rw [h2, hn]; unfold compOf; split <;> omega

/-- In entropy mode the source table that decodes the next code is there and has its shape. -/
theorem sourceTable_ready {s : State} (ht : TablesOk s) (hc : CursorOk s) (he : s.pstate.entropy) :
    ∃ t, sourceTable s = some t ∧ t.shaped := by
  obtain ⟨h1, h2, h3⟩ := (ht.scan (ht.entropy he)).2 _ (comp_lt ht hc he)
  unfold sourceTable
  split
  · obtain ⟨x, hx, _⟩ := any_some h2
    obtain ⟨d, hd, hp⟩ := Option.bind_eq_some_iff.mp hx
    refine ⟨x.table, by rw [hd]; simp [hp], ?_⟩
    rcases pairGet_cases hp with h | h <;> rw [h]
    · exact ht.shtDc.1
    · exact ht.shtDc.2
  · obtain ⟨x, hx, _⟩ := any_some h3
    obtain ⟨d, hd, hp⟩ := Option.bind_eq_some_iff.mp hx
    refine ⟨x.table, by rw [hd]; simp [hp], ?_⟩
    rcases pairGet_cases hp with h | h <;> rw [h]
    · exact ht.shtAc.1
    · exact ht.shtAc.2

/-- In entropy mode the source step of every coefficient is there. -/
theorem sourceStep_ready {s : State} (ht : TablesOk s) (hc : CursorOk s) (he : s.pstate.entropy) {k : Nat} (hk : k ≤ 63) :
    (sourceStep s k).isSome := by
  obtain ⟨h1, _, _⟩ := (ht.scan (ht.entropy he)).2 _ (comp_lt ht hc he)
  obtain ⟨x, hx, _⟩ := any_some h1
  obtain ⟨d, hd, hp⟩ := Option.bind_eq_some_iff.mp hx
  unfold sourceStep
  have hl : x.steps.length = 64 := by
    rcases pairGet_cases hp with h | h <;> rw [h]
    · exact ht.sqt.1
    · exact ht.sqt.2
  simp only [hd, Option.bind_some, hp]
  rw [List.getElem?_eq_getElem (by omega)]; rfl

/-- The destination step of every coefficient is there. -/
theorem destStep_ready {s : State} (h : StaticOk s) {k : Nat} (hk : k ≤ 63) : (destStep s k).isSome := by
  have hr := h.rom
  simp only [Rom.wellFormed, Bool.and_eq_true, beq_iff_eq] at hr
  unfold destStep
  rw [h.steps]
  have hl : (usage (destinationSteps s.rom s.quality) s.comp).length = 64 := by
    unfold usage destinationSteps scaleTable
    split <;> simp [hr]
  rw [List.getElem?_eq_getElem (by omega)]; rfl

end Sys2Proof.Machine
end

