-- ==== Sys2Proof/Laws/Symbols.lean ====
section
/-! SUPPORT. The invariant after the entropy-coded symbols and the value field. -/

namespace Sys2Proof.Machine

/-- A state inside entropy mode right after a symbol or value field has written its bits, the block end still to run. -/
structure Written (t : State) : Prop where
  static : StaticOk t
  tables : TablesOk t
  run : t.running = true
  nf : t.failed = false
  huff : t.pstate = .huff
  skip : t.skipCnt = 0
  inside : t.part ≤ t.yparts + 1 ∧ t.comp = compOf t.yparts t.part ∧ (t.mono → t.part = 0)
  cu : t.cu < t.nunits
  k : t.k ≤ 64
  zeros : t.k ≤ 63 → t.accrle + 1 ≤ t.k
  settled : Settled t
  olen : t.olen ≤ 86
  pairs : Pairs t
  ilen : t.ilen ≤ 23
  ibits : t.ibits < 2 ^ t.ilen
  obits : t.obits < 2 ^ t.olen
  pktSeq : t.pktSeq ≤ 65536

theorem Written.scan {t : State} (h : Written t) : t.scanOk = true := h.tables.entropy (by rw [h.huff]; rfl)
theorem Written.frame {t : State} (h : Written t) : FrameOk t := h.tables.frame (h.tables.scan h.scan).1
theorem Written.notDone {t : State} (h : Written t) : t.done = false := (h.static.running h.run).1

/-- The output part of the invariant while a command is in progress. -/
theorem outputOk_of_running {t : State} (hrun : t.running = true) (hd : t.done = false) (hs : Settled t)
    (ho : t.olen ≤ 157) (hp : Pairs t)
    (h1 : t.ilen ≤ 23) (h2 : t.ibits < 2 ^ t.ilen) (h3 : t.obits < 2 ^ t.olen) (h4 : t.pktSeq ≤ 65536)
    (hf : t.pstate = .finish → t.olen % 8 = 0) : OutputOk t :=
  ⟨h1, h2, h3, hs.1, fun _ => hs.2, ho, fun h => (by rw [hrun] at h; cases h), hp.deferred, hp.pair, hp.nextPair, hf,
    fun h => (by rw [hd] at h; cases h), h4⟩

/-- The block end, where one is due, leads to a state that meets the invariant; it never fails. -/
theorem Written.finishStep {t : State} (h : Written t) : ∃ t', finishStep t = .ok t' ∧ Inv t' := by
  have hsc := h.scan
  have hfr := h.frame
  have hnd := h.notDone
  unfold Machine.finishStep
  split
  · rename_i hk
    have hm : t.mono → t.part = 0 ∧ t.yparts = 1 := by
      intro hm
      have hn : t.ncomp = 1 := by have := hfr.mono; rw [hm] at this; simpa using this.symm
      exact ⟨h.inside.2.2 hm, by rw [hfr.yparts, hfr.layout hn]; rfl⟩
    rcases blockEnd_cases h.static.rom h.inside.1 hm with ⟨he, hmono, hlt⟩ | ⟨u, n, c, hw, hn, he⟩
    · rw [he]
      refine ⟨_, rfl, ?_, fun _ => ?_, fun _ => ?_, fun _ => ?_, fun _ => ?_⟩
      · exact h.static.congr h.static.src h.static.segbuf h.static.pktbuf rfl rfl rfl rfl rfl rfl rfl
      · exact h.tables.congr ⟨rfl, rfl, rfl, rfl, rfl, rfl, rfl, rfl, rfl⟩ ⟨rfl, rfl, rfl, rfl, rfl, rfl, rfl⟩
            (fun _ => hsc)
      · refine ⟨?_, ?_, ?_, ?_, ?_⟩ <;> simp [h.huff, h.skip]
      · refine ⟨?_, ?_, ?_, ?_, ?_, ?_, ?_, ?_⟩
        · simp [h.huff, PState.entropy]
        · intro _; refine ⟨by simp only; omega, rfl, ?_⟩; simp [hmono]
        · simp
        · intro _; simp [h.huff]
        · simp [h.huff]
        · simp [hsc]
        · intro _ _; exact h.cu
        · simp [h.huff]
      · exact outputOk_of_running h.run hnd h.settled (by have := h.olen; simp only; omega) ⟨h.pairs.pair,
            h.pairs.nextPair, h.pairs.deferred⟩ h.ilen h.ibits h.obits h.pktSeq (by simp [h.huff])
    · rw [he]
      refine ⟨_, rfl, ?_⟩
      generalize hu' : ({ u with part := t.yparts + 2, comp := c, k := 0, acrle := 0, accrle := 0 } : State) = u'
      have hfu := hw.frame
      have hset : Settled u := hw.settled h.settled
      have hset' : Settled u' := by rw [← hu']; exact hset
      have hpu := h.pairs.wrote hw h.settled
      have hp' : Pairs u' := by rw [← hu']; exact ⟨hpu.pair, hpu.nextPair, hpu.deferred⟩
      have holen : u'.olen ≤ 150 := by
        rw [← hu']; have a := hw.flushed.total; have b := hw.flushed.grows; have := h.olen; simp only; omega
      obtain ⟨x, m, hx, hm7, hxe, hfin, hnf, hpx⟩ := unitEnd_cases u'
      have hcu : u'.cu = t.cu := by rw [← hu', hfu]
      have hnun : u'.nunits = t.nunits := by rw [← hu', hfu]
      have hnmax : t.nunits ≤ 65535 := hfr.nunits.2
      have hpt := hpx hp' hset' holen (by rw [hcu, hnun]; exact h.cu) (by rw [hnun]; exact hnmax)
      have hxf := hx.frame
      have hsx := hx.settled hset'
      have hobu : u'.obits < 2 ^ u'.olen := by rw [← hu']; exact hw.flushed.obits h.obits
      have hobx := hx.flushed.obits hobu
      have hxo : x.olen ≤ 157 := by have a := hx.flushed.total; have b := hx.flushed.grows; omega
      have hwf : Memory.wf x.pktbuf := hx.flushed.wf (by rw [← hu']; exact hw.flushed.wf h.static.pktbuf)
      generalize hy : unitEnd u' = y at *
      generalize y.pstate = ps at *
      generalize y.resetCu = rc at *
      generalize y.pktCuIdx = i1 at *
      generalize y.pktCuOff = i2 at *
      generalize y.nextCuIdx = i3 at *
      generalize y.nextCuOff = i4 at *
      have hps : ps = .finish ∧ t.cu + 1 = t.nunits ∧ x.olen % 8 = 0
          ∨ (ps = .huff ∨ ps = .marker) ∧ t.cu + 1 < t.nunits := by
        have := h.cu
        by_cases hl : t.cu + 1 = t.nunits
        · left; have := hfin (by rw [hcu, hnun]; exact hl); exact ⟨this.1, hl, this.2⟩
        · right; have hz := hnf (by rw [hcu, hnun]; exact hl)
          refine ⟨?_, by omega⟩
          have : u'.pstate = .huff := by rw [← hu', hfu]; exact h.huff
          rw [this] at hz; exact hz
      have key : y = { t with
          part := 0, comp := 0, cu := t.cu + 1, k := 0, acrle := 0, accrle := 0, pstate := ps, resetCu := rc
          pktCuIdx := i1, pktCuOff := i2, nextCuIdx := i3, nextCuOff := i4
          pktbuf := x.pktbuf, outCount := x.outCount, obits := x.obits, olen := x.olen } := by
        rw [hxe, hxf, ← hu', hfu]
      clear hxe
      subst key
      refine ⟨?_, fun _ => ?_, fun _ => ?_, fun _ => ?_, fun _ => ?_⟩
      · exact h.static.congr h.static.src h.static.segbuf hwf rfl rfl rfl rfl rfl rfl rfl
      · exact h.tables.congr ⟨rfl, rfl, rfl, rfl, rfl, rfl, rfl, rfl, rfl⟩ ⟨rfl, rfl, rfl, rfl, rfl, rfl, rfl⟩
            (fun _ => hsc)
      · refine ⟨?_, ?_, ?_, ?_, ?_⟩
        · simp only; rcases hps with ⟨hp, _⟩ | ⟨hp | hp, _⟩ <;> rw [hp] <;> simp
        · simp only; rcases hps with ⟨hp, _⟩ | ⟨hp | hp, _⟩ <;> rw [hp] <;> simp
        · simp [h.skip]
        · simp only; rcases hps with ⟨hp, _⟩ | ⟨hp | hp, _⟩ <;> rw [hp] <;> simp
        · simp [h.skip]
      · refine ⟨?_, ?_, ?_, ?_, ?_, ?_, ?_, ?_⟩
        · simp
        · intro _; refine ⟨Nat.zero_le _, ?_, fun _ => rfl⟩
          have : 1 ≤ t.yparts := by
            rw [hfr.yparts]; generalize t.mode = m; revert m; decide
          simp only [compOf]; rw [if_pos (by omega)]
        · simp
        · simp
        · simp only; rcases hps with ⟨hp, _⟩ | ⟨hp | hp, _⟩ <;> rw [hp] <;> simp
        · simp [hsc]
        · intro _ hne
          simp only at hne ⊢
          rcases hps with ⟨hp, _⟩ | ⟨_, hp⟩
          · exact absurd hp hne
          · exact hp
        · intro hp; simp only at hp ⊢
          refine ⟨hsc, ?_⟩
          rcases hps with ⟨_, h', _⟩ | ⟨h' | h', _⟩
          · exact h'
          · rw [hp] at h'; cases h'
          · rw [hp] at h'; cases h'
      · refine outputOk_of_running h.run hnd hsx hxo hpt h.ilen h.ibits hobx h.pktSeq ?_
        intro hp; simp only at hp ⊢
        rcases hps with ⟨_, _, h'⟩ | ⟨h' | h', _⟩
        · exact h'
        · rw [hp] at h'; cases h'
        · rw [hp] at h'; cases h'
  · rename_i hk
    refine ⟨t, rfl, h.static, fun _ => h.tables, fun _ => ?_, fun _ => ?_, fun _ => ?_⟩
    · refine ⟨?_, ?_, ?_, ?_, ?_⟩ <;> simp [h.huff, h.skip]
    · have hz := h.zeros (by omega)
      refine ⟨?_, fun _ => h.inside, by omega, ?_, ?_, ?_, ?_, ?_⟩
      · simp [h.huff, PState.entropy]
      · intro _; refine ⟨by omega, fun _ _ => hz, by simp [h.huff]⟩
      · simp [h.huff]
      · simp [hsc]
      · intro _ _; exact h.cu
      · simp [h.huff]
    · exact outputOk_of_running h.run hnd h.settled (by have := h.olen; omega) h.pairs
        h.ilen h.ibits h.obits h.pktSeq (by simp [h.huff])

/-- A state in which a symbol or value field may run: its bits consumed, the buffer with room. -/
structure SymReady (s : State) : Prop where
  static : StaticOk s
  tables : TablesOk s
  cursor : CursorOk s
  run : s.running = true
  nf : s.failed = false
  skip : s.skipCnt = 0
  settled : Settled s
  olen : s.olen ≤ 7
  pairs : Pairs s
  ilen : s.ilen ≤ 23
  ibits : s.ibits < 2 ^ s.ilen
  obits : s.obits < 2 ^ s.olen
  pktSeq : s.pktSeq ≤ 65536
  ent : s.pstate.entropy

theorem SymReady.scan {s : State} (h : SymReady s) : s.scanOk = true := h.tables.entropy h.ent
theorem SymReady.fr {s : State} (h : SymReady s) : s.haveFrame = true := (h.tables.scan h.scan).1
theorem SymReady.nd {s : State} (h : SymReady s) : s.done = false := (h.static.running h.run).1
theorem SymReady.ncu {s : State} (h : SymReady s) :
    s.cu < s.nunits := h.cursor.cu.2.1 h.fr (by intro hp; have := h.ent; rw [hp] at this; cases this)

/-- A fatal condition after some bits were written and the step's own registers changed. -/
theorem SymReady.fatal {s u : State} (h : SymReady s) {n} (hw : Wrote n s u) (e : Reason) (t : State)
    (ht : ∃ r z a p, t = { u with dcraw := r, accrle := z, acrle := a, needbits := p }) : Inv (enterFatal e t) := by
  obtain ⟨r, z, a, p, rfl⟩ := ht
  rw [hw.frame]
  refine Inv.fatal _ (h.static.congr h.static.src h.static.segbuf (hw.flushed.wf h.static.pktbuf)
    rfl rfl rfl rfl rfl rfl rfl) h.nd

/-- The state after a symbol or value field wrote its bits and moved `K`. -/
theorem SymReady.mid {s u : State} (h : SymReady s) {n : Nat} (hw : Wrote n s u) (hn : n ≤ 79) (k z : Nat)
    (r w : Tri (BitVec 32))
    (a p : BitVec 4) (hk : k ≤ 64) (hz : k ≤ 63 → z + 1 ≤ k) :
    Written { u with k := k, accrle := z, dcraw := r, dcemit := w, acrle := a, needbits := p, pstate := .huff } := by
  have hf := hw.flushed
  have hs := hw.settled h.settled
  have hp := h.pairs.wrote hw h.settled
  have ho := hf.obits h.obits
  have hwf := hf.wf h.static.pktbuf
  have hol : u.olen ≤ 86 := by have a := hf.total; have b := hf.grows; have := h.olen; omega
  have e := hf.frame
  generalize u.pktbuf = b1 at *
  generalize u.outCount = b2 at *
  generalize u.obits = b3 at *
  generalize u.olen = b4 at *
  subst e
  have hsc := h.scan
  exact
  { static := h.static.congr h.static.src h.static.segbuf hwf rfl rfl rfl rfl rfl rfl rfl
    tables := h.tables.congr ⟨rfl, rfl, rfl, rfl, rfl, rfl, rfl, rfl, rfl⟩ ⟨rfl, rfl, rfl, rfl, rfl, rfl, rfl⟩
        (fun _ => hsc)
    run := h.run, nf := h.nf, huff := rfl, skip := h.skip
    inside := h.cursor.inside h.ent
    cu := h.ncu
    k := hk, zeros := hz, settled := hs, olen := hol, pairs := ⟨hp.pair, hp.nextPair, hp.deferred⟩
    ilen := h.ilen, ibits := h.ibits, obits := ho, pktSeq := h.pktSeq }

/-- A symbol that awaits its value field keeps the invariant. -/
theorem SymReady.toInt {s : State} (h : SymReady s) (k : Nat) (a p : BitVec 4) (hk : k ≤ 63) (hp : 1 ≤ p.toNat)
    (hz : (k = 0 → s.accrle = 0) ∧ (1 ≤ k → s.accrle + a.toNat + 1 ≤ k)) :
    Inv { s with acrle := a, k := k, needbits := p, pstate := .int } := by
  have hsc := h.scan
  refine ⟨h.static.congr h.static.src h.static.segbuf h.static.pktbuf rfl rfl rfl rfl rfl rfl rfl, fun _ => ?_,
      fun _ => ?_, fun _ => ?_, fun _ => ?_⟩
  · exact h.tables.congr ⟨rfl, rfl, rfl, rfl, rfl, rfl, rfl, rfl, rfl⟩ ⟨rfl, rfl, rfl, rfl, rfl, rfl, rfl⟩
        (fun _ => hsc)
  · refine ⟨?_, ?_, ?_, ?_, ?_⟩ <;> simp [h.skip]
  · refine ⟨?_, fun _ => h.cursor.inside h.ent, hk, ?_, fun _ => hp, ?_, fun _ _ => h.ncu, ?_⟩
    · simp [PState.entropy]
    · intro _; exact ⟨hz.1, by simp, fun _ => hz.2⟩
    · simp [hsc]
    · simp
  · exact outputOk_of_running h.run h.nd h.settled (by have := h.olen; simp only; omega) ⟨h.pairs.pair,
        h.pairs.nextPair, h.pairs.deferred⟩ h.ilen h.ibits h.obits h.pktSeq (by simp)

/-- A next state, and one that meets the invariant. -/
def ToInv (o : Host.Outcome State Fault Refusal) : Prop := ∃ t, o = .next t ∧ Inv t

theorem finishStep_inv {t : State} (h : Written t) : ToInv (finishStep t).outcome := by
  obtain ⟨t', h1, h2⟩ := h.finishStep
  rw [h1]; exact ⟨t', rfl, h2⟩

theorem SymReady.comp {s : State} (h : SymReady s) : s.comp ≤ 2 := by
  have := comp_lt h.tables h.cursor h.ent
  have := (h.tables.frame h.fr).ncomp
  omega

theorem execDc_inv {s : State} (h : SymReady s) (hh : s.pstate = .huff) (hk : s.k = 0) (hi size : BitVec 4) :
    ToInv (execDc hi size s) := by
  unfold execDc
  have hz0 := (h.cursor.zeros h.ent).1 hk
  split
  · have hss := sourceStep_ready h.tables h.cursor h.ent (k := 0) (by omega)
    have hds := destStep_ready h.static (k := 0) (by omega)
    rcases dcUpdate_cases (s := { s with needbits := size }) h.static.rom h.comp hss hds 0 with ⟨e, r, he⟩ | ⟨u, n,
        r, w, he, hw, hn⟩
    · rw [he]
      exact ⟨_, rfl, h.fatal (Wrote.refl s) e _ ⟨r, s.accrle, s.acrle, size, rfl⟩⟩
    · rw [he]
      have h' : SymReady { s with needbits := size } :=
        { h with
          static := h.static.congr h.static.src h.static.segbuf h.static.pktbuf rfl rfl rfl rfl rfl rfl rfl
          tables := h.tables.congr ⟨rfl, rfl, rfl, rfl, rfl, rfl, rfl, rfl, rfl⟩ ⟨rfl, rfl, rfl, rfl, rfl, rfl, rfl⟩
              (fun _ => h.scan)
          cursor := ⟨h.cursor.outside, h.cursor.inside, h.cursor.k, h.cursor.zeros, by simp [hh], h.cursor.cu⟩
          pairs := ⟨h.pairs.pair, h.pairs.nextPair, h.pairs.deferred⟩ }
      have := h'.mid hw (by omega) 1 s.accrle r w s.acrle size (by omega) (by omega)
      simp only [Res.ok_andThen]
      have hu := hw.frame
      have e1 : ({ u with
            k := 1, accrle := s.accrle, dcraw := r, dcemit := w
            acrle := s.acrle, needbits := size, pstate := .huff } : State)
        = { u with dcraw := r, dcemit := w, k := 1 } := by rw [hu, ← hh]
      rw [e1] at this
      exact finishStep_inv this
  · rename_i hsz
    unfold Machine.finishStep
    simp only
    rw [if_neg (by omega)]
    have := h.toInt s.k s.acrle size (by omega) (by
      rcases Nat.eq_zero_or_pos size.toNat with h0 | h0
      · exact absurd (BitVec.eq_of_toNat_eq h0) hsz
      · exact h0) ⟨fun _ => hz0, by omega⟩
    exact ⟨_, rfl, this⟩

theorem execEob_inv {s : State} (h : SymReady s) (hh : s.pstate = .huff) : ToInv (execEob s) := by
  unfold execEob
  obtain ⟨u, n, he, hw, _, hn⟩ := emit_fixed (s := { s with acrle := 0 }) h.static.rom .ac 0 (.inl rfl)
  rw [he]
  simp only [Res.ok_andThen]
  have hw' : Wrote n s { u with acrle := s.acrle } := by
    have f := hw.flushed
    exact ⟨⟨by rw [f.frame], f.total, f.grows, f.room, f.wf, f.below, f.obits⟩, hw.settled⟩
  have := h.mid hw' (by omega) 64 s.accrle s.dcraw s.dcemit 0 s.needbits (by omega) (by omega)
  have e1 : ({ u with
        k := 64, accrle := s.accrle, dcraw := s.dcraw, dcemit := s.dcemit
        acrle := 0, needbits := s.needbits, pstate := .huff } : State)
        = { u with k := 64 } := by rw [hw.frame, ← hh]
  rw [e1] at this
  exact finishStep_inv this

theorem execZrl_inv {s : State} (h : SymReady s) (hh : s.pstate = .huff) (hk : 1 ≤ s.k) : ToInv (execZrl s) := by
  unfold execZrl
  have hz := (h.cursor.zeros h.ent).2.1 hh hk
  split
  · exact ⟨_, rfl, h.fatal (Wrote.refl s) _ _ ⟨s.dcraw, s.accrle, 0, s.needbits, rfl⟩⟩
  · obtain ⟨u, n, he, hw, _, hn⟩ := emit_fixed (s := { s with acrle := 0 }) h.static.rom .ac 15 (.inr ⟨rfl, rfl⟩)
    rw [he]
    simp only [Res.ok_andThen]
    have hw' : Wrote n s { u with acrle := s.acrle } := by
      have f := hw.flushed
      exact ⟨⟨by rw [f.frame], f.total, f.grows, f.room, f.wf, f.below, f.obits⟩, hw.settled⟩
    have := h.mid hw' (by omega) (s.k + 16) s.accrle s.dcraw s.dcemit 0 s.needbits (by omega) (by omega)
    have e1 : ({ u with
          k := s.k + 16, accrle := s.accrle, dcraw := s.dcraw, dcemit := s.dcemit
          acrle := 0, needbits := s.needbits, pstate := .huff } : State)
          = { u with k := u.k + 16 } := by rw [hw.frame, ← hh]
    rw [e1] at this
    exact finishStep_inv this

theorem execAcReserved_inv {s : State} (h : SymReady s) (run : BitVec 4) : ToInv (execAcReserved run s) :=
  ⟨_, rfl, h.fatal (Wrote.refl s) _ _ ⟨s.dcraw, s.accrle, 0, s.needbits, rfl⟩⟩

theorem execAc_inv {s : State} (h : SymReady s) (hh : s.pstate = .huff) (hk : 1 ≤ s.k) (run size : BitVec 4)
    (hs : size ≠ 0) : ToInv (execAc run size s) := by
  unfold execAc
  have hz := (h.cursor.zeros h.ent).2.1 hh hk
  split
  · exact ⟨_, rfl, h.fatal (Wrote.refl s) _ _ ⟨s.dcraw, s.accrle, run, s.needbits, rfl⟩⟩
  · unfold Machine.finishStep
    simp only
    rw [if_neg (by omega)]
    refine ⟨_, rfl, h.toInt (s.k + run.toNat) run size (by omega) ?_ ⟨by omega, by omega⟩⟩
    rcases Nat.eq_zero_or_pos size.toNat with h0 | h0
    · exact absurd (BitVec.eq_of_toNat_eq h0) hs
    · exact h0

theorem execV_inv {s : State} (h : SymReady s) (hh : s.pstate = .int) (n : BitVec 4) (f : BitVec 15) :
    ToInv (execV n f s) := by
  unfold execV
  have hk63 := h.cursor.k
  have hz := h.cursor.zeros h.ent
  split
  · rename_i hk
    have hss := sourceStep_ready h.tables h.cursor h.ent (k := 0) (by omega)
    have hds := destStep_ready h.static (k := 0) (by omega)
    rcases dcUpdate_cases h.static.rom h.comp hss hds (vdecode f.toNat n.toNat) with ⟨e, r, he⟩ | ⟨u, m, r, w, he,
        hw, hn⟩
    · rw [he]
      exact ⟨_, rfl, h.fatal (Wrote.refl s) e _ ⟨r, s.accrle, s.acrle, s.needbits, rfl⟩⟩
    · rw [he]
      have := h.mid hw (by omega) 1 s.accrle r w s.acrle s.needbits (by omega) (by have := hz.1 hk; omega)
      simp only [Res.ok_andThen]
      have hu := hw.frame
      have e1 : ({ u with
            k := 1, accrle := s.accrle, dcraw := r, dcemit := w
            acrle := s.acrle, needbits := s.needbits, pstate := .huff } : State)
        = { u with dcraw := r, dcemit := w, k := u.k + 1, pstate := .huff } := by rw [hu]; simp only [hk]
      rw [e1] at this
      exact finishStep_inv this
  · rename_i hk
    have hz' := hz.2.2 hh (by omega)
    have hss := sourceStep_ready h.tables h.cursor h.ent (k := s.k) (by omega)
    have hds := destStep_ready h.static (k := s.k) (by omega)
    rcases acValue_cases h.static.rom hss hds (by omega) (vdecode f.toNat n.toNat) with ⟨e, u, m, z, he, hw⟩ | ⟨u,
        m, z, he, hw, hn, hzz⟩
    · rw [he]
      exact ⟨_, rfl, h.fatal hw e _ ⟨u.dcraw, z, u.acrle, u.needbits, rfl⟩⟩
    · rw [he]
      have := h.mid hw (by omega) (s.k + 1) z s.dcraw s.dcemit s.acrle s.needbits (by omega) (by omega)
      simp only [Res.ok_andThen]
      have hu := hw.frame
      have e1 : ({ u with
            k := s.k + 1, accrle := z, dcraw := s.dcraw, dcemit := s.dcemit
            acrle := s.acrle, needbits := s.needbits, pstate := .huff } : State)
        = { u with accrle := z, k := u.k + 1, pstate := .huff } := by rw [hu]
      rw [e1] at this
      exact finishStep_inv this

end Sys2Proof.Machine
end

