-- ==== Sys2Proof/Laws/Parser.lean ====
section
/-! SUPPORT. The invariant after the markers and the segments. -/

namespace Sys2Proof.Machine

theorem compOf_zero {y : Nat} (h : 1 ≤ y) : compOf y 0 = 0 := by unfold compOf; rw [if_pos (by omega)]

/-- A state in which a marker or segment may run: the parser is in charge and nothing is pending. -/
structure ParReady (s : State) : Prop where
  static : StaticOk s
  tables : TablesOk s
  cursor : CursorOk s
  output : OutputOk s
  run : s.running = true
  nf : s.failed = false
  skip : s.skipCnt = 0
  stuff : s.stuffPending = false
  par : s.pstate = .marker ∨ s.pstate = .len ∨ s.pstate = .data

theorem ParReady.nd {s : State} (h : ParReady s) : s.done = false := (h.static.running h.run).1
theorem ParReady.ne {s : State} (h : ParReady s) : s.pstate.entropy = false ∧ s.pstate ≠ .finish := by
  rcases h.par with h | h | h <;> rw [h] <;> simp [PState.entropy]

/-- `PSTATE` ← `MARKER` keeps it. -/
theorem ParReady.marker {s : State} (h : ParReady s) : ParReady { s with pstate := .marker } where
  static := h.static.congr h.static.src h.static.segbuf h.static.pktbuf rfl rfl rfl rfl rfl rfl rfl
  tables := h.tables.congr ⟨rfl, rfl, rfl, rfl, rfl, rfl, rfl, rfl, rfl⟩ ⟨rfl, rfl, rfl, rfl, rfl, rfl, rfl⟩
      (fun h => by cases h)
  cursor := h.cursor.outside_congr ⟨rfl, rfl, rfl, rfl, rfl, rfl, rfl, rfl, rfl, rfl⟩ rfl ⟨rfl,
      rfl⟩ h.ne.1 rfl h.ne.2 (by simp)
  output := h.output.congr rfl rfl ⟨rfl, rfl, rfl, rfl, rfl, rfl, rfl, rfl, rfl⟩ rfl rfl ⟨fun h' => (by cases h'),
      fun h' => absurd h' h.ne.2⟩
  run := h.run
  nf := h.nf
  skip := h.skip
  stuff := h.stuff
  par := .inl rfl

theorem ParReady.inv {s : State} (h : ParReady s) (hm : s.pstate = .marker) : Inv s :=
  ⟨h.static, fun _ => h.tables, fun _ => ⟨by simp [hm], by simp [hm], by simp [h.skip], by simp [hm],
      by simp [h.skip]⟩, fun _ => h.cursor, fun _ => h.output⟩

theorem ParReady.fatal {s : State} (h : ParReady s) (e : Reason) : Inv (enterFatal e s) := Inv.fatal e h.static h.nd

/-- `Dispatch()` of a buffered segment: only its operation matters. -/
theorem dispatch_inv {s : State} (h : ParReady s) (len : Half) (op : State → Res)
    (hop : ∀ u, ParReady u → u.pstate = .marker → ToInv (op u).outcome) : ToInv (dispatch len s op).outcome := by
  unfold dispatch
  split
  · exact ⟨_, rfl, h.fatal _⟩
  · exact hop _ h.marker rfl

/-- An accepted frame header leaves legal image parameters, and is the first one (40_segment_parser.md R128 to R131). -/
theorem frameParams_ok {b : Bool} {d : List Byte} {f : FrameParams} (h : frameParams b d = .ok f) (s : State) :
    b = false ∧ FrameOk (setFrame f s) := by
  unfold frameParams at h
  simp only at h
  cases b
  swap
  · simp at h
  simp only [Bool.false_eq_true, if_false] at h
  refine ⟨rfl, ?_⟩
  split at h; · cases h
  split at h; · cases h
  split at h; · cases h
  rename_i hnc
  split at h; · cases h
  rename_i hdim
  split at h; · cases h
  split at h; · cases h
  rename_i mode hmode
  split at h; · cases h
  rename_i hmax
  cases h
  simp only [legalDim, Bool.not_eq_true, Bool.not_eq_false', Bool.and_eq_true, bne_iff_ne, beq_iff_eq,
      decide_eq_true_eq] at hdim
  simp only [Config.maxDim, Config.dimAlign] at hdim
  generalize hw : (payloadHalf d 3).toNat = w at *
  generalize hh : (payloadHalf d 1).toNat = hgt at *
  generalize hn : (payloadByte d 5).toNat = nc at *
  have hm4 : mode < 4 := by
    unfold frameSampling at hmode
    split at hmode; · cases hmode
    rename_i m hm
    unfold sampMode at hm
    have hlt : m < 4 := by
      rw [List.findIdx?_eq_some_iff_findIdx_eq] at hm
      have := hm.1; simpa [Config.sampByte] using this
    split at hmode
    · cases hmode; omega
    · split at hmode <;> cases hmode; exact hlt
  have hm1 : nc = 1 → mode = 3 := by
    intro h1
    unfold frameSampling at hmode
    split at hmode; · cases hmode
    rw [if_pos h1] at hmode; cases hmode; rfl
  have hmt : (BitVec.ofNat 2 mode).toNat = mode := by simp; omega
  refine ⟨?_, rfl, ?_, ?_, ⟨?_, ?_⟩, ?_, ?_⟩
  · simp only [setFrame]; omega
  · simp only [setFrame]; rw [hmt]
  · simp only [setFrame]; intro h1; rw [hm1 h1]; rfl
  · simp only [setFrame]
    have : Config.areaOf.getD mode 0 ≤ 256 ∧ 0 < Config.areaOf.getD mode 0 := by
      have : mode = 0 ∨ mode = 1 ∨ mode = 2 ∨ mode = 3 := by omega
      rcases this with h | h | h | h <;> subst h <;> decide
    rw [Nat.one_le_div_iff this.2]
    calc _ ≤ 16 * 16 := this.1
      _ ≤ w * hgt := Nat.mul_le_mul (by omega) (by omega)
  · simp only [setFrame]; omega
  · simp only [setFrame, BitVec.toNat_setWidth, hw]; omega
  · simp only [setFrame, BitVec.toNat_setWidth, hh]; omega

theorem frame_inv {s : State} (h : ParReady s) (hm : s.pstate = .marker) (d : List Byte) :
    ToInv (frame d s).outcome := by
  unfold frame
  split
  · exact ⟨_, rfl, h.fatal _⟩
  · rename_i f hf
    obtain ⟨h0, hfo⟩ := frameParams_ok hf s
    have hns : s.scanOk = false := by
      by_contra hc
      have := (h.tables.scan (by simpa using hc)).1
      rw [h0] at this; cases this
    have hcu := h.cursor.cu.1 hns
    refine ⟨_, rfl, h.static.congr h.static.src h.static.segbuf h.static.pktbuf rfl rfl rfl rfl rfl rfl rfl,
        fun _ => ?_, fun _ => ?_, fun _ => ?_, fun _ => ?_⟩
    · refine ⟨fun _ => hfo, ?_, ?_, h.tables.sqt, h.tables.shtDc, h.tables.shtAc⟩
      · intro hc; rw [setFrame_scanOk, hns] at hc; cases hc
      · rw [setFrame_pstate, hm]; intro h; cases h
    · refine ⟨?_, ?_, ?_, ?_, ?_⟩ <;> simp [hm, h.skip]
    · have h0 := h.cursor.outside h.ne.1
      refine ⟨fun _ => h0, ?_, h.cursor.k, ?_, ?_, fun _ => hcu, ?_, ?_⟩
      · rw [setFrame_pstate, hm]; intro h; cases h
      · rw [setFrame_pstate, hm]; intro h; cases h
      · rw [setFrame_pstate, hm]; intro h; cases h
      · intro _ _; rw [setFrame_cu, hcu]; exact hfo.nunits.1
      · rw [setFrame_pstate, hm]; intro h; cases h
    · exact h.output.congr rfl rfl ⟨rfl, rfl, rfl, rfl, rfl, rfl, rfl, rfl, rfl⟩ rfl rfl Iff.rfl

theorem setInterval_inv {s : State} (h : ParReady s) (hm : s.pstate = .marker) (d : List Byte) :
    ToInv (setInterval d s).outcome := by
  unfold setInterval
  split
  · exact ⟨_, rfl, h.fatal _⟩
  · refine ⟨_, rfl, h.static.congr h.static.src h.static.segbuf h.static.pktbuf rfl rfl rfl rfl rfl rfl rfl,
        fun _ => ?_, fun _ => ?_, fun _ => ?_, fun _ => ?_⟩
    · have t := h.tables
      refine ⟨fun hf => (t.frame hf).congr ⟨rfl, rfl, rfl, rfl, rfl, rfl, rfl, rfl, rfl⟩, fun hs => ?_, t.entropy,
          t.sqt, t.shtDc, t.shtAc⟩
      exact ⟨(t.scan hs).1, (t.scan hs).2⟩
    · refine ⟨?_, ?_, ?_, ?_, ?_⟩ <;> simp [hm, h.skip]
    · exact h.cursor.outside_congr ⟨rfl, rfl, rfl, rfl, rfl, rfl, rfl, rfl, rfl, rfl⟩ rfl ⟨rfl,
          rfl⟩ h.ne.1 h.ne.1 h.ne.2 h.ne.2
    · exact h.output.congr rfl rfl ⟨rfl, rfl, rfl, rfl, rfl, rfl, rfl, rfl, rfl⟩ rfl rfl Iff.rfl

/-- Making a slot valid leaves every valid slot valid. -/
theorem pairSet_any {α : Type} (p : Pair α) (i j : Nat) (x : α) (f : α → Bool) (hx : f x = true) :
    (pairGet? p j).any f = true → (pairGet? (pairSet p i x) j).any f = true := by
  intro h
  unfold pairSet
  split
  · rcases j with _ | _ | j <;> simp_all [pairGet?]
  · rcases j with _ | _ | j <;> simp_all [pairGet?]
  · exact h

theorem any_bind {α β : Type} (o : Option α) (f g : α → Option β) (p : β → Bool) (h : ∀ a,
    (f a).any p = true → (g a).any p = true) :
    (o.bind f).any p = true → (o.bind g).any p = true := by
  cases o with
  | none => simp
  | some a => exact h a

/-- What holds of both slots and of a new one holds after the replacement. -/
theorem pairSet_both {α : Type} {p : Pair α} {i : Nat} {x : α} {P : α → Prop} (h : P p.s0 ∧ P p.s1) (hx : P x) :
    P (pairSet p i x).s0 ∧ P (pairSet p i x).s1 := by
  unfold pairSet
  split
  · exact ⟨hx, h.2⟩
  · exact ⟨h.1, hx⟩
  · exact h

theorem ParReady.storeSteps {s : State} (h : ParReady s) (t : Nat) (l : List Byte) (hl : l.length = 64) :
    ParReady (storeSteps t l s) where
  static := h.static.congr h.static.src h.static.segbuf h.static.pktbuf rfl rfl rfl rfl rfl rfl rfl
  tables := by
    have T := h.tables
    refine ⟨fun hf => (T.frame hf).congr ⟨rfl, rfl, rfl, rfl, rfl, rfl, rfl, rfl, rfl⟩, fun hs => ⟨(T.scan hs).1,
        fun c hc => ?_⟩, T.entropy, ?_, T.shtDc, T.shtAc⟩
    · obtain ⟨a, b, c'⟩ := (T.scan hs).2 c hc
      exact ⟨any_bind _ _ _ _ (fun x => pairSet_any _ _ _ _ _ rfl) a, b, c'⟩
    · exact pairSet_both (P := fun x : StepSlot => x.steps.length = 64) T.sqt hl
  cursor := h.cursor.outside_congr ⟨rfl, rfl, rfl, rfl, rfl, rfl, rfl, rfl, rfl, rfl⟩ rfl ⟨rfl,
      rfl⟩ h.ne.1 h.ne.1 h.ne.2 h.ne.2
  output := h.output.congr rfl rfl ⟨rfl, rfl, rfl, rfl, rfl, rfl, rfl, rfl, rfl⟩ rfl rfl Iff.rfl
  run := h.run
  nf := h.nf
  skip := h.skip
  stuff := h.stuff
  par := h.par

theorem ParReady.storeHuff {s : State} (h : ParReady s) (c i : Nat) (t : HuffTable) (ht : t.shaped) :
    ParReady (storeHuff c i t s) := by
  unfold Machine.storeHuff
  split
  · exact
    { static := h.static.congr h.static.src h.static.segbuf h.static.pktbuf rfl rfl rfl rfl rfl rfl rfl
      tables := by
        have T := h.tables
        refine ⟨fun hf => (T.frame hf).congr ⟨rfl, rfl, rfl, rfl, rfl, rfl, rfl, rfl, rfl⟩,
            fun hs => ⟨(T.scan hs).1, fun c hc => ?_⟩, T.entropy, T.sqt, ?_, T.shtAc⟩
        · obtain ⟨a, b, c'⟩ := (T.scan hs).2 c hc
          exact ⟨a, any_bind _ _ _ _ (fun x => pairSet_any _ _ _ _ _ rfl) b, c'⟩
        · exact pairSet_both (P := fun x : HuffSlot => x.table.shaped = true) T.shtDc ht
      cursor := h.cursor.outside_congr ⟨rfl, rfl, rfl, rfl, rfl, rfl, rfl, rfl, rfl, rfl⟩ rfl ⟨rfl,
          rfl⟩ h.ne.1 h.ne.1 h.ne.2 h.ne.2
      output := h.output.congr rfl rfl ⟨rfl, rfl, rfl, rfl, rfl, rfl, rfl, rfl, rfl⟩ rfl rfl Iff.rfl
      run := h.run, nf := h.nf, skip := h.skip, stuff := h.stuff, par := h.par }
  · exact
    { static := h.static.congr h.static.src h.static.segbuf h.static.pktbuf rfl rfl rfl rfl rfl rfl rfl
      tables := by
        have T := h.tables
        refine ⟨fun hf => (T.frame hf).congr ⟨rfl, rfl, rfl, rfl, rfl, rfl, rfl, rfl, rfl⟩,
            fun hs => ⟨(T.scan hs).1, fun c hc => ?_⟩, T.entropy, T.sqt, T.shtDc, ?_⟩
        · obtain ⟨a, b, c'⟩ := (T.scan hs).2 c hc
          exact ⟨a, b, any_bind _ _ _ _ (fun x => pairSet_any _ _ _ _ _ rfl) c'⟩
        · exact pairSet_both (P := fun x : HuffSlot => x.table.shaped = true) T.shtAc ht
      cursor := h.cursor.outside_congr ⟨rfl, rfl, rfl, rfl, rfl, rfl, rfl, rfl, rfl, rfl⟩ rfl ⟨rfl,
          rfl⟩ h.ne.1 h.ne.1 h.ne.2 h.ne.2
      output := h.output.congr rfl rfl ⟨rfl, rfl, rfl, rfl, rfl, rfl, rfl, rfl, rfl⟩ rfl rfl Iff.rfl
      run := h.run, nf := h.nf, skip := h.skip, stuff := h.stuff, par := h.par }

theorem dqtDefs_inv (fuel : Nat) {s : State} (h : ParReady s) (hm : s.pstate = .marker) (d : List Byte) :
    ToInv (dqtDefs fuel d s).outcome := by
  induction fuel generalizing s d with
  | zero => exact ⟨_, rfl, h.inv hm⟩
  | succ n ih =>
    unfold dqtDefs
    split; · exact ⟨_, rfl, h.inv hm⟩
    split; · exact ⟨_, rfl, h.fatal _⟩
    split; · exact ⟨_, rfl, h.fatal _⟩
    rename_i h1 h2 h3
    refine ih (h.storeSteps _ _ ?_) (by simpa using hm) _
    simp only [Config.dqtDefLen] at h2
    simp; omega

theorem dhtDefs_inv (fuel : Nat) {s : State} (h : ParReady s) (hm : s.pstate = .marker) (d : List Byte) :
    ToInv (dhtDefs fuel d s).outcome := by
  induction fuel generalizing s d with
  | zero => exact ⟨_, rfl, h.inv hm⟩
  | succ n ih =>
    unfold dhtDefs
    simp only
    split; · exact ⟨_, rfl, h.inv hm⟩
    split; · exact ⟨_, rfl, h.fatal _⟩
    split; · exact ⟨_, rfl, h.fatal _⟩
    split; · exact ⟨_, rfl, h.fatal _⟩
    rename_i h1 h2 h3 h4
    refine ih (h.storeHuff _ _ _ ?_) (by unfold Machine.storeHuff; split <;> exact hm) _
    simp only [Config.dhtDefHdr, Config.hsymCap] at h2 h3
    simp only [HuffTable.shaped, Bool.and_eq_true, beq_iff_eq, decide_eq_true_eq, List.length_take, List.length_drop]
    simp only [Config.hsymCap, Config.dhtDefHdr]
    exact ⟨⟨⟨by omega, trivial⟩, by omega⟩, by omega⟩

theorem scan_inv {s : State} (h : ParReady s) (d : List Byte) : ToInv (scan d s).outcome := by
  unfold scan
  split
  · exact ⟨_, rfl, h.fatal _⟩
  · rename_i he
    unfold scanError at he
    simp only at he
    split at he; · cases he
    rename_i hf
    simp only [Bool.not_eq_true, Bool.not_eq_false'] at hf
    split at he; · cases he
    rename_i hns
    split at he; · cases he
    split at he; · cases he
    rename_i hcomp
    split at he; · cases he
    split at he
    · cases he
    rename_i hlen htab
    simp only [Bool.not_eq_true, Bool.not_eq_false'] at htab
    have hfo := h.tables.frame hf
    have hcu := h.cursor.cu.1 (by simpa using hns)
    have h0 := h.cursor.outside h.ne.1
    have hnn : (payloadByte d 0).toNat = s.ncomp := by omega
    refine ⟨_, rfl, h.static.congr h.static.src h.static.segbuf h.static.pktbuf rfl rfl rfl rfl rfl rfl rfl,
        fun _ => ?_, fun _ => ?_, fun _ => ?_, fun _ => ?_⟩
    · refine ⟨fun _ => hfo.congr ⟨rfl, rfl, rfl, rfl, rfl, rfl, rfl, rfl, rfl⟩, fun _ => ⟨hf, fun c hc => ?_⟩,
          fun _ => rfl, h.tables.sqt, h.tables.shtDc, h.tables.shtAc⟩
      unfold scanAllTablesOk scanTablesOk at htab
      simp only [Bool.and_eq_true, Bool.or_eq_true, beq_iff_eq] at htab
      have hc' : c < s.ncomp := hc
      unfold tablesReady
      simp only [setScan, streamStart, firstComps, hnn]
      rcases hfo.ncomp with hn | hn
      · have : c = 0 := by omega
        subst this
        rw [if_pos hn, if_pos hn]
        exact ⟨htab.1.1.1, htab.1.1.2, htab.1.2⟩
      · rw [if_neg (by omega), if_neg (by omega)]
        have hr := htab.2.resolve_left (by omega)
        have : c = 0 ∨ c = 1 ∨ c = 2 := by omega
        rcases this with rfl | rfl | rfl
        · exact ⟨htab.1.1.1, htab.1.1.2, htab.1.2⟩
        · exact ⟨hr.1.1.1, hr.1.1.2, hr.1.2⟩
        · exact ⟨hr.2.1.1, hr.2.1.2, hr.2.2⟩
    · refine ⟨?_, ?_, ?_, ?_, ?_⟩ <;> simp [setScan, h.skip]
    · refine ⟨by simp [setScan, PState.entropy], fun _ => ⟨Nat.zero_le _, ?_, fun _ => rfl⟩, Nat.zero_le _,
          fun _ => ⟨fun _ => rfl, by simp [setScan],
          by simp [setScan]⟩, by simp [setScan], by simp [setScan], fun _ _ => hfo.nunits.1, by simp [setScan]⟩
      have : 1 ≤ s.yparts := by
        rw [hfo.yparts]; generalize s.mode = m; revert m; decide
      exact (compOf_zero this).symm
    · have o := h.output
      exact ⟨Nat.zero_le _, by simp [setScan], o.obits, o.outCount, o.waiting, o.olen, o.idle, o.deferred, o.pair,
          o.nextPair, by simp [setScan], fun hd => absurd (show s.done = true from hd) (by simp [h.nd]), o.pktSeq⟩

theorem execRst_inv {s : State} (h : ParReady s) (n : BitVec 3) : ToInv (execRst n s) := by
  unfold execRst
  split
  · rename_i hs
    obtain ⟨hf, _⟩ := h.tables.scan hs
    have hfo := h.tables.frame hf
    refine ⟨_, rfl, h.static.congr h.static.src h.static.segbuf h.static.pktbuf rfl rfl rfl rfl rfl rfl rfl,
        fun _ => ?_, fun _ => ?_, fun _ => ?_, fun _ => ?_⟩
    · exact h.tables.congr ⟨rfl, rfl, rfl, rfl, rfl, rfl, rfl, rfl, rfl⟩ ⟨rfl, rfl, rfl, rfl, rfl, rfl, rfl⟩
          (fun _ => hs)
    · refine ⟨?_, ?_, ?_, ?_, ?_⟩ <;> simp [h.skip]
    · refine ⟨by simp [PState.entropy], fun _ => ⟨Nat.zero_le _, ?_, fun _ => rfl⟩, Nat.zero_le _,
          fun _ => ⟨fun _ => rfl, by simp,
          by simp⟩, by simp, by simp [hs], fun _ _ => h.cursor.cu.2.1 hf h.ne.2, by simp⟩
      have : 1 ≤ s.yparts := by
        rw [hfo.yparts]; generalize s.mode = m; revert m; decide
      exact (compOf_zero this).symm
    · have o := h.output
      exact ⟨Nat.zero_le _, by simp, o.obits, o.outCount, o.waiting, o.olen, o.idle, o.deferred, o.pair, o.nextPair,
          by simp, fun hd => absurd (show s.done = true from hd) (by simp [h.nd]), o.pktSeq⟩
  · exact ⟨_, rfl, h.fatal _⟩

theorem skipSegment_inv {s : State} (h : ParReady s) (len : Half) : ToInv (skipSegment len s).outcome := by
  unfold skipSegment
  split
  · exact ⟨_, rfl, h.fatal _⟩
  · refine ⟨_, rfl, h.static.congr h.static.src h.static.segbuf h.static.pktbuf rfl rfl rfl rfl rfl rfl rfl,
        fun _ => ?_, fun _ => ?_, fun _ => ?_, fun _ => ?_⟩
    · exact h.tables.congr ⟨rfl, rfl, rfl, rfl, rfl, rfl, rfl, rfl, rfl⟩ ⟨rfl, rfl, rfl, rfl, rfl, rfl, rfl⟩
          (fun h => by cases h)
    · refine ⟨?_, ?_, ?_, ?_, ?_⟩ <;> simp [h.stuff, Config.segbufCap]; omega
    · exact h.cursor.outside_congr ⟨rfl, rfl, rfl, rfl, rfl, rfl, rfl, rfl, rfl, rfl⟩ rfl ⟨rfl,
          rfl⟩ h.ne.1 rfl h.ne.2 (by simp)
    · exact h.output.congr rfl rfl ⟨rfl, rfl, rfl, rfl, rfl, rfl, rfl, rfl, rfl⟩ rfl rfl ⟨fun h' => (by cases h'),
          fun h' => absurd h' h.ne.2⟩


/-- The instructions with a length field, and the standalone ones that do not need the parser in state `MARKER`. -/
def isSegment : Instr → Bool
  | .tem => false
  | .soi => false
  | .rst _ => true
  | .eoi => true
  | .sof0 _ _ => true
  | .sof2 => true
  | .dht _ _ => true
  | .sos _ _ => true
  | .dqt _ _ => true
  | .dri _ _ => true
  | .skipC1 _ => true
  | .skipC3 _ => true
  | .skipC5 _ => true
  | .skipC6 _ _ => true
  | .skipC8 _ _ => true
  | .skipDC _ => true
  | .skipDE _ _ => true
  | .skipE0 _ _ => true
  | .skipF0 _ _ => true
  | .skipF8 _ _ => true
  | .skipFC _ _ => true
  | .skipFE _ => true
  | .nonmarker _ => false
  | .dc _ _ => false
  | .eob => false
  | .zrl => false
  | .acReserved _ => false
  | .ac _ _ => false
  | .v _ _ => false
  | .stuff _ => false
  | .construct _ _ _ _ => false
  | .nextPacket => false

/-- Every segment keeps the invariant. -/
theorem exec_segment_inv {s : State} (h : ParReady s) : (i : Instr) → isSegment i = true → ToInv (exec i s)
  | .rst n, _ => execRst_inv h n
  | .eoi, _ => ⟨_, rfl, h.fatal _⟩
  | .sof0 _ d, _ => dispatch_inv h _ _ (fun _ hu hm => frame_inv hu hm d)
  | .sof2, _ => ⟨_, rfl, h.fatal _⟩
  | .dht _ d, _ => dispatch_inv h _ _ (fun _ hu hm => dhtDefs_inv _ hu hm d)
  | .sos _ d, _ => dispatch_inv h _ _ (fun _ hu _ => scan_inv hu d)
  | .dqt _ d, _ => dispatch_inv h _ _ (fun _ hu hm => dqtDefs_inv _ hu hm d)
  | .dri _ d, _ => dispatch_inv h _ _ (fun _ hu hm => setInterval_inv hu hm d)
  | .skipC1 l, _ => skipSegment_inv h l
  | .skipC3 l, _ => skipSegment_inv h l
  | .skipC5 l, _ => skipSegment_inv h l
  | .skipC6 _ l, _ => skipSegment_inv h l
  | .skipC8 _ l, _ => skipSegment_inv h l
  | .skipDC l, _ => skipSegment_inv h l
  | .skipDE _ l, _ => skipSegment_inv h l
  | .skipE0 _ l, _ => skipSegment_inv h l
  | .skipF0 _ l, _ => skipSegment_inv h l
  | .skipF8 _ l, _ => skipSegment_inv h l
  | .skipFC _ l, _ => skipSegment_inv h l
  | .skipFE l, _ => skipSegment_inv h l

/-- A marker with a length field decodes to a segment. -/
theorem markerInstr_seg {w : Half} (len : Half) (d : List Byte) (hw : hasLengthField w) :
    isSegment (markerInstr w len d) = true := by
  by_cases h1 : (w == 0xFF01) = true
  · rw [beq_iff_eq] at h1; subst h1; exact absurd hw (by decide)
  by_cases h2 : (w == 0xFFD8) = true
  · rw [beq_iff_eq] at h2; subst h2; exact absurd hw (by decide)
  unfold markerInstr
  rw [if_neg h1, if_neg h2]
  simp only [hasLengthField, isBufferedCode, isSkipCode, Bool.or_eq_true] at hw
  simp only [apply_ite isSegment]
  simp only [isSegment]
  rcases hw with ((((h|h)|h)|h)|h)|(((((((((((h|h)|h)|h)|h)|h)|h)|h)|h)|h)|h)|h) <;> simp only [h, if_true, ite_self]

theorem markerInstr_segment_inv {s : State} (h : ParReady s) (w len : Half) (d : List Byte)
    (hw : hasLengthField w) : ToInv (exec (markerInstr w len d) s) :=
  exec_segment_inv h _ (markerInstr_seg len d hw)

/-- A window without a length field decodes to a standalone marker or to no marker. -/
theorem markerInstr_plain {w : Half} (hw : hasLengthField w = false) (len : Half) (d : List Byte) :
    markerInstr w len d = if w == 0xFF01 then .tem else if w == 0xFFD8 then .soi
      else if w &&& 0xFFF8 == 0xFFD0 then .rst (w.extractLsb' 0 3) else if w == 0xFFD9 then .eoi
      else if w == 0xFFC2 then .sof2 else .nonmarker w := by
  simp only [hasLengthField, isBufferedCode, isSkipCode, Bool.or_eq_false_iff] at hw
  unfold markerInstr
  simp only [hw, Bool.false_eq_true, if_false]

/-- The instructions of a window without a length field. -/
def isStandalone : Instr → Bool
  | .tem => true
  | .soi => true
  | .rst _ => true
  | .eoi => true
  | .sof0 _ _ => false
  | .sof2 => true
  | .dht _ _ => false
  | .sos _ _ => false
  | .dqt _ _ => false
  | .dri _ _ => false
  | .skipC1 _ => false
  | .skipC3 _ => false
  | .skipC5 _ => false
  | .skipC6 _ _ => false
  | .skipC8 _ _ => false
  | .skipDC _ => false
  | .skipDE _ _ => false
  | .skipE0 _ _ => false
  | .skipF0 _ _ => false
  | .skipF8 _ _ => false
  | .skipFC _ _ => false
  | .skipFE _ => false
  | .nonmarker _ => true
  | .dc _ _ => false
  | .eob => false
  | .zrl => false
  | .acReserved _ => false
  | .ac _ _ => false
  | .v _ _ => false
  | .stuff _ => false
  | .construct _ _ _ _ => false
  | .nextPacket => false

theorem exec_standalone_inv {s : State} (h : ParReady s) (hm : s.pstate = .marker) :
    (i : Instr) → isStandalone i = true → ToInv (exec i s)
  | .tem, _ => ⟨_, rfl, h.inv hm⟩
  | .soi, _ => ⟨_, rfl, h.inv hm⟩
  | .nonmarker _, _ => ⟨_, rfl, h.inv hm⟩
  | .rst n, _ => execRst_inv h n
  | .eoi, _ => ⟨_, rfl, h.fatal _⟩
  | .sof2, _ => ⟨_, rfl, h.fatal _⟩

/-- Every window without a length field keeps the invariant. -/
theorem markerInstr_standalone_inv {s : State} (h : ParReady s) (hm : s.pstate = .marker) (w : Half)
    (hw : hasLengthField w = false) : ToInv (exec (markerInstr w 0 []) s) := by
  refine exec_standalone_inv h hm _ ?_
  rw [markerInstr_plain hw]
  simp only [apply_ite isStandalone]
  simp only [isStandalone, ite_self]

end Sys2Proof.Machine
end

