-- ==== Sys2Proof/Laws/Fetch.lean ====
section
/-! SUPPORT. The invariant after the fetch of each parser and decoder state, and after `NEXT_PACKET`. -/

namespace Sys2Proof.Machine

/-- A command in progress that has a step to run. -/
structure Live (s : State) : Prop where
  inv : Inv s
  run : s.running = true
  room : s.outCount ≠ Config.payload
  nfin : s.pstate ≠ .finish

theorem Live.nf {s : State} (h : Live s) : s.failed = false := (h.inv.static.running h.run).2
theorem Live.nd {s : State} (h : Live s) : s.done = false := (h.inv.static.running h.run).1

theorem execStuff_inv {s : State} (h : Live s) (b : Byte) :
    ToInv (execStuff b { s with srcPos := s.srcPos + 1 }) := by
  have S := h.inv.static; have nf := h.nf
  unfold execStuff
  split
  · refine ⟨_, rfl, S.congr S.src S.segbuf S.pktbuf rfl rfl rfl rfl rfl rfl rfl, fun _ => ?_, fun _ => ?_,
        fun _ => ?_, fun _ => ?_⟩
    · exact (h.inv.tables nf).congr ⟨rfl, rfl, rfl, rfl, rfl, rfl, rfl, rfl, rfl⟩ ⟨rfl, rfl, rfl, rfl, rfl, rfl,
          rfl⟩ (h.inv.tables nf).entropy
    · have p := h.inv.parser nf
      exact ⟨p.len, p.data, fun hk => ⟨(p.skip hk).1, rfl⟩, by simp, p.skipMax⟩
    · have c := h.inv.cursor nf
      exact ⟨c.outside, c.inside, c.k, c.zeros, c.needbits, c.cu⟩
    · exact (h.inv.output nf).congr rfl rfl ⟨rfl, rfl, rfl, rfl, rfl, rfl, rfl, rfl, rfl⟩ rfl rfl Iff.rfl
  · exact ⟨_, rfl, Inv.fatal _ (S.congr S.src S.segbuf S.pktbuf rfl rfl rfl rfl rfl rfl rfl) h.nd⟩

/-- `Pull()`: what takes the byte runs with nothing pending (20_memory.md R63). -/
theorem pull_inv {s : State} (h : Live s) (use : Byte → State → Fetched)
    (hu : s.stuffPending = false → s.skipCnt = 0 → ∀ b, ToInv (use b { s with srcPos := s.srcPos + 1 }).run) :
        ToInv (pull s use).run := by
  have S := h.inv.static; have nf := h.nf
  unfold pull
  simp only
  split
  · exact ⟨_, rfl, Inv.fatal _ S h.nd⟩
  · split
    · exact execStuff_inv h _
    · rename_i hst
      split
      · rename_i hk
        refine ⟨_, rfl, S.congr S.src S.segbuf S.pktbuf rfl rfl rfl rfl rfl rfl rfl, fun _ => ?_, fun _ => ?_,
            fun _ => ?_, fun _ => ?_⟩
        · exact (h.inv.tables nf).congr ⟨rfl, rfl, rfl, rfl, rfl, rfl, rfl, rfl, rfl⟩ ⟨rfl, rfl, rfl, rfl, rfl, rfl,
              rfl⟩ (h.inv.tables nf).entropy
        · have p := h.inv.parser nf
          have := p.skipMax
          exact ⟨p.len, p.data, fun _ => p.skip hk, p.stuff, by simp only; omega⟩
        · have c := h.inv.cursor nf
          exact ⟨c.outside, c.inside, c.k, c.zeros, c.needbits, c.cu⟩
        · exact (h.inv.output nf).congr rfl rfl ⟨rfl, rfl, rfl, rfl, rfl, rfl, rfl, rfl, rfl⟩ rfl rfl Iff.rfl
      · exact hu (by simpa using hst) (by omega) _

/-- Where a byte is needed the fetch is a `Pull()`; in entropy mode the byte it returns is merged into the window. -/
theorem fetch_needsByte {s : State} (h : NeedsByte s) :
    ∃ use, fetch s = pull s use ∧ (s.pstate.entropy → use = fun b s => .more (merge b s)) := by
  rcases h with ⟨he, hf⟩ | ⟨hp, t, ht, hl⟩ | ⟨hp, hl⟩
  · unfold fetch
    cases hp : s.pstate <;> simp [hp, PState.entropy] at he hf ⊢
  · exact ⟨_, by simp only [fetch, hp, fetchSymbol, ht, hl, needInput], fun _ => rfl⟩
  · exact ⟨_, by simp only [fetch, hp, fetchField, if_pos hl, needInput], fun _ => rfl⟩

/-- The parser's registers may take any values while it assembles a marker or segment. -/
theorem Live.par {s : State} (h : Live s) (he : s.pstate.entropy = false) (hskip : s.skipCnt = 0)
    (hst : s.stuffPending = false)
    (p : Nat) (m l : Half) (c : Nat) (g : Memory) (n : Nat) (x : PState)
    (hx : x = .marker ∨ x = .len ∨ x = .data) (hseg : Memory.wf g) :
    ParReady { s with srcPos := p, mkReg := m, segLen := l, lenCnt := c, segbuf := g, segCnt := n, pstate := x } := by
  have S := h.inv.static; have nf := h.nf
  have hx' : x.entropy = false ∧ x ≠ .finish := by
    rcases hx with h | h | h <;> rw [h] <;> simp [PState.entropy]
  exact
  { static := S.congr S.src hseg S.pktbuf rfl rfl rfl rfl rfl rfl rfl
    tables := (h.inv.tables nf).congr ⟨rfl, rfl, rfl, rfl, rfl, rfl, rfl, rfl, rfl⟩ ⟨rfl, rfl, rfl, rfl, rfl, rfl,
        rfl⟩ (fun h => by simp only [hx'.1] at h; cases h)
    cursor := (h.inv.cursor nf).outside_congr ⟨rfl, rfl, rfl, rfl, rfl, rfl, rfl, rfl, rfl, rfl⟩ rfl ⟨rfl,
        rfl⟩ he hx'.1 h.nfin hx'.2
    output := (h.inv.output nf).congr rfl rfl ⟨rfl, rfl, rfl, rfl, rfl, rfl, rfl, rfl,
        rfl⟩ rfl rfl ⟨fun h => absurd h hx'.2, fun h' => absurd h' h.nfin⟩
    run := h.run, nf := nf, skip := hskip, stuff := hst, par := hx }

/-- A byte taken with no instruction complete keeps the invariant. -/
theorem ParReady.more {s : State} (h : ParReady s)
    (hl : s.pstate = .len → (s.lenCnt = 1 ∨ s.lenCnt = 2) ∧ hasLengthField s.mkReg)
    (hd : s.pstate = .data → isBufferedCode s.mkReg ∧ s.segCnt < s.segLen.toNat ∧ s.segLen.toNat ≤ Config.segbufCap) :
    Inv s :=
  ⟨h.static, fun _ => h.tables, fun _ => ⟨hl, hd, by simp [h.skip], by simp [h.stuff], by simp [h.skip]⟩,
      fun _ => h.cursor, fun _ => h.output⟩

theorem markerByte_inv {s : State} (h : Live s) (hm : s.pstate = .marker) : ToInv (pull s markerByte).run := by
  refine pull_inv h _ (fun hst hsk b => ?_)
  have hseg := h.inv.static.segbuf
  have he : s.pstate.entropy = false := by rw [hm]; rfl
  unfold markerByte
  simp only
  split
  · rename_i hw
    refine ⟨_, rfl, (h.par he hsk hst _ _ _ _ _ _ _ (.inr (.inl rfl)) hseg).more (fun _ => ⟨.inr rfl,
        hw⟩) (fun h => by cases h)⟩
  · rename_i hw
    have R := h.par he hsk hst (s.srcPos + 1)
        (s.mkReg.extractLsb' 0 8 ++ b) s.segLen s.lenCnt s.segbuf s.segCnt s.pstate (.inl hm) hseg
    exact markerInstr_standalone_inv R hm _ (by simpa using hw)

theorem lengthByte_inv {s : State} (h : Live s) (hm : s.pstate = .len) : ToInv (pull s lengthByte).run := by
  refine pull_inv h _ (fun hst hsk b => ?_)
  have hseg := h.inv.static.segbuf
  have he : s.pstate.entropy = false := by rw [hm]; rfl
  have hp := (h.inv.parser h.nf).len hm
  unfold lengthByte
  simp only
  split
  · unfold lengthDone
    simp only
    split
    · rename_i hb
      split
      · have R := h.par he hsk hst (s.srcPos + 1) s.mkReg 0 (s.lenCnt - 1) s.segbuf 0 s.pstate (.inr (.inl hm)) hseg
        exact markerInstr_segment_inv R _ _ _ hp.2
      · rename_i h2
        refine ⟨_, rfl, (h.par he hsk hst _ _ _ _ _ _ _ (.inr (.inr rfl)) hseg).more
          (fun h => by cases h) (fun _ => ⟨hb.1, ?_, ?_⟩)⟩
        · generalize s.segLen.extractLsb' 0 8 ++ b = len at *
          have : len.toNat ≠ 2 := fun h => h2 (BitVec.eq_of_toNat_eq (by simpa using h))
          have h3 := hb.2
          simp only
          rw [BitVec.toNat_sub_of_le (by simpa [BitVec.le_def] using h3)]
          simp; omega
        · simp only [Config.segbufCap]
          generalize s.segLen.extractLsb' 0 8 ++ b = len at *
          have h3 := hb.2
          rw [BitVec.toNat_sub_of_le (by simpa [BitVec.le_def] using h3)]
          simp; omega
    · have R := h.par he hsk hst (s.srcPos + 1) s.mkReg (s.segLen.extractLsb' 0 8 ++ b)
          (s.lenCnt - 1) s.segbuf s.segCnt s.pstate (.inr (.inl hm)) hseg
      exact markerInstr_segment_inv R _ _ _ hp.2
  · rename_i hc
    have R := h.par he hsk hst (s.srcPos + 1) s.mkReg (s.segLen.extractLsb' 0 8 ++ b) (s.lenCnt - 1) s.segbuf s.segCnt
      s.pstate (.inr (.inl hm)) hseg
    refine ⟨_, rfl, R.more (fun _ => ⟨?_, hp.2⟩) (by simp [hm])⟩
    simp only; omega

theorem payloadStep_inv {s : State} (h : Live s) (hm : s.pstate = .data) : ToInv (pull s payloadStep).run := by
  refine pull_inv h _ (fun hst hsk b => ?_)
  have he : s.pstate.entropy = false := by rw [hm]; rfl
  have hp := (h.inv.parser h.nf).data hm
  have hseg : Memory.wf (memWrite s.segbuf s.segCnt b) := memWrite_wf _ _ h.inv.static.segbuf
  unfold payloadStep
  simp only
  rw [if_neg (by omega)]
  split
  · have R := h.par he hsk hst (s.srcPos + 1) s.mkReg s.segLen s.lenCnt _ (s.segCnt + 1) s.pstate (.inr (.inr hm)) hseg
    exact markerInstr_segment_inv R _ _ _ (by unfold hasLengthField; simp [hp.1])
  · rename_i hc
    have R := h.par he hsk hst (s.srcPos + 1) s.mkReg s.segLen s.lenCnt _ (s.segCnt + 1) s.pstate (.inr (.inr hm)) hseg
    refine ⟨_, rfl, R.more (by simp [hm]) (fun _ => ⟨hp.1, ?_, hp.2.2⟩)⟩
    simp only; omega

/-- `Merge(Pull())` keeps the invariant: the window never exceeds 23 bits. -/
theorem needInput_inv {s : State} (h : Live s) (he : s.pstate.entropy) (hi : s.ilen ≤ 15) :
    ToInv (needInput s).run := by
  refine pull_inv h _ (fun hst hsk b => ?_)
  have S := h.inv.static; have nf := h.nf
  refine ⟨_, rfl, S.congr S.src S.segbuf S.pktbuf rfl rfl rfl rfl rfl rfl rfl, fun _ => ?_, fun _ => ?_,
      fun _ => ?_, fun _ => ?_⟩
  · exact (h.inv.tables nf).congr ⟨rfl, rfl, rfl, rfl, rfl, rfl, rfl, rfl, rfl⟩ ⟨rfl, rfl, rfl, rfl, rfl, rfl, rfl⟩
        (h.inv.tables nf).entropy
  · have p := h.inv.parser nf
    refine ⟨p.len, p.data, fun hk => ?_, fun _ => ?_, p.skipMax⟩
    · simp only [merge_skipCnt, hsk] at hk; omega
    · simp only [merge_pstate]
      constructor <;> intro hp <;> rw [hp] at he <;> cases he
  · have c := h.inv.cursor nf
    exact ⟨c.outside, c.inside, c.k, c.zeros, c.needbits, c.cu⟩
  · have o := h.inv.output nf
    refine ⟨by simp only [merge_ilen]; omega, ?_, o.obits, o.outCount, o.waiting, o.olen, o.idle, o.deferred,
        o.pair, o.nextPair, o.aligned, o.done, o.pktSeq⟩
    simp only [merge_ilen, merge_ibits]
    have h1 := o.ibits
    have h2 := b.isLt
    rw [Nat.pow_add]
    have : 2 ^ 8 = 256 := rfl
    omega

/-- After its bits have been consumed a symbol or value field may run. -/
theorem Live.sym {s : State} (h : Live s) (he : s.pstate.entropy) (n : Nat) : SymReady (consume n s) := by
  have S := h.inv.static; have nf := h.nf
  have o := h.inv.output nf
  have c := h.inv.cursor nf
  have p := h.inv.parser nf
  exact
  { static := S.congr S.src S.segbuf S.pktbuf rfl rfl rfl rfl rfl rfl rfl
    tables := (h.inv.tables nf).congr ⟨rfl, rfl, rfl, rfl, rfl, rfl, rfl, rfl, rfl⟩ ⟨rfl, rfl, rfl, rfl, rfl, rfl,
        rfl⟩ (h.inv.tables nf).entropy
    cursor := ⟨c.outside, c.inside, c.k, c.zeros, c.needbits, c.cu⟩
    run := h.run, nf := nf
    skip := by
      rcases Nat.eq_zero_or_pos s.skipCnt with h0 | h0
      · exact h0
      · have := (p.skip h0).1; rw [this] at he; cases he
    settled := ⟨o.outCount, o.waiting h.run⟩
    olen := by have := (o.waiting h.run).resolve_right h.room; simp only [consume_olen]; omega
    pairs := ⟨o.pair, o.nextPair, o.deferred⟩
    ilen := by have := o.ilen; simp only [consume_ilen]; omega
    ibits := by simp only [consume_ibits, consume_ilen]; exact Nat.mod_lt _ (Nat.two_pow_pos _)
    obits := o.obits, pktSeq := o.pktSeq, ent := he }

theorem fetchSymbol_inv {s : State} (h : Live s) (hm : s.pstate = .huff) : ToInv (fetchSymbol s).run := by
  have he : s.pstate.entropy := by rw [hm]; rfl
  have nf := h.nf
  obtain ⟨t, ht, hsh⟩ := sourceTable_ready (h.inv.tables nf) (h.inv.cursor nf) he
  unfold fetchSymbol
  rw [ht]
  simp only
  rcases huffLookup_cases hsh s.ibits s.ilen with ⟨sym, w, hl, h1, h2, h3⟩ | ⟨hl, h1⟩ | ⟨hl, h1⟩
  · rw [hl]
    have hs := h.sym he w
    simp only [Fetched.run]
    unfold decodeSymbol
    by_cases hk : s.k = 0
    · rw [if_pos (by simp [hk])]
      exact execDc_inv hs hm hk (hiNibble sym) (loNibble sym)
    · rw [if_neg (by simp [hk])]
      have hk1 : 1 ≤ (consume w s).k := by simp only [consume_k]; omega
      split
      · exact execEob_inv hs hm
      · split
        · exact execZrl_inv hs hm hk1
        · split
          · exact execAcReserved_inv hs (hiNibble sym)
          · rename_i h0
            exact execAc_inv hs hm hk1 (hiNibble sym) (loNibble sym) (by simpa using h0)
  · rw [hl]; exact needInput_inv h he h1
  · rw [hl]; exact ⟨_, rfl, Inv.fatal _ h.inv.static h.nd⟩

theorem fetchField_inv {s : State} (h : Live s) (hm : s.pstate = .int) : ToInv (fetchField s).run := by
  have he : s.pstate.entropy := by rw [hm]; rfl
  unfold fetchField
  split
  · exact needInput_inv h he (by omega)
  · exact execV_inv (h.sym he _) hm _ _

theorem buildPacket_inv {s : State} (eoi : Bool) (h1 : StaticOk s) (ht : TablesOk s) (hp : ParserOk s)
    (hc : CursorOk s) (hnf : s.failed = false) (hnd : s.done = false)
    (i1 : s.ilen ≤ 23) (i2 : s.ibits < 2 ^ s.ilen) (i3 : s.obits < 2 ^ s.olen) (i4 : s.olen ≤ 157)
        (i5 : pairOk s.nextCuIdx s.nextCuOff)
    (i6 : s.pstate = .finish → s.olen % 8 = 0) (i7 : s.pktSeq ≤ 65536)
        (i8 : eoi = true → s.pstate = .finish ∧ s.olen = 0) : ToInv (buildPacket eoi s).outcome := by
  unfold buildPacket
  split
  · exact ⟨_, rfl, Inv.fatal _ h1 hnd⟩
  · refine ⟨_, rfl, ?_, fun _ => ?_, fun _ => ?_, fun _ => ?_, fun _ => ?_⟩
    · refine ⟨h1.src, h1.segbuf, h1.pktbuf, h1.rom, h1.steps, ?_, ?_, ?_⟩
      · simp [answer, hnf]
      · simp [answer]
      · simp [answer, hnf]; exact h1.reason.1 hnf
    · exact ht.congr ⟨rfl, rfl, rfl, rfl, rfl, rfl, rfl, rfl, rfl⟩ ⟨rfl, rfl, rfl, rfl, rfl, rfl, rfl⟩ ht.entropy
    · exact ⟨hp.len, hp.data, hp.skip, hp.stuff, hp.skipMax⟩
    · exact ⟨hc.outside, hc.inside, hc.k, hc.zeros, hc.needbits, hc.cu⟩
    · refine ⟨i1, i2, i3, Nat.zero_le _, ?_, i4, fun _ => rfl, ?_, i5, .inl ⟨rfl, rfl⟩, i6, ?_, ?_⟩
      · simp [answer]
      · simp [answer]
      · intro hd; simp [answer, hnd] at hd; exact i8 hd
      · simp [answer]; omega

theorem packetLoop_inv {s : State} (h1 : StaticOk s) (ht : TablesOk s) (hp : ParserOk s) (hc : CursorOk s)
    (hnf : s.failed = false) (hnd : s.done = false)
    (i1 : s.ilen ≤ 23) (i2 : s.ibits < 2 ^ s.ilen) (i3 : s.obits < 2 ^ s.olen) (i4 : s.olen ≤ 157) (ip : Pairs s)
        (is : Settled s)
    (i6 : s.pstate = .finish → s.olen % 8 = 0) (i7 : s.pktSeq ≤ 65536) : ToInv (packetLoop s).outcome := by
  unfold packetLoop
  split
  · rename_i hf
    exact buildPacket_inv _ h1 ht hp hc hnf hnd i1 i2 i3 i4 ip.nextPair i6 i7 (by simp [hf])
  · split
    · exact buildPacket_inv _ h1 ht hp hc hnf hnd i1 i2 i3 i4 ip.nextPair i6 i7 (by simp)
    · rename_i hnfin hroom
      refine ⟨_, rfl, ?_, fun _ => ?_, fun _ => ?_, fun _ => ?_, fun _ => ?_⟩
      · exact ⟨h1.src, h1.segbuf, h1.pktbuf, h1.rom, h1.steps, h1.ended, fun _ => ⟨hnd, hnf⟩, h1.reason⟩
      · exact ht.congr ⟨rfl, rfl, rfl, rfl, rfl, rfl, rfl, rfl, rfl⟩ ⟨rfl, rfl, rfl, rfl, rfl, rfl, rfl⟩ ht.entropy
      · exact ⟨hp.len, hp.data, hp.skip, hp.stuff, hp.skipMax⟩
      · exact ⟨hc.outside, hc.inside, hc.k, hc.zeros, hc.needbits, hc.cu⟩
      · exact outputOk_of_running rfl hnd is i4 ⟨ip.pair, ip.nextPair, ip.deferred⟩ i1 i2 i3 i7 i6

/-- `NEXT_PACKET` keeps the invariant, in every state that meets it. -/
theorem execNextPacket_inv {s : State} (h : Inv s) : ToInv (execNextPacket s) := by
  unfold execNextPacket
  split
  · rename_i hf
    refine ⟨_, rfl, ?_, fun h' => ?_, fun h' => ?_, fun h' => ?_, fun h' => ?_⟩
    · have S := h.static
      exact ⟨S.src, S.segbuf, S.pktbuf, S.rom, S.steps, S.ended, (fun h => by cases h), S.reason⟩
    all_goals (rw [answer_failed, hf] at h'; cases h')
  · rename_i hnf
    have hnf : s.failed = false := by simpa using hnf
    have o := h.output hnf
    have ht := h.tables hnf; have hp := h.parser hnf; have hc := h.cursor hnf
    split
    · rename_i hd
      have hnr : s.running = false := by
        by_contra hr
        have := (h.static.running (by simpa using hr)).1
        rw [hd] at this; cases this
      refine ⟨_, rfl, ?_, fun _ => ?_, fun _ => ?_, fun _ => ?_, fun _ => ?_⟩
      · have S := h.static
        exact ⟨S.src, S.segbuf, S.pktbuf, S.rom, S.steps, S.ended, (fun h => by cases h), S.reason⟩
      · exact ht.congr ⟨rfl, rfl, rfl, rfl, rfl, rfl, rfl, rfl, rfl⟩ ⟨rfl, rfl, rfl, rfl, rfl, rfl, rfl⟩ ht.entropy
      · exact ⟨hp.len, hp.data, hp.skip, hp.stuff, hp.skipMax⟩
      · exact ⟨hc.outside, hc.inside, hc.k, hc.zeros, hc.needbits, hc.cu⟩
      · exact ⟨o.ilen, o.ibits, o.obits, o.outCount, (fun h => by cases h), o.olen, fun _ => o.idle hnr, o.deferred,
            o.pair, o.nextPair, o.aligned, o.done, o.pktSeq⟩
    · rename_i hnd
      have hnd : s.done = false := by simpa using hnd
      have d := drain_flushed s
      have hset : Settled (drain s) := ⟨d.room o.outCount, drain_settled o.outCount⟩
      have hol : (drain s).olen ≤ 157 := by have a := d.total; have b := d.grows; have := o.olen; omega
      have hdef : (drain s).nextCuIdx ≠ Config.noneIdx → (drain s).outCount = Config.payload := by
        intro hx; rw [drain_nextCuIdx] at hx
        have := o.deferred hx; have := d.grows; have := hset.1; omega
      refine packetLoop_inv ?_ ?_ ?_ ?_ (by simpa using hnf) (by simpa using hnd) (by simpa using o.ilen)
          (by simpa using o.ibits) (d.obits o.obits) hol ⟨by simpa using o.pair, by simpa using o.nextPair,
          hdef⟩ hset ?_ (by simpa using o.pktSeq)
      · have S := h.static
        exact S.congr (by simpa using S.src) (by simpa using S.segbuf) (d.wf S.pktbuf) (by simp) (by simp) (by simp)
            (by simp) (by simp) (by simp) (by simp)
      · exact ht.congr (by simp [sameImage]) (by simp [sameTables]) (by simpa using ht.entropy)
      · refine ⟨?_, ?_, ?_, ?_, ?_⟩ <;> simp only [drain_pstate, drain_lenCnt, drain_mkReg, drain_segCnt,
            drain_segLen, drain_skipCnt, drain_stuffPending]
        · exact hp.len
        · exact hp.data
        · exact hp.skip
        · exact hp.stuff
        · exact hp.skipMax
      · have hin := hc.inside; have hz := hc.zeros; have hou := hc.outside; have hcu := hc.cu; have hnb := hc.needbits
        constructor <;> simp only [drain_pstate, drain_part, drain_comp, drain_k, drain_acrle, drain_accrle,
            drain_yparts, drain_mono, drain_needbits, drain_scanOk, drain_cu, drain_haveFrame, drain_nunits]
        · exact hou
        · exact hin
        · exact hc.k
        · exact hz
        · exact hnb
        · exact hcu
      · intro hf; rw [drain_pstate] at hf
        have := o.aligned hf; have := d.total; omega

/-- `CONSTRUCT` over an accepted ROM gives a state that meets the invariant, whatever the host has still to issue. -/
theorem constructed_inv (rom : Rom) (src : Memory) (n : Nat) (c : Callsign) (i : Byte) (q : BitVec 3)
    (hr : rom.wellFormed) (hs : Memory.wf src) (hq : List Command) :
    Inv { State.constructed rom src n c i q with hostq := hq } := by
  have E : emptyHuffSlot.table.shaped = true := by decide
  refine ⟨⟨hs, rfl, rfl, hr, rfl, by simp [State.constructed], by simp [State.constructed],
      by simp [State.constructed]⟩, fun _ => ?_, fun _ => ?_, fun _ => ?_, fun _ => ?_⟩
  · exact ⟨(fun h => by cases h), (fun h => by cases h), (fun h => by cases h), ⟨rfl, rfl⟩, ⟨E, E⟩, ⟨E, E⟩⟩
  · exact ⟨(fun h => by cases h), (fun h => by cases h), by simp [State.constructed],
      by simp [State.constructed], by simp [State.constructed]⟩
  · exact ⟨fun _ => ⟨rfl, rfl, rfl, rfl, rfl⟩, (fun h => by cases h), Nat.zero_le _, (fun h => by cases h),
      (fun h => by cases h), fun _ => rfl, (fun h => by cases h), (fun h => by cases h)⟩
  · refine ⟨Nat.zero_le _, by simp [State.constructed], by simp [State.constructed], Nat.zero_le _, (fun h => by cases h), Nat.zero_le _,
      fun _ => rfl, by simp [State.constructed], ?_, .inl ⟨rfl, rfl⟩, (fun h => by cases h),
      (fun h => by cases h), by simp [State.constructed]⟩
    right; exact ⟨(by decide : (0 : Half) ≠ Config.noneIdx), (by decide : (0 : Byte).toNat < Config.payload)⟩

end Sys2Proof.Machine
end

