-- ==== Sys2Proof/Laws/Stream.lean ====
section
/-! SUPPORT. The outbound registers depend on nothing but themselves: a move of bits commutes with every update of other
registers. And the bits of a number: appended, split, cut. -/

namespace Sys2Proof.Machine

/-- Two states agree on the outbound accumulator and the packet buffer. -/
def SameOut (s t : State) : Prop :=
  t.pktbuf = s.pktbuf ∧ t.outCount = s.outCount ∧ t.obits = s.obits ∧ t.olen = s.olen

/-- The first state with the outbound registers of the second. -/
def State.withOut (s u : State) : State :=
  { s with pktbuf := u.pktbuf, outCount := u.outCount, obits := u.obits, olen := u.olen }

theorem drainUpTo_withOut (n : Nat) {s t : State} (h : SameOut s t) : drainUpTo n t = t.withOut (drainUpTo n s) := by
  induction n generalizing s t with
  | zero =>
    obtain ⟨h1, h2, h3, h4⟩ := h
    simp only [drainUpTo, State.withOut, ← h1, ← h2, ← h3, ← h4]
  | succ n ih =>
    obtain ⟨h1, h2, h3, h4⟩ := h
    simp only [drainUpTo, h2, h4]
    split
    · rw [ih (s := drainByte s) (t := drainByte t) (by simp [SameOut, drainByte, h1, h2, h3, h4])]
      rfl
    · simp only [State.withOut, ← h1, ← h2, ← h3, ← h4]

theorem drain_withOut {s t : State} (h : SameOut s t) : drain t = t.withOut (drain s) := by
  unfold drain; rw [h.2.2.2]; exact drainUpTo_withOut _ h

/-- `OutBits` commutes with any update of other registers (43_entropy_encode.md R190). -/
theorem outBits_withOut (x n : Nat) {s t : State} (h : SameOut s t) : outBits x n t = t.withOut (outBits x n s) := by
  unfold outBits
  exact drain_withOut (s := { s with obits := s.obits * 2 ^ n + x % 2 ^ n, olen := s.olen + n })
    (t := { t with obits := t.obits * 2 ^ n + x % 2 ^ n, olen := t.olen + n })
    ⟨h.1, h.2.1, by rw [h.2.2.1], by rw [h.2.2.2]⟩

/-- The writes of one emitted symbol commute with any update of other registers. -/
theorem emitted_withOut (code w : Nat) (v : Int) {s t : State} (h : SameOut s t) :
    emitted code w v t = t.withOut (emitted code w v s) := by
  unfold emitted
  split
  · exact outBits_withOut _ _ h
  · rw [outBits_withOut _ _ (t := outBits code w t) (s := outBits code w s), outBits_withOut _ _ h]
    · rfl
    · rw [outBits_withOut _ _ h]; exact ⟨rfl, rfl, rfl, rfl⟩

theorem SameOut.refl (s : State) : SameOut s s := ⟨rfl, rfl, rfl, rfl⟩

/-- What `OutBits` leaves is the old state with new outbound registers. -/
theorem outBits_self (x n : Nat) (s : State) : outBits x n s = s.withOut (outBits x n s) :=
  outBits_withOut x n (SameOut.refl s)

theorem emitted_self (code w : Nat) (v : Int) (s : State) : emitted code w v s = s.withOut (emitted code w v s) :=
  emitted_withOut code w v (SameOut.refl s)

/-! The bits of a number. -/

theorem bitsOf_length (n x : Nat) : (bitsOf n x).length = n := by simp [bitsOf]

theorem bitsOf_getElem (n x i : Nat) (h : i < (bitsOf n x).length) : (bitsOf n x)[i] = x.testBit (n - 1 - i) := by
  simp [bitsOf]

/-- The bits of a number put above another are the bits of the one, then those of the other. -/
theorem bitsOf_append (n m x y : Nat) : bitsOf (n + m) (x * 2 ^ m + y % 2 ^ m) = bitsOf n x ++ bitsOf m y := by
  apply List.ext_getElem
  · simp [bitsOf_length]
  · intro i h1 h2
    rw [bitsOf_getElem, List.getElem_append]
    simp only [bitsOf_length] at h1 ⊢
    rw [Nat.mul_comm, Nat.testBit_two_pow_mul_add _ (Nat.mod_lt _ (Nat.two_pow_pos _))]
    split
    · rename_i h
      rw [dif_neg (by omega), bitsOf_getElem, Nat.testBit_mod_two_pow]
      rw [show m - 1 - (i - n) = n + m - 1 - i by omega]
      simp
      omega
    · rename_i h
      rw [dif_pos (by omega), bitsOf_getElem]
      congr 1
      omega

theorem bitsOf_mod {n m : Nat} (x : Nat) (h : n ≤ m) : bitsOf n (x % 2 ^ m) = bitsOf n x := by
  apply List.ext_getElem
  · simp [bitsOf_length]
  · intro i h1 h2
    rw [bitsOf_getElem, bitsOf_getElem, Nat.testBit_mod_two_pow]
    simp only [bitsOf_length] at h1 h2
    simp
    omega

theorem bitsOf_split (n m x : Nat) : bitsOf (n + m) x = bitsOf n (x / 2 ^ m) ++ bitsOf m x := by
  have h := bitsOf_append n m (x / 2 ^ m) x
  rwa [show x / 2 ^ m * 2 ^ m + x % 2 ^ m = x by rw [Nat.mul_comm]; exact Nat.div_add_mod x _] at h

end Sys2Proof.Machine
end

