-- ==== Sys2Proof/Tests/Slice0.lean ====
section
/-! SUPPORT. The model's own tests: a smoke test of each well-formedness check, one word decoded for every constructor,
small steps with expected values from the spec (mostly 95_test_vectors.md, section 2), and for the statements with
hypotheses a state that meets them. -/

namespace Sys2Proof.Tests

open Sys2Proof.Machine

-- The kernel evaluations one after another, so that the check stays within the memory limit.
set_option Elab.async false

/-! Well-formedness refuses. -/

theorem test_wf_segment_payload_length :
    wellFormed (.sof0 5 [1, 2]) = false ∧ wellFormed (.dht 3 []) = false ∧ wellFormed (.sos 2 [1]) = false
      ∧ wellFormed (.dqt 1 [1]) = false ∧ wellFormed (.dri 4 [1, 2, 3]) = false := by decide

theorem test_wf_nonmarker_is_a_marker :
    wellFormed (.nonmarker 0xFFD8) = false ∧ wellFormed (.nonmarker 0xFFE7) = false
      ∧ wellFormed (.nonmarker 0xFFDB) = false := by decide

theorem test_wf_reserved_run : wellFormed (.acReserved 0) = false ∧ wellFormed (.acReserved 15) = false := by decide

theorem test_wf_ac_without_value : wellFormed (.ac 3 0) = false := by decide

theorem test_wf_field_without_bits : wellFormed (.v 0 0) = false := by decide

theorem test_wf_field_too_wide : wellFormed (.v 3 8) = false := by decide

/-! Decoding: the marker codes of 30_encoding.md R87 and R88, the segment framing of R91, the symbols of R101 and R102,
the value field of R105, written out. -/

theorem test_decode_tem : decode (.bytes [0b11111111, 0b00000001]) = .ok .tem := by decide
theorem test_decode_soi : decode (.bytes [0b11111111, 0b11011000]) = .ok .soi := by decide
theorem test_decode_rst : decode (.bytes [0b11111111, 0b11010101]) = .ok (.rst 5) := by decide
theorem test_decode_eoi : decode (.bytes [0b11111111, 0b11011001]) = .ok .eoi := by decide
theorem test_decode_sof0 :
    decode (.bytes [0b11111111, 0b11000000, 0b00000000, 0b00001011, 8, 0, 16, 0, 16, 1, 1, 0x11, 0])
      = .ok (.sof0 11 [8, 0, 16, 0, 16, 1, 1, 0x11, 0]) := by decide
theorem test_decode_sof2 : decode (.bytes [0b11111111, 0b11000010]) = .ok .sof2 := by decide
theorem test_decode_dht :
    decode (.bytes [0b11111111, 0b11000100, 0b00000000, 0b00000011, 0x10]) = .ok (.dht 3 [0x10]) := by decide
theorem test_decode_sos :
    decode (.bytes [0b11111111, 0b11011010, 0b00000000, 0b00000101, 1, 1, 0]) = .ok (.sos 5 [1, 1, 0]) := by decide
theorem test_decode_dqt :
    decode (.bytes [0b11111111, 0b11011011, 0b00000000, 0b00000010]) = .ok (.dqt 2 []) := by decide
theorem test_decode_dri :
    decode (.bytes [0b11111111, 0b11011101, 0b00000000, 0b00000100, 1, 2]) = .ok (.dri 4 [1, 2]) := by decide
theorem test_decode_skipC1 : decode (.bytes [0xFF, 0b11000001, 0x01, 0x02]) = .ok (.skipC1 0x0102) := by decide
theorem test_decode_skipC3 : decode (.bytes [0xFF, 0b11000011, 0x01, 0x02]) = .ok (.skipC3 0x0102) := by decide
theorem test_decode_skipC5 : decode (.bytes [0xFF, 0b11000101, 0x01, 0x02]) = .ok (.skipC5 0x0102) := by decide
theorem test_decode_skipC6 : decode (.bytes [0xFF, 0b11000111, 0x01, 0x02]) = .ok (.skipC6 1 0x0102) := by decide
theorem test_decode_skipC8 : decode (.bytes [0xFF, 0b11001101, 0x01, 0x02]) = .ok (.skipC8 5 0x0102) := by decide
theorem test_decode_skipDC : decode (.bytes [0xFF, 0b11011100, 0x01, 0x02]) = .ok (.skipDC 0x0102) := by decide
theorem test_decode_skipDE : decode (.bytes [0xFF, 0b11011111, 0x01, 0x02]) = .ok (.skipDE 1 0x0102) := by decide
theorem test_decode_skipE0 : decode (.bytes [0xFF, 0b11101010, 0x01, 0x02]) = .ok (.skipE0 10 0x0102) := by decide
theorem test_decode_skipF0 : decode (.bytes [0xFF, 0b11110101, 0x01, 0x02]) = .ok (.skipF0 5 0x0102) := by decide
theorem test_decode_skipF8 : decode (.bytes [0xFF, 0b11111010, 0x01, 0x02]) = .ok (.skipF8 2 0x0102) := by decide
theorem test_decode_skipFC : decode (.bytes [0xFF, 0b11111101, 0x01, 0x02]) = .ok (.skipFC 1 0x0102) := by decide
theorem test_decode_skipFE : decode (.bytes [0xFF, 0b11111110, 0x01, 0x02]) = .ok (.skipFE 0x0102) := by decide
theorem test_decode_nonmarker :
    decode (.bytes [0xFF, 0x00]) = .ok (.nonmarker 0xFF00) ∧ decode (.bytes [0xFF, 0x02]) = .ok (.nonmarker 0xFF02)
      ∧ decode (.bytes [0xFF, 0xBF]) = .ok (.nonmarker 0xFFBF) ∧ decode (.bytes [0xFF, 0xFF]) = .ok (.nonmarker 0xFFFF)
      ∧ decode (.bytes [0x00, 0xD8]) = .ok (.nonmarker 0x00D8) := by decide
theorem test_decode_dc : decode (.symbol true 0b10100011) = .ok (.dc 10 3) := by decide
theorem test_decode_eob : decode (.symbol false 0b00000000) = .ok .eob := by decide
theorem test_decode_zrl : decode (.symbol false 0b11110000) = .ok .zrl := by decide
theorem test_decode_acReserved : decode (.symbol false 0b11100000) = .ok (.acReserved 14) := by decide
theorem test_decode_ac : decode (.symbol false 0b00010010) = .ok (.ac 1 2) := by decide
theorem test_decode_v : decode (.field 4 0b101) = .ok (.v 4 5) := by decide
theorem test_decode_stuff : decode (.stuffed 0b00000000) = .ok (.stuff 0) := by decide
theorem test_decode_construct :
    decode (.command (.construct ⟨1, 2, 3, 4, 5, 6⟩ 7 1 [8])) = .ok (.construct ⟨1, 2, 3, 4, 5, 6⟩ 7 1 [8]) := by decide
theorem test_decode_nextPacket : decode (.command .nextPacket) = .ok .nextPacket := by decide

theorem test_decode_rejects :
    decode (.bytes [0xFF]) = .error .truncated ∧ decode (.bytes [0xFF, 0xDD, 0x00]) = .error .truncated
      ∧ decode (.bytes [0xFF, 0xDD, 0x00, 0x04, 0x01]) = .error .truncated
      ∧ decode (.bytes [0xFF, 0xD8, 0x00]) = .error .trailing
      ∧ decode (.field 0 0) = .error .emptyField ∧ decode (.field 2 4) = .error .wideField := by decide

/-- A row of the opcode table: the marker in the first 16-bit word, the length field in the second. -/
theorem test_table_word :
    decodeTableWord 16 0xFFD9 = some .eoi ∧ decodeTableWord 32 0x0007FFE0 = some (.skipE0 0 7)
      ∧ decodeTableWord 8 0xF0 = some .zrl := by decide

/-! States to step from. -/

/-- What a next state holds. -/
def after {α : Type} (o : Host.Outcome State Fault Refusal) (f : State → α) : Option α :=
  match o with
  | .next t => some (f t)
  | _ => none

/-- An instance for "TEST01" with a quality level, a source and a `NEXT_PACKET` in progress. -/
def started (quality : BitVec 3) (source : List Byte) : State :=
  { State.constructed Config.candidateRom (memOfBytes 0 source) source.length
      ⟨0x54, 0x45, 0x53, 0x54, 0x30, 0x31⟩ 0x2A quality with
    running := true }

/-- `SRC_DC` of 95_test_vectors.md, section 3. -/
def srcDc : HuffTable :=
  { count := [0, 3, 1, 1, 1, 1, 1, 0, 0, 0, 0, 0, 0, 0, 0, 0], nsym := 8, sym := [0, 1, 2, 3, 4, 5, 6, 7] }

/-- `SRC_AC` of 95_test_vectors.md, section 3. -/
def srcAc : HuffTable :=
  { count := [0, 2, 2, 2, 2, 2, 2, 2, 1, 0, 0, 0, 0, 0, 0, 0], nsym := 15
    sym := [0x01, 0x02, 0x00, 0x03, 0x11, 0x04, 0xF0, 0x21, 0x12, 0x05, 0x31, 0x0A, 0xE1, 0x10, 0x06] }

/-- The fixtures defined in slot 0, with one step for all coefficients. -/
def withTables (e : Byte) (s : State) : State :=
  { s with
    sqt := ⟨{ valid := true, steps := List.replicate 64 e }, emptyStepSlot⟩
    shtDc := ⟨{ valid := true, table := srcDc }, emptyHuffSlot⟩
    shtAc := ⟨{ valid := true, table := srcAc }, emptyHuffSlot⟩ }

/-- Inside the scan of a monochrome image of 16×16 pixels: four units, luma step 8 against 28, 19, ... (level 2). -/
def inMono (source : List Byte) : State :=
  withTables 8 { started 2 source with
    haveFrame := true, width := 16, height := 16, ncomp := 1, mono := true, mode := 3, yparts := 1, nunits := 4
    scanOk := true, pstate := .huff }

/-- Inside the scan of a three-component image of 32×16 pixels in mode 0: two units. -/
def inColour (source : List Byte) : State :=
  withTables 8 { started 2 source with
    haveFrame := true, width := 32, height := 16, ncomp := 3, mono := false, mode := 0, yparts := 4, nunits := 2
    scanOk := true, pstate := .huff }

/-! Markers and segments. -/

theorem test_rst_keeps_emitted_predictor :
    after (exec (.rst 0) { inMono [] with dcraw := ⟨5, 0, 0⟩, dcemit := ⟨5, 0, 0⟩, pstate := .marker })
      (fun t => (t.dcraw.c0, t.dcemit.c0, t.pstate)) = some (0, 5, .huff) := by decide +kernel

theorem test_rst_before_scan : after (exec (.rst 0) (started 2 [])) (·.reason) = some 12 := by decide +kernel

theorem test_eoi_truncated : after (exec .eoi (started 2 [])) (·.reason) = some 10 := by decide +kernel

theorem test_sof2_progressive :
    after (exec .sof2 (started 2 [])) (·.reply) = some (some (.fatal 1)) := by decide +kernel

/-- 95_test_vectors.md 2.5, accepted rows: `WIDTH`, `MODE`, `YPARTS`, `NUNITS`, `TQ[1]`. -/
theorem test_sof0_accepted :
    [[8, 0, 16, 0, 16, 1, 9, 0x21, 1],
      [8, 0, 16, 0, 16, 3, 1, 0x22, 0, 2, 0x11, 1, 3, 0x11, 1],
      [8, 0, 16, 0, 32, 3, 1, 0x12, 0, 2, 0x11, 1, 3, 0x11, 1],
      [8, 0, 16, 0, 32, 3, 1, 0x21, 0, 2, 0x11, 1, 3, 0x11, 1],
      [8, 0, 16, 0, 32, 3, 1, 0x11, 0, 2, 0x11, 1, 3, 0x11, 1],
      [8, 0x0F, 0xF0, 0x0F, 0xF0, 3, 1, 0x22, 0, 2, 0x11, 1, 3, 0x11, 1]].map
        (fun d => after (exec (.sof0 17 d) (started 2 []))
          (fun t => (t.width.toNat, t.mode.toNat, t.yparts, t.nunits, t.tq.c1.toNat)))
      = [some (16, 3, 1, 4, 0), some (16, 0, 4, 1, 1), some (32, 1, 2, 4, 1), some (32, 2, 2, 4, 1),
          some (32, 3, 1, 8, 1), some (4080, 0, 4, 65025, 1)] := by decide +kernel

/-- 95_test_vectors.md 2.5, refused rows, and a second header: one payload for each check, at its boundary. -/
theorem test_sof0_refused :
    [[8, 0x0F, 0xF0, 0x0F, 0xF0, 3, 1, 0x12, 0, 2, 0x11, 1, 3, 0x11, 1], [8, 0x10, 0, 0, 16, 1, 1, 0x11, 0],
      [8, 0, 0, 0, 16, 1, 1, 0x11, 0], [8, 0, 16, 0, 0x18, 1, 1, 0x11, 0], [0x0C, 0, 0x11, 0, 16, 2, 1, 0x41, 0],
      [8, 0, 0x11, 0, 16, 2, 1, 0x41, 0], [8, 0, 16, 0, 16, 3, 1, 0x22, 0, 2, 0x22, 1, 3, 0x11, 1],
      [8, 0, 16, 0, 16, 1, 1, 0x41, 0], [8, 0, 16, 0, 16, 3, 1, 0x22, 0, 2, 0x11, 1], [8, 0, 16, 0, 16]].map
        (fun d => after (exec (.sof0 17 d) (started 2 [])) (fun t => (t.reason.toNat, t.width.toNat)))
      = [some (6, 0), some (4, 0), some (4, 0), some (4, 0), some (2, 0), some (3, 0), some (5, 0), some (5, 0),
          some (11, 0), some (11, 0)]
    ∧ after (exec (.sof0 11 [8, 0, 16, 0, 16, 1, 1, 0x11, 0]) { started 2 [] with haveFrame := true }) (·.reason)
      = some 12 := by decide +kernel

/-- 95_test_vectors.md 2.6, the `DHT` rows: what is valid after, and the reason. -/
theorem test_dht_rows :
    [[[0x00], srcDc.count, srcDc.sym], [[0x00], srcDc.count, srcDc.sym, [0x10], srcAc.count, srcAc.sym],
      [[0x03], srcDc.count, srcDc.sym], [[0x20], srcDc.count, srcDc.sym], [List.replicate 16 0],
      [[0x00], srcDc.count, srcDc.sym.take 7],
      [[0x00], [255, 2], List.replicate 14 0, List.replicate 257 0]].map
        (fun d => after (exec (.dht 2 d.flatten) (started 2 []))
          (fun t => (t.reason.toNat, t.shtDc.s0.valid, t.shtDc.s1.valid, t.shtAc.s0.valid)))
      = [some (0, true, false, false), some (0, true, false, true), some (0, false, false, false),
          some (13, false, false, false), some (8, false, false, false), some (8, false, false, false),
          some (8, false, false, false)] := by decide +kernel

/-- 95_test_vectors.md 2.6, the `DQT` rows. -/
theorem test_dqt_rows :
    let q : List Byte := List.replicate 64 0x10
    [[[0x00], q], [[0x00], q, [0x01], q], [[0x02], q], [[0x10], q], [[0x00], q, [0x01]], []].map
        (fun d => after (exec (.dqt 2 d.flatten) (started 2 []))
          (fun t => (t.reason.toNat, t.sqt.s0.valid, t.sqt.s1.valid, t.sqt.s1.steps.getD 63 0)))
      = [some (0, true, false, 0), some (0, true, true, 0x10), some (0, false, false, 0), some (13, false, false, 0),
          some (8, true, false, 0), some (0, false, false, 0)] := by decide +kernel

/-- 95_test_vectors.md 2.6, the `SOS` rows: reason, `SCAN_OK`, `PSTATE`. -/
theorem test_sos_rows :
    let s := { inMono [] with scanOk := false, pstate := .data }
    [[1, 1, 0x00, 0, 0x3F, 0], [1, 1, 0x00], [1, 7, 0x00, 0, 0x3F, 0], [1, 1, 0x01], [1, 1, 0x10], [1, 1, 0x20],
      [3, 1, 0, 2, 0, 3, 0], [1], []].map
        (fun d => after (exec (.sos 8 d) s) (fun t => (t.reason.toNat, t.scanOk, t.pstate)))
      = [some (0, true, .huff), some (0, true, .huff), some (0, true, .huff), some (7, false, .marker),
          some (7, false, .marker), some (7, false, .marker), some (3, false, .marker), some (11, false, .marker),
          some (11, false, .marker)] := by decide +kernel

theorem test_sos_out_of_order :
    after (exec (.sos 5 [1, 1, 0]) (started 2 [])) (·.reason) = some 15
      ∧ after (exec (.sos 5 [1, 1, 0]) (inMono [])) (·.reason) = some 12 := by decide +kernel

theorem test_dri_big_endian : after (exec (.dri 4 [1, 0]) (started 2 [])) (·.dri) = some 256 := by decide +kernel

theorem test_dri_short : after (exec (.dri 3 [3]) (started 2 [])) (·.reason) = some 11 := by decide +kernel

/-- `FF E0 00 07`: five bytes are skipped (40_segment_parser.md R126); the same for every skipped marker. -/
theorem test_skip_five :
    [Instr.skipC1 7, .skipC3 7, .skipC5 7, .skipC6 1 7, .skipC8 2 7, .skipDC 7, .skipDE 1 7, .skipE0 0 7, .skipF0 3 7,
      .skipF8 1 7, .skipFC 0 7, .skipFE 7].map
        (fun i => after (exec i { started 2 [] with pstate := .len }) (fun t => (t.skipCnt, t.pstate)))
      = List.replicate 12 (some (5, .marker)) := by decide +kernel

theorem test_skip_length_1 :
    after (exec (.skipE0 0 1) (started 2 [])) (·.reason) = some 11 := by decide +kernel

/-! Symbols and value fields. -/

/-- `K` = 1, symbol 0x12: `ACRLE` = 1, `K` = 2, `NEEDBITS` = 2 (41_entropy_decode.md R159). -/
theorem test_ac_12 :
    after (exec (.ac 1 2) { inMono [] with k := 1 }) (fun t => (t.acrle, t.k, t.needbits, t.pstate))
      = some (1, 2, 2, .int) := by decide +kernel

theorem test_ac_overrun :
    after (exec (.ac 1 2) { inMono [] with k := 63 }) (·.reason) = some 16 := by decide +kernel

/-- `K` = 2: writes 0xF0, '11111111001' in the luma table, and `K` = 18 (41_entropy_decode.md R158, 95 2.9). -/
theorem test_zrl :
    after (exec .zrl { inMono [] with k := 2 }) (fun t => (t.k, memRead t.pktbuf 0, t.obits, t.olen))
      = some (18, 0xFF, 0b001, 3) := by decide +kernel

theorem test_zrl_overrun : after (exec .zrl { inMono [] with k := 48 }) (·.reason) = some 16 := by decide +kernel

/-- `EOB` in component 0 writes '1010' and goes on to the next luma block (95 2.9, 44_cursor.md R209). -/
theorem test_eob_colour :
    after (exec .eob { inColour [] with k := 5 }) (fun t => (t.part, t.comp, t.k, t.obits, t.olen))
      = some (1, 0, 0, 0b1010, 4) := by decide +kernel

/-- A monochrome unit: '1010', then twice '00' '00' with the chroma tables; the unit ends (44_cursor.md R210). -/
theorem test_eob_mono :
    after (exec .eob { inMono [] with k := 5 }) (fun t => (t.cu, t.part, memRead t.pktbuf 0, t.obits, t.olen))
      = some (1, 0, 0b10100000, 0, 4) := by decide +kernel

/-- "no change" in a reset unit writes '00' (95 2.9). -/
theorem test_dc_zero :
    after (exec (.dc 0 0) (inMono [])) (fun t => (t.k, t.obits, t.olen)) = some (1, 0, 2) := by decide +kernel

theorem test_dc_size_15 :
    after (exec (.dc 9 15) (inMono [])) (fun t => (t.k, t.needbits, t.pstate, t.olen)) = some (0, 15, .int, 0) := by
  decide +kernel

/-- Delta 10 with steps 8 and 28: `DCRAW` = 80, new value 3, '011' '11' (95 2.8, 2.9). -/
theorem test_v_dc :
    after (exec (.v 4 0b1010) { inMono [] with pstate := .int })
        (fun t => (t.dcraw.c0, t.dcemit.c0, t.k, t.obits, t.olen))
      = some (80, 3, 1, 0b01111, 5) := by decide +kernel

/-- Value 7 with steps 8 and 19 after one zero: 56/19 rounds to 3, symbol 0x12 '11011', field '11' (95 2.8, 2.9). -/
theorem test_v_ac :
    after (exec (.v 3 0b111) { inMono [] with pstate := .int, k := 1, accrle := 1 })
        (fun t => (t.accrle, t.k, t.obits, t.olen))
      = some (0, 2, 0b1101111, 7) := by decide +kernel

theorem test_acReserved :
    after (exec (.acReserved 14) { inMono [] with k := 1, acrle := 3 }) (fun t => (t.reason, t.acrle))
      = some (17, 0) := by decide +kernel

theorem test_stuff :
    after (exec (.stuff 0) { inMono [] with stuffPending := true }) (·.stuffPending) = some false
      ∧ after (exec (.stuff 0xD9) (inMono [])) (·.reason) = some 18 := by decide +kernel

/-! Commands. -/

/-- "TEST01" is 0x063B84F1; level 2 starts 28, 19, 21; the source's second byte (95 2.12, 2.7). -/
theorem test_construct :
    after (exec (.construct ⟨0x54, 0x45, 0x53, 0x54, 0x30, 0x31⟩ 0x2A 2 [0xFF, 0xD8]) State.reset)
        (fun t => (t.callsignCode, t.dqtDst.s0.take 3, memRead t.src 1, t.pktCuIdx, t.nextCuIdx))
      = some (0x063B84F1, [28, 19, 21], 0xD8, 0, 0xFFFF) := by decide +kernel

/-- A full buffer goes out with number 3, flags byte 0x30 (level 2, mode 0), no padding; two bits stay (95 2.15). -/
theorem test_nextPacket_full :
    after (exec .nextPacket { inColour [] with outCount := 237, pktSeq := 3, obits := 2, olen := 2 })
        (fun t => (t.pktSeq, t.outCount, t.olen, t.done,
          match t.reply with
          | some (.packet p) => [p.length, (p.getD 8 0).toNat, (p.getD 11 0).toNat, (p.getD 251 0).toNat]
          | _ => []))
      = some (4, 0, 2, false, [256, 3, 0x30, 0]) := by decide +kernel

/-- The last packet of a monochrome image, one byte used: flags byte 0x37, padding `2D D3`, then `END` (95 2.13). -/
theorem test_nextPacket_last :
    after (exec .nextPacket { inMono [] with pstate := .finish, cu := 4, outCount := 1 })
        (fun t => (t.done,
          match t.reply with
          | some (.packet p) => [(p.getD 11 0).toNat, (p.getD 16 0).toNat, (p.getD 17 0).toNat, (p.getD 251 0).toNat]
          | _ => []))
      = some (true, [0x37, 0x2D, 0xD3, 0x0F]) := by decide +kernel

/-! Steps. -/

/-- `withFetchWord` places what the next step runs. -/
theorem test_fetchWord :
    after (step (State.reset.withFetchWord 16 0xFFD9)) (·.reason) = some 10
      ∧ after (step (State.reset.withFetchWord 32 0x0007FFE0)) (·.skipCnt) = some 5
      ∧ after (step (State.reset.withFetchWord 8 0xF0)) (fun t => (t.k, t.ilen)) = some (17, 0) := by decide +kernel

/-- `'111'` awaits more input and the byte 0xFC is merged (41_entropy_decode.md R150, R154). -/
theorem test_step_merge :
    after (step { inMono [0xFC] with ibits := 0b101, ilen := 3, pstate := .int, needbits := 4 })
        (fun t => (t.ibits, t.ilen, t.srcPos))
      = some (0b10111111100, 11, 1) := by decide +kernel

/-- The lookups of 95_test_vectors.md 2.3, some rows. -/
theorem test_lookup_rows :
    huffLookup srcDc 0b1 1 = .needInput ∧ huffLookup srcDc 0b110 3 = .found 3 3
      ∧ huffLookup srcDc 0b01111111 8 = .found 1 2 ∧ huffLookup srcDc 0b111111111111111 15 = .needInput
      ∧ huffLookup srcDc 0b1111111011111111 16 = .noMatch ∧ huffLookup srcAc 0b111111100 9 = .found 6 9 := by decide

/-- `RecordBoundary`, rows of 95_test_vectors.md 2.11. -/
theorem test_boundary_rows :
    [((0x0000 : Half), 13, 5, 1), (0xFFFF, 221, 0, 1), (0xFFFF, 100, 3, 5), (0xFFFF, 236, 3, 5), (0xFFFF, 237, 17, 2),
      (0x0003, 237, 150, 4)].map
        (fun r =>
          let t := recordBoundary
            { inColour [] with pktCuIdx := r.1, outCount := r.2.1, olen := r.2.2.1, cu := r.2.2.2, resetCu := 99 }
          (t.pktCuIdx, t.pktCuOff, t.nextCuIdx, t.nextCuOff, t.resetCu))
      = [(0x0000, 0, 0xFFFF, 0xFF, 99), (1, 221, 0xFFFF, 0xFF, 1), (5, 101, 0xFFFF, 0xFF, 5), (0xFFFF, 0, 5, 0, 5),
          (0xFFFF, 0, 2, 3, 2), (0x0003, 0, 4, 19, 4)] := by decide +kernel

/-- The outbound accumulator with one place left, 95_test_vectors.md 2.10. -/
theorem test_outBits_full :
    let t := outBits 0b1010101011110000 16 { inColour [] with outCount := 236 }
    (t.obits, t.olen, t.outCount, memRead t.pktbuf 236) = (0b11110000, 8, 237, 0xAA) := by decide +kernel

theorem test_rdiv_rows :
    [(0, 255), (1, 2), (-1, 2), (6, 4), (-6, 4), (1, 3), (128, 255), (-128, 255), (2147483647, 255),
        (-2147483648, 255)].map (fun p => rdiv p.1 p.2)
      = [0, 1, -1, 2, -2, 0, 1, -1, 8421504, -8421505] := by decide

theorem test_crc_rows : crc32 [] = 0 ∧ crc32 [0xFF] = 0xFF000000 ∧ crc32 [0x67] = 0x01D41B76 := by decide +kernel

/-! Witnesses: for each statement with hypotheses, a state and operands that meet them. -/

theorem rom_accepted : Config.candidateRom.wellFormed = true := by decide +kernel

theorem fixtures_accepted : srcDc.wellFormed = true ∧ srcAc.wellFormed = true := by decide +kernel

/-- Three states inside a block: at its first coefficient, at the last where a run of 16 still fits, and with a code in
the window. -/
theorem in_block_inv {s : State} (h : s = { inMono [] with k := 1 } ∨ s = { inMono [] with k := 47 }
    ∨ s = { inMono [] with k := 1, ibits := 0b100, ilen := 3 }) : Inv s := by
  have S := (constructed_inv Config.candidateRom [] 0 ⟨0x54, 0x45, 0x53, 0x54, 0x30, 0x31⟩ 0x2A 2 rom_accepted
    rfl []).static
  refine ⟨?_, fun _ => ?_, fun _ => ?_, fun _ => ?_, fun _ => ?_⟩
  · rcases h with rfl | rfl | rfl <;>
      exact ⟨rfl, S.segbuf, S.pktbuf, S.rom, S.steps, S.ended, fun _ => ⟨rfl, rfl⟩, S.reason⟩
  · refine ⟨fun _ => ?_, fun _ => ⟨?_, fun c hc => ?_⟩, ?_, ?_, ?_, ?_⟩
    · rcases h with rfl | rfl | rfl <;>
        exact ⟨.inl rfl, rfl, rfl, fun _ => rfl, by decide +kernel, by decide +kernel, by decide +kernel⟩
    rotate_left
    · have hz : c = 0 := by rcases h with rfl | rfl | rfl <;> exact Nat.lt_one_iff.mp hc
      rcases h with rfl | rfl | rfl <;> subst hz <;> exact ⟨rfl, rfl, rfl⟩
    all_goals rcases h with rfl | rfl | rfl <;> decide +kernel
  · constructor <;> rcases h with rfl | rfl | rfl <;> decide +kernel
  · constructor <;> rcases h with rfl | rfl | rfl <;> decide +kernel
  · have hp : pairOk 0 0 := .inr (by decide)
    have hq : pairOk Config.noneIdx Config.noneOff := .inl ⟨rfl, rfl⟩
    constructor
    case pair => rcases h with rfl | rfl | rfl <;> exact hp
    case nextPair => rcases h with rfl | rfl | rfl <;> exact hq
    all_goals rcases h with rfl | rfl | rfl <;> decide +kernel

/-- An instance at work on the source `FF D8`. -/
theorem started_inv : Inv (started 2 [0xFF, 0xD8]) := by
  have h := constructed_inv Config.candidateRom (memOfBytes 0 [0xFF, 0xD8]) 2
    ⟨0x54, 0x45, 0x53, 0x54, 0x30, 0x31⟩ 0x2A 2 rom_accepted (memOfBytes_wf _) []
  have S := h.static
  have O := h.output rfl
  refine ⟨⟨S.src, S.segbuf, S.pktbuf, S.rom, S.steps, S.ended, fun _ => ⟨rfl, rfl⟩, S.reason⟩, fun _ => ?_, fun _ => ?_,
    fun _ => ?_, fun _ => ?_⟩
  · have T := h.tables rfl
    exact ⟨fun h => (by cases h), fun h => (by cases h), fun h => (by cases h), T.sqt, T.shtDc, T.shtAc⟩
  · constructor <;> decide +kernel
  · have C := h.cursor rfl
    exact ⟨C.outside, C.inside, C.k, C.zeros, C.needbits, C.cu⟩
  · exact ⟨O.ilen, O.ibits, O.obits, O.outCount, fun _ => .inl (by decide), O.olen, fun h => (by cases h), O.deferred,
      O.pair, O.nextPair, O.aligned, O.done, O.pktSeq⟩

/-- An instance that has not been asked yet. -/
theorem fresh_inv : Inv (State.constructed Config.candidateRom [] 0 ⟨0x54, 0x45, 0x53, 0x54, 0x30, 0x31⟩ 0x2A 2) :=
  constructed_inv Config.candidateRom [] 0 ⟨0x54, 0x45, 0x53, 0x54, 0x30, 0x31⟩ 0x2A 2 rom_accepted rfl []

/-- A failed instance and a finished one, each asked once more. -/
def failedState : State := { started 2 [] with running := false, failed := true, reason := 10, hostq := [.nextPacket] }

def doneState : State :=
  { inMono [] with running := false, done := true, pstate := .finish, cu := 4, hostq := [.nextPacket] }

theorem failed_inv : Inv failedState := by
  have S := fresh_inv.static
  exact ⟨⟨rfl, S.segbuf, S.pktbuf, S.rom, S.steps, by decide, fun h => (by cases h), by decide⟩, fun h => (by cases h),
    fun h => (by cases h), fun h => (by cases h), fun h => (by cases h)⟩

theorem done_inv : Inv doneState := by
  have S := fresh_inv.static
  refine ⟨⟨rfl, S.segbuf, S.pktbuf, S.rom, S.steps, by decide, fun h => (by cases h), by decide⟩, fun _ => ?_, fun _ => ?_,
    fun _ => ?_, fun _ => ?_⟩
  · refine ⟨fun _ => ?_, fun _ => ⟨rfl, fun c hc => ?_⟩, fun h => (by cases h), by decide, by decide, by decide⟩
    · exact ⟨.inl rfl, rfl, rfl, fun _ => rfl, by decide +kernel, by decide +kernel, by decide +kernel⟩
    · have hz : c = 0 := Nat.lt_one_iff.mp hc
      subst hz
      exact ⟨rfl, rfl, rfl⟩
  · constructor <;> decide +kernel
  · constructor <;> decide +kernel
  · have hp : pairOk 0 0 := .inr (by decide)
    have hq : pairOk Config.noneIdx Config.noneOff := .inl ⟨rfl, rfl⟩
    constructor
    case pair => exact hp
    case nextPair => exact hq
    all_goals decide +kernel

theorem witness_DecodeInvertsEncode :
    wellFormed (.v 15 0x7FFF) = true ∧ wellFormed (.sof0 2 []) = true ∧ wellFormed (.dri 4 [0, 3]) = true
      ∧ wellFormed (.nonmarker 0xFFFF) = true ∧ wellFormed (.acReserved 14) = true := by decide

theorem witness_EncodeInvertsDecode : decode (.bytes [0xFF, 0xDD, 0, 2]) = .ok (.dri 2 []) := by decide

theorem witness_StepRunsDecoded_marker :
    let s := { started 2 [0xD8] with mkReg := 0x00FF, outCount := 236 }
    s.running = true ∧ s.pstate ≠ .finish ∧ s.outCount ≠ 237 ∧ s.pstate = .marker ∧ s.srcPos < s.srcLen
      ∧ s.stuffPending = false ∧ s.skipCnt = 0
      ∧ hasLengthField (s.mkReg.extractLsb' 0 8 ++ memRead s.src s.srcPos) = false
      ∧ decode (.bytes (halfBytes (s.mkReg.extractLsb' 0 8 ++ memRead s.src s.srcPos))) = .ok .soi := by decide +kernel

theorem witness_StepRunsDecoded_stuffed :
    let s := { started 2 [0x00] with stuffPending := true }
    s.running = true ∧ s.pstate ≠ .finish ∧ s.outCount ≠ 237 ∧ s.pstate.entropy = false ∧ s.srcPos < s.srcLen
      ∧ s.stuffPending = true ∧ decode (.stuffed (memRead s.src s.srcPos)) = .ok (.stuff 0) := by decide +kernel

theorem witness_StepRunsDecoded_symbol :
    let s := { inMono [0x00] with ibits := 0b110, ilen := 3 }
    let s' := { inMono [0x00] with ibits := 0b11, ilen := 2, stuffPending := true }
    s.running = true ∧ s.outCount ≠ 237 ∧ s.pstate = .huff ∧ sourceTable s = some srcDc
      ∧ huffLookup srcDc s.ibits s.ilen = .found 3 3 ∧ decode (.symbol (decide (s.k = 0)) 3) = .ok (.dc 0 3)
      ∧ sourceTable s' = some srcDc ∧ huffLookup srcDc s'.ibits s'.ilen = .needInput ∧ s'.srcPos < s'.srcLen
      ∧ s'.stuffPending = true := by decide +kernel

theorem witness_StepRunsDecoded_field :
    let s := { inMono [0x00] with pstate := .int, needbits := 4, ibits := 0b1010, ilen := 4 }
    let s' := { inMono [0x00] with pstate := .int, needbits := 4, ibits := 0b101, ilen := 3, stuffPending := true }
    s.running = true ∧ s.outCount ≠ 237 ∧ s.pstate = .int ∧ s.needbits.toNat ≤ s.ilen
      ∧ decode (.field s.needbits (BitVec.ofNat 15 (oldest s.ibits s.ilen s.needbits.toNat))) = .ok (.v 4 10)
      ∧ s'.pstate = .int ∧ s'.ilen < s'.needbits.toNat ∧ s'.srcPos < s'.srcLen ∧ s'.stuffPending = true := by
  decide +kernel

theorem witness_StepRunsDecoded_commands :
    let s := { inMono [] with outCount := 237 }
    let s' := { started 2 [] with running := false, hostq := [.nextPacket] }
    (s.running = true ∧ s.outCount = 237) ∧ ({ s with pstate := .finish }.pstate = .finish)
      ∧ s'.running = false ∧ s'.hostq = .nextPacket :: [] ∧ decode (.command .nextPacket) = .ok .nextPacket
      ∧ State.reset.running = false ∧ State.reset.hostq = [] := by decide +kernel

/-- No code of the table matches; a byte is needed and there is none; one of a skipped payload; one for the window. -/
theorem witness_StepRunsDecoded_bytes :
    let s := { inMono [] with ibits := 0xFFFF, ilen := 16 }
    let u := { inMono [0xFC] with ibits := 0b11, ilen := 2 }
    let v := { inMono [0xFF] with pstate := .int, needbits := 4, ibits := 0b101, ilen := 3 }
    let p := { started 2 [0x4A] with skipCnt := 1 }
    (s.running = true ∧ s.pstate = .huff ∧ s.outCount ≠ 237 ∧ sourceTable s = some srcDc
      ∧ huffLookup srcDc s.ibits s.ilen = .noMatch)
    ∧ (NeedsByte (started 2 []) ∧ (started 2 []).srcLen ≤ (started 2 []).srcPos)
    ∧ (NeedsByte p ∧ p.srcPos < p.srcLen ∧ p.stuffPending = false ∧ 0 < p.skipCnt)
    ∧ (NeedsByte u ∧ u.srcPos < u.srcLen ∧ u.stuffPending = false ∧ u.skipCnt = 0 ∧ u.pstate.entropy = true)
    ∧ (NeedsByte v ∧ v.srcPos < v.srcLen ∧ v.stuffPending = false ∧ v.skipCnt = 0 ∧ v.pstate.entropy = true) :=
  ⟨by decide +kernel, ⟨.inl ⟨rfl, by decide⟩, by decide +kernel⟩, ⟨.inl ⟨rfl, by decide⟩, by decide +kernel⟩,
    ⟨.inr (.inl ⟨rfl, srcDc, by decide +kernel, by decide +kernel⟩), by decide +kernel⟩,
    ⟨.inr (.inr ⟨rfl, by decide +kernel⟩), by decide +kernel⟩⟩

theorem witness_SourceBytesRunAsInstruction :
    ∀ l ∈ [[0xFF, 0xD8], [0xFF, 0xE0, 0, 1], [0xFF, 0xDD, 0, 2], [0xFF, 0xDD, 0, 4, 0, 3]],
      let s := started 2 l
      s.running = true ∧ s.pstate = .marker ∧ s.outCount ≠ 237 ∧ s.stuffPending = false ∧ s.skipCnt = 0
        ∧ Memory.wf s.segbuf = true ∧ s.srcPos + l.length ≤ s.srcLen ∧ memReadN s.src s.srcPos l.length = l
        ∧ (decode (.bytes l)).toOption.isSome = true ∧ isMarker (l.getD 0 0 ++ l.getD 1 0) = true := by decide +kernel

theorem witness_PullRule :
    let s := { started 2 [0x00, 0xD9] with stuffPending := true }
    let k := { started 2 [0x00] with skipCnt := 1 }
    (started 2 []).srcLen ≤ (started 2 []).srcPos
      ∧ s.srcPos < s.srcLen ∧ s.stuffPending = true ∧ memRead s.src s.srcPos = 0
      ∧ memRead s.src { s with srcPos := 1 }.srcPos ≠ 0
      ∧ k.srcPos < k.srcLen ∧ k.stuffPending = false ∧ 0 < k.skipCnt ∧ (started 2 [0x00]).skipCnt = 0 := by decide +kernel

theorem witness_InboundWindowIsQueue : 4 ≤ { inMono [] with ibits := 0b1010, ilen := 4 }.ilen := by decide

theorem witness_LookupIgnoresLaterBits :
    0b110 < 2 ^ 3 ∧ 0b11111 < 2 ^ 5 ∧ huffLookup srcDc 0b110 3 = .found 3 3
      ∧ 0b1111111111111111 < 2 ^ 16 ∧ huffLookup srcDc 0b1111111111111111 16 = .noMatch
      ∧ huffLookup srcDc 0b11 2 = .needInput ∧ huffLookup srcDc (0b11 * 2 ^ 1 + 0) (2 + 1) = .found 3 3 := by decide

theorem witness_LookupInvertsEncode :
    srcDc.wellFormed = true ∧ (7 : Byte) ∈ srcDc.sym ∧ huffEncode srcDc 7 = some (0b1111110, 7) := by decide +kernel

theorem witness_ValueFieldsRoundTrip :
    1 ≤ 15 ∧ 0b111111111111111 < 2 ^ 15 ∧ 2 ^ (15 - 1) ≤ 0b111111111111111 ∧ 0 < 2 ^ (15 - 1)
      ∧ 2 ^ (1 - 1) ≤ 1 ∧ 1 < 2 ^ 1 := by decide

theorem witness_RestartMarker : (inMono []).scanOk = true ∧ (started 2 []).scanOk = false := by decide

theorem witness_SegmentLengths :
    2 ≤ (2 : Half).toNat ∧ 2 ≤ (0xFFFF : Half).toNat ∧ (1 : Half).toNat < 2 ∧ (0 : Half).toNat < 2 := by decide

theorem witness_FrameHeaderMonochrome :
    ∀ p ∈ [((16 : Half), (16 : Half), 64), (4080, 1024, 64)],
      (started 2 []).haveFrame = false ∧ 16 ≤ p.1.toNat ∧ p.1.toNat ≤ 4080 ∧ p.1.toNat % 16 = 0 ∧ 16 ≤ p.2.1.toNat
        ∧ p.2.1.toNat ≤ 4080 ∧ p.2.1.toNat % 16 = 0 ∧ p.2.1.toNat * p.1.toNat / p.2.2 ≤ 65535 := by decide +kernel

theorem witness_FrameHeaderColour :
    ∀ p ∈ [((16 : Half), (16 : Half), 256), (4080, 4080, 256), (4080, 2048, 128), (4080, 1024, 64)],
      (started 2 []).haveFrame = false ∧ 16 ≤ p.1.toNat ∧ p.1.toNat ≤ 4080 ∧ p.1.toNat % 16 = 0 ∧ 16 ≤ p.2.1.toNat
        ∧ p.2.1.toNat ≤ 4080 ∧ p.2.1.toNat % 16 = 0 ∧ p.2.1.toNat * p.1.toNat / p.2.2 ≤ 65535 := by decide +kernel

/-- The clauses of the check order are reached by the payloads of `test_sof0_accepted` and `test_sof0_refused`. -/
theorem witness_FrameHeaderCheckOrder : 2 ≤ (17 : Half).toNat ∧ 2 ≤ (2 : Half).toNat := by decide

theorem witness_ScanHeaderAccepted :
    (inMono []).haveFrame = true ∧ { inMono [] with scanOk := false }.scanOk = false ∧ (inMono []).ncomp = 1
      ∧ (inColour []).ncomp = 3 ∧ slotValid true true 0 ∧ slotValid true true 1
      ∧ slotValid (inColour []).sqt.s0.valid (inColour []).sqt.s1.valid (inColour []).tq.c2.toNat
      ∧ slotValid (inColour []).shtDc.s0.valid (inColour []).shtDc.s1.valid (0 : BitVec 4).toNat
      ∧ slotValid (inColour []).shtAc.s0.valid (inColour []).shtAc.s1.valid (0 : BitVec 4).toNat :=
  ⟨rfl, rfl, rfl, rfl, .inl ⟨rfl, rfl⟩, .inr ⟨rfl, rfl⟩, .inl ⟨rfl, rfl⟩, .inl ⟨rfl, rfl⟩, .inl ⟨rfl, rfl⟩⟩

/-- The clauses of the check order are reached by the payloads of `test_sos_rows` and `test_sos_out_of_order`; a slot
above 1, or one that is not valid, is missing. -/
theorem witness_ScanHeaderCheckOrder :
    2 ≤ (8 : Half).toNat ∧ (started 2 []).haveFrame = false ∧ (inMono []).haveFrame = true ∧ (inMono []).scanOk = true
      ∧ ¬slotValid true true 2 ∧ ¬slotValid true false 1 ∧ ¬slotValid false true 0 := by
  refine ⟨by decide, rfl, rfl, rfl, ?_, ?_, ?_⟩ <;> unfold slotValid <;> decide

theorem witness_CoefficientTableDefinitions :
    2 ≤ (2 : Half).toNat
      ∧ ∀ e ∈ [((0 : BitVec 4), List.replicate 64 (0 : Byte)), (1, List.replicate 64 255), (15, List.replicate 64 1)],
        e.2.length = 64 := by decide

theorem witness_HuffmanTableDefinitions :
    ∀ e ∈ [HuffDef.mk 0 0 srcDc.count srcDc.sym, HuffDef.mk 1 1 srcAc.count srcAc.sym,
        HuffDef.mk 1 15 (List.replicate 16 0) []], e.ok := by
  unfold HuffDef.ok
  decide +kernel

theorem witness_TableDefinitionErrors :
    let count257 : List Byte := [255, 2] ++ List.replicate 14 0
    (List.replicate 64 (0 : Byte)).length < 65 ∧ [(0 : Byte)] ≠ []
      ∧ 65 ≤ (0x10 :: List.replicate 64 (0 : Byte)).length ∧ 16 ≤ ((0x10 : Byte) :: List.replicate 64 0).head!.toNat
      ∧ (List.replicate 16 (0 : Byte)).length < 17 ∧ 256 < countSum count257
      ∧ (0x00 :: srcDc.count ++ srcDc.sym.take 7).length < 17 + countSum srcDc.count
      ∧ 17 + countSum srcDc.count ≤ (0x20 :: srcDc.count ++ srcDc.sym).length ∧ 32 ≤ (0x20 : Byte).toNat := by
  decide +kernel

theorem witness_RestartInterval : 2 ≤ (3 : Half).toNat ∧ [(3 : Byte)].length < 2 := by decide

theorem witness_SizedSymbolsAwaitValue :
    (1 : BitVec 4) ≠ 0 ∧ (inMono []).k = 0 ∧ 48 + (15 : BitVec 4).toNat ≤ 63 ∧ 63 < 49 + (15 : BitVec 4).toNat := by
  decide

/-- Delta 10 with steps 8 and 28 at the reset point: 80, 3, 3; and "no change": 0, 0, 0. -/
theorem witness_DcStepWritesDifference :
    let s := { inMono [] with pstate := .int }
    s.k = 0 ∧ DcNumbers s (vdecode 0b1010 4) 80 3 3 ∧ DcNumbers s 0 0 0 0 ∧ (vencode 3).2 ≤ 15
      ∧ huffEncode (destTable .dc s) (BitVec.ofNat 8 (vencode 3).2) = some (0b011, 3)
      ∧ huffEncode (destTable .dc s) (BitVec.ofNat 8 (vencode 0).2) = some (0b00, 2) :=
  ⟨rfl, ⟨8, 28, 0, 0, by decide +kernel⟩, ⟨8, 28, 0, 0, by decide +kernel⟩, by decide, by decide +kernel,
    by decide +kernel⟩

/-- One past the largest 32-bit value; a difference of 27 bits at the largest value; one the table lacks, by a value
field and by a symbol of size 0. -/
theorem witness_DcStepFatals :
    let s (r : BitVec 32) := { inMono [] with pstate := .int, dcraw := ⟨r, 0, 0⟩ }
    DcNumbers (s 0x7FFFFFF8) (vdecode 1 1) 2147483648 76695845 76695845 ∧ (2 : Int) ^ 31 - 1 < 2147483648
      ∧ DcNumbers (s 0x7FFFFFF7) (vdecode 1 1) 2147483647 76695845 76695845 ∧ 15 < (vencode 76695845).2
      ∧ DcNumbers (s 0xDFF8) (vdecode 1 1) 57344 2048 2048 ∧ DcNumbers (s 0xE000) 0 57344 2048 2048
      ∧ huffEncode (destTable .dc (s 0)) (BitVec.ofNat 8 (vencode 2048).2) = none :=
  ⟨⟨8, 28, 0x7FFFFFF8, 0, by decide +kernel⟩, by decide, ⟨8, 28, 0x7FFFFFF7, 0, by decide +kernel⟩, by decide +kernel,
    ⟨8, 28, 0xDFF8, 0, by decide +kernel⟩, ⟨8, 28, 0xE000, 0, by decide +kernel⟩, by decide +kernel⟩

theorem witness_EndOfBlockSymbol :
    let c (p comp : Nat) := { inColour [] with part := p, comp := comp, k := 5 }
    let m := { inMono [] with k := 5 }
    huffEncode (destTable .ac (c 0 0)) 0x00 = some (0b1010, 4) ∧ (c 0 0).mono = false
      ∧ (c 0 0).part + 1 ≠ (c 0 0).yparts + 2 ∧ huffEncode (destTable .ac (c 5 2)) 0x00 = some (0b00, 2)
      ∧ (c 5 2).part + 1 = (c 5 2).yparts + 2 ∧ m.mono = true ∧ m.part + 1 = m.yparts
      ∧ huffEncode m.rom.dhtDc.s1 0x00 = some (0b00, 2) ∧ huffEncode m.rom.dhtAc.s1 0x00 = some (0b00, 2) := by
  decide +kernel

theorem witness_ZeroRunSymbol :
    huffEncode (destTable .ac (inMono [])) 0xF0 = some (0b11111111001, 11) ∧ 47 + 16 ≤ 63 ∧ 63 < 48 + 16 := by
  decide +kernel

/-- Value 7 with steps 8 and 19 after 17 zeros, and value 1, which is rescaled to zero; at `K` = 62 too. -/
theorem witness_AcValueInBlock :
    let s := { inMono [] with pstate := .int, k := 18, accrle := 16, acrle := 1 }
    let u := { inMono [] with pstate := .int, k := 62 }
    (1 ≤ s.k ∧ s.k < 63 ∧ sourceStep s s.k = some 8 ∧ destStep s s.k = some 38
      ∧ rdiv (vdecode 31 5 * (8 : Byte).toNat) (38 : Byte).toNat = 7 ∧ (vencode 7).2 ≤ 15
      ∧ (huffEncode (destTable .ac s) 0xF0).isSome = true
      ∧ (huffEncode (destTable .ac s) (BitVec.ofNat 8 ((16 + 1) % 16 * 16 + 3))).isSome = true)
      ∧ 1 ≤ u.k ∧ u.k < 63 ∧ sourceStep u u.k = some 8 ∧ (destStep u u.k).isSome = true
      ∧ rdiv (vdecode 1 1 * (8 : Byte).toNat) (38 : Byte).toNat = 0 := by decide +kernel

/-- Value 63 with steps 8 and 170 after 15 zeros, and value 1, which is rescaled to zero; in the last part of a unit;
in a monochrome image after 40 zeros. -/
theorem witness_LastCoefficientEndsBlock :
    let c (p comp z : Nat) := { inColour [] with pstate := .int, k := 63, part := p, comp := comp, accrle := z }
    let m := { inMono [] with pstate := .int, k := 63, accrle := 40 }
    (∀ s ∈ [c 0 0 15, m], s.k = 63 ∧ sourceStep s 63 = some 8 ∧ destStep s 63 = some 170
        ∧ (huffEncode (destTable .ac s) 0xF0).isSome = true ∧ (huffEncode (destTable .ac s) 0x00).isSome = true
        ∧ (huffEncode (destTable .ac s)
            (BitVec.ofNat 8 ((s.accrle + s.acrle.toNat) % 16 * 16 + (vencode 3).2))).isSome = true)
      ∧ rdiv (vdecode 63 6 * (8 : Byte).toNat) (170 : Byte).toNat = 3 ∧ (vencode 3).2 ≤ 15
      ∧ rdiv (vdecode 1 1 * (8 : Byte).toNat) (170 : Byte).toNat = 0
      ∧ (c 0 0 15).mono = false ∧ (c 0 0 15).part + 1 ≠ (c 0 0 15).yparts + 2
      ∧ (c 5 2 0).part + 1 = (c 5 2 0).yparts + 2 ∧ (destStep (c 5 2 0) 63).isSome = true
      ∧ m.mono = true ∧ m.part + 1 = m.yparts ∧ 16 ≤ m.accrle + m.acrle.toNat := by decide +kernel

/-- Source step 19 equals the destination step of coefficient 1 at level 2, and 170 that of coefficient 63. -/
theorem witness_EqualStepsPassThrough :
    let s := { withTables 19 (inMono []) with pstate := .int, k := 1, acrle := 0 }
    let u := { withTables 170 (inMono []) with pstate := .int, k := 63, acrle := 2 }
    1 ≤ s.k ∧ s.k < 63 ∧ s.accrle = 0 ∧ sourceStep s s.k = some 19 ∧ destStep s s.k = some 19
      ∧ wellFormed (.v 3 7) = true ∧ (huffEncode (destTable .ac s) (s.acrle ++ (3 : BitVec 4))).isSome = true
      ∧ u.k = 63 ∧ u.accrle = 0 ∧ sourceStep u u.k = some 170 ∧ destStep u u.k = some 170
      ∧ (huffEncode (destTable .ac u) (u.acrle ++ (3 : BitVec 4))).isSome = true := by
  decide +kernel

/-- Value 32767 with steps 8 and 19 has 14 bits, a size the candidate tables lack; with steps 255 and 19 it has 19 bits.
Tables without any symbol lack `EOB` and `ZRL`. -/
theorem witness_AcEncodeRange :
    let s := { inMono [] with pstate := .int, k := 1 }
    let u := { withTables 255 (inMono []) with pstate := .int, k := 1 }
    let none' : HuffTable := emptyHuffSlot.table
    let e := { inMono [] with
      pstate := .int, k := 63, accrle := 16, rom := { Config.candidateRom with dhtAc := ⟨none', none'⟩ } }
    sourceStep s s.k = some 8 ∧ destStep s s.k = some 19 ∧ sourceStep u u.k = some 255 ∧ destStep u u.k = some 19
      ∧ huffEncode (destTable .ac s) (BitVec.ofNat 8
          ((s.accrle + s.acrle.toNat) % 16 * 16 + (vencode (rdiv (32767 * (8 : Byte).toNat) 19)).2)) = none
      ∧ 15 < (vencode (rdiv (32767 * (255 : Byte).toNat) 19)).2
      ∧ huffEncode (destTable .ac e) 0xF0 = none ∧ huffEncode (destTable .ac e) 0x00 = none ∧ 16 ≤ e.accrle
      ∧ sourceStep e 63 = some 8 ∧ destStep e 63 = some 170
      ∧ huffEncode (destTable .ac { e with k := 47 }) 0xF0 = none := by decide +kernel

theorem witness_RoundingDivision : 1 ≤ 255 ∧ 4 % 2 = 0 ∧ 255 % 2 = 1 ∧ 2 * (6 - 4 * rdiv 6 4).natAbs = 4 := by decide

theorem witness_OutboundStream :
    Memory.wf (inMono []).pktbuf = true ∧ (inMono []).outCount ≤ 237
      ∧ { inMono [] with outCount := 237, olen := 157 }.outCount ≤ 237 := by decide

theorem witness_RecordedBoundary :
    let s (i : Half) (n l : Nat) := { inColour [] with pktCuIdx := i, outCount := n, olen := l }
    (s 0 236 7).outCount ≤ 237 ∧ (s 0 236 7).olen < 8 ∧ (s 0 236 7).pktCuIdx ≠ 0xFFFF
      ∧ (sync (s 0xFFFF 235 3)).outCount + (sync (s 0xFFFF 235 3)).olen / 8 < 237
      ∧ 237 ≤ (sync (s 0xFFFF 236 3)).outCount + (sync (s 0xFFFF 236 3)).olen / 8
      ∧ (s 3 237 157).outCount = 237 := by decide +kernel

theorem witness_UnitEndRule :
    let s (cu : Nat) (dri : Half) := { inMono [] with cu := cu, dri := dri }
    (s 3 0).cu + 1 = (s 3 0).nunits ∧ (s 1 2).cu + 1 ≠ (s 1 2).nunits ∧ 0 < (s 1 2).dri.toNat
      ∧ ((s 1 2).cu + 1) % (s 1 2).dri.toNat = 0 ∧ (s 1 0).dri.toNat = 0
      ∧ ((s 0 2).cu + 1) % (s 0 2).dri.toNat ≠ 0 := by decide

theorem next_of_after {α : Type} {o : Host.Outcome State Fault Refusal} {f : State → α} {x : α}
    (h : after o f = some x) : ∃ t, o = .next t ∧ f t = x := by
  cases o with
  | next t => exact ⟨t, rfl, Option.some.inj h⟩
  | fault _ => cases h
  | refused _ => cases h

theorem witness_EntropyFrame : ∃ t, exec (.v 4 0b1010) { inMono [] with pstate := .int } = .next t ∧ t.k = 1 :=
  next_of_after (f := (·.k)) (by decide +kernel)

theorem witness_FixedSymbolsComplete :
    Inv { inMono [] with k := 1 } ∧ Inv { inMono [] with k := 47 } ∧ (inMono []).running = true
      ∧ (inMono []).pstate = .huff ∧ 47 + 16 ≤ 63 :=
  ⟨in_block_inv (.inl rfl), in_block_inv (.inr (.inl rfl)), rfl, rfl, by decide⟩

theorem witness_ConstructResets :
    State.reset.rom.wellFormed = true ∧ { Config.candidateRom with qscaleDen := 0 }.wellFormed = false := by
  decide +kernel

theorem witness_NextPacketWithoutPacket :
    failedState.failed = true ∧ doneState.failed = false ∧ doneState.done = true
      ∧ (drain (inMono [])).outCount ≠ 237 ∧ (inMono []).pstate ≠ .finish
      ∧ (drain { inMono [] with outCount := 237, pktSeq := 65536 }).outCount = 237 ∧ 65535 < 65536 := by decide +kernel

theorem witness_NextPacketReturnsPacket :
    let s := { inMono [] with outCount := 229, olen := 64, pktSeq := 65535 }
    s.failed = false ∧ s.done = false ∧ s.pktSeq ≤ 65535 ∧ (drain s).outCount = 237 := by decide +kernel

theorem witness_PacketLayout :
    (inMono []).outCount ≤ 237 ∧ 236 < { inMono [] with outCount := 237 }.outCount ∧ 236 + 0 < 237 := by decide

theorem witness_PaddingSequence : 0 < 1 ∧ 236 < 237 := by decide

theorem witness_ChecksumDetectsOneByte : (0 : Byte) ≠ 0x80 := by decide

theorem witness_CallsignCode :
    ∀ ch ∈ callsignCells ⟨0x31, 0x39, 0x41, 0x5A, 0x31, 0x41⟩,
      (0x31 ≤ ch.toNat ∧ ch.toNat ≤ 0x39) ∨ (0x41 ≤ ch.toNat ∧ ch.toNat ≤ 0x5A) := by decide

theorem witness_DestinationSteps :
    Config.candidateRom.qscaleNum[(7 : BitVec 3).toNat]? = some 0 ∧ Config.candidateRom.qseed.s0[0]? = some 16
      ∧ Config.candidateRom.qseed.s1[63]? = some 99 ∧ Config.candidateRom.wellFormed = true
      ∧ (0 : BitVec 3).toNat ≤ (7 : BitVec 3).toNat := by decide +kernel

theorem witness_PacketCarriesStream :
    Memory.wf (inMono []).pktbuf = true
      ∧ ∃ t, exec .nextPacket { inMono [] with outCount := 237, obits := 2, olen := 2 } = .next t
        ∧ (match t.reply with
          | some (.packet _) => true
          | _ => false) = true :=
  ⟨rfl, next_of_after
    (f := fun t => match t.reply with
      | some (.packet _) => true
      | _ => false) (by decide +kernel)⟩

/-- For `InvKept`, `StepNeverStops`, `CommandTerminates`, `PstateTransfers`, `WindowKept` and `ImmutableRegisters`. -/
theorem witness_steps :
    Inv (started 2 [0xFF, 0xD8]) ∧ (started 2 [0xFF, 0xD8]).running = true ∧ (started 2 [0xFF, 0xD8]).failed = false
      ∧ WindowOk (started 2 [0xFF, 0xD8])
      ∧ ∃ t, step (started 2 [0xFF, 0xD8]) = .next t ∧ (t.srcPos, t.failed) = (1, false) :=
  ⟨started_inv, rfl, rfl, ⟨fun h => (by cases h), fun h => (by cases h), fun _ => by decide⟩,
    next_of_after (f := fun t => (t.srcPos, t.failed)) (by decide +kernel)⟩

theorem witness_ImmutableRegisters_accepted :
    (inMono []).running = true ∧ (inMono []).haveFrame = true ∧ (inMono []).scanOk = true
      ∧ (inMono [0xFC]).srcPos ≤ (inMono [0xFC]).srcLen
      ∧ ∃ t, step (inMono [0xFC]) = .next t ∧ t.srcPos = 1 :=
  ⟨rfl, rfl, rfl, by decide, next_of_after (f := (·.srcPos)) (by decide +kernel)⟩

theorem witness_EndedInstanceStays :
    (Inv failedState ∧ failedState.failed = true ∧ ∃ t, step failedState = .next t ∧ t.reply = some (.fatal 10))
      ∧ (Inv doneState ∧ doneState.done = true ∧ ∃ t, step doneState = .next t ∧ t.reply = some .done)
      ∧ failedState.hostq = [.nextPacket] ∧ doneState.hostq = [.nextPacket] :=
  ⟨⟨failed_inv, rfl, next_of_after (f := (·.reply)) (by decide +kernel)⟩,
    ⟨done_inv, rfl, next_of_after (f := (·.reply)) (by decide +kernel)⟩, rfl, rfl⟩

/-- A step that runs a symbol: `EOB` is in the window. -/
theorem witness_WindowKept :
    let s := { inMono [] with k := 1, ibits := 0b100, ilen := 3 }
    Inv s ∧ s.failed = false ∧ WindowOk s ∧ s.running = true ∧ s.outCount ≠ 237 ∧ WindowSuffices s
      ∧ ∃ t, step s = .next t ∧ t.ilen = 0 :=
  ⟨in_block_inv (.inr (.inr rfl)), rfl, ⟨fun _ => .inl (by decide), fun h => (by cases h), fun h => (by cases h)⟩, rfl,
    by decide, .inl ⟨rfl, srcAc, 0x00, 3, by decide +kernel, by decide +kernel⟩,
    next_of_after (f := (·.ilen)) (by decide +kernel)⟩

/-- A whole monochrome image of 16×16 pixels: four units of "no change" and `EOB`. -/
def smallImage : List Byte :=
  [0xFF, 0xD8, 0xFF, 0xDB, 0, 67, 0] ++ List.replicate 64 8
    ++ [0xFF, 0xC0, 0, 11, 8, 0, 16, 0, 16, 1, 1, 0x11, 0]
    ++ [0xFF, 0xC4, 0, 27, 0x00] ++ srcDc.count ++ srcDc.sym
    ++ [0xFF, 0xC4, 0, 34, 0x10] ++ srcAc.count ++ srcAc.sym
    ++ [0xFF, 0xDA, 0, 8, 1, 1, 0x00, 0, 63, 0, 0b00100001, 0b00001000, 0b01001111, 0xFF, 0xD9]

/-- An instance that has not been asked yet, over a whole image and over the empty source. -/
theorem witness_OutputContract :
    ∀ l ∈ [smallImage, []],
      let s := State.constructed Config.candidateRom (memOfBytes 0 l) l.length
        ⟨0x54, 0x45, 0x53, 0x54, 0x30, 0x31⟩ 0x2A 2
      Inv s ∧ s.running = false ∧ s.done = false ∧ s.failed = false ∧ s.pktSeq = 0 :=
  fun l _ => ⟨constructed_inv Config.candidateRom (memOfBytes 0 l) l.length ⟨0x54, 0x45, 0x53, 0x54, 0x30, 0x31⟩ 0x2A 2
    rom_accepted (memOfBytes_wf l) [], rfl, rfl, rfl, rfl⟩

end Sys2Proof.Tests
end

/-! PROOFS. The family of 10_state.md: the invariant at reset and after every step, no stop from a state that meets it,
and what no step of a command in progress changes. -/

section
/-! The invariant along a step. `Laws/` has it after each meaning and each fetch; here they are put together along
the branches of `fetch`, `fetchNext` and `step`. -/

namespace Sys2Proof.Machine

/-- The host's queue is no part of the invariant. -/
theorem Inv.withHostq {s : State} (h : Inv s) (q : List Command) : Inv { s with hostq := q } where
  static := h.static.congr h.static.src h.static.segbuf h.static.pktbuf rfl rfl rfl rfl rfl rfl rfl
  tables hf := (h.tables hf).congr ⟨rfl, rfl, rfl, rfl, rfl, rfl, rfl, rfl, rfl⟩ ⟨rfl, rfl, rfl, rfl, rfl, rfl, rfl⟩
    (h.tables hf).entropy
  parser hf := have p := h.parser hf; ⟨p.len, p.data, p.skip, p.stuff, p.skipMax⟩
  cursor hf := have c := h.cursor hf; ⟨c.outside, c.inside, c.k, c.zeros, c.needbits, c.cu⟩
  output hf := (h.output hf).congr rfl rfl ⟨rfl, rfl, rfl, rfl, rfl, rfl, rfl, rfl, rfl⟩ rfl rfl Iff.rfl

/-- Every host command keeps the invariant: the ROM that `CONSTRUCT` asks for is the accepted one of the state. -/
theorem execCommand_inv {s : State} (h : Inv s) : (c : Command) → ToInv (exec (decodeCommand c) s)
  | .construct c i q l =>
    ⟨_, if_pos h.static.rom, constructed_inv s.rom (memOfBytes 0 l) l.length c i q h.static.rom (memOfBytes_wf l) s.hostq⟩
  | .nextPacket => execNextPacket_inv h

/-- Every fetch of a command in progress keeps the invariant, whichever decoder `PSTATE` names. -/
theorem fetch_inv {s : State} (h : Live s) : ToInv (fetch s).run := by
  unfold fetch
  cases hp : s.pstate with
  | marker => exact markerByte_inv h hp
  | len => exact lengthByte_inv h hp
  | data => exact payloadStep_inv h hp
  | huff => exact fetchSymbol_inv h hp
  | int => exact fetchField_inv h hp
  | finish => exact absurd hp h.nfin

/-- One iteration of `NEXT_PACKET`'s loop keeps the invariant (45_packet.md R235). -/
theorem fetchNext_inv {s : State} (h : Inv s) (hr : s.running = true) : ToInv (fetchNext s).run := by
  unfold fetchNext
  split
  case isTrue => exact execNextPacket_inv h
  case isFalse hgo =>
    obtain ⟨hfin, hroom⟩ := not_or.mp hgo
    exact fetch_inv ⟨h, hr, hroom, hfin⟩

/-- A step from a state that meets the invariant has a next state, and that one meets it. -/
theorem step_inv {s : State} (h : Inv s) : ToInv (step s) := by
  unfold step
  split
  case isTrue hr => exact fetchNext_inv h hr
  case isFalse =>
    cases s.hostq with
    | nil => exact ⟨s, rfl, h⟩
    | cons c q => exact execCommand_inv (h.withHostq q) c

/-- The candidate ROM is one that the spec accepts (93_implementation_defined.md U9). -/
theorem candidateRom_wellFormed : Config.candidateRom.wellFormed = true := by decide +kernel

/-- Settles O51: the next state of `step_inv` is the only one. -/
theorem invKept : Obligations.InvKept := by
  intro s t h hstep
  obtain ⟨t', hstep', ht'⟩ := step_inv h
  rw [hstep] at hstep'
  cases hstep'
  exact ht'

/-- Settles O52: `step_inv` gives the next state. -/
theorem stepNeverStops : Obligations.StepNeverStops := by
  intro s h
  obtain ⟨t, hstep, _⟩ := step_inv h
  exact ⟨t, hstep⟩

/-- Settles O50: reset is `CONSTRUCT` over the candidate ROM and the empty source. -/
theorem invAtReset : Obligations.InvAtReset :=
  constructed_inv Config.candidateRom [] 0 ⟨0, 0, 0, 0, 0, 0⟩ 0 0 candidateRom_wellFormed rfl []

end Sys2Proof.Machine
end

section
/-! What a step of a command in progress leaves alone. No invariant is assumed: the registers are kept from every state,
so each operation's lemma says so without a premise. Only a frame header writes the image parameters and only a scan
header writes `SCAN_OK`; every other operation leaves all of `fixedRegs` as it is. -/

namespace Sys2Proof.Machine

/-- What only `CONSTRUCT`, a frame header, a scan header, a `Pull()` or the host writes. -/
def fixedRegs (s : State) :=
  ((s.src, s.srcLen, s.rom, s.callsignCode, s.imageId, s.quality, s.dqtDst),
    (s.haveFrame, s.width, s.height, s.ncomp, s.mono, s.mode, s.yparts, s.nunits, s.tq), s.scanOk, s.srcPos, s.hostq)

/-- What every instruction of a command in progress keeps: the configuration, the image parameters once they are there,
an accepted scan header, the program position and the host's queue. -/
structure Keeps (s t : State) : Prop where
  config : sameConfig s t
  image : s.haveFrame = true → sameImage s t
  scan : s.scanOk = true → t.scanOk = true
  srcPos : t.srcPos = s.srcPos
  hostq : t.hostq = s.hostq

theorem Keeps.of_fixed {s t : State} (h : fixedRegs t = fixedRegs s) : Keeps s t := by
  simp only [fixedRegs, Prod.mk.injEq] at h
  obtain ⟨hconfig, himage, hscan, hpos, hq⟩ := h
  exact ⟨hconfig, fun _ => himage, fun hs => hscan.trans hs, hpos, hq⟩

theorem sameImage.trans {s t u : State} (h : sameImage s t) (h' : sameImage t u) : sameImage s u := by
  simp only [sameImage] at h h' ⊢
  simp only [h', h, and_self]

theorem sameConfig.trans {s t u : State} (h : sameConfig s t) (h' : sameConfig t u) : sameConfig s u := by
  simp only [sameConfig] at h h' ⊢
  simp only [h', h, and_self]

theorem Keeps.trans {s t u : State} (h : Keeps s t) (h' : Keeps t u) : Keeps s u where
  config := h.config.trans h'.config
  image hf := have hi := h.image hf; hi.trans (h'.image (hi.1.trans hf))
  scan hs := h'.scan (h.scan hs)
  srcPos := h'.srcPos.trans h.srcPos
  hostq := h'.hostq.trans h.hostq

/-- Whether a step ends normally or in a fatal condition, the state it leaves keeps what it must. -/
def Res.Keeps (s : State) : Res → Prop
  | .ok t => Machine.Keeps s t
  | .fatal _ t => Machine.Keeps s t
  | .fault _ => True

/-- What is kept from `u` on is kept from a state that differs from `u` in other registers only. -/
theorem Res.Keeps.from {s u : State} {r : Res} (h : r.Keeps u) (hu : fixedRegs u = fixedRegs s) : r.Keeps s := by
  cases r with
  | ok t => exact (Keeps.of_fixed hu).trans h
  | fatal e t => exact (Keeps.of_fixed hu).trans h
  | fault f => trivial

/-- Sequencing: both parts keep what they must. -/
theorem Res.Keeps.andThen {s : State} {r : Res} {k : State → Res} (h : r.Keeps s) (hk : ∀ u, (k u).Keeps u) :
    (r.andThen k).Keeps s := by
  cases r with
  | fatal e u => exact h
  | fault f => trivial
  | ok u =>
    show (k u).Keeps s
    have hu := hk u
    cases hku : k u with
    | ok t => rw [hku] at hu; exact h.trans hu
    | fatal e t => rw [hku] at hu; exact h.trans hu
    | fault f => trivial

/-- Sequencing with a write of other registers. -/
theorem Res.Keeps.andWrite {s : State} {r : Res} {f : State → State} (h : r.Keeps s)
    (hf : ∀ u, fixedRegs (f u) = fixedRegs u) : (r.andThen fun u => .ok (f u)).Keeps s :=
  h.andThen fun u => Keeps.of_fixed (hf u)

/-- Taking the fatal condition writes the status only. -/
theorem Res.Keeps.outcome {s t : State} {r : Res} (h : r.Keeps s) (ht : r.outcome = .next t) : Machine.Keeps s t := by
  cases r with
  | ok u => cases ht; exact h
  | fatal e u => cases ht; exact h.trans (Keeps.of_fixed rfl)
  | fault f => cases ht

/-- Every other register may be written. -/
theorem Res.keeps_ok {s t : State} (h : fixedRegs t = fixedRegs s) : (Res.ok t).Keeps s := Keeps.of_fixed h

theorem Res.keeps_fatal {s t : State} (e : Reason) (h : fixedRegs t = fixedRegs s) : (Res.fatal e t).Keeps s :=
  Keeps.of_fixed h

/-! Writing symbols, ends of blocks, the rescaler. -/

theorem Wrote.fixedRegs {n : Nat} {s t : State} (h : Wrote n s t) : fixedRegs t = fixedRegs s := by
  rw [h.frame]; rfl

theorem emit_keeps (cls : HuffClass) (run : Nat) (v : Int) (s : State) : (emit cls run v s).Keeps s := by
  by_cases hn : 15 < (vencode v).2
  · rw [emit_range (.inl hn)]; exact Res.keeps_fatal _ rfl
  · cases hc : huffEncode (destTable cls s) (BitVec.ofNat 8 (run * 16 + (vencode v).2)) with
    | none => rw [emit_range (.inr hc)]; exact Res.keeps_fatal _ rfl
    | some p => rw [emit_ok (Nat.le_of_not_lt hn) hc]; exact Res.keeps_ok (emitted_wrote _ _ _ _).fixedRegs

theorem unitEnd_fixedRegs (s : State) : fixedRegs (unitEnd s) = fixedRegs s := by
  obtain ⟨u, n, hw, _, he, _⟩ := unitEnd_cases s
  rw [he, hw.frame]; rfl

theorem synthesizeChroma_keeps (cc : Nat) (s : State) : (synthesizeChroma cc s).Keeps s := by
  have hdc : (emit .dc 0 0 { s with comp := cc }).Keeps s := (emit_keeps _ _ _ _).from rfl
  exact Res.Keeps.andWrite (hdc.andThen (emit_keeps .ac 0 0)) fun _ => rfl

theorem nextBlock_fixedRegs (s : State) : fixedRegs (nextBlock s) = fixedRegs s := by
  unfold nextBlock
  simp only
  split
  · exact unitEnd_fixedRegs _
  · rfl

theorem blockEnd_keeps (s : State) : (blockEnd s).Keeps s := by
  have hchroma := ((synthesizeChroma_keeps 1 { s with part := s.part + 1 }).from (s := s) rfl).andThen
    (synthesizeChroma_keeps 2)
  unfold blockEnd
  simp only
  split
  · exact hchroma.andWrite nextBlock_fixedRegs
  · exact Res.keeps_ok (nextBlock_fixedRegs _)

theorem finishStep_keeps (s : State) : (finishStep s).Keeps s := by
  unfold finishStep
  split
  · exact blockEnd_keeps s
  · exact Res.keeps_ok rfl

theorem dcEmit_keeps (new : Int) (s : State) : (dcEmit new s).Keeps s := by
  unfold dcEmit
  split
  · trivial
  · exact Res.Keeps.andWrite (emit_keeps _ _ _ s) fun _ => rfl

theorem dcUpdate_keeps (v : Int) (s : State) : (dcUpdate v s).Keeps s := by
  unfold dcUpdate
  split
  · split
    · exact Res.keeps_fatal _ rfl
    · exact (dcEmit_keeps _ _).from rfl
  · trivial
  · trivial

theorem emitZeroRuns_keeps (n : Nat) (s : State) : (emitZeroRuns n s).Keeps s := by
  induction n generalizing s with
  | zero => exact Res.keeps_ok rfl
  | succ n ih => exact Res.Keeps.andThen (Res.Keeps.andWrite (emit_keeps .ac 15 0 s) fun _ => rfl) ih

theorem acValue_keeps (v : Int) (s : State) : (acValue v s).Keeps s := by
  unfold acValue
  split
  · split
    · refine Res.Keeps.andWrite (Res.Keeps.andThen ?_ fun u => emit_keeps .ac _ _ u) fun _ => rfl
      exact (emitZeroRuns_keeps _ _).from rfl
    · split
      · exact Res.Keeps.andWrite (emit_keeps .ac 0 0 s) fun _ => rfl
      · exact Res.keeps_ok rfl
  · trivial

/-! Segments. -/

theorem skipSegment_keeps (len : Half) (s : State) : (skipSegment len s).Keeps s := by
  unfold skipSegment
  split
  · exact Res.keeps_fatal _ rfl
  · exact Res.keeps_ok rfl

theorem dispatch_keeps (len : Half) (s : State) {op : State → Res} (hop : ∀ u, (op u).Keeps u) :
    (dispatch len s op).Keeps s := by
  unfold dispatch
  split
  · exact Res.keeps_fatal _ rfl
  · exact (hop _).from rfl

/-- A frame header writes the image parameters only where there are none yet (40_segment_parser.md R129). -/
theorem frame_keeps (d : List Byte) (s : State) : (frame d s).Keeps s := by
  unfold frame
  split
  case h_1 => exact Res.keeps_fatal _ rfl
  case h_2 f hf =>
    have hfirst : s.haveFrame = false := (frameParams_ok hf s).1
    exact ⟨⟨rfl, rfl, rfl, rfl, rfl, rfl, rfl⟩, fun h => absurd h (by simp [hfirst]), id, rfl, rfl⟩

/-- A scan header sets `SCAN_OK` (40_segment_parser.md R134). -/
theorem scan_keeps (d : List Byte) (s : State) : (scan d s).Keeps s := by
  unfold scan
  split
  · exact Res.keeps_fatal _ rfl
  · exact ⟨⟨rfl, rfl, rfl, rfl, rfl, rfl, rfl⟩, fun _ => ⟨rfl, rfl, rfl, rfl, rfl, rfl, rfl, rfl, rfl⟩,
      fun _ => rfl, rfl, rfl⟩

theorem setInterval_keeps (d : List Byte) (s : State) : (setInterval d s).Keeps s := by
  unfold setInterval
  split
  · exact Res.keeps_fatal _ rfl
  · exact Res.keeps_ok rfl

theorem dqtDefs_keeps (fuel : Nat) (d : List Byte) (s : State) : (dqtDefs fuel d s).Keeps s := by
  induction fuel generalizing d s with
  | zero => exact Res.keeps_ok rfl
  | succ n ih =>
    unfold dqtDefs
    split; · exact Res.keeps_ok rfl
    split; · exact Res.keeps_fatal _ rfl
    split; · exact Res.keeps_fatal _ rfl
    exact (ih _ _).from rfl

theorem storeHuff_fixedRegs (cls idx : Nat) (t : HuffTable) (s : State) :
    fixedRegs (storeHuff cls idx t s) = fixedRegs s := by
  unfold storeHuff; split <;> rfl

theorem dhtDefs_keeps (fuel : Nat) (d : List Byte) (s : State) : (dhtDefs fuel d s).Keeps s := by
  induction fuel generalizing d s with
  | zero => exact Res.keeps_ok rfl
  | succ n ih =>
    unfold dhtDefs
    simp only
    split; · exact Res.keeps_ok rfl
    split; · exact Res.keeps_fatal _ rfl
    split; · exact Res.keeps_fatal _ rfl
    split; · exact Res.keeps_fatal _ rfl
    exact (ih _ _).from (storeHuff_fixedRegs _ _ _ _)

/-! Meanings of the instructions. -/

variable {s t : State}

theorem execRst_keeps (n : BitVec 3) (h : execRst n s = .next t) : Keeps s t := by
  refine Res.Keeps.outcome ?_ h
  split
  · exact Res.keeps_ok rfl
  · exact Res.keeps_fatal _ rfl

theorem execDc_keeps (hi size : BitVec 4) (h : execDc hi size s = .next t) : Keeps s t := by
  refine Res.Keeps.outcome ?_ h
  split
  · exact Res.Keeps.andThen (Res.Keeps.andWrite ((dcUpdate_keeps 0 _).from rfl) fun _ => rfl) finishStep_keeps
  · exact (finishStep_keeps _).from rfl

theorem execEob_keeps (h : execEob s = .next t) : Keeps s t := by
  refine Res.Keeps.outcome ?_ h
  exact Res.Keeps.andThen (Res.Keeps.andWrite ((emit_keeps .ac 0 0 _).from rfl) fun _ => rfl) finishStep_keeps

theorem execZrl_keeps (h : execZrl s = .next t) : Keeps s t := by
  refine Res.Keeps.outcome ?_ h
  split
  · exact Res.keeps_fatal _ rfl
  · exact Res.Keeps.andThen (Res.Keeps.andWrite ((emit_keeps .ac 15 0 _).from rfl) fun _ => rfl) finishStep_keeps

theorem execAc_keeps (run size : BitVec 4) (h : execAc run size s = .next t) : Keeps s t := by
  refine Res.Keeps.outcome ?_ h
  split
  · exact Res.keeps_fatal _ rfl
  · exact (finishStep_keeps _).from rfl

theorem execV_keeps (n : BitVec 4) (f : BitVec 15) (h : execV n f s = .next t) : Keeps s t := by
  refine Res.Keeps.outcome ?_ h
  refine Res.Keeps.andThen (Res.Keeps.andWrite ?_ fun _ => rfl) finishStep_keeps
  split
  · exact dcUpdate_keeps _ s
  · exact acValue_keeps _ s

theorem execStuff_keeps (b : Byte) (h : execStuff b s = .next t) : Keeps s t := by
  refine Res.Keeps.outcome ?_ h
  split
  · exact Res.keeps_ok rfl
  · exact Res.keeps_fatal _ rfl

theorem buildPacket_keeps (eoi : Bool) (s : State) : (buildPacket eoi s).Keeps s := by
  unfold buildPacket
  split
  · exact Res.keeps_fatal _ rfl
  · exact Res.keeps_ok rfl

theorem packetLoop_keeps (s : State) : (packetLoop s).Keeps s := by
  unfold packetLoop
  split; · exact buildPacket_keeps _ s
  split; · exact buildPacket_keeps _ s
  exact Res.keeps_ok rfl

theorem drain_fixedRegs (s : State) : fixedRegs (drain s) = fixedRegs s := by
  rw [(drain_flushed s).frame]; rfl

theorem execNextPacket_keeps (h : execNextPacket s = .next t) : Keeps s t := by
  refine Res.Keeps.outcome ?_ h
  split; · exact Res.keeps_ok rfl
  split; · exact Res.keeps_ok rfl
  exact (packetLoop_keeps _).from (drain_fixedRegs s)

/-- The one instruction that only the host issues between commands: `CONSTRUCT`. -/
def isConstruct : Instr → Bool
  | .construct _ _ _ _ => true
  | _ => false

/-- Every instruction that a command in progress runs keeps what it must. -/
theorem exec_keeps : (i : Instr) → isConstruct i = false → exec i s = .next t → Keeps s t
  | .tem, _, h | .soi, _, h | .nonmarker _, _, h | .eoi, _, h | .sof2, _, h | .acReserved _, _, h => by cases h; exact Keeps.of_fixed rfl
  | .rst n, _, h => execRst_keeps n h
  | .sof0 len d, _, h => (dispatch_keeps len s (frame_keeps d)).outcome h
  | .dht len d, _, h => (dispatch_keeps len s (dhtDefs_keeps _ d)).outcome h
  | .sos len d, _, h => (dispatch_keeps len s (scan_keeps d)).outcome h
  | .dqt len d, _, h => (dispatch_keeps len s (dqtDefs_keeps _ d)).outcome h
  | .dri len d, _, h => (dispatch_keeps len s (setInterval_keeps d)).outcome h
  | .skipC1 l, _, h | .skipC3 l, _, h | .skipC5 l, _, h | .skipC6 _ l, _, h | .skipC8 _ l, _, h | .skipDC l, _, h
  | .skipDE _ l, _, h | .skipE0 _ l, _, h | .skipF0 _ l, _, h | .skipF8 _ l, _, h | .skipFC _ l, _, h
  | .skipFE l, _, h => (skipSegment_keeps l s).outcome h
  | .dc hi size, _, h => execDc_keeps hi size h
  | .eob, _, h => execEob_keeps h
  | .zrl, _, h => execZrl_keeps h
  | .ac run size, _, h => execAc_keeps run size h
  | .v n f, _, h => execV_keeps n f h
  | .stuff b, _, h => execStuff_keeps b h
  | .nextPacket, _, h => execNextPacket_keeps h

/-! Fetching. -/

/-- Every state that a fetch leaves satisfies `P`, and no fetch gives `CONSTRUCT`. -/
def Fetched.All (P : State → Prop) : Fetched → Prop
  | .instr i t => isConstruct i = false ∧ P t
  | .more t => P t
  | .fatal _ t => P t
  | .fault _ => True

theorem markerInstr_not_construct (w len : Half) (d : List Byte) : isConstruct (markerInstr w len d) = false := by
  simp only [markerInstr, apply_ite isConstruct]
  simp only [isConstruct, ite_self]

theorem decodeSymbol_not_construct (isDc : Bool) (sym : Byte) : isConstruct (decodeSymbol isDc sym) = false := by
  simp only [decodeSymbol, apply_ite isConstruct]
  simp only [isConstruct, ite_self]

/-- What a fetch or step of a command in progress may do: what an instruction may, and move the program position by one
byte inside the source. -/
structure Advances (s t : State) : Prop where
  config : sameConfig s t
  image : s.haveFrame = true → sameImage s t
  scan : s.scanOk = true → t.scanOk = true
  hostq : t.hostq = s.hostq
  srcPos : t.srcPos = s.srcPos ∨ (t.srcPos = s.srcPos + 1 ∧ s.srcPos < s.srcLen)

theorem Keeps.advances (h : Keeps s t) : Advances s t := ⟨h.config, h.image, h.scan, h.hostq, .inl h.srcPos⟩

theorem Advances.of_fixed (h : fixedRegs t = fixedRegs s) : Advances s t := (Keeps.of_fixed h).advances

/-- A pulled byte moves the program position inside the source. -/
theorem Advances.pulled (hlt : s.srcPos < s.srcLen) (h : fixedRegs t = fixedRegs { s with srcPos := s.srcPos + 1 }) :
    Advances s t :=
  have k := Keeps.of_fixed h
  ⟨k.config, k.image, k.scan, k.hostq, .inr ⟨k.srcPos, hlt⟩⟩

theorem Advances.keeps {u : State} (h : Advances s u) (h' : Keeps u t) : Advances s t where
  config := h.config.trans h'.config
  image hf := have hi := h.image hf; hi.trans (h'.image (hi.1.trans hf))
  scan hs := h'.scan (h.scan hs)
  hostq := h'.hostq.trans h.hostq
  srcPos := by rw [h'.srcPos]; exact h.srcPos

/-- What takes a pulled byte moves neither the program position nor any other of `fixedRegs`. -/
theorem markerByte_fixedRegs (b : Byte) (s : State) :
    (markerByte b s).All (fun t => fixedRegs t = fixedRegs s) := by
  unfold markerByte
  simp only
  split
  · rfl
  · exact ⟨markerInstr_not_construct _ _ _, rfl⟩

theorem lengthByte_fixedRegs (b : Byte) (s : State) :
    (lengthByte b s).All (fun t => fixedRegs t = fixedRegs s) := by
  unfold lengthByte lengthDone
  simp only
  split
  · split
    · split
      · exact ⟨markerInstr_not_construct _ _ _, rfl⟩
      · rfl
    · exact ⟨markerInstr_not_construct _ _ _, rfl⟩
  · rfl

theorem payloadStep_fixedRegs (b : Byte) (s : State) :
    (payloadStep b s).All (fun t => fixedRegs t = fixedRegs s) := by
  unfold payloadStep
  split
  · trivial
  · simp only
    split
    · exact ⟨markerInstr_not_construct _ _ _, rfl⟩
    · rfl

/-- `Pull()` advances by at most the byte it takes, and not at the end of the source (20_memory.md R63). -/
theorem pull_advances {use : Byte → State → Fetched}
    (hu : ∀ b u, (use b u).All (fun t => fixedRegs t = fixedRegs u)) : (pull s use).All (Advances s) := by
  unfold pull
  simp only
  split
  · exact Advances.of_fixed rfl
  rename_i hend
  have hlt : s.srcPos < s.srcLen := Nat.lt_of_not_le hend
  split
  · exact ⟨rfl, Advances.pulled hlt rfl⟩
  split
  · exact Advances.pulled hlt rfl
  have hbyte := hu (memRead s.src s.srcPos) { s with srcPos := s.srcPos + 1 }
  revert hbyte
  generalize use (memRead s.src s.srcPos) { s with srcPos := s.srcPos + 1 } = f
  cases f with
  | instr i t => exact fun hb => ⟨hb.1, Advances.pulled hlt hb.2⟩
  | more t => exact Advances.pulled hlt
  | fatal e t => exact Advances.pulled hlt
  | fault f => exact id

theorem needInput_advances (s : State) : (needInput s).All (Advances s) := pull_advances fun _ _ => rfl

theorem fetchSymbol_advances (s : State) : (fetchSymbol s).All (Advances s) := by
  unfold fetchSymbol
  split
  · trivial
  · split
    · exact ⟨decodeSymbol_not_construct _ _, Advances.of_fixed rfl⟩
    · exact needInput_advances s
    · exact Advances.of_fixed rfl
    · trivial

theorem fetchField_advances (s : State) : (fetchField s).All (Advances s) := by
  unfold fetchField
  split
  · exact needInput_advances s
  · exact ⟨rfl, Advances.of_fixed rfl⟩

theorem fetch_advances (s : State) : (fetch s).All (Advances s) := by
  unfold fetch
  cases s.pstate with
  | marker => exact pull_advances markerByte_fixedRegs
  | len => exact pull_advances lengthByte_fixedRegs
  | data => exact pull_advances payloadStep_fixedRegs
  | huff => exact fetchSymbol_advances s
  | int => exact fetchField_advances s
  | finish => exact ⟨rfl, Advances.of_fixed rfl⟩

theorem fetchNext_advances (s : State) : (fetchNext s).All (Advances s) := by
  unfold fetchNext
  split
  · exact ⟨rfl, Advances.of_fixed rfl⟩
  · exact fetch_advances s

/-- Running what was fetched moves no further. -/
theorem Fetched.All.run {f : Fetched} (h : f.All (Advances s)) (hr : f.run = .next t) : Advances s t := by
  cases f with
  | instr i u => exact h.2.keeps (exec_keeps i h.1 hr)
  | more u => cases hr; exact h
  | fatal e u => cases hr; exact h.keeps (Keeps.of_fixed rfl)
  | fault e => cases hr

theorem step_advances (hr : s.running = true) (h : step s = .next t) : Advances s t := by
  unfold step at h
  rw [if_pos hr] at h
  exact (fetchNext_advances s).run h

end Sys2Proof.Machine
end

section
/-! The statement on immutable registers. -/

namespace Sys2Proof.Machine

/-- Settles O56, from what a step of a command in progress may do. -/
theorem immutableRegisters : Obligations.ImmutableRegisters := by
  intro s t hr hstep
  obtain ⟨hconfig, himage, hscan, hq, hpos⟩ := step_advances hr hstep
  have hlen : t.srcLen = s.srcLen := hconfig.2.1
  exact ⟨hconfig, himage, by omega, by omega, by omega, hscan, hq⟩

end Sys2Proof.Machine
end

/-! PROOFS. The family of 20_memory.md: `Pull()` and its byte, the step that runs what has been fetched, and a whole
marker or segment read byte after byte. -/

section
/-! `Pull()` (20_memory.md R63): one equation for each of its four cases. -/

namespace Sys2Proof.Machine

variable {s : State} {use : Byte → State → Fetched}

theorem pull_exhausted (h : s.srcLen ≤ s.srcPos) : pull s use = .fatal .truncated s := if_pos h

theorem pull_stuffed (h : s.srcPos < s.srcLen) (hst : s.stuffPending = true) :
    pull s use = .instr (.stuff (memRead s.src s.srcPos)) { s with srcPos := s.srcPos + 1 } := by
  simp only [pull, Nat.not_le.mpr h, hst, if_false, if_true]

theorem pull_skipped (h : s.srcPos < s.srcLen) (hst : s.stuffPending = false) (hk : 0 < s.skipCnt) :
    pull s use = .more { s with srcPos := s.srcPos + 1, skipCnt := s.skipCnt - 1 } := by
  simp only [pull, Nat.not_le.mpr h, hst, hk, Bool.false_eq_true, if_false, if_true]

theorem pull_taken (h : s.srcPos < s.srcLen) (hst : s.stuffPending = false) (hk : s.skipCnt = 0) :
    pull s use = use (memRead s.src s.srcPos) { s with srcPos := s.srcPos + 1 } := by
  simp only [pull, Nat.not_le.mpr h, hst, hk, Nat.lt_irrefl, Bool.false_eq_true, if_false]

/-- The stuffed byte the source must hold (41_entropy_decode.md R151). -/
theorem exec_stuff_zero : exec (.stuff 0) s = .next { s with stuffPending := false } := rfl

theorem exec_stuff_nonzero {b : Byte} (hb : b ≠ 0) :
    exec (.stuff b) s = .next (enterFatal .stuffing { s with stuffPending := false }) :=
  congrArg Res.outcome (if_neg hb)

/-- Settles O7, case by case. -/
theorem pullRule : Obligations.PullRule := by
  intro s use
  refine ⟨fun hend => ?exhausted, fun hlt => ⟨fun hst => ⟨fun hb => ?stuffed, fun hb => ?unstuffed⟩,
    fun hst => ⟨fun hk => ?skipped, fun hk => pull_taken hlt hst hk⟩⟩⟩
  case exhausted => rw [pull_exhausted hend]; rfl
  case stuffed => rw [pull_stuffed hlt hst, hb]; exact exec_stuff_zero
  case unstuffed => rw [pull_stuffed hlt hst]; exact exec_stuff_nonzero hb
  case skipped => rw [pull_skipped hlt hst hk]; rfl

end Sys2Proof.Machine
end

section
/-! The markers as rows of a mask and a code (30_encoding.md R87, R88), and what the decoder reads from a window. -/

namespace Sys2Proof

/-- The marker rows of the opcode table, each as the mask of its fixed bits and their values. -/
def markerRows : List (Half × Half) :=
  [(0xFFFF, 0xFF01), (0xFFFF, 0xFFD8), (0xFFF8, 0xFFD0), (0xFFFF, 0xFFD9), (0xFFFF, 0xFFC2),
    (0xFFFF, 0xFFC0), (0xFFFF, 0xFFC4), (0xFFFF, 0xFFDA), (0xFFFF, 0xFFDB), (0xFFFF, 0xFFDD),
    (0xFFFF, 0xFFC1), (0xFFFF, 0xFFC3), (0xFFFF, 0xFFC5), (0xFFFE, 0xFFC6), (0xFFF8, 0xFFC8), (0xFFFF, 0xFFDC),
    (0xFFFE, 0xFFDE), (0xFFF0, 0xFFE0), (0xFFF8, 0xFFF0), (0xFFFC, 0xFFF8), (0xFFFE, 0xFFFC), (0xFFFF, 0xFFFE)]

theorem isMarker_iff_row (w : Half) : isMarker w = true ↔ ∃ r ∈ markerRows, w &&& r.1 = r.2 := by
  have hall : w &&& 0xFFFF = w := BitVec.and_allOnes
  simp only [isMarker, hasLengthField, isBufferedCode, isSkipCode, markerRows, Bool.or_eq_true, beq_iff_eq, or_assoc,
    List.mem_cons, List.not_mem_nil, or_false, exists_eq_or_imp, exists_eq_left, hall]

/-- The first byte of a marker is 0xFF. -/
theorem highByte_of_isMarker {h b : Byte} (hm : isMarker (h ++ b) = true) : h = 0xFF := by
  obtain ⟨r, hr, hrow⟩ := (isMarker_iff_row _).mp hm
  have hrows : (markerRows.all fun r => r.1.extractLsb' 8 8 == 0xFF && r.2.extractLsb' 8 8 == 0xFF) = true := by decide
  have hbytes := List.all_eq_true.mp hrows r hr
  simp only [Bool.and_eq_true, beq_iff_eq] at hbytes
  obtain ⟨hmask, hcode⟩ := hbytes
  have hhigh := congrArg (BitVec.extractLsb' 8 8) hrow
  rw [BitVec.extractLsb'_and, BitVec.extractLsb'_append_eq_left, hmask, hcode] at hhigh
  exact BitVec.and_allOnes.symm.trans hhigh

/-- No marker ends in 0xFF: the byte before a marker's first byte makes no marker with it. -/
theorem not_isMarker_before {x h b : Byte} (hm : isMarker (h ++ b) = true) : isMarker (x ++ h) = false := by
  have hends : ∀ x : Byte, isMarker (x ++ (0xFF : Byte)) = false := by decide
  rw [highByte_of_isMarker hm]
  exact hends x

theorem hasLengthField_of_not_isMarker {w : Half} (hw : isMarker w = false) : hasLengthField w = false :=
  (Bool.or_eq_false_iff.mp hw).2

/-- A window that is no marker decodes as such (40_segment_parser.md R140). -/
theorem markerInstr_of_not_isMarker {w : Half} (hw : isMarker w = false) (len : Half) (d : List Byte) :
    markerInstr w len d = .nonmarker w := by
  rw [Machine.markerInstr_plain (hasLengthField_of_not_isMarker hw)]
  simp only [isMarker, Bool.or_eq_false_iff] at hw
  simp only [hw, Bool.false_eq_true, if_false]

/-- A marker decodes to one of its rows. -/
theorem markerInstr_ne_nonmarker {w : Half} (hw : isMarker w = true) (len : Half) (d : List Byte) (v : Half) :
    markerInstr w len d ≠ .nonmarker v := by
  intro h
  cases hl : hasLengthField w with
  | true =>
    have hseg := Machine.markerInstr_seg len d hl
    rw [h] at hseg
    cases hseg
  | false =>
    rw [Machine.markerInstr_plain hl] at h
    simp only [isMarker, hl, Bool.or_false, Bool.or_eq_true] at hw
    split at h; · cases h
    split at h; · cases h
    split at h; · cases h
    split at h; · cases h
    split at h; · cases h
    next h1 h2 h3 h4 h5 => simp only [h1, h2, h3, h4, h5, or_self, Bool.false_eq_true] at hw

/-- The bytes of a window are the two it was put together from. -/
theorem halfBytes_append (h b : Byte) : halfBytes (h ++ b) = [h, b] := by
  simp only [halfBytes, BitVec.extractLsb'_append_eq_left, BitVec.extractLsb'_append_eq_right]

/-- Two bytes without a length field are a whole instruction (30_encoding.md R91). -/
theorem decode_window {h b : Byte} (hw : hasLengthField (h ++ b) = false) :
    decode (.bytes [h, b]) = .ok (markerInstr (h ++ b) 0 []) := by
  cases hm : isMarker (h ++ b) with
  | true => simp only [decode, decodeBytes, hw, hm, Bool.false_eq_true, if_false, if_true]
  | false =>
    simp only [decode, decodeBytes, hw, hm, Bool.false_eq_true, if_false, markerInstr_of_not_isMarker hm]

/-- The source bytes of one marker with its instruction: a standalone marker, a marker with a length field whose payload
is skipped unread, a marker with a buffered payload of the declared length (30_encoding.md R87, R88, R91). -/
inductive MarkerBytes : List Byte → Instr → Prop where
  | standalone {h b : Byte} (hw : hasLengthField (h ++ b) = false) (hm : isMarker (h ++ b) = true) :
      MarkerBytes [h, b] (markerInstr (h ++ b) 0 [])
  | skipped {h b lh ll : Byte} (hw : hasLengthField (h ++ b) = true) (hb : isBufferedCode (h ++ b) = false) :
      MarkerBytes [h, b, lh, ll] (markerInstr (h ++ b) (lh ++ ll) [])
  | buffered {h b lh ll : Byte} {d : List Byte} (hb : isBufferedCode (h ++ b) = true)
      (hd : d.length = (lh ++ ll : Half).toNat - 2) :
      MarkerBytes (h :: b :: lh :: ll :: d) (markerInstr (h ++ b) (lh ++ ll) d)

theorem isMarker_of_hasLengthField {w : Half} (hw : hasLengthField w = true) : isMarker w = true := by
  simp only [isMarker, hw, Bool.or_true]

theorem hasLengthField_of_isBufferedCode {w : Half} (hw : isBufferedCode w = true) : hasLengthField w = true := by
  simp only [hasLengthField, hw, Bool.true_or]

theorem MarkerBytes.ne_nonmarker {l : List Byte} {i : Instr} (h : MarkerBytes l i) (w : Half) : i ≠ .nonmarker w := by
  cases h with
  | standalone _ hm => exact markerInstr_ne_nonmarker hm _ _ w
  | skipped hw => exact markerInstr_ne_nonmarker (isMarker_of_hasLengthField hw) _ _ w
  | buffered hb =>
    exact markerInstr_ne_nonmarker (isMarker_of_hasLengthField (hasLengthField_of_isBufferedCode hb)) _ _ w

/-- What the decoder takes off bytes that begin with a marker is that marker's bytes. -/
theorem decodeBytes_marker {l rest : List Byte} {i : Instr} (h : decodeBytes l = .ok (i, rest))
    (hm : isMarker (l.getD 0 0 ++ l.getD 1 0) = true) : ∃ l', l = l' ++ rest ∧ MarkerBytes l' i := by
  unfold decodeBytes at h
  split at h
  case h_2 => cases h
  case h_1 h0 b0 rest0 =>
    simp only [List.getD_cons_zero, List.getD_cons_succ] at hm
    split at h
    case isFalse hw =>
      cases h
      exact ⟨_, rfl, .standalone (by simpa using hw) hm⟩
    case isTrue hw =>
      split at h
      case h_2 => cases h
      case h_1 lh ll d =>
        split at h
        case isFalse hb =>
          cases h
          exact ⟨_, rfl, .skipped hw (by simpa using hb)⟩
        case isTrue hb =>
          split at h
          case isTrue => cases h
          case isFalse hlen =>
            cases h
            refine ⟨h0 :: b0 :: lh :: ll :: d.take ((lh ++ ll : Half).toNat - 2), ?_, .buffered hb ?_⟩
            · simp only [List.cons_append, List.take_append_drop]
            · exact List.length_take_of_le (Nat.le_of_not_lt hlen)

/-- Bytes that decode as a whole and begin with a marker are that marker's bytes. -/
theorem markerBytes_of_decode {l : List Byte} {i : Instr} (h : decode (.bytes l) = .ok i)
    (hm : isMarker (l.getD 0 0 ++ l.getD 1 0) = true) : MarkerBytes l i := by
  cases hl : decodeBytes l with
  | error e => simp only [decode, hl, reduceCtorEq] at h
  | ok p =>
    obtain ⟨j, rest⟩ := p
    obtain ⟨l', hsplit, hj⟩ := decodeBytes_marker hl hm
    simp only [decode, hl] at h
    split at h
    case h_1 heq => cases heq; cases h; rwa [hsplit, List.append_nil]
    case h_2 heq => cases heq; exact absurd rfl (hj.ne_nonmarker _)
    case h_3 => cases h
    case h_4 heq => cases heq

end Sys2Proof
end

section
/-! What one step runs, by the state it starts from (45_packet.md R235). -/

namespace Sys2Proof.Machine

variable {s : State}

theorem step_fetches (hr : s.running = true) (hf : s.pstate ≠ .finish) (ho : s.outCount ≠ 237) :
    step s = (fetch s).run :=
  (if_pos hr).trans (congrArg Fetched.run (if_neg (not_or.mpr ⟨hf, ho⟩)))

theorem step_continues_packet (hr : s.running = true) (h : s.pstate = .finish ∨ s.outCount = 237) :
    step s = exec .nextPacket s :=
  (if_pos hr).trans (congrArg Fetched.run (if_pos h))

theorem step_runs_command {c : Command} {q : List Command} (hr : s.running = false) (hq : s.hostq = c :: q) :
    step s = exec (decodeCommand c) { s with hostq := q } := by
  simp only [step, hr, hq, Bool.false_eq_true, if_false]

theorem step_idle (hr : s.running = false) (hq : s.hostq = []) : step s = .next s := by
  simp only [step, hr, hq, Bool.false_eq_true, if_false]

/-! What each decoder state fetches. -/

theorem fetch_marker (hp : s.pstate = .marker) : fetch s = pull s markerByte := by simp only [fetch, hp]

theorem fetch_len (hp : s.pstate = .len) : fetch s = pull s lengthByte := by simp only [fetch, hp]

theorem fetch_data (hp : s.pstate = .data) : fetch s = pull s payloadStep := by simp only [fetch, hp]

theorem fetch_symbol {t : HuffTable} {sym : Byte} {w : Nat} (hp : s.pstate = .huff) (ht : sourceTable s = some t)
    (hl : huffLookup t s.ibits s.ilen = .found sym w) :
    fetch s = .instr (decodeSymbol (decide (s.k = 0)) sym) (consume w s) := by
  simp only [fetch, hp, fetchSymbol, ht, hl]

theorem fetch_noMatch {t : HuffTable} (hp : s.pstate = .huff) (ht : sourceTable s = some t)
    (hl : huffLookup t s.ibits s.ilen = .noMatch) : fetch s = .fatal .corrupt s := by
  simp only [fetch, hp, fetchSymbol, ht, hl]

theorem fetch_value (hp : s.pstate = .int) (hn : s.needbits.toNat ≤ s.ilen) :
    fetch s = .instr (.v s.needbits (BitVec.ofNat 15 (oldest s.ibits s.ilen s.needbits.toNat)))
      (consume s.needbits.toNat s) := by
  simp only [fetch, hp, fetchField, Nat.not_lt.mpr hn, if_false]

/-- A window without a length field is a whole instruction as soon as its byte is in (40_segment_parser.md R120). -/
theorem markerByte_instr {b : Byte} (hw : hasLengthField (s.mkReg.extractLsb' 0 8 ++ b) = false) :
    markerByte b s = .instr (markerInstr (s.mkReg.extractLsb' 0 8 ++ b) 0 [])
      { s with mkReg := s.mkReg.extractLsb' 0 8 ++ b } := by
  simp only [markerByte, hw, Bool.false_eq_true, if_false]

theorem markerByte_more {b : Byte} (hw : hasLengthField (s.mkReg.extractLsb' 0 8 ++ b) = true) :
    markerByte b s = .more { s with
      mkReg := s.mkReg.extractLsb' 0 8 ++ b, pstate := .len, lenCnt := 2, segLen := 0 } := by
  simp only [markerByte, hw, if_true]

/-- A decoded value field is the field itself. -/
theorem decode_field_eq {n : BitVec 4} {f : BitVec 15} {i : Instr} (h : decode (.field n f) = .ok i) : i = .v n f := by
  simp only [decode] at h
  split at h
  · cases h
  · split at h
    · exact (Except.ok.inj h).symm
    · cases h

/-- A byte merged with no stuffed byte pending (41_entropy_decode.md R150). -/
theorem merge_of_not_pending (b : Byte) (h : s.stuffPending = false) :
    merge b s = { s with ibits := s.ibits * 256 + b.toNat, ilen := s.ilen + 8, stuffPending := b == 0xFF } := by
  simp only [merge, h, Bool.false_or]

/-- A step of a command in progress that needs a byte: `Pull()` answers for it. -/
theorem step_of_needsByte (h : NeedsByte s) (hr : s.running = true) (hf : s.pstate ≠ .finish) (ho : s.outCount ≠ 237) :
    ∃ use, step s = (pull s use).run ∧ (s.pstate.entropy = true → use = fun b s => .more (merge b s)) := by
  obtain ⟨use, hfetch, huse⟩ := fetch_needsByte h
  exact ⟨use, by rw [step_fetches hr hf ho, hfetch], huse⟩

/-- Settles O5: the case of the state picks what is fetched, and for a byte `pull` has one equation per case. -/
theorem stepRunsDecoded : Obligations.StepRunsDecoded := by
  intro s i b
  refine ⟨fun hr hf ho => ⟨?marker, ?symbol, ?field, ?exhausted, ?byte⟩, step_continues_packet, ?command, step_idle⟩
  case marker =>
    intro hp hlt hst hk hw hd
    rw [halfBytes_append, decode_window hw] at hd
    cases hd
    rw [step_fetches hr hf ho, fetch_marker hp, pull_taken hlt hst hk]
    exact congrArg Fetched.run (markerByte_instr (s := { s with srcPos := s.srcPos + 1 }) hw)
  case symbol =>
    intro t hp ht
    refine ⟨fun sym w hl hd => ?_, fun hl => ?_⟩
    · cases hd
      rw [step_fetches hr hf ho, fetch_symbol hp ht hl]
      rfl
    · rw [step_fetches hr hf ho, fetch_noMatch hp ht hl]
      rfl
  case field =>
    intro hp hn hd
    rw [decode_field_eq hd, step_fetches hr hf ho, fetch_value hp hn]
    rfl
  case exhausted =>
    intro hneed hend
    obtain ⟨use, hstep, _⟩ := step_of_needsByte hneed hr hf ho
    rw [hstep, pull_exhausted hend]
    rfl
  case byte =>
    intro hneed hlt
    obtain ⟨use, hstep, huse⟩ := step_of_needsByte hneed hr hf ho
    rw [hstep]
    refine ⟨fun hst hd => ?_, fun hst hk => ?_, fun hst hk he => ?_⟩
    · cases hd
      rw [pull_stuffed hlt hst]
      rfl
    · rw [pull_skipped hlt hst hk]
      rfl
    · rw [pull_taken hlt hst hk, huse he]
      exact congrArg Host.Outcome.next (merge_of_not_pending b hst)
  case command =>
    intro c q hr hq hd
    cases hd
    exact step_runs_command hr hq

end Sys2Proof.Machine
end

section
/-! A sequence stored in a byte space is what a read of its length gives back. -/

namespace Sys2Proof.Machine

theorem memReadN_succ (m : Memory) (a n : Nat) : memReadN m a (n + 1) = memRead m a :: memReadN m (a + 1) n := by
  simp only [memReadN, List.range_succ_eq_map, List.map_cons, List.map_map, Nat.add_zero, Function.comp_def,
    Nat.succ_eq_add_one, Nat.add_right_comm a, Nat.add_assoc a]

theorem memRead_memStore_below {m : Memory} {a a' : Nat} (bs : List Byte) (h : a' < a) :
    memRead (memStore m a bs) a' = memRead m a' := by
  induction bs generalizing m a with
  | nil => rfl
  | cons b bs ih =>
    calc memRead (memStore (memWrite m a b) (a + 1) bs) a'
        = memRead (memWrite m a b) a' := ih (Nat.lt_succ_of_lt h)
      _ = memRead m a' := memRead_memWrite_other m b (Nat.ne_of_lt h)

theorem memReadN_memStore {m : Memory} (a : Nat) (bs : List Byte) (h : Memory.wf m) :
    memReadN (memStore m a bs) a bs.length = bs := by
  induction bs generalizing m a with
  | nil => rfl
  | cons b bs ih =>
    have hhead : memRead (memStore (memWrite m a b) (a + 1) bs) a = b :=
      (memRead_memStore_below bs (Nat.lt_succ_self a)).trans (memRead_memWrite_same b h)
    rw [List.length_cons, memReadN_succ]
    exact congrArg₂ List.cons hhead (ih (a + 1) (memWrite_wf a b h))

end Sys2Proof.Machine
end

section
/-! The parser on source bytes that it will take one after another: what each byte does, by the state it is taken in. -/

namespace Sys2Proof.Machine

/-- A command in progress whose next source bytes are `l`, with room in the buffer and nothing pending. -/
structure Reading (s : State) (l : List Byte) : Prop where
  running : s.running = true
  room : s.outCount ≠ 237
  stuff : s.stuffPending = false
  skip : s.skipCnt = 0
  inside : s.srcPos + l.length ≤ s.srcLen
  bytes : memReadN s.src s.srcPos l.length = l

/-- The registers of `Reading`. -/
def readingRegs (s : State) := (s.running, s.outCount, s.stuffPending, s.skipCnt, s.srcPos, s.srcLen, s.src)

variable {s t : State} {b : Byte} {l : List Byte}

theorem Reading.head (h : Reading s (b :: l)) : s.srcPos < s.srcLen ∧ memRead s.src s.srcPos = b := by
  have hin := h.inside
  have hb := h.bytes
  rw [List.length_cons] at hin
  rw [List.length_cons, memReadN_succ] at hb
  exact ⟨by omega, (List.cons.inj hb).1⟩

/-- A byte on, whatever the parser did with it, the rest of the bytes is next. -/
theorem Reading.tail (h : Reading s (b :: l)) (ht : readingRegs t = readingRegs { s with srcPos := s.srcPos + 1 }) :
    Reading t l := by
  simp only [readingRegs, Prod.mk.injEq] at ht
  obtain ⟨hrun, hout, hst, hk, hpos, hlen, hsrc⟩ := ht
  have hin := h.inside
  have hb := h.bytes
  rw [List.length_cons] at hin
  rw [List.length_cons, memReadN_succ] at hb
  exact ⟨hrun.trans h.running, hout ▸ h.room, hst.trans h.stuff, hk.trans h.skip, by omega,
    by rw [hsrc, hpos]; exact (List.cons.inj hb).2⟩

/-- The byte goes to the decoder that `PSTATE` names. -/
theorem Reading.step_eq (h : Reading s (b :: l)) {use : Byte → State → Fetched} (hf : fetch s = pull s use)
    (hp : s.pstate ≠ .finish) : step s = (use b { s with srcPos := s.srcPos + 1 }).run := by
  obtain ⟨hlt, hb⟩ := h.head
  rw [step_fetches h.running hp h.room, hf, pull_taken hlt h.stuff h.skip, hb]

theorem Reading.step_marker (h : Reading s (b :: l)) (hp : s.pstate = .marker) :
    step s = (markerByte b { s with srcPos := s.srcPos + 1 }).run :=
  h.step_eq (fetch_marker hp) (by rw [hp]; exact PState.noConfusion)

theorem Reading.step_len (h : Reading s (b :: l)) (hp : s.pstate = .len) :
    step s = (lengthByte b { s with srcPos := s.srcPos + 1 }).run :=
  h.step_eq (fetch_len hp) (by rw [hp]; exact PState.noConfusion)

theorem Reading.step_data (h : Reading s (b :: l)) (hp : s.pstate = .data) :
    step s = (payloadStep b { s with srcPos := s.srcPos + 1 }).run :=
  h.step_eq (fetch_data hp) (by rw [hp]; exact PState.noConfusion)

/-! The two length bytes (40_segment_parser.md R121). -/

theorem lengthByte_first (h : s.lenCnt = 2) :
    lengthByte b s = .more { s with segLen := s.segLen.extractLsb' 0 8 ++ b, lenCnt := 1 } := by
  simp only [lengthByte, h, Nat.reduceSub, Nat.one_ne_zero, if_false]

theorem lengthByte_last (h : s.lenCnt = 1) :
    lengthByte b s = lengthDone (s.segLen.extractLsb' 0 8 ++ b)
      { s with segLen := s.segLen.extractLsb' 0 8 ++ b, lenCnt := 0 } := by
  simp only [lengthByte, h, Nat.sub_self, if_true]

variable {len : Half}

theorem lengthDone_unbuffered (h : ¬(isBufferedCode s.mkReg = true ∧ 2 ≤ len.toNat)) :
    lengthDone len s = .instr (markerInstr s.mkReg len []) s := by
  simp only [lengthDone, h, if_false]

theorem lengthDone_empty (h : isBufferedCode s.mkReg = true) :
    lengthDone 2 s = .instr (markerInstr s.mkReg 2 []) { s with segLen := 0, segCnt := 0 } :=
  if_pos ⟨h, Nat.le_refl 2⟩

theorem lengthDone_payload (h : isBufferedCode s.mkReg = true) (hlen : 2 < len.toNat) :
    lengthDone len s = .more { s with segLen := len - 2, segCnt := 0, pstate := .data } := by
  have hne : len ≠ 2 := fun h2 => by rw [h2] at hlen; exact Nat.lt_irrefl 2 hlen
  exact (if_pos ⟨h, Nat.le_of_lt hlen⟩).trans (if_neg hne)

/-! The payload bytes (40_segment_parser.md R122). -/

theorem payloadStep_more (h : s.segCnt + 1 < s.segLen.toNat) (hcap : s.segLen.toNat ≤ 65533) :
    payloadStep b s = .more { s with segbuf := memWrite s.segbuf s.segCnt b, segCnt := s.segCnt + 1 } :=
  (if_neg (by simp only [Config.segbufCap]; omega)).trans (if_neg (Nat.ne_of_lt h))

theorem payloadStep_last (h : s.segCnt + 1 = s.segLen.toNat) (hcap : s.segLen.toNat ≤ 65533) :
    payloadStep b s = .instr
      (markerInstr s.mkReg (s.segLen + 2) (memReadN (memWrite s.segbuf s.segCnt b) 0 s.segLen.toNat))
      { s with segbuf := memWrite s.segbuf s.segCnt b, segCnt := s.segCnt + 1 } :=
  (if_neg (by simp only [Config.segbufCap]; omega)).trans (if_pos h)

/-! Steps one after another. -/

theorem stepN_of_step (n : Nat) (h : step s = .next t) : stepN (n + 1) s = stepN n t := by
  simp only [stepN, h]

theorem stepN_one (s : State) : stepN 1 s = step s := by
  unfold stepN
  cases step s <;> rfl

/-- The first byte of a marker makes no marker with the byte before it, so the window only slides. -/
theorem Reading.step_firstByte {h : Byte} (hs : Reading s (h :: l)) (hp : s.pstate = .marker)
    (hm : isMarker (h ++ b) = true) :
    step s = .next { s with srcPos := s.srcPos + 1, mkReg := s.mkReg.extractLsb' 0 8 ++ h } := by
  have hno : isMarker (s.mkReg.extractLsb' 0 8 ++ h) = false := not_isMarker_before hm
  have hinstr := markerByte_instr (s := { s with srcPos := s.srcPos + 1 }) (hasLengthField_of_not_isMarker hno)
  rw [markerInstr_of_not_isMarker hno] at hinstr
  exact (hs.step_marker hp).trans (congrArg Fetched.run hinstr)

theorem Reading.step_payload_more (hs : Reading s (b :: l)) (hp : s.pstate = .data)
    (hcnt : s.segCnt + 1 < s.segLen.toNat) (hcap : s.segLen.toNat ≤ 65533) :
    step s = .next { s with
      srcPos := s.srcPos + 1, segbuf := memWrite s.segbuf s.segCnt b, segCnt := s.segCnt + 1 } :=
  (hs.step_data hp).trans
    (congrArg Fetched.run (payloadStep_more (s := { s with srcPos := s.srcPos + 1 }) hcnt hcap))

theorem Reading.step_payload_last (hs : Reading s (b :: l)) (hp : s.pstate = .data)
    (hcnt : s.segCnt + 1 = s.segLen.toNat) (hcap : s.segLen.toNat ≤ 65533) :
    step s = exec (markerInstr s.mkReg (s.segLen + 2) (memReadN (memWrite s.segbuf s.segCnt b) 0 s.segLen.toNat))
      { s with srcPos := s.srcPos + 1, segbuf := memWrite s.segbuf s.segCnt b, segCnt := s.segCnt + 1 } :=
  (hs.step_data hp).trans
    (congrArg Fetched.run (payloadStep_last (s := { s with srcPos := s.srcPos + 1 }) hcnt hcap))

/-- The bytes of a payload, buffered from `SEG_CNT` on until `SEG_LEN` bytes are in. -/
theorem Reading.stepN_payload {d : List Byte} (hd : d ≠ []) (hs : Reading s d) (hp : s.pstate = .data)
    (hcnt : s.segCnt + d.length = s.segLen.toNat) (hcap : s.segLen.toNat ≤ 65533) :
    stepN d.length s = exec
      (markerInstr s.mkReg (s.segLen + 2) (memReadN (memStore s.segbuf s.segCnt d) 0 s.segLen.toNat))
      { s with srcPos := s.srcPos + d.length, segbuf := memStore s.segbuf s.segCnt d, segCnt := s.segLen.toNat } := by
  induction d generalizing s with
  | nil => exact absurd rfl hd
  | cons b d ih =>
    cases d with
    | nil =>
      have hlast := hs.step_payload_last hp hcnt hcap
      rw [← hcnt] at hlast ⊢
      exact (stepN_one s).trans hlast
    | cons c d =>
      have hpos : s.srcPos + (b :: c :: d).length = s.srcPos + 1 + (c :: d).length := by
        rw [List.length_cons, Nat.add_right_comm, Nat.add_assoc]
      have hcnt' : s.segCnt + 1 + (c :: d).length = s.segLen.toNat := by
        rw [← hcnt, List.length_cons (a := b), Nat.add_right_comm, Nat.add_assoc]
      have hstep := hs.step_payload_more hp (by rw [List.length_cons] at hcnt'; omega) hcap
      rw [hpos]
      exact (stepN_of_step _ hstep).trans (ih (List.cons_ne_nil c d) (hs.tail rfl) hp hcnt' hcap)

end Sys2Proof.Machine
end

section
/-! A whole marker or segment, read byte after byte (40_segment_parser.md R120 to R122). -/

namespace Sys2Proof.Machine

variable {s : State} {h b lh ll : Byte} {l d : List Byte}

/-- The parser in state `LEN` with one length byte in. -/
def State.atSecondLengthByte (s : State) (w : Half) (lh : Byte) : State :=
  { s with srcPos := s.srcPos + 3, mkReg := w, pstate := .len, lenCnt := 1, segLen := (0x00 : Byte) ++ lh }

/-- The parser when the length field is complete. -/
def State.lengthRead (s : State) (w len : Half) : State :=
  { s with srcPos := s.srcPos + 4, mkReg := w, pstate := .len, lenCnt := 0, segLen := len }

/-- The parser when a payload is to be buffered. -/
def State.payloadNext (s : State) (w len : Half) : State :=
  { s.lengthRead w len with segLen := len - 2, segCnt := 0, pstate := .data }

/-! The second byte of a marker completes the window. -/

theorem Reading.step_standalone (hs : Reading s (b :: l)) (hp : s.pstate = .marker)
    (hmk : s.mkReg.extractLsb' 0 8 = h) (hw : hasLengthField (h ++ b) = false) :
    step s = exec (markerInstr (h ++ b) 0 []) { s with srcPos := s.srcPos + 1, mkReg := h ++ b } := by
  subst hmk
  exact (hs.step_marker hp).trans
    (congrArg Fetched.run (markerByte_instr (s := { s with srcPos := s.srcPos + 1 }) hw))

theorem Reading.step_lengthFollows (hs : Reading s (b :: l)) (hp : s.pstate = .marker)
    (hmk : s.mkReg.extractLsb' 0 8 = h) (hw : hasLengthField (h ++ b) = true) :
    step s = .next { s with
      srcPos := s.srcPos + 1, mkReg := h ++ b, pstate := .len, lenCnt := 2, segLen := 0 } := by
  subst hmk
  exact (hs.step_marker hp).trans
    (congrArg Fetched.run (markerByte_more (s := { s with srcPos := s.srcPos + 1 }) hw))

theorem Reading.stepN_standalone (hs : Reading s [h, b]) (hp : s.pstate = .marker)
    (hw : hasLengthField (h ++ b) = false) (hm : isMarker (h ++ b) = true) :
    stepN 2 s = exec (markerInstr (h ++ b) 0 []) (s.pulled [h, b]) := by
  have hs₁ := hs.tail (t := { s with srcPos := s.srcPos + 1, mkReg := s.mkReg.extractLsb' 0 8 ++ h }) rfl
  have step₂ := hs₁.step_standalone hp BitVec.extractLsb'_append_eq_right hw
  rw [stepN_of_step 1 (hs.step_firstByte hp hm), stepN_one]
  exact step₂

/-! The length field. -/

theorem Reading.stepN_toSecondLengthByte (n : Nat) (hs : Reading s (h :: b :: lh :: l)) (hp : s.pstate = .marker)
    (hw : hasLengthField (h ++ b) = true) :
    stepN (n + 3) s = stepN n (s.atSecondLengthByte (h ++ b) lh) ∧ Reading (s.atSecondLengthByte (h ++ b) lh) l := by
  have hs₁ := hs.tail (t := { s with srcPos := s.srcPos + 1, mkReg := s.mkReg.extractLsb' 0 8 ++ h }) rfl
  have hs₂ := hs₁.tail
    (t := { s with srcPos := s.srcPos + 2, mkReg := h ++ b, pstate := .len, lenCnt := 2, segLen := 0 }) rfl
  have step₁ := hs.step_firstByte hp (isMarker_of_hasLengthField hw)
  have step₂ := hs₁.step_lengthFollows hp BitVec.extractLsb'_append_eq_right hw
  have step₃ := hs₂.step_len rfl
  rw [lengthByte_first rfl] at step₃
  refine ⟨?_, hs₂.tail rfl⟩
  exact (stepN_of_step (n + 2) step₁).trans ((stepN_of_step (n + 1) step₂).trans (stepN_of_step n step₃))

theorem Reading.step_lengthDone {w : Half} (hs : Reading (s.atSecondLengthByte w lh) (ll :: l)) :
    step (s.atSecondLengthByte w lh) = (lengthDone (lh ++ ll) (s.lengthRead w (lh ++ ll))).run := by
  have hlow : ((0x00 : Byte) ++ lh : Half).extractLsb' 0 8 = lh := BitVec.extractLsb'_append_eq_right
  have hlast := lengthByte_last (b := ll)
    (s := { s.atSecondLengthByte w lh with srcPos := (s.atSecondLengthByte w lh).srcPos + 1 }) rfl
  simp only [State.atSecondLengthByte, hlow] at hlast
  exact (hs.step_len rfl).trans (congrArg Fetched.run hlast)

/-- No payload is to be buffered: the length field ends the instruction. -/
theorem Reading.stepN_unbuffered (hs : Reading s [h, b, lh, ll]) (hp : s.pstate = .marker)
    (hw : hasLengthField (h ++ b) = true) (hno : ¬(isBufferedCode (h ++ b) = true ∧ 2 ≤ (lh ++ ll : Half).toNat)) :
    stepN 4 s = exec (markerInstr (h ++ b) (lh ++ ll) []) (s.pulled [h, b, lh, ll]) := by
  obtain ⟨hsteps, hs'⟩ := hs.stepN_toSecondLengthByte 1 hp hw
  have hpulled : s.pulled [h, b, lh, ll] = s.lengthRead (h ++ b) (lh ++ ll) := if_neg hno
  rw [hsteps, stepN_one, hs'.step_lengthDone, lengthDone_unbuffered hno, hpulled]
  rfl

/-- An empty payload: the length field ends the instruction. -/
theorem Reading.stepN_emptyPayload (hs : Reading s [h, b, lh, ll]) (hp : s.pstate = .marker)
    (hb : isBufferedCode (h ++ b) = true) (hlen : lh ++ ll = (2 : Half)) :
    stepN 4 s = exec (markerInstr (h ++ b) (lh ++ ll) []) (s.pulled [h, b, lh, ll]) := by
  obtain ⟨hsteps, hs'⟩ := hs.stepN_toSecondLengthByte 1 hp (hasLengthField_of_isBufferedCode hb)
  have hpulled : s.pulled [h, b, lh, ll] = { s.lengthRead (h ++ b) (lh ++ ll) with segLen := 0, segCnt := 0 } := by
    simp [State.pulled, State.lengthRead, hb, hlen, memStore]
  rw [hsteps, stepN_one, hs'.step_lengthDone, hpulled, hlen, lengthDone_empty hb]
  rfl

/-- A payload is to be buffered. -/
theorem Reading.stepN_toPayload (n : Nat) (hs : Reading s (h :: b :: lh :: ll :: d)) (hp : s.pstate = .marker)
    (hb : isBufferedCode (h ++ b) = true) (hlen : 2 < (lh ++ ll : Half).toNat) :
    stepN (n + 4) s = stepN n (s.payloadNext (h ++ b) (lh ++ ll)) ∧ Reading (s.payloadNext (h ++ b) (lh ++ ll)) d := by
  obtain ⟨hsteps, hs'⟩ := hs.stepN_toSecondLengthByte (n + 1) hp (hasLengthField_of_isBufferedCode hb)
  have hstep := hs'.step_lengthDone
  rw [lengthDone_payload hb hlen] at hstep
  exact ⟨hsteps.trans (stepN_of_step n hstep), hs'.tail rfl⟩

/-- The state in which the whole payload has been pulled. -/
theorem pulled_buffered (hb : isBufferedCode (h ++ b) = true) (hlen : 2 < (lh ++ ll : Half).toNat)
    (hd : d.length = (lh ++ ll : Half).toNat - 2) :
    s.pulled (h :: b :: lh :: ll :: d) = { s.payloadNext (h ++ b) (lh ++ ll) with
      srcPos := s.srcPos + 4 + d.length, segCnt := d.length, segbuf := memStore s.segbuf 0 d } := by
  have hne : lh ++ ll ≠ (2 : Half) := fun h2 => by rw [h2] at hlen; exact Nat.lt_irrefl 2 hlen
  have hpos : s.srcPos + (d.length + 1 + 1 + 1 + 1) = s.srcPos + 4 + d.length := by omega
  have hlong : ¬d.length + 1 + 1 + 1 + 1 ≤ 2 := by omega
  simp only [State.pulled, State.payloadNext, State.lengthRead, List.length_cons, List.getD_cons_zero,
    List.getD_cons_succ, List.drop_succ_cons, List.drop_zero, hb, Nat.le_of_lt hlen, and_self, hlong, hne, hpos, ← hd,
    if_true, if_false]

theorem Reading.stepN_buffered (hs : Reading s (h :: b :: lh :: ll :: d)) (hp : s.pstate = .marker)
    (hwf : Memory.wf s.segbuf) (hb : isBufferedCode (h ++ b) = true) (hlen : 2 < (lh ++ ll : Half).toNat)
    (hd : d.length = (lh ++ ll : Half).toNat - 2) :
    stepN (d.length + 4) s = exec (markerInstr (h ++ b) (lh ++ ll) d) (s.pulled (h :: b :: lh :: ll :: d)) := by
  obtain ⟨hsteps, hs'⟩ := hs.stepN_toPayload d.length hp hb hlen
  have hsub : (s.payloadNext (h ++ b) (lh ++ ll)).segLen.toNat = d.length := by
    rw [hd]
    exact BitVec.toNat_sub_of_le (BitVec.le_def.mpr (Nat.le_of_lt hlen))
  have hd0 : d ≠ [] := List.ne_nil_of_length_pos (by omega)
  have hcap : d.length ≤ 65533 := by have := (lh ++ ll : Half).isLt; omega
  have hpay := hs'.stepN_payload hd0 rfl ((Nat.zero_add _).trans hsub.symm) (hsub ▸ hcap)
  have hlen' : (s.payloadNext (h ++ b) (lh ++ ll)).segLen + 2 = lh ++ ll := BitVec.sub_add_cancel _ _
  have hread : memReadN (memStore (s.payloadNext (h ++ b) (lh ++ ll)).segbuf 0 d) 0 d.length = d :=
    memReadN_memStore 0 d hwf
  rw [hsteps, hpay, hlen', hsub, pulled_buffered hb hlen hd]
  exact congrArg (fun d' => exec (markerInstr (h ++ b) (lh ++ ll) d') _) hread

/-- Reading the bytes of a marker runs its instruction, one step a byte. -/
theorem Reading.stepN_markerBytes {i : Instr} (hs : Reading s l) (hp : s.pstate = .marker) (hwf : Memory.wf s.segbuf)
    (hl : MarkerBytes l i) : stepN l.length s = exec i (s.pulled l) := by
  cases hl with
  | standalone hw hm => exact hs.stepN_standalone hp hw hm
  | skipped hw hb => exact hs.stepN_unbuffered hp hw (fun hbuf => by rw [hb] at hbuf; cases hbuf.1)
  | @buffered h b lh ll d hb hd =>
    rcases Nat.lt_or_ge 2 (lh ++ ll : Half).toNat with hlen | hlen
    · exact hs.stepN_buffered hp hwf hb hlen hd
    have hnil : d = [] := List.eq_nil_of_length_eq_zero (by omega)
    subst hnil
    rcases Nat.eq_or_lt_of_le hlen with htwo | hshort
    · exact hs.stepN_emptyPayload hp hb (BitVec.eq_of_toNat_eq htwo)
    · exact hs.stepN_unbuffered hp (hasLengthField_of_isBufferedCode hb)
        (fun hbuf => Nat.not_le.mpr hshort hbuf.2)

/-- Settles O6: bytes that decode to a marker are the marker's bytes, and those are read one step a byte. -/
theorem sourceBytesRunAsInstruction : Obligations.SourceBytesRunAsInstruction := by
  intro s l i hr hp ho hst hk hwf hin hbytes hd hm
  have hs : Reading s l := ⟨hr, ho, hst, hk, hin, hbytes⟩
  exact hs.stepN_markerBytes hp hwf (markerBytes_of_decode hd hm)

end Sys2Proof.Machine
end

/-! PROOFS. The family of 30_encoding.md: the decoder and the encoder are inverse to each other, the marker codes, value
fields. -/

section
/-! The marker windows, row by row of the tables of 30_encoding.md R87 and R88. -/

namespace Sys2Proof

/-- The upper bits of a word, then its lower bits. -/
theorem upper_append_lower {m n : Nat} (w : BitVec (m + n)) : w.extractLsb' n m ++ w.extractLsb' 0 n = w := by
  rw [BitVec.extractLsb'_append_extractLsb'_eq_extractLsb' (Nat.zero_add n).symm, BitVec.extractLsb'_eq_self]

theorem exists_bytes (w : Half) : ∃ h b : Byte, w = h ++ b :=
  ⟨_, _, (upper_append_lower (m := 8) (n := 8) w).symm⟩

/-- A word matches a row of the opcode table, a mask of the upper bits, when its upper bits are the row's. -/
theorem and_upperMask_eq_iff {m n : Nat} {w : BitVec (m + n)} {p : BitVec m} :
    w &&& (BitVec.allOnes m ++ 0#n) = p ++ 0#n ↔ w.extractLsb' n m = p := by
  conv_lhs => rw [← upper_append_lower w, BitVec.and_append, BitVec.and_allOnes, BitVec.and_zero]
  exact BitVec.append_left_inj (0#n)

/-- The bits below a row's mask are the row's operand. -/
theorem exists_append_of_and_upperMask {m n : Nat} {w : BitVec (m + n)} (p : BitVec m)
    (h : w &&& (BitVec.allOnes m ++ 0#n) = p ++ 0#n) : ∃ x : BitVec n, w = p ++ x :=
  ⟨w.extractLsb' 0 n, by rw [← and_upperMask_eq_iff.mp h, upper_append_lower]⟩

/-- The windows of class (a), with their instructions, and a window that is no marker. -/
inductive StandaloneRow : Half → Instr → Prop where
  | tem : StandaloneRow 0xFF01 .tem
  | soi : StandaloneRow 0xFFD8 .soi
  | rst (n : BitVec 3) : StandaloneRow (0x1FFA#13 ++ n) (.rst n)
  | eoi : StandaloneRow 0xFFD9 .eoi
  | sof2 : StandaloneRow 0xFFC2 .sof2
  | nonmarker {w : Half} (hw : isMarker w = false) : StandaloneRow w (.nonmarker w)

/-- The windows of class (b), the buffered segments. -/
inductive BufferedRow : Half → (Half → List Byte → Instr) → Prop where
  | sof0 : BufferedRow 0xFFC0 .sof0
  | dht : BufferedRow 0xFFC4 .dht
  | sos : BufferedRow 0xFFDA .sos
  | dqt : BufferedRow 0xFFDB .dqt
  | dri : BufferedRow 0xFFDD .dri

/-- The windows of class (c), the skipped segments. -/
inductive SkippedRow : Half → (Half → Instr) → Prop where
  | c1 : SkippedRow 0xFFC1 .skipC1
  | c3 : SkippedRow 0xFFC3 .skipC3
  | c5 : SkippedRow 0xFFC5 .skipC5
  | c6 (n : BitVec 1) : SkippedRow (0x7FE3#15 ++ n) (.skipC6 n)
  | c8 (n : BitVec 3) : SkippedRow (0x1FF9#13 ++ n) (.skipC8 n)
  | dc : SkippedRow 0xFFDC .skipDC
  | de (n : BitVec 1) : SkippedRow (0x7FEF#15 ++ n) (.skipDE n)
  | e0 (n : BitVec 4) : SkippedRow (0xFFE#12 ++ n) (.skipE0 n)
  | f0 (n : BitVec 3) : SkippedRow (0x1FFE#13 ++ n) (.skipF0 n)
  | f8 (n : BitVec 2) : SkippedRow (0x3FFE#14 ++ n) (.skipF8 n)
  | fc (n : BitVec 1) : SkippedRow (0x7FFE#15 ++ n) (.skipFC n)
  | fe : SkippedRow 0xFFFE .skipFE

/-! Every window is in a row of its class. -/

theorem exists_bufferedRow {w : Half} (hw : isBufferedCode w = true) : ∃ mk, BufferedRow w mk := by
  simp only [isBufferedCode, Bool.or_eq_true, beq_iff_eq, or_assoc] at hw
  rcases hw with rfl | rfl | rfl | rfl | rfl
  · exact ⟨_, .sof0⟩
  · exact ⟨_, .dht⟩
  · exact ⟨_, .sos⟩
  · exact ⟨_, .dqt⟩
  · exact ⟨_, .dri⟩

theorem exists_skippedRow {w : Half} (hw : isSkipCode w = true) : ∃ mk, SkippedRow w mk := by
  simp only [isSkipCode, Bool.or_eq_true, beq_iff_eq, or_assoc] at hw
  rcases hw with rfl | rfl | rfl | h | h | rfl | h | h | h | h | h | rfl
  · exact ⟨_, .c1⟩
  · exact ⟨_, .c3⟩
  · exact ⟨_, .c5⟩
  · obtain ⟨n, rfl⟩ := exists_append_of_and_upperMask (n := 1) 0x7FE3#15 h; exact ⟨_, .c6 n⟩
  · obtain ⟨n, rfl⟩ := exists_append_of_and_upperMask (n := 3) 0x1FF9#13 h; exact ⟨_, .c8 n⟩
  · exact ⟨_, .dc⟩
  · obtain ⟨n, rfl⟩ := exists_append_of_and_upperMask (n := 1) 0x7FEF#15 h; exact ⟨_, .de n⟩
  · obtain ⟨n, rfl⟩ := exists_append_of_and_upperMask (n := 4) 0xFFE#12 h; exact ⟨_, .e0 n⟩
  · obtain ⟨n, rfl⟩ := exists_append_of_and_upperMask (n := 3) 0x1FFE#13 h; exact ⟨_, .f0 n⟩
  · obtain ⟨n, rfl⟩ := exists_append_of_and_upperMask (n := 2) 0x3FFE#14 h; exact ⟨_, .f8 n⟩
  · obtain ⟨n, rfl⟩ := exists_append_of_and_upperMask (n := 1) 0x7FFE#15 h; exact ⟨_, .fc n⟩
  · exact ⟨_, .fe⟩

theorem exists_standaloneRow {w : Half} (hw : hasLengthField w = false) : ∃ i, StandaloneRow w i := by
  cases hm : isMarker w with
  | false => exact ⟨_, .nonmarker hm⟩
  | true =>
    simp only [isMarker, hw, Bool.or_false, Bool.or_eq_true, beq_iff_eq, or_assoc] at hm
    rcases hm with rfl | rfl | h | rfl | rfl
    · exact ⟨_, .tem⟩
    · exact ⟨_, .soi⟩
    · obtain ⟨n, rfl⟩ := exists_append_of_and_upperMask (n := 3) 0x1FFA#13 h; exact ⟨_, .rst n⟩
    · exact ⟨_, .eoi⟩
    · exact ⟨_, .sof2⟩

/-! A row's window, what the decoder makes of it, and how the encoder writes it. -/

section
variable {w : Half} {len : Half} {d : List Byte}

theorem StandaloneRow.hasLengthField {i : Instr} (h : StandaloneRow w i) : hasLengthField w = false := by
  cases h with
  | rst n => exact (by decide : ∀ n : BitVec 3, Sys2Proof.hasLengthField (0x1FFA#13 ++ n) = false) n
  | nonmarker hw => exact hasLengthField_of_not_isMarker hw
  | _ => rfl

theorem StandaloneRow.markerInstr_eq {i : Instr} (h : StandaloneRow w i) : markerInstr w len d = i := by
  cases h with
  | rst n => obtain ⟨n⟩ := n; fin_cases n <;> rfl
  | nonmarker hw => exact markerInstr_of_not_isMarker hw len d
  | _ => rfl

theorem StandaloneRow.wellFormed {i : Instr} (h : StandaloneRow w i) : wellFormed i = true := by
  cases h with
  | nonmarker hw => exact congrArg not hw
  | _ => rfl

theorem StandaloneRow.encode_eq {i : Instr} (h : StandaloneRow w i) : encode i = .bytes (halfBytes w) := by
  cases h <;> rfl

theorem BufferedRow.isBufferedCode {mk : Half → List Byte → Instr} (h : BufferedRow w mk) :
    isBufferedCode w = true := by
  cases h <;> rfl

theorem BufferedRow.markerInstr_eq {mk : Half → List Byte → Instr} (h : BufferedRow w mk) :
    markerInstr w len d = mk len d := by
  cases h <;> rfl

theorem BufferedRow.wellFormed {mk : Half → List Byte → Instr} (h : BufferedRow w mk) :
    wellFormed (mk len d) = segmentFits len d := by
  cases h <;> rfl

theorem BufferedRow.encode_eq {mk : Half → List Byte → Instr} (h : BufferedRow w mk) :
    encode (mk len d) = .bytes (segmentBytes w len d) := by
  cases h <;> rfl

/-- A skipped marker has a length field, and its payload is not buffered. -/
theorem SkippedRow.hasLengthField_not_buffered {mk : Half → Instr} (h : SkippedRow w mk) :
    hasLengthField w = true ∧ isBufferedCode w = false := by
  cases h with
  | c6 n | c8 n | de n | e0 n | f0 n | f8 n | fc n => revert n; decide
  | _ => decide

theorem SkippedRow.markerInstr_eq {mk : Half → Instr} (h : SkippedRow w mk) : markerInstr w len d = mk len := by
  cases h with
  | c6 n | c8 n | de n | e0 n | f0 n | f8 n | fc n => obtain ⟨n⟩ := n; fin_cases n <;> rfl
  | _ => rfl

theorem SkippedRow.wellFormed {mk : Half → Instr} (h : SkippedRow w mk) : wellFormed (mk len) = true := by
  cases h <;> rfl

theorem SkippedRow.encode_eq {mk : Half → Instr} (h : SkippedRow w mk) :
    encode (mk len) = .bytes (segmentBytes w len []) := by
  cases h <;> rfl

end

/-! A window with its length field and payload, read and written (30_encoding.md R91). -/

/-- The converse of `markerBytes_of_decode`. -/
theorem decode_markerBytes {l : List Byte} {i : Instr} (h : MarkerBytes l i) : decode (.bytes l) = .ok i := by
  cases h with
  | standalone hw => exact decode_window hw
  | skipped hw hb => simp only [decode, decodeBytes, hw, hb, Bool.false_eq_true, if_true, if_false]
  | buffered hb hd =>
    simp only [decode, decodeBytes, hasLengthField_of_isBufferedCode hb, hb, ← hd, Nat.lt_irrefl, if_true, if_false,
      List.take_length, List.drop_length]

theorem segmentBytes_append (h b lh ll : Byte) (d : List Byte) :
    segmentBytes (h ++ b) (lh ++ ll) d = h :: b :: lh :: ll :: d := by
  rw [segmentBytes, halfBytes_append, halfBytes_append]
  rfl

theorem StandaloneRow.decode_eq {w : Half} {i : Instr} (h : StandaloneRow w i) :
    decode (.bytes (halfBytes w)) = .ok i := by
  obtain ⟨hi, lo, rfl⟩ := exists_bytes w
  rw [halfBytes_append, decode_window h.hasLengthField, h.markerInstr_eq]

theorem SkippedRow.decode_eq {w : Half} {mk : Half → Instr} (h : SkippedRow w mk) (len : Half) :
    decode (.bytes (segmentBytes w len [])) = .ok (mk len) := by
  obtain ⟨hi, lo, rfl⟩ := exists_bytes w
  obtain ⟨lh, ll, rfl⟩ := exists_bytes len
  obtain ⟨hw, hb⟩ := h.hasLengthField_not_buffered
  rw [segmentBytes_append, decode_markerBytes (.skipped hw hb), h.markerInstr_eq]

theorem BufferedRow.decode_eq {w len : Half} {mk : Half → List Byte → Instr} {d : List Byte} (h : BufferedRow w mk)
    (hd : segmentFits len d = true) : decode (.bytes (segmentBytes w len d)) = .ok (mk len d) := by
  obtain ⟨hi, lo, rfl⟩ := exists_bytes w
  obtain ⟨lh, ll, rfl⟩ := exists_bytes len
  rw [segmentBytes_append, decode_markerBytes (.buffered h.isBufferedCode (beq_iff_eq.mp hd)), h.markerInstr_eq]

/-- A marker's bytes are what the encoder writes for its instruction. -/
theorem MarkerBytes.wellFormed_and_encode {l : List Byte} {i : Instr} (h : MarkerBytes l i) :
    wellFormed i = true ∧ encode i = .bytes l := by
  cases h with
  | standalone hw =>
    obtain ⟨i, hrow⟩ := exists_standaloneRow hw
    rw [hrow.markerInstr_eq, hrow.encode_eq, halfBytes_append]
    exact ⟨hrow.wellFormed, rfl⟩
  | skipped hw hb =>
    obtain ⟨mk, hrow⟩ := exists_skippedRow (by simpa only [hasLengthField, hb, Bool.false_or] using hw)
    rw [hrow.markerInstr_eq, hrow.encode_eq, segmentBytes_append]
    exact ⟨hrow.wellFormed, rfl⟩
  | buffered hb hd =>
    obtain ⟨mk, hrow⟩ := exists_bufferedRow hb
    rw [hrow.markerInstr_eq, hrow.encode_eq, segmentBytes_append, hrow.wellFormed]
    exact ⟨beq_iff_eq.mpr hd, rfl⟩

/-- Bytes that decode and begin with no marker are the two of one window (30_encoding.md R89). -/
theorem window_of_decode {l : List Byte} {i : Instr} (h : decode (.bytes l) = .ok i)
    (hm : isMarker (l.getD 0 0 ++ l.getD 1 0) = false) :
    ∃ w, isMarker w = false ∧ l = halfBytes w ∧ i = .nonmarker w := by
  match l with
  | [] => cases h
  | [_] => cases h
  | hi :: lo :: rest =>
    simp only [List.getD_cons_zero, List.getD_cons_succ] at hm
    simp only [decode, decodeBytes, hasLengthField_of_not_isMarker hm, hm, Bool.false_eq_true, if_false] at h
    cases rest with
    | nil => cases h; exact ⟨_, hm, (halfBytes_append hi lo).symm, rfl⟩
    | cons _ _ => cases h

theorem encode_of_decode_bytes {l : List Byte} {i : Instr} (h : decode (.bytes l) = .ok i) :
    wellFormed i = true ∧ encode i = .bytes l := by
  cases hm : isMarker (l.getD 0 0 ++ l.getD 1 0) with
  | true => exact (markerBytes_of_decode h hm).wellFormed_and_encode
  | false =>
    obtain ⟨w, hw, rfl, rfl⟩ := window_of_decode h hm
    exact ⟨congrArg not hw, rfl⟩

end Sys2Proof
end

section
/-! Symbols (30_encoding.md R101, R102). -/

namespace Sys2Proof

theorem nibbles_append (b : Byte) : hiNibble b ++ loNibble b = b := upper_append_lower (m := 4) (n := 4) b

theorem hiNibble_append (hi lo : BitVec 4) : hiNibble (hi ++ lo) = hi := BitVec.extractLsb'_append_eq_left

theorem loNibble_append (hi lo : BitVec 4) : loNibble (hi ++ lo) = lo := BitVec.extractLsb'_append_eq_right

/-- An AC symbol of size 0 by its run: 0 is `EOB`, 15 is `ZRL`, the others are reserved (R102). -/
theorem decodeSymbol_sizeZero {run : BitVec 4} (h0 : run ≠ 0) (h15 : run ≠ 15) :
    decodeSymbol false (run ++ 0#4) = .acReserved run := by
  have hzero : run ++ 0#4 ≠ (0x00 : Byte) := fun h => h0 (hiNibble_append run 0#4 ▸ congrArg hiNibble h)
  have hzrl : run ++ 0#4 ≠ (0xF0 : Byte) := fun h => h15 (hiNibble_append run 0#4 ▸ congrArg hiNibble h)
  simp only [decodeSymbol, hiNibble_append, loNibble_append, Bool.false_eq_true, beq_iff_eq, hzero, hzrl, if_false]
  rfl

theorem decodeSymbol_sized {run size : BitVec 4} (hs : size ≠ 0) :
    decodeSymbol false (run ++ size) = .ac run size := by
  have hzero : run ++ size ≠ (0x00 : Byte) := fun h => hs (loNibble_append run size ▸ congrArg loNibble h)
  have hzrl : run ++ size ≠ (0xF0 : Byte) := fun h => hs (loNibble_append run size ▸ congrArg loNibble h)
  simp only [decodeSymbol, hiNibble_append, loNibble_append, Bool.false_eq_true, beq_iff_eq, hzero, hzrl, hs, if_false]

theorem decodeSymbol_dc (hi size : BitVec 4) : decodeSymbol true (hi ++ size) = .dc hi size := by
  simp only [decodeSymbol, hiNibble_append, loNibble_append, if_true]

/-- Every symbol is one of its class and is written as it was read. -/
theorem encode_decodeSymbol (isDc : Bool) (sym : Byte) :
    wellFormed (decodeSymbol isDc sym) = true ∧ encode (decodeSymbol isDc sym) = .symbol isDc sym := by
  obtain ⟨hi, size, rfl⟩ : ∃ hi size : BitVec 4, sym = hi ++ size := ⟨_, _, (nibbles_append sym).symm⟩
  cases isDc with
  | true => rw [decodeSymbol_dc]; exact ⟨rfl, rfl⟩
  | false =>
    by_cases hs : size = 0#4
    · rw [hs]
      by_cases h0 : hi = 0
      · subst h0; decide
      by_cases h15 : hi = 15
      · subst h15; decide
      rw [decodeSymbol_sizeZero h0 h15]
      exact ⟨by simp only [wellFormed, Bool.and_eq_true, bne_iff_ne]; exact ⟨h0, h15⟩, rfl⟩
    · rw [decodeSymbol_sized hs]
      exact ⟨bne_iff_ne.mpr hs, rfl⟩

/-! Value fields as bit patterns (30_encoding.md R105). -/

theorem decode_field_of_wellFormed {n : BitVec 4} {f : BitVec 15} (h : wellFormed (.v n f) = true) :
    decode (.field n f) = .ok (.v n f) := by
  obtain ⟨hn, hf⟩ := Bool.and_eq_true_iff.mp h
  rw [decode, if_neg (bne_iff_ne.mp hn ∘ beq_iff_eq.mp), if_pos (of_decide_eq_true hf)]

theorem wellFormed_of_decode_field {n : BitVec 4} {f : BitVec 15} {i : Instr} (h : decode (.field n f) = .ok i) :
    wellFormed (.v n f) = true ∧ i = .v n f := by
  simp only [decode] at h
  split at h
  case isTrue => cases h
  case isFalse hn =>
    split at h
    case isTrue hf =>
      cases h
      exact ⟨Bool.and_eq_true_iff.mpr ⟨bne_iff_ne.mpr (hn ∘ beq_iff_eq.mpr), decide_eq_true hf⟩, rfl⟩
    case isFalse => cases h

end Sys2Proof
end

section
/-! Decoding and encoding are inverse to each other, on every form of input. -/

namespace Sys2Proof

/-- Settles O1: a marker by the row of its window, a symbol by its nibbles, a value field by its width. -/
theorem decodeInvertsEncode : Obligations.DecodeInvertsEncode := by
  intro i hwf
  cases i with
  | tem => exact StandaloneRow.tem.decode_eq
  | soi => exact StandaloneRow.soi.decode_eq
  | rst n => exact (StandaloneRow.rst n).decode_eq
  | eoi => exact StandaloneRow.eoi.decode_eq
  | sof0 len d => exact BufferedRow.sof0.decode_eq hwf
  | sof2 => exact StandaloneRow.sof2.decode_eq
  | dht len d => exact BufferedRow.dht.decode_eq hwf
  | sos len d => exact BufferedRow.sos.decode_eq hwf
  | dqt len d => exact BufferedRow.dqt.decode_eq hwf
  | dri len d => exact BufferedRow.dri.decode_eq hwf
  | skipC1 len => exact SkippedRow.c1.decode_eq len
  | skipC3 len => exact SkippedRow.c3.decode_eq len
  | skipC5 len => exact SkippedRow.c5.decode_eq len
  | skipC6 n len => exact (SkippedRow.c6 n).decode_eq len
  | skipC8 n len => exact (SkippedRow.c8 n).decode_eq len
  | skipDC len => exact SkippedRow.dc.decode_eq len
  | skipDE n len => exact (SkippedRow.de n).decode_eq len
  | skipE0 n len => exact (SkippedRow.e0 n).decode_eq len
  | skipF0 n len => exact (SkippedRow.f0 n).decode_eq len
  | skipF8 n len => exact (SkippedRow.f8 n).decode_eq len
  | skipFC n len => exact (SkippedRow.fc n).decode_eq len
  | skipFE len => exact SkippedRow.fe.decode_eq len
  | nonmarker w => exact (StandaloneRow.nonmarker (Bool.not_eq_true' _ |>.mp hwf)).decode_eq
  | dc hi size => exact congrArg Except.ok (decodeSymbol_dc hi size)
  | eob => rfl
  | zrl => rfl
  | acReserved run =>
    obtain ⟨h0, h15⟩ := Bool.and_eq_true_iff.mp hwf
    exact congrArg Except.ok (decodeSymbol_sizeZero (bne_iff_ne.mp h0) (bne_iff_ne.mp h15))
  | ac run size => exact congrArg Except.ok (decodeSymbol_sized (bne_iff_ne.mp hwf))
  | v n f => exact decode_field_of_wellFormed hwf
  | stuff b => rfl
  | construct callsign imageId quality source => rfl
  | nextPacket => rfl

/-- Settles O2: by the form of the code. -/
theorem encodeInvertsDecode : Obligations.EncodeInvertsDecode := by
  intro c i h
  cases c with
  | bytes l => exact encode_of_decode_bytes h
  | symbol isDc sym => cases h; exact encode_decodeSymbol isDc sym
  | field n f =>
    obtain ⟨hwf, rfl⟩ := wellFormed_of_decode_field h
    exact ⟨hwf, rfl⟩
  | stuffed b => cases h; exact ⟨rfl, rfl⟩
  | command c => cases h; cases c <;> exact ⟨rfl, rfl⟩

end Sys2Proof
end

section
/-! The marker codes as ranges, and words of the encoding tables. -/

namespace Sys2Proof

/-- A word matches a row when it lies in the row's run of codes: the numbers with the row's upper bits. -/
theorem and_upperMask_iff_div {m n : Nat} {w : BitVec (m + n)} (p : BitVec m) :
    w &&& (BitVec.allOnes m ++ 0#n) = p ++ 0#n ↔ w.toNat / 2 ^ n = p.toNat := by
  have hfits : w.toNat / 2 ^ n < 2 ^ m := Nat.div_lt_of_lt_mul (Nat.pow_add' .. ▸ w.isLt)
  rw [and_upperMask_eq_iff, ← BitVec.toNat_inj, BitVec.extractLsb'_toNat, Nat.shiftRight_eq_div_pow,
    Nat.mod_eq_of_lt hfits]

theorem isBufferedCode_iff_toNat {w : Half} : isBufferedCode w = true ↔
    w.toNat = 0xFFC0 ∨ w.toNat = 0xFFC4 ∨ w.toNat = 0xFFDA ∨ w.toNat = 0xFFDB ∨ w.toNat = 0xFFDD := by
  simp only [isBufferedCode, Bool.or_eq_true, beq_iff_eq, or_assoc]
  exact or_congr BitVec.toNat_inj.symm <| or_congr BitVec.toNat_inj.symm <| or_congr BitVec.toNat_inj.symm <|
    or_congr BitVec.toNat_inj.symm BitVec.toNat_inj.symm

theorem isSkipCode_iff_toNat {w : Half} : isSkipCode w = true ↔
    w.toNat = 0xFFC1 ∨ w.toNat = 0xFFC3 ∨ w.toNat = 0xFFC5 ∨ w.toNat / 2 ^ 1 = 0x7FE3 ∨ w.toNat / 2 ^ 3 = 0x1FF9
      ∨ w.toNat = 0xFFDC ∨ w.toNat / 2 ^ 1 = 0x7FEF ∨ w.toNat / 2 ^ 4 = 0xFFE ∨ w.toNat / 2 ^ 3 = 0x1FFE
      ∨ w.toNat / 2 ^ 2 = 0x3FFE ∨ w.toNat / 2 ^ 1 = 0x7FFE ∨ w.toNat = 0xFFFE := by
  simp only [isSkipCode, Bool.or_eq_true, beq_iff_eq, or_assoc]
  exact or_congr BitVec.toNat_inj.symm <| or_congr BitVec.toNat_inj.symm <| or_congr BitVec.toNat_inj.symm <|
    or_congr (and_upperMask_iff_div (n := 1) 0x7FE3#15) <| or_congr (and_upperMask_iff_div (n := 3) 0x1FF9#13) <|
    or_congr BitVec.toNat_inj.symm <| or_congr (and_upperMask_iff_div (n := 1) 0x7FEF#15) <|
    or_congr (and_upperMask_iff_div (n := 4) 0xFFE#12) <| or_congr (and_upperMask_iff_div (n := 3) 0x1FFE#13) <|
    or_congr (and_upperMask_iff_div (n := 2) 0x3FFE#14) <|
    or_congr (and_upperMask_iff_div (n := 1) 0x7FFE#15) BitVec.toNat_inj.symm

theorem isMarker_iff_toNat {w : Half} : isMarker w = true ↔
    w.toNat = 0xFF01 ∨ w.toNat = 0xFFD8 ∨ w.toNat / 2 ^ 3 = 0x1FFA ∨ w.toNat = 0xFFD9 ∨ w.toNat = 0xFFC2
      ∨ isBufferedCode w = true ∨ isSkipCode w = true := by
  simp only [isMarker, hasLengthField, Bool.or_eq_true, beq_iff_eq, or_assoc]
  exact or_congr BitVec.toNat_inj.symm <| or_congr BitVec.toNat_inj.symm <|
    or_congr (and_upperMask_iff_div (n := 3) 0x1FFA#13) <| or_congr BitVec.toNat_inj.symm <|
    or_congr BitVec.toNat_inj.symm Iff.rfl

/-- Settles O3: with each row as a run of numbers, the runs fill the ranges. -/
theorem markerCodesAreRanges : Obligations.MarkerCodesAreRanges := by
  intro w
  have hw := w.isLt
  rw [isMarker_iff_toNat, isBufferedCode_iff_toNat, isSkipCode_iff_toNat]
  simp only [ne_eq, ← BitVec.toNat_inj, BitVec.reduceToNat]
  constructor <;> omega

/-- Settles O4: a marker and a segment by the rows of their windows, a symbol by its nibbles. -/
theorem wordsDecode : Obligations.WordsDecode :=
  ⟨StandaloneRow.tem.decode_eq, (StandaloneRow.rst 3).decode_eq,
    BufferedRow.dri.decode_eq (len := 4) (d := [0, 3]) rfl,
    (SkippedRow.e0 5).decode_eq 7, (StandaloneRow.nonmarker (w := 0xFFFF) rfl).decode_eq,
    congrArg Except.ok (decodeSymbol_dc 5 3),
    congrArg Except.ok (decodeSymbol_sized (run := 1) (size := 2) (by decide)),
    congrArg Except.ok (decodeSymbol_sizeZero (run := 3) (by decide) (by decide)), decode_field_of_wellFormed rfl⟩

end Sys2Proof
end

section
/-! The width of a number and the value fields (30_encoding.md R106). -/

namespace Sys2Proof.Machine

theorem lt_two_pow_bitlen (x : Nat) : x < 2 ^ bitlen x := by
  unfold bitlen
  split
  case isTrue hx => rw [hx]; exact Nat.one_pos
  case isFalse hx => exact Nat.lt_log2_self

theorem two_pow_bitlen_le {x : Nat} (hx : x ≠ 0) : 2 ^ (bitlen x - 1) ≤ x := by
  rw [bitlen, if_neg hx]
  exact Nat.log2_self_le hx

theorem bitlen_pos {x : Nat} (hx : x ≠ 0) : 1 ≤ bitlen x := by
  rw [bitlen, if_neg hx]
  exact Nat.succ_pos _

/-- A number between two neighbouring powers of two has the width of the greater. -/
theorem bitlen_eq {x n : Nat} (hn : 1 ≤ n) (hlow : 2 ^ (n - 1) ≤ x) (hhigh : x < 2 ^ n) : bitlen x = n := by
  have hx : x ≠ 0 := Nat.ne_of_gt (Nat.lt_of_lt_of_le (Nat.two_pow_pos _) hlow)
  have hsucc : n - 1 + 1 = n := Nat.sub_add_cancel hn
  have hlog : x.log2 = n - 1 := (Nat.log2_eq_iff hx).mpr ⟨hlow, hsucc.symm ▸ hhigh⟩
  rw [bitlen, if_neg hx, hlog, hsucc]

/-- The complement of a field of `n` bits is its distance from the greatest field. -/
theorem xor_ones_eq_sub {f n : Nat} (hf : f < 2 ^ n) : f ^^^ (2 ^ n - 1) = 2 ^ n - 1 - f := by
  have hnot := congrArg BitVec.toNat (BitVec.xor_allOnes (x := BitVec.ofNatLT f hf))
  rwa [BitVec.toNat_xor, BitVec.toNat_not, BitVec.toNat_allOnes, BitVec.toNat_ofNatLT] at hnot

/-! Decoding a field, by its top bit. -/

theorem vdecode_of_topBit {f n : Nat} (hn : 1 ≤ n) (hf : f < 2 ^ n) (htop : 2 ^ (n - 1) ≤ f) : vdecode f n = f := by
  have hbit : f.testBit (n - 1) = true :=
    Nat.testBit_of_two_pow_le_and_two_pow_add_one_gt htop (by rwa [Nat.sub_add_cancel hn])
  rw [vdecode, if_pos hbit]

theorem vdecode_of_no_topBit {f n : Nat} (hn : 1 ≤ n) (htop : f < 2 ^ (n - 1)) :
    vdecode f n = (f : Int) - (2 ^ n - 1) := by
  have hdouble := Nat.two_pow_pred_mul_two hn
  have hf : f < 2 ^ n := by omega
  have hbit : ¬f.testBit (n - 1) = true := by rw [Nat.testBit_lt_two_pow htop]; exact Bool.false_ne_true
  rw [vdecode, if_neg hbit, xor_ones_eq_sub hf]
  have hcast : ((2 ^ n : Nat) : Int) = 2 ^ n := Nat.cast_pow 2 n
  omega

/-! Encoding a value, by its sign. -/

theorem vencode_natCast (x : Nat) : vencode x = (x, bitlen x) := by
  rw [vencode, if_pos (Int.natCast_nonneg x), Int.natAbs_natCast]

theorem vencode_neg {x : Nat} (hx : x ≠ 0) : vencode (-x) = (2 ^ bitlen x - 1 - x, bitlen x) := by
  have hneg : ¬(0 : Int) ≤ -x := by omega
  rw [vencode, if_neg hneg, Int.natAbs_neg, Int.natAbs_natCast, xor_ones_eq_sub (lt_two_pow_bitlen x)]

/-- The size of a value is the width of its magnitude. -/
theorem vencode_size (v : Int) : (vencode v).2 = bitlen v.natAbs := by
  unfold vencode
  split <;> rfl

/-- Encoding undoes decoding. -/
theorem vencode_vdecode {f n : Nat} (hn : 1 ≤ n) (hf : f < 2 ^ n) : vencode (vdecode f n) = (f, n) := by
  rcases Nat.lt_or_ge f (2 ^ (n - 1)) with htop | htop
  · have hdouble := Nat.two_pow_pred_mul_two hn
    have hcast : ((2 ^ n : Nat) : Int) = 2 ^ n := Nat.cast_pow 2 n
    have hlen : bitlen (2 ^ n - 1 - f) = n := bitlen_eq hn (by omega) (by omega)
    have hvalue : (f : Int) - (2 ^ n - 1) = -((2 ^ n - 1 - f : Nat) : Int) := by omega
    rw [vdecode_of_no_topBit hn htop, hvalue, vencode_neg (by omega), hlen, Nat.sub_sub_self (by omega)]
  · rw [vdecode_of_topBit hn hf htop, vencode_natCast, bitlen_eq hn htop hf]

/-- A number is the field of its own width, with the top bit set. -/
theorem vdecode_bitlen (x : Nat) : vdecode x (bitlen x) = x := by
  by_cases hx : x = 0
  · rw [hx]; rfl
  · exact vdecode_of_topBit (bitlen_pos hx) (lt_two_pow_bitlen x) (two_pow_bitlen_le hx)

theorem vdecode_complement {x : Nat} (hx : x ≠ 0) : vdecode (2 ^ bitlen x - 1 - x) (bitlen x) = -x := by
  have hlt := lt_two_pow_bitlen x
  have hle := two_pow_bitlen_le hx
  have hdouble := Nat.two_pow_pred_mul_two (bitlen_pos hx)
  have hcast : ((2 ^ bitlen x : Nat) : Int) = 2 ^ bitlen x := Nat.cast_pow 2 _
  rw [vdecode_of_no_topBit (bitlen_pos hx) (by omega)]
  omega

/-- Settles O11: decoding by the field's top bit, encoding by the value's sign. -/
theorem valueFieldsRoundTrip : Obligations.ValueFieldsRoundTrip := by
  refine ⟨fun f n hn hf => ⟨vdecode_of_topBit hn hf, fun htop => ?_, fun hzero => ?_, vencode_vdecode hn hf⟩,
    fun v => ⟨vencode_size v, ?_⟩⟩
  · have hdouble := Nat.two_pow_pred_mul_two hn
    have hcast : ((2 ^ n : Nat) : Int) = 2 ^ n := Nat.cast_pow 2 n
    have hcast' : ((2 ^ (n - 1) : Nat) : Int) = 2 ^ (n - 1) := Nat.cast_pow 2 _
    rw [vdecode_of_no_topBit hn htop]
    exact ⟨rfl, by omega, by omega⟩
  · have hsize := vencode_vdecode hn hf
    rw [hzero, vencode_zero, Prod.mk.injEq] at hsize
    omega
  · obtain ⟨x, rfl | rfl⟩ := v.eq_nat_or_neg
    · rw [vencode_natCast, if_pos (Int.natCast_nonneg x)]
      exact ⟨rfl, vdecode_bitlen x⟩
    · by_cases hx : x = 0
      · subst hx; decide
      · have hlt := lt_two_pow_bitlen x
        have hcast : ((2 ^ bitlen x : Nat) : Int) = 2 ^ bitlen x := Nat.cast_pow 2 _
        rw [vencode_neg hx, Int.natAbs_neg, Int.natAbs_natCast, if_neg (by omega)]
        exact ⟨by omega, vdecode_complement hx⟩

end Sys2Proof.Machine
end

/-! PROOFS. The family of 40_segment_parser.md: the markers without a payload, the length field of a segment, and the
five buffered segments. -/

section
/-! The markers that have no length field, and what every length field decides (40_segment_parser.md R121 to R127,
R140). -/

namespace Sys2Proof.Machine

/-- Settles O12: the three meanings are the identity. -/
theorem standaloneMarkersDoNothing : Obligations.StandaloneMarkersDoNothing :=
  fun _ => ⟨rfl, rfl, fun _ => rfl⟩

/-- Settles O13, on whether a scan header has been accepted. -/
theorem restartMarker : Obligations.RestartMarker := by
  refine fun n s => ⟨fun hscan => ?afterScan, fun hscan => ?beforeScan⟩
  case afterScan => exact congrArg Res.outcome (if_pos hscan)
  case beforeScan => exact congrArg Res.outcome (if_neg (ne_true_of_eq_false hscan))

/-- Settles O14: both meanings are the fatal entry itself. -/
theorem rejectedMarkers : Obligations.RejectedMarkers := fun _ => ⟨rfl, rfl⟩

variable {s : State} {len : Half} {d : List Byte}

theorem skipSegment_long (h : 2 ≤ len.toNat) :
    skipSegment len s = .ok { s with segLen := len - 2, skipCnt := len.toNat - 2, pstate := .marker } :=
  if_neg (Nat.not_lt.mpr h)

theorem skipSegment_short (h : len.toNat < 2) : skipSegment len s = .fatal .segmentLength s := if_pos h

/-- A buffered segment of a possible length runs with the parser back in state `MARKER` (R122). -/
theorem dispatch_long (op : State → Res) (h : 2 ≤ len.toNat) : dispatch len s op = op { s with pstate := .marker } :=
  if_neg (Nat.not_lt.mpr h)

theorem dispatch_short (op : State → Res) (h : len.toNat < 2) : dispatch len s op = .fatal .segmentLength s :=
  if_pos h

/-! The instructions through these two: every skipped marker is the same operation, every buffered segment dispatches
its own. -/

theorem exec_skipped (s : State) (len : Half) (n1 : BitVec 1) (n2 : BitVec 2) (n3 : BitVec 3) (n4 : BitVec 4) :
    ∀ i ∈ [Instr.skipC1 len, .skipC3 len, .skipC5 len, .skipC6 n1 len, .skipC8 n3 len, .skipDC len, .skipDE n1 len,
      .skipE0 n4 len, .skipF0 n3 len, .skipF8 n2 len, .skipFC n1 len, .skipFE len],
    exec i s = (skipSegment len s).outcome := by
  simp only [List.forall_mem_cons, List.not_mem_nil, false_implies, implies_true, and_true]
  exact ⟨rfl, rfl, rfl, rfl, rfl, rfl, rfl, rfl, rfl, rfl, rfl, rfl⟩

theorem exec_buffered (s : State) (len : Half) (d : List Byte) :
    ∀ i ∈ [Instr.sof0 len d, .dht len d, .sos len d, .dqt len d, .dri len d],
    ∃ op, exec i s = (dispatch len s op).outcome := by
  simp only [List.forall_mem_cons, List.not_mem_nil, false_implies, implies_true, and_true]
  exact ⟨⟨_, rfl⟩, ⟨_, rfl⟩, ⟨_, rfl⟩, ⟨_, rfl⟩, ⟨_, rfl⟩⟩

/-- Settles O15, on the length field. -/
theorem segmentLengths : Obligations.SegmentLengths := by
  refine fun s len n1 n2 n3 n4 d => ⟨fun i hi => ?skipped, fun i hi hshort => ?buffered⟩
  case skipped =>
    rw [exec_skipped s len n1 n2 n3 n4 i hi]
    exact ⟨fun hlong => congrArg Res.outcome (skipSegment_long hlong),
      fun hshort => congrArg Res.outcome (skipSegment_short hshort)⟩
  case buffered =>
    obtain ⟨op, hop⟩ := exec_buffered s len d i hi
    rw [hop, dispatch_short op hshort]
    rfl

/-- A restart-interval definition of a possible length (R139). -/
theorem exec_dri (h : 2 ≤ len.toNat) :
    exec (.dri len d) s = (setInterval d { s with pstate := .marker }).outcome :=
  congrArg Res.outcome (dispatch_long _ h)

/-- Settles O24, on whether the payload holds the two bytes. -/
theorem restartInterval : Obligations.RestartInterval := by
  refine fun s len hi lo rest d hlen => ⟨?stored, fun hshort => ?refused⟩
  case stored => exact exec_dri hlen
  case refused =>
    rw [exec_dri hlen, setInterval, if_pos hshort]
    rfl

end Sys2Proof.Machine
end

section
/-! The scan header (40_segment_parser.md R134, R135). -/

namespace Sys2Proof.Machine

/-- The nibbles of a byte are its quotient and its remainder by 16. -/
theorem hiNibble_toNat (b : Byte) : (hiNibble b).toNat = b.toNat / 16 := by
  have hb := b.isLt
  rw [hiNibble, BitVec.extractLsb'_toNat, Nat.shiftRight_eq_div_pow]
  omega

theorem loNibble_toNat (b : Byte) : (loNibble b).toNat = b.toNat % 16 := by
  rw [loNibble, BitVec.extractLsb'_toNat, Nat.shiftRight_zero]

/-- A slot number names a valid slot of a pair. -/
theorem pairGet_any_iff {α : Type} {p : Pair α} {valid : α → Bool} {i : Nat} :
    (pairGet? p i).any valid = true ↔ slotValid (valid p.s0) (valid p.s1) i := by
  match i with
  | 0 => simp [pairGet?, slotValid]
  | 1 => simp [pairGet?, slotValid]
  | i + 2 => simp [pairGet?, slotValid]

variable {s : State} {len : Half} {d : List Byte}

/-- The tables that scan component `j` names are defined. -/
def ScanTables (s : State) (d : List Byte) (j : Nat) (tq : Byte) : Prop :=
  slotValid s.sqt.s0.valid s.sqt.s1.valid tq.toNat
    ∧ slotValid s.shtDc.s0.valid s.shtDc.s1.valid ((d.getD (2 + 2 * j) 0).toNat / 16)
    ∧ slotValid s.shtAc.s0.valid s.shtAc.s1.valid ((d.getD (2 + 2 * j) 0).toNat % 16)

theorem scanTablesOk_iff {j : Nat} {tq : Byte} : scanTablesOk s d j tq = true ↔ ScanTables s d j tq := by
  simp only [scanTablesOk, Bool.and_eq_true, pairGet_any_iff, hiNibble_toNat, loNibble_toNat, and_assoc, ScanTables,
    payloadByte]

theorem scanAllTablesOk_iff {ns : Nat} (hns : ns = 1 ∨ ns = 3) :
    scanAllTablesOk s d ns = true ↔
      ScanTables s d 0 s.tq.c0 ∧ (ns = 3 → ScanTables s d 1 s.tq.c1 ∧ ScanTables s d 2 s.tq.c2) := by
  simp only [scanAllTablesOk, Bool.and_eq_true, Bool.or_eq_true, beq_iff_eq, scanTablesOk_iff]
  rcases hns with rfl | rfl <;> simp

/-! What is left of the checks (R135) once the first ones have passed. -/

theorem scanError_of_nonempty (hframe : s.haveFrame = true) (hscan : s.scanOk = false) (hd : d ≠ []) :
    scanError s d =
      if ((d.getD 0 0).toNat ≠ 1 ∧ (d.getD 0 0).toNat ≠ 3) ∨ (d.getD 0 0).toNat ≠ s.ncomp then some .components
      else if d.length < 1 + 2 * (d.getD 0 0).toNat then some .segmentLength
      else if scanAllTablesOk s d (d.getD 0 0).toNat = true then none else some .missingTable := by
  have hlength : ¬d.length < 1 := Nat.not_lt.mpr (List.length_pos_of_ne_nil hd)
  simp only [scanError, hframe, hscan, hlength, payloadByte, Bool.not_true, Bool.false_eq_true, if_false,
    Bool.not_eq_true', ← Bool.not_eq_true, ite_not]

theorem scanError_of_counted (hframe : s.haveFrame = true) (hscan : s.scanOk = false) (hd : d ≠ [])
    (hns : (d.getD 0 0).toNat = 1 ∨ (d.getD 0 0).toNat = 3) (hcount : (d.getD 0 0).toNat = s.ncomp) :
    scanError s d =
      if d.length < 1 + 2 * (d.getD 0 0).toNat then some .segmentLength
      else if scanAllTablesOk s d (d.getD 0 0).toNat = true then none else some .missingTable := by
  rw [scanError_of_nonempty hframe hscan hd, if_neg (by omega)]

theorem exec_sos (hlen : 2 ≤ len.toNat) :
    exec (.sos len d) s = (scan d { s with pstate := .marker }).outcome :=
  congrArg Res.outcome (dispatch_long _ hlen)

/-- A refused scan header is a fatal condition that writes no scan register. -/
theorem exec_sos_refused {e : Reason} (hlen : 2 ≤ len.toNat) (h : scanError s d = some e) :
    exec (.sos len d) s = .next (enterFatal e { s with pstate := .marker }) := by
  have hmarker : scanError { s with pstate := .marker } d = some e := h
  rw [exec_sos hlen, scan, hmarker]
  rfl

theorem exec_sos_accepted (hlen : 2 ≤ len.toNat) (h : scanError s d = none) :
    exec (.sos len d) s = .next (setScan d { s with pstate := .marker }) := by
  have hmarker : scanError { s with pstate := .marker } d = none := h
  rw [exec_sos hlen, scan, hmarker]
  rfl

/-- Settles O20: each clause is the check of `scanError` that its hypotheses reach. -/
theorem scanHeaderCheckOrder : Obligations.ScanHeaderCheckOrder := by
  intro s len d hlen fatal ns tables
  have refused (e : Reason) (h : scanError s d = some e) : fatal e.code := exec_sos_refused hlen h
  refine ⟨fun hframe => refused .noFrame ?_, fun hframe hscan => refused .sequence ?_,
    fun hframe hscan hempty => refused .segmentLength ?_, fun hframe hscan hd hcount => refused .components ?_,
    fun hframe hscan hd hns hcount => ⟨fun hshort => refused .segmentLength ?_,
      fun hlong hmissing => refused .missingTable ?_⟩⟩
  · simp [scanError, hframe]
  · simp [scanError, hframe, hscan]
  · simp [scanError, hframe, hscan, hempty]
  · rw [scanError_of_nonempty hframe hscan hd]
    exact if_pos hcount
  · rw [scanError_of_counted hframe hscan hd hns hcount]
    exact if_pos hshort
  · rw [scanError_of_counted hframe hscan hd hns hcount, if_neg (Nat.not_lt.mpr hlong)]
    exact if_neg (mt (scanAllTablesOk_iff hns).mp hmissing)

/-- A scan header whose components number the frame's and name valid tables passes every check. -/
theorem scanError_none (hframe : s.haveFrame = true) (hscan : s.scanOk = false)
    (hns : (d.getD 0 0).toNat = 1 ∨ (d.getD 0 0).toNat = 3) (hcount : (d.getD 0 0).toNat = s.ncomp)
    (hlong : 1 + 2 * (d.getD 0 0).toNat ≤ d.length)
    (htables : ScanTables s d 0 s.tq.c0
      ∧ ((d.getD 0 0).toNat = 3 → ScanTables s d 1 s.tq.c1 ∧ ScanTables s d 2 s.tq.c2)) :
    scanError s d = none := by
  have hd : d ≠ [] := List.ne_nil_of_length_pos (by omega)
  rw [scanError_of_counted hframe hscan hd hns hcount, if_neg (Nat.not_lt.mpr hlong),
    if_pos ((scanAllTablesOk_iff hns).mpr htables)]

/-- The tables of a scan component, from the nibbles of its byte. -/
theorem scanTables_of_nibbles {j : Nat} {tq : Byte} {dc ac : BitVec 4} (hbyte : d.getD (2 + 2 * j) 0 = dc ++ ac)
    (hq : slotValid s.sqt.s0.valid s.sqt.s1.valid tq.toNat)
    (hdc : slotValid s.shtDc.s0.valid s.shtDc.s1.valid dc.toNat)
    (hac : slotValid s.shtAc.s0.valid s.shtAc.s1.valid ac.toNat) : ScanTables s d j tq := by
  rw [ScanTables, hbyte, ← hiNibble_toNat, ← loNibble_toNat, hiNibble_append, loNibble_append]
  exact ⟨hq, hdc, hac⟩

/-- Settles O19, for one component and for three. -/
theorem scanHeaderAccepted : Obligations.ScanHeaderAccepted := by
  intro s len c0 c1 c2 d0 d1 d2 a0 a1 a2 rest hlen hframe hscan hq0 hd0 ha0
  refine ⟨fun hn => ?one, fun hn hq1 hq2 hd1 hd2 ha1 ha2 => ?three⟩
  case one =>
    have haccepted : scanError s ([1, c0, d0 ++ a0] ++ rest) = none :=
      scanError_none hframe hscan (.inl rfl) hn.symm (Nat.le_add_left _ _)
        ⟨scanTables_of_nibbles rfl hq0 hd0 ha0, nofun⟩
    rw [exec_sos_accepted hlen haccepted]
    simp [setScan, payloadByte, firstComps, streamStart, hiNibble_append, loNibble_append]
  case three =>
    have haccepted : scanError s ([3, c0, d0 ++ a0, c1, d1 ++ a1, c2, d2 ++ a2] ++ rest) = none :=
      scanError_none hframe hscan (.inr rfl) hn.symm (Nat.le_add_left _ _)
        ⟨scanTables_of_nibbles rfl hq0 hd0 ha0,
          fun _ => ⟨scanTables_of_nibbles rfl hq1 hd1 ha1, scanTables_of_nibbles rfl hq2 hd2 ha2⟩⟩
    rw [exec_sos_accepted hlen haccepted]
    simp [setScan, payloadByte, firstComps, streamStart, hiNibble_append, loNibble_append]

end Sys2Proof.Machine
end

section
/-! The frame header (40_segment_parser.md R128 to R131). -/

namespace Sys2Proof.Machine

/-- A luma sampling byte that is none of the four (30_encoding.md R95). -/
abbrev UnsupportedLuma (b : Byte) : Prop := b ≠ 0x22 ∧ b ≠ 0x12 ∧ b ≠ 0x21 ∧ b ≠ 0x11

/-- A width or height that is 0, too large or not a multiple of 16 (40_segment_parser.md R129). -/
abbrev IllegalSize (w h : Half) : Prop :=
  w = 0 ∨ h = 0 ∨ 4080 < w.toNat ∨ 4080 < h.toNat ∨ w.toNat % 16 ≠ 0 ∨ h.toNat % 16 ≠ 0

/-- The mode that a header with supported sampling bytes selects; a monochrome header's is fixed (R131). -/
def headerMode (d : List Byte) : Nat :=
  if payloadByte d 5 = 1 then 3 else (sampMode (payloadByte d 7)).getD 0

/-- The pixels of a coding unit in that mode. -/
def headerArea (d : List Byte) : Nat :=
  if payloadByte d 5 = 1 then 64 else if payloadByte d 7 = 0x22 then 256 else if payloadByte d 7 = 0x11 then 64 else 128

/-- The image parameters of a header that passes every check. -/
def headerParams (d : List Byte) : FrameParams where
  width := (payloadHalf d 3).setWidth 12
  height := (payloadHalf d 1).setWidth 12
  ncomp := (payloadByte d 5).toNat
  mode := headerMode d
  nunits := (payloadHalf d 3).toNat * (payloadHalf d 1).toNat / headerArea d
  tq := if payloadByte d 5 = 1 then ⟨payloadByte d 8, 0, 0⟩
        else ⟨payloadByte d 8, payloadByte d 11, payloadByte d 14⟩

/-! The single checks. -/

theorem legalDim_iff {x : Nat} : legalDim x = true ↔ x ≠ 0 ∧ x ≤ 4080 ∧ x % 16 = 0 := by
  simp only [legalDim, Bool.and_eq_true, bne_iff_ne, decide_eq_true_eq, beq_iff_eq, and_assoc]
  rfl

theorem illegalSize_iff {w h : Half} : (!(legalDim w.toNat && legalDim h.toNat)) = true ↔ IllegalSize w h := by
  have hw : w = 0 ↔ w.toNat = 0 := BitVec.toNat_inj.symm
  have hh : h = 0 ↔ h.toNat = 0 := BitVec.toNat_inj.symm
  rw [Bool.not_eq_true', ← Bool.not_eq_true, Bool.and_eq_true, legalDim_iff, legalDim_iff, IllegalSize, hw, hh]
  omega

theorem not_illegalSize_iff {w h : Half} : ¬IllegalSize w h ↔
    (w.toNat ≠ 0 ∧ w.toNat ≤ 4080 ∧ w.toNat % 16 = 0) ∧ h.toNat ≠ 0 ∧ h.toNat ≤ 4080 ∧ h.toNat % 16 = 0 := by
  rw [← illegalSize_iff, Bool.not_eq_true', Bool.not_eq_false, Bool.and_eq_true, legalDim_iff, legalDim_iff]

theorem sampMode_eq_none_iff {b : Byte} : sampMode b = none ↔ UnsupportedLuma b := by
  simp only [sampMode, UnsupportedLuma, Config.sampByte, List.findIdx?_eq_none_iff, List.forall_mem_cons,
    List.not_mem_nil, false_implies, implies_true, and_true, beq_eq_false_iff_ne, ne_comm]

/-- The sampling checks (R129): the luma byte first, the two chroma bytes of a three-component header after it. -/
theorem frameSampling_eq {d : List Byte} (hnc : payloadByte d 5 = 1 ∨ payloadByte d 5 = 3) :
    frameSampling d (payloadByte d 5).toNat =
      if UnsupportedLuma (payloadByte d 7) then .error .subsampling
      else if payloadByte d 5 = 3 ∧ (payloadByte d 10 ≠ 0x11 ∨ payloadByte d 13 ≠ 0x11) then .error .subsampling
      else .ok (headerMode d) := by
  cases hmode : sampMode (payloadByte d 7) with
  | none => rw [if_pos (sampMode_eq_none_iff.mp hmode), frameSampling, hmode]
  | some m =>
    rw [if_neg (mt sampMode_eq_none_iff.mpr (by rw [hmode]; nofun)), frameSampling, headerMode, hmode]
    rcases hnc with hnc | hnc
    · simp [hnc]
    · have hthree : ¬(3 : Byte).toNat = 1 := by decide
      simp only [hnc, if_neg hthree, true_and, ne_eq, ← not_and_or, ite_not]
      rfl

theorem areaOf_headerMode {d : List Byte} (h : ¬UnsupportedLuma (payloadByte d 7)) :
    Config.areaOf.getD (headerMode d) 0 = headerArea d := by
  have hluma : payloadByte d 7 = 0x22 ∨ payloadByte d 7 = 0x12 ∨ payloadByte d 7 = 0x21 ∨ payloadByte d 7 = 0x11 := by
    tauto
  unfold headerMode headerArea
  split
  · rfl
  · rcases hluma with h | h | h | h <;> rw [h] <;> rfl

/-- The checks of a frame header in their order (R129), each on the bytes it reads. -/
theorem frameParams_eq (haveFrame : Bool) (d : List Byte) : frameParams haveFrame d =
    if haveFrame = true then .error .sequence
    else if d.length < 6 then .error .segmentLength
    else if payloadByte d 0 ≠ 8 then .error .precision
    else if payloadByte d 5 ≠ 1 ∧ payloadByte d 5 ≠ 3 then .error .components
    else if IllegalSize (payloadHalf d 3) (payloadHalf d 1) then .error .resolution
    else if d.length < 6 + 3 * (payloadByte d 5).toNat then .error .segmentLength
    else if UnsupportedLuma (payloadByte d 7) then .error .subsampling
    else if payloadByte d 5 = 3 ∧ (payloadByte d 10 ≠ 0x11 ∨ payloadByte d 13 ≠ 0x11) then .error .subsampling
    else if 65535 < (headerParams d).nunits then .error .blocks
    else .ok (headerParams d) := by
  have hbyte (i : Nat) (b : Byte) : (payloadByte d i).toNat ≠ b.toNat ↔ payloadByte d i ≠ b :=
    not_congr BitVec.toNat_inj
  have hone : (payloadByte d 5).toNat = 1 ↔ payloadByte d 5 = 1 := BitVec.toNat_inj (y := 1)
  refine ite_congr rfl (fun _ => rfl) fun _ => ite_congr rfl (fun _ => rfl) fun _ =>
    ite_congr (propext (hbyte 0 8)) (fun _ => rfl) fun _ =>
    ite_congr (propext (and_congr (hbyte 5 1) (hbyte 5 3))) (fun _ => rfl) fun hcount =>
    ite_congr (propext illegalSize_iff) (fun _ => rfl) fun _ => ite_congr rfl (fun _ => rfl) fun _ => ?_
  rw [frameSampling_eq (by tauto)]
  by_cases hluma : UnsupportedLuma (payloadByte d 7)
  · rw [if_pos hluma, if_pos hluma]
  rw [if_neg hluma, if_neg hluma]
  by_cases hchroma : payloadByte d 5 = 3 ∧ (payloadByte d 10 ≠ 0x11 ∨ payloadByte d 13 ≠ 0x11)
  · rw [if_pos hchroma, if_pos hchroma]
  rw [if_neg hchroma, if_neg hchroma]
  simp only [areaOf_headerMode hluma, hone]
  rfl

variable {s : State} {len : Half} {d : List Byte}

/-- The state a frame header leaves: a fatal condition that has written no image parameter, or the parameters. -/
def afterHeader (s : State) : Except Reason FrameParams → State
  | .error e => enterFatal e { s with pstate := .marker }
  | .ok f => setFrame f { s with pstate := .marker }

/-- The header's checks answer `r`: that is what its meaning follows. -/
def HeaderAnswers (s : State) (len : Half) (d : List Byte) (r : Except Reason FrameParams) : Prop :=
  exec (.sof0 len d) s = .next (afterHeader s r)

theorem exec_sof0 (hlen : 2 ≤ len.toNat) : HeaderAnswers s len d (frameParams s.haveFrame d) := by
  have hrun : exec (.sof0 len d) s = (frame d { s with pstate := .marker }).outcome :=
    congrArg Res.outcome (dispatch_long _ hlen)
  rw [HeaderAnswers, hrun, frame]
  cases frameParams s.haveFrame d <;> rfl

/-- One check of the chain: its reason is the answer if it fails, and otherwise the rest of the chain decides. -/
theorem HeaderAnswers.check {c rest : Prop} [Decidable c] {e : Reason} {r : Except Reason FrameParams}
    (h : HeaderAnswers s len d (if c then .error e else r)) (hrest : ¬c → HeaderAnswers s len d r → rest) :
    if c then exec (.sof0 len d) s = .next (enterFatal e { s with pstate := .marker }) else rest := by
  split
  case isTrue hc => rwa [if_pos hc] at h
  case isFalse hc => rw [if_neg hc] at h; exact hrest hc h

theorem headerArea_le (d : List Byte) : 0 < headerArea d ∧ headerArea d ≤ 256 := by
  unfold headerArea
  split_ifs <;> decide

/-- A header of legal dimensions has at least one coding unit. -/
theorem headerParams_nunits_pos (hsize : ¬IllegalSize (payloadHalf d 3) (payloadHalf d 1)) :
    1 ≤ (headerParams d).nunits := by
  obtain ⟨⟨hw0, -, hw⟩, hh0, -, hh⟩ := not_illegalSize_iff.mp hsize
  obtain ⟨harea, harea256⟩ := headerArea_le d
  have hpixels : 16 * 16 ≤ (payloadHalf d 3).toNat * (payloadHalf d 1).toNat :=
    Nat.mul_le_mul (by omega) (by omega)
  exact Nat.div_pos (by omega) harea

/-- Settles O18: the checks are those of `frameParams_eq`, one after the other. -/
theorem frameHeaderCheckOrder : Obligations.FrameHeaderCheckOrder := by
  intro s len d hlen
  have h := exec_sof0 (s := s) (d := d) hlen
  rw [frameParams_eq] at h
  refine h.check fun _ h => h.check fun _ h => h.check fun _ h => h.check fun _ h => h.check fun hsize h =>
    h.check fun _ h => h.check fun _ h => h.check fun _ h => h.check fun _ h => ?_
  exact ⟨_, h, rfl, rfl, rfl, headerParams_nunits_pos hsize⟩

/-- A header that passes every check, with the image parameters it sets. -/
structure AcceptedHeader (d : List Byte) (f : FrameParams) : Prop where
  length : 6 + 3 * (payloadByte d 5).toNat ≤ d.length
  precision : payloadByte d 0 = 8
  count : payloadByte d 5 = 1 ∨ payloadByte d 5 = 3
  size : ¬IllegalSize (payloadHalf d 3) (payloadHalf d 1)
  luma : ¬UnsupportedLuma (payloadByte d 7)
  chroma : payloadByte d 5 = 3 → payloadByte d 10 = 0x11 ∧ payloadByte d 13 = 0x11
  params : headerParams d = f
  units : f.nunits ≤ 65535

theorem AcceptedHeader.frameParams_eq {f : FrameParams} (h : AcceptedHeader d f) : frameParams false d = .ok f := by
  obtain ⟨hlength, hprecision, hcount, hsize, hluma, hchroma, rfl, hunits⟩ := h
  rw [Machine.frameParams_eq, if_neg Bool.false_ne_true, if_neg (by omega), if_neg (not_not.mpr hprecision),
    if_neg (by tauto), if_neg hsize, if_neg (by omega), if_neg hluma, if_neg (by tauto), if_neg (by omega)]

theorem exec_sof0_accepted {f : FrameParams} (hlen : 2 ≤ len.toNat) (hframe : s.haveFrame = false)
    (h : AcceptedHeader d f) : exec (.sof0 len d) s = .next (setFrame f { s with pstate := .marker }) := by
  have hexec := exec_sof0 (s := s) (d := d) hlen
  rwa [hframe, h.frameParams_eq] at hexec

/-- The payload of a frame header from its fields: `body` is the component count and what follows it. -/
def headerBytes (h w : Half) (body : List Byte) : List Byte := [8] ++ halfBytes h ++ halfBytes w ++ body

theorem payloadHalf_height (h w : Half) (body : List Byte) : payloadHalf (headerBytes h w body) 1 = h :=
  upper_append_lower (m := 8) (n := 8) h

theorem payloadHalf_width (h w : Half) (body : List Byte) : payloadHalf (headerBytes h w body) 3 = w :=
  upper_append_lower (m := 8) (n := 8) w

theorem size_headerBytes {h w : Half} (body : List Byte) (hh : 16 ≤ h.toNat ∧ h.toNat ≤ 4080 ∧ h.toNat % 16 = 0)
    (hw : 16 ≤ w.toNat ∧ w.toNat ≤ 4080 ∧ w.toNat % 16 = 0) :
    ¬IllegalSize (payloadHalf (headerBytes h w body) 3) (payloadHalf (headerBytes h w body) 1) := by
  rw [payloadHalf_height, payloadHalf_width, not_illegalSize_iff]
  omega

/-- Settles O16: the header is accepted with the fixed layout of one component. -/
theorem frameHeaderMonochrome : Obligations.FrameHeaderMonochrome := by
  intro s len h w id samp tq rest hlen hframe hh16 hh4080 hhmod hw16 hw4080 hwmod hsamp hunits
  have haccepted : AcceptedHeader (headerBytes h w ([1, id, samp, tq] ++ rest))
      { width := w.setWidth 12, height := h.setWidth 12, ncomp := 1, mode := 3
        nunits := w.toNat * h.toNat / 64, tq := ⟨tq, 0, 0⟩ } :=
    { length := Nat.le_add_left _ _
      precision := rfl
      count := .inl rfl
      size := size_headerBytes _ ⟨hh16, hh4080, hhmod⟩ ⟨hw16, hw4080, hwmod⟩
      luma := by
        change ¬UnsupportedLuma samp
        tauto
      chroma := nofun
      params := by
        rw [headerParams, payloadHalf_height, payloadHalf_width]
        rfl
      units := hunits }
  exact exec_sof0_accepted hlen hframe haccepted

/-- What a luma sampling byte selects in a three-component image (30_encoding.md R95). -/
theorem sampling_row {samp : Byte} {mode : BitVec 2} {yparts area : Nat}
    (h : (samp, mode, yparts, area) = ((0x22 : Byte), (0 : BitVec 2), 4, 256)
      ∨ (samp, mode, yparts, area) = ((0x12 : Byte), (1 : BitVec 2), 2, 128)
      ∨ (samp, mode, yparts, area) = ((0x21 : Byte), (2 : BitVec 2), 2, 128)
      ∨ (samp, mode, yparts, area) = ((0x11 : Byte), (3 : BitVec 2), 1, 64)) :
    ¬UnsupportedLuma samp ∧ (sampMode samp).getD 0 = mode.toNat ∧ Config.ypartsOf.getD mode.toNat 0 = yparts
      ∧ (if samp = 0x22 then 256 else if samp = 0x11 then 64 else 128) = area := by
  rcases h with h | h | h | h <;> (cases h; decide)

/-- Settles O17: the header is accepted with the layout that its luma sampling byte selects. -/
theorem frameHeaderColour : Obligations.FrameHeaderColour := by
  intro s len h w i0 i1 i2 samp t0 t1 t2 mode yparts area rest hlen hframe hh16 hh4080 hhmod hw16 hw4080 hwmod hrow
    hunits
  obtain ⟨hluma, hmode, rfl, rfl⟩ := sampling_row hrow
  have haccepted : AcceptedHeader
      (headerBytes h w ([3, i0, samp, t0, i1, 0x11, t1, i2, 0x11, t2] ++ rest))
      { width := w.setWidth 12, height := h.setWidth 12, ncomp := 3, mode := mode.toNat
        nunits := w.toNat * h.toNat / (if samp = 0x22 then 256 else if samp = 0x11 then 64 else 128)
        tq := ⟨t0, t1, t2⟩ } :=
    { length := Nat.le_add_left _ _
      precision := rfl
      count := .inr rfl
      size := size_headerBytes _ ⟨hh16, hh4080, hhmod⟩ ⟨hw16, hw4080, hwmod⟩
      luma := hluma
      chroma := fun _ => ⟨rfl, rfl⟩
      params := by
        rw [headerParams, payloadHalf_height, payloadHalf_width, ← hmode]
        rfl
      units := hunits }
  have hbits : BitVec.ofNat 2 mode.toNat = mode := by rw [BitVec.ofNat_toNat, BitVec.setWidth_eq]
  exact (exec_sof0_accepted hlen hframe haccepted).trans (by rw [setFrame, hbits]; rfl)

end Sys2Proof.Machine
end

section
/-! Table definitions, which follow one another in the payload of a `DQT` or `DHT` segment, and those of coefficient
tables (40_segment_parser.md R137). -/

namespace Sys2Proof.Machine

/-- A definition at the head of a payload is parsed by `parse`: its bytes are taken off and `put` is what it does. -/
def ParsesWhole {α : Type} (parse : Nat → List Byte → State → Res) (bytes : α → List Byte) (put : State → α → State)
    (e : α) : Prop :=
  bytes e ≠ [] ∧ ∀ fuel rest s, parse (fuel + 1) (bytes e ++ rest) s = parse fuel rest (put s e)

/-- Whole definitions are parsed one after the other, whatever follows them. The parser's bound, the length of the
payload, suffices for them and for one more where something follows. -/
theorem parse_wholes {α : Type} {parse : Nat → List Byte → State → Res} {bytes : α → List Byte}
    {put : State → α → State} {defs : List α} (hdefs : ∀ e ∈ defs, ParsesWhole parse bytes put e) (rest : List Byte)
    (s : State) (extra : Nat) :
    ∃ fuel, rest.length ≤ fuel ∧
      parse ((defs.flatMap bytes ++ rest).length + extra) (defs.flatMap bytes ++ rest) s
        = parse fuel rest (defs.foldl put s) := by
  induction defs generalizing s extra with
  | nil => exact ⟨rest.length + extra, Nat.le_add_right _ _, rfl⟩
  | cons e defs ih =>
    obtain ⟨⟨hne, hparse⟩, htail⟩ := List.forall_mem_cons.mp hdefs
    obtain ⟨fuel, hfuel, heq⟩ := ih htail (put s e) ((bytes e).length - 1 + extra)
    have hpos := List.length_pos_of_ne_nil hne
    have hlength : ((e :: defs).flatMap bytes ++ rest).length + extra =
        (defs.flatMap bytes ++ rest).length + ((bytes e).length - 1 + extra) + 1 := by
      rw [List.flatMap_cons, List.append_assoc, List.length_append]
      omega
    exact ⟨fuel, hfuel, by rw [hlength, List.flatMap_cons, List.append_assoc, hparse, heq, List.foldl_cons]⟩

/-- A slot number of four bits is one of the two slots or none. -/
theorem pairSet_nibble {α : Type} (p : Pair α) (i : BitVec 4) (a : α) :
    pairSet p i.toNat a = if i = 0 then { p with s0 := a } else if i = 1 then { p with s1 := a } else p := by
  by_cases h0 : i = 0
  · subst h0; rfl
  by_cases h1 : i = 1
  · subst h1; rfl
  have hi0 : i.toNat ≠ 0 := fun h => h0 (BitVec.eq_of_toNat_eq h)
  have hi1 : i.toNat ≠ 1 := fun h => h1 (BitVec.eq_of_toNat_eq h)
  rw [if_neg h0, if_neg h1]
  unfold pairSet
  split
  · contradiction
  · contradiction
  · rfl

/-! Coefficient tables. -/

variable {s : State} {len : Half}

/-- One whole coefficient-table definition: its tag, of class 0, and the steps (30_encoding.md R97). -/
def stepBytes (e : BitVec 4 × List Byte) : List Byte := (0#4 ++ e.1) :: e.2

/-- The slots after one definition. -/
def putSteps (q : Pair StepSlot) (e : BitVec 4 × List Byte) : Pair StepSlot :=
  if e.1 = 0 then { q with s0 := { valid := true, steps := e.2 } }
  else if e.1 = 1 then { q with s1 := { valid := true, steps := e.2 } }
  else q

/-- The state after one definition. -/
def defineSteps (s : State) (e : BitVec 4 × List Byte) : State := storeSteps e.1.toNat e.2 s

theorem foldl_defineSteps (defs : List (BitVec 4 × List Byte)) (s : State) :
    defs.foldl defineSteps s = { s with sqt := defs.foldl putSteps s.sqt } := by
  refine List.foldl_hom (fun q => { s with sqt := q }) fun q e => ?_
  rw [defineSteps, storeSteps, pairSet_nibble]
  rfl

theorem dqtDefs_parsesWhole {e : BitVec 4 × List Byte} (he : e.2.length = 64) :
    ParsesWhole dqtDefs stepBytes defineSteps e := by
  refine ⟨List.cons_ne_nil _ _, fun fuel rest s => ?_⟩
  have hlength : (stepBytes e).length = Config.dqtDefLen := by rw [stepBytes, List.length_cons, he]; rfl
  have hnonempty : ¬(stepBytes e ++ rest).length = 0 := Nat.succ_ne_zero _
  have hlong : ¬(stepBytes e ++ rest).length < Config.dqtDefLen := by rw [List.length_append]; omega
  have htag : payloadByte (stepBytes e ++ rest) 0 = 0#4 ++ e.1 := rfl
  have hclass : ¬(0#4 ≠ 0) := not_not.mpr rfl
  have hsteps : ((stepBytes e ++ rest).drop 1).take 64 = e.2 := List.take_left' he
  have hrest : (stepBytes e ++ rest).drop Config.dqtDefLen = rest := List.drop_left' hlength
  rw [dqtDefs, if_neg hnonempty, if_neg hlong, htag, hiNibble_append, if_neg hclass, loNibble_append, hsteps, hrest]
  rfl

/-! What ends the definitions: the end of the payload, a definition that does not fit, a wrong tag. -/

theorem dqtDefs_nil (fuel : Nat) (s : State) : dqtDefs fuel [] s = .ok s := by cases fuel <;> rfl

theorem dqtDefs_short {bad : List Byte} {fuel : Nat} (hfuel : bad.length ≤ fuel) (hbad : bad ≠ [])
    (hshort : bad.length < 65) : dqtDefs fuel bad s = .fatal .tableLength s := by
  have hpos := List.length_pos_of_ne_nil hbad
  cases fuel with
  | zero => omega
  | succ fuel => rw [dqtDefs, if_neg (by omega), Config.dqtDefLen, if_pos hshort]

theorem dqtDefs_wrongTag {bad : List Byte} {fuel : Nat} (hfuel : bad.length ≤ fuel) (hlong : 65 ≤ bad.length)
    (htag : 16 ≤ (bad.getD 0 0).toNat) : dqtDefs fuel bad s = .fatal .tableTag s := by
  have hclass : hiNibble (payloadByte bad 0) ≠ 0 := fun h => by
    have hnibble : (0 : BitVec 4).toNat = (bad.getD 0 0).toNat / 16 := h ▸ hiNibble_toNat (payloadByte bad 0)
    have hzero : (0 : BitVec 4).toNat = 0 := rfl
    omega
  cases fuel with
  | zero => omega
  | succ fuel => rw [dqtDefs, if_neg (by omega), Config.dqtDefLen, if_neg (by omega), if_pos hclass]

/-- The meaning of a `DQT` after the whole definitions at the head of its payload. -/
theorem exec_dqt (hlen : 2 ≤ len.toNat) {defs : List (BitVec 4 × List Byte)}
    (hdefs : ∀ e ∈ defs, e.2.length = 64) (rest : List Byte) (s : State) :
    ∃ fuel, rest.length ≤ fuel ∧ exec (.dqt len (defs.flatMap stepBytes ++ rest)) s =
      (dqtDefs fuel rest { s with pstate := .marker, sqt := defs.foldl putSteps s.sqt }).outcome := by
  obtain ⟨fuel, hfuel, heq⟩ := parse_wholes (fun e he => dqtDefs_parsesWhole (hdefs e he)) rest
    { s with pstate := .marker } 0
  rw [foldl_defineSteps] at heq
  exact ⟨fuel, hfuel, congrArg Res.outcome ((dispatch_long _ hlen).trans heq)⟩

/-- Settles O21: the definitions reach the end of the payload. -/
theorem coefficientTableDefinitions : Obligations.CoefficientTableDefinitions := by
  intro s len defs hlen hdefs
  obtain ⟨fuel, -, hexec⟩ := exec_dqt hlen hdefs [] s
  rw [List.append_nil, dqtDefs_nil] at hexec
  exact hexec

end Sys2Proof.Machine
end

section
/-! Huffman-table definitions (40_segment_parser.md R138), and the definitions of either kind that are refused. -/

namespace Sys2Proof.Machine

variable {s : State} {len : Half}

/-- The slots of class `cls` after one definition. -/
def putHuff (cls : BitVec 4) (q : Pair HuffSlot) (e : HuffDef) : Pair HuffSlot :=
  if e.cls = cls ∧ e.idx = 0 then { q with s0 := e.slot }
  else if e.cls = cls ∧ e.idx = 1 then { q with s1 := e.slot }
  else q

/-- The state after one definition. -/
def defineHuff (s : State) (e : HuffDef) : State := storeHuff e.cls.toNat e.idx.toNat e.slot.table s

/-- A definition of a legal class changes the slots of that class only. -/
theorem defineHuff_eq {e : HuffDef} (he : e.ok) (s : State) :
    defineHuff s e = { s with shtDc := putHuff 0 s.shtDc e, shtAc := putHuff 1 s.shtAc e } := by
  obtain ⟨hcls, -⟩ := he
  have hslot : { valid := true, table := e.slot.table } = e.slot := rfl
  have hcases : e.cls = 0 ∨ e.cls = 1 := by
    rcases Nat.le_one_iff_eq_zero_or_eq_one.mp hcls with h | h
    · exact .inl (BitVec.eq_of_toNat_eq h)
    · exact .inr (BitVec.eq_of_toNat_eq h)
  rcases hcases with h | h
  · simp [defineHuff, storeHuff, putHuff, h, pairSet_nibble, hslot]
  · simp [defineHuff, storeHuff, putHuff, h, pairSet_nibble, hslot]

theorem foldl_defineHuff {defs : List HuffDef} (hdefs : ∀ e ∈ defs, e.ok) (s : State) :
    defs.foldl defineHuff s =
      { s with shtDc := defs.foldl (putHuff 0) s.shtDc, shtAc := defs.foldl (putHuff 1) s.shtAc } := by
  induction defs generalizing s with
  | nil => rfl
  | cons e defs ih =>
    obtain ⟨he, htail⟩ := List.forall_mem_cons.mp hdefs
    rw [List.foldl_cons, ih htail, defineHuff_eq he]
    rfl

theorem dhtDefs_parsesWhole {e : HuffDef} (he : e.ok) : ParsesWhole dhtDefs HuffDef.bytes defineHuff e := by
  refine ⟨List.cons_ne_nil _ _, fun fuel rest s => ?_⟩
  obtain ⟨hcls, hcounts, hsyms, hcap⟩ := he
  have hbytes : e.bytes ++ rest = (e.cls ++ e.idx) :: (e.counts ++ (e.syms ++ rest)) := by
    simp only [HuffDef.bytes, List.cons_append, List.append_assoc]
  have hlength : (e.bytes ++ rest).length = Config.dhtDefHdr + countSum e.counts + rest.length := by
    simp only [hbytes, List.length_cons, List.length_append, hcounts, hsyms, Config.dhtDefHdr]
    omega
  have hhdr : (e.bytes ++ rest).drop Config.dhtDefHdr = e.syms ++ rest := by
    rw [hbytes, Config.dhtDefHdr, List.drop_succ_cons, List.drop_left' hcounts]
  have htake : ((e.bytes ++ rest).drop 1).take 16 = e.counts := by
    rw [hbytes]
    exact List.take_left' hcounts
  have htag : payloadByte (e.bytes ++ rest) 0 = e.cls ++ e.idx := rfl
  have hfits : ¬(Config.hsymCap < countSum e.counts ∨
      (e.bytes ++ rest).length < Config.dhtDefHdr + countSum e.counts) := by
    rw [hlength, ← hsyms, Config.hsymCap]
    omega
  rw [dhtDefs, htake, if_neg (by rw [hlength, Config.dhtDefHdr]; omega), if_neg (by rw [hlength]; omega),
    if_neg hfits, htag, hiNibble_append, if_neg (Nat.not_lt.mpr hcls), loNibble_append, ← List.drop_drop, hhdr, ← hsyms,
    List.take_left, List.drop_left]
  rfl

/-! What ends the definitions, with the length before the tag. -/

theorem dhtDefs_nil (fuel : Nat) (s : State) : dhtDefs fuel [] s = .ok s := by cases fuel <;> rfl

theorem dhtDefs_short {bad : List Byte} {fuel : Nat} (hfuel : bad.length ≤ fuel) (hbad : bad ≠ [])
    (hshort : bad.length < 17 ∨ 256 < countSum ((bad.drop 1).take 16)
      ∨ bad.length < 17 + countSum ((bad.drop 1).take 16)) : dhtDefs fuel bad s = .fatal .tableLength s := by
  have hpos := List.length_pos_of_ne_nil hbad
  cases fuel with
  | zero => omega
  | succ fuel =>
    rw [dhtDefs, Config.dhtDefHdr, Config.hsymCap, if_neg (by omega)]
    by_cases hhdr : bad.length < 17
    · rw [if_pos hhdr]
    · rw [if_neg hhdr, if_pos (hshort.resolve_left hhdr)]

theorem dhtDefs_wrongTag {bad : List Byte} {fuel : Nat} (hfuel : bad.length ≤ fuel) (hlong : 17 ≤ bad.length)
    (hfits : 17 + countSum ((bad.drop 1).take 16) ≤ bad.length) (hcap : countSum ((bad.drop 1).take 16) ≤ 256)
    (htag : 32 ≤ (bad.getD 0 0).toNat) : dhtDefs fuel bad s = .fatal .tableTag s := by
  have hclass : 1 < (hiNibble (payloadByte bad 0)).toNat := by rw [hiNibble_toNat, payloadByte]; omega
  cases fuel with
  | zero => omega
  | succ fuel =>
    rw [dhtDefs, Config.dhtDefHdr, Config.hsymCap, if_neg (by omega), if_neg (by omega), if_neg (by omega),
      if_pos hclass]

/-- The meaning of a `DHT` after the whole definitions at the head of its payload. -/
theorem exec_dht (hlen : 2 ≤ len.toNat) {defs : List HuffDef} (hdefs : ∀ e ∈ defs, e.ok) (rest : List Byte)
    (s : State) :
    ∃ fuel, rest.length ≤ fuel ∧ exec (.dht len (defs.flatMap HuffDef.bytes ++ rest)) s =
      (dhtDefs fuel rest { s with
        pstate := .marker, shtDc := defs.foldl (putHuff 0) s.shtDc
        shtAc := defs.foldl (putHuff 1) s.shtAc }).outcome := by
  obtain ⟨fuel, hfuel, heq⟩ := parse_wholes (fun e he => dhtDefs_parsesWhole (hdefs e he)) rest
    { s with pstate := .marker } 0
  rw [foldl_defineHuff hdefs] at heq
  exact ⟨fuel, hfuel, congrArg Res.outcome ((dispatch_long _ hlen).trans heq)⟩

/-- Settles O22: the definitions reach the end of the payload. -/
theorem huffmanTableDefinitions : Obligations.HuffmanTableDefinitions := by
  intro s len defs hlen hdefs
  obtain ⟨fuel, -, hexec⟩ := exec_dht hlen hdefs [] s
  rw [List.append_nil, dhtDefs_nil] at hexec
  exact hexec

/-- Settles O23: the whole definitions are taken first, then the next one is refused. -/
theorem tableDefinitionErrors : Obligations.TableDefinitionErrors := by
  intro s len defs hdefs bad hlen hok hhok hbad fails counts
  obtain ⟨dqtFuel, hdqtFuel, hdqt⟩ := exec_dqt hlen hok bad s
  obtain ⟨dhtFuel, hdhtFuel, hdht⟩ := exec_dht hlen hhok bad s
  refine ⟨fun hshort => ?_, fun hlong htag => ?_, fun hshort => ?_, fun hfits hlong hcap htag => ?_⟩
  · rw [dqtDefs_short hdqtFuel hbad hshort] at hdqt
    exact ⟨_, hdqt, rfl, rfl, rfl, rfl⟩
  · rw [dqtDefs_wrongTag hdqtFuel hlong htag] at hdqt
    exact ⟨_, hdqt, rfl, rfl, rfl, rfl⟩
  · rw [dhtDefs_short hdhtFuel hbad hshort] at hdht
    exact ⟨_, hdht, rfl, rfl, rfl, rfl⟩
  · rw [dhtDefs_wrongTag hdhtFuel hlong hfits hcap htag] at hdht
    exact ⟨_, hdht, rfl, rfl, rfl, rfl⟩

end Sys2Proof.Machine
end

/-! PROOFS. The family of 41_entropy_decode.md: the inbound window and the lookup at its head, what each symbol and
value field writes, how a block ends, what no symbol changes, and the bound on the window. -/

section
/-! The inbound window and the lookup at its head. -/

namespace Sys2Proof.Machine

/-! `Merge` and `Consume` (41_entropy_decode.md R150, R152) in terms of the window's bits. -/

theorem bitsOf_merge (b : Byte) (s : State) :
    bitsOf (merge b s).ilen (merge b s).ibits = bitsOf s.ilen s.ibits ++ bitsOf 8 b.toNat := by
  have happend := bitsOf_append s.ilen 8 s.ibits b.toNat
  rwa [Nat.mod_eq_of_lt b.isLt] at happend

theorem merge_frame (b : Byte) (s : State) :
    merge b s = { s with
      ibits := (merge b s).ibits, ilen := s.ilen + 8
      stuffPending := if b = 0xFF then true else s.stuffPending } := by
  by_cases hb : b = 0xFF
  · simp only [merge, beq_iff_eq.mpr hb, Bool.or_true, if_pos hb]
  · simp only [merge, beq_eq_false_iff_ne.mpr hb, Bool.or_false, if_neg hb]

/-- The window's bits, cut after the `n` oldest. -/
theorem bitsOf_window {n len : Nat} (bits : Nat) (h : n ≤ len) :
    bitsOf len bits = bitsOf n (oldest bits len n) ++ bitsOf (len - n) bits := by
  have hsplit := bitsOf_split n (len - n) bits
  rwa [Nat.add_sub_cancel' h, ← bitsOf_mod _ (Nat.le_refl n)] at hsplit

theorem bitsOf_consume {n : Nat} {s : State} (h : n ≤ s.ilen) :
    bitsOf (consume n s).ilen (consume n s).ibits = (bitsOf s.ilen s.ibits).drop n := by
  rw [bitsOf_window s.ibits h, List.drop_left' (bitsOf_length _ _)]
  exact bitsOf_mod _ (Nat.le_refl _)

/-- Settles O8: the window's bits after a merge, and cut after the `n` oldest. -/
theorem inboundWindowIsQueue : Obligations.InboundWindowIsQueue := by
  intro s b n
  refine ⟨⟨bitsOf_merge b s, merge_frame b s⟩, fun hn => ⟨bitsOf_consume hn, rfl, ?bound, ?head⟩⟩
  case bound => exact Nat.mod_lt _ (Nat.two_pow_pos _)
  case head => rw [bitsOf_window s.ibits hn, List.take_left' (bitsOf_length _ _)]

/-- The bits at the head of the window do not change when bits follow it. -/
theorem oldest_extend {n len m x : Nat} (bits : Nat) (hn : n ≤ len) (hx : x < 2 ^ m) :
    oldest (bits * 2 ^ m + x) (len + m) n = oldest bits len n := by
  have hdrop : (bits * 2 ^ m + x) / 2 ^ m = bits := by
    rw [Nat.mul_comm, Nat.mul_add_div (Nat.two_pow_pos m), Nat.div_eq_of_lt hx, Nat.add_zero]
  unfold oldest
  rw [show len + m - n = m + (len - n) by omega, Nat.pow_add, ← Nat.div_div_eq_div_mul, hdrop]

/-- A match of a walk that starts at length `L` is no shorter. -/
theorem huffWalk_found_le {bits len L code w : Nat} {cs syms : List Byte} {sym : Byte}
    (h : huffWalk bits len cs L code syms = .found sym w) : L ≤ w := by
  obtain ⟨_, _, hwalk, hle, _⟩ | ⟨hwalk, _⟩ | ⟨hwalk, _⟩ | ⟨hwalk, _⟩ := huffWalk_cases bits len cs L code syms
  case inl => rw [h] at hwalk; cases hwalk; exact hle
  all_goals rw [h] at hwalk; cases hwalk

/-- Where bits follow the window the walk answers as before, unless it asked for more input: a match that it then finds
lies beyond the old window (41_entropy_decode.md R154, R155). -/
theorem huffWalk_extend {bits len m x : Nat} (hx : x < 2 ^ m) (cs : List Byte) (L code : Nat) (syms : List Byte) :
    huffWalk (bits * 2 ^ m + x) (len + m) cs L code syms = huffWalk bits len cs L code syms
    ∨ (huffWalk bits len cs L code syms = .needInput
        ∧ ∀ sym w, huffWalk (bits * 2 ^ m + x) (len + m) cs L code syms = .found sym w → len < w) := by
  induction cs generalizing L code syms with
  | nil => exact .inl rfl
  | cons c cs ih =>
    by_cases hL : len < L
    case pos =>
      refine .inr ⟨by rw [huffWalk, if_pos hL], fun sym w hfound => ?_⟩
      exact Nat.lt_of_lt_of_le hL (huffWalk_found_le hfound)
    case neg =>
      have hold : oldest (bits * 2 ^ m + x) (len + m) L = oldest bits len L := oldest_extend bits (by omega) hx
      rw [huffWalk, huffWalk, if_neg hL, if_neg (show ¬len + m < L by omega), hold]
      by_cases hrun : code ≤ oldest bits len L ∧ oldest bits len L < code + c.toNat
      · left; rw [if_pos hrun, if_pos hrun]
      · rw [if_neg hrun, if_neg hrun]; exact ih _ _ _

/-- The lookup with bits behind the window, as `huffWalk_extend` has it for the walk. -/
theorem huffLookup_extend (t : HuffTable) (bits len : Nat) {m x : Nat} (hx : x < 2 ^ m) :
    huffLookup t (bits * 2 ^ m + x) (len + m) = huffLookup t bits len
    ∨ (huffLookup t bits len = .needInput
        ∧ ∀ sym w, huffLookup t (bits * 2 ^ m + x) (len + m) = .found sym w → len < w) :=
  huffWalk_extend hx t.count 1 0 t.sym

/-- No match means that every length of the table was in the window (41_entropy_decode.md R163). -/
theorem huffLookup_noMatch {t : HuffTable} {bits len : Nat} (h : huffLookup t bits len = .noMatch) :
    t.count.length ≤ len := by
  unfold huffLookup at h
  obtain ⟨_, _, hwalk, _⟩ | ⟨hwalk, _⟩ | ⟨_, hlen⟩ | ⟨hwalk, _⟩ := huffWalk_cases bits len t.count 1 0 t.sym
  case inr.inr.inl =>
    cases hc : t.count with
    | nil => exact Nat.zero_le _
    | cons c cs => have := hlen (by simp [hc]); rw [hc] at this; omega
  all_goals rw [h] at hwalk; cases hwalk

/-- Settles O9: the lookup answers as before, or it had asked for more input. -/
theorem lookupIgnoresLaterBits : Obligations.LookupIgnoresLaterBits := by
  intro t bits len x m _ hx
  obtain hsame | ⟨hneed, hbeyond⟩ := huffLookup_extend t bits len hx
  case inl =>
    refine ⟨fun sym w hfound => hsame.trans hfound, fun hno => ⟨fun hc => hc ▸ huffLookup_noMatch hno, hsame.trans hno⟩,
      fun hneed sym w hfound => ?_⟩
    rw [hsame, hneed] at hfound
    cases hfound
  case inr =>
    refine ⟨fun sym w hfound => ?_, fun hno => ?_, fun _ => hbeyond⟩
    · rw [hneed] at hfound; cases hfound
    · rw [hneed] at hno; cases hno

end Sys2Proof.Machine
end

section
/-! What writes to the outbound stream only, and the ends of steps and blocks. -/

namespace Sys2Proof.Machine

variable {s t : State}

/-- The outbound registers that a state already has change nothing. -/
theorem SameOut.withOut_eq (h : SameOut s t) : t.withOut s = t := by
  obtain ⟨hbuf, hcount, hbits, hlen⟩ := h
  simp only [State.withOut, ← hbuf, ← hcount, ← hbits, ← hlen]

/-- A write that reads and changes the outbound registers only: from a state with the same outbound registers it gives
that state with the same new ones. -/
def OutOnly (write : State → State) : Prop := ∀ s t, SameOut s t → write t = t.withOut (write s)

theorem outBits_outOnly (x n : Nat) : OutOnly (outBits x n) := fun _ _ h => outBits_withOut x n h

theorem emitted_outOnly (code w : Nat) (v : Int) : OutOnly (emitted code w v) := fun _ _ h => emitted_withOut code w v h

theorem OutOnly.comp {f g : State → State} (hf : OutOnly f) (hg : OutOnly g) : OutOnly (fun s => f (g s)) := by
  intro s t h
  have hout : SameOut (g s) (g t) := by rw [hg s t h]; exact ⟨rfl, rfl, rfl, rfl⟩
  show f (g t) = t.withOut (f (g s))
  rw [hf _ _ hout, hg s t h]
  rfl

theorem OutOnly.iterate {f : State → State} (hf : OutOnly f) (n : Nat) : OutOnly f^[n] := by
  induction n with
  | zero => exact fun _ _ h => h.withOut_eq.symm
  | succ n ih => exact ih.comp hf

/-- Such a write leaves the other registers of its own state as they are. -/
theorem OutOnly.self {write : State → State} (h : OutOnly write) (s : State) : write s = s.withOut (write s) :=
  h s s (SameOut.refl s)

/-- One of the fixed symbols is written as its code (43_entropy_encode.md R188). -/
theorem emit_symbol {cls : HuffClass} {run code w : Nat}
    (h : huffEncode (destTable cls s) (BitVec.ofNat 8 (run * 16)) = some (code, w)) :
    emit cls run 0 s = .ok (outBits code w s) :=
  emit_ok (v := 0) (Nat.zero_le 15) h

/-- A step whose block is not done ends as it is (41_entropy_decode.md R153). -/
theorem finishStep_of_lt (h : s.k < 64) : finishStep s = .ok s := if_neg (Nat.not_le.mpr h)

theorem finishStep_of_done (h : 64 ≤ s.k) : finishStep s = blockEnd s := if_pos h

/-! The symbols that write nothing, or one code at once. -/

/-- Settles O34: the two cases of the stuffed byte. -/
theorem stuffedByte : Obligations.StuffedByte :=
  fun _ _ => ⟨fun hb => hb ▸ exec_stuff_zero, fun hb => exec_stuff_nonzero hb⟩

/-- Settles O30: the meaning is the fatal entry, and the runs 1 to 14 of size 0 decode to it. -/
theorem reservedSymbolRejected : Obligations.ReservedSymbolRejected := by
  refine fun s run => ⟨rfl, fun hlow hhigh => ?_⟩
  have h0 : run ≠ 0 := by rintro rfl; exact absurd hlow (by decide)
  have h15 : run ≠ 15 := by rintro rfl; exact absurd hhigh (by decide)
  exact congrArg Except.ok (decodeSymbol_sizeZero h0 h15)

/-- A DC symbol with a size awaits its field (41_entropy_decode.md R156). -/
theorem exec_dc_sized {size : BitVec 4} (hi : BitVec 4) (hsize : size ≠ 0) (hk : s.k < 64) :
    exec (.dc hi size) s = .next { s with needbits := size, pstate := .int } :=
  have hend := finishStep_of_lt (s := { s with needbits := size, pstate := .int }) hk
  congrArg Res.outcome ((if_neg hsize).trans hend)

/-- An AC symbol whose run stays inside the block awaits its field (41_entropy_decode.md R159). -/
theorem exec_ac_inside {run : BitVec 4} (size : BitVec 4) (h : s.k + run.toNat ≤ 63) :
    exec (.ac run size) s = .next { s with
      acrle := run, k := s.k + run.toNat, needbits := size, pstate := .int } :=
  congrArg Res.outcome ((if_neg (Nat.not_lt.mpr h)).trans (finishStep_of_lt (Nat.lt_succ_of_le h)))

theorem exec_ac_overrun {run : BitVec 4} (size : BitVec 4) (h : 63 < s.k + run.toNat) :
    exec (.ac run size) s = .next (enterFatal .coefOverrun { s with acrle := run }) :=
  congrArg Res.outcome (if_pos h)

/-- Settles O25, form by form. -/
theorem sizedSymbolsAwaitValue : Obligations.SizedSymbolsAwaitValue :=
  fun _ hi _ size hsize =>
    ⟨fun hk => exec_dc_sized hi hsize (by omega), exec_ac_inside size, exec_ac_overrun size⟩

/-- `ZRL` passes 16 coefficients, which does not end the block (41_entropy_decode.md R158). -/
theorem exec_zrl_of_emit {u : State} (hk : s.k + 16 ≤ 63) (h : emit .ac 15 0 { s with acrle := 0 } = .ok u)
    (huk : u.k = s.k) : exec .zrl s = .next { u with k := u.k + 16 } := by
  show Res.outcome _ = _
  rw [if_neg (Nat.not_lt.mpr hk), h, Res.ok_andThen, Res.ok_andThen, finishStep_of_lt]
  · rfl
  · simp only [huk]; omega

/-- Settles O29: the code is written, or the run would pass coefficient 63. -/
theorem zeroRunSymbol : Obligations.ZeroRunSymbol := by
  refine fun s code w => ⟨fun hc hk => ?inside, fun hk => congrArg Res.outcome (if_pos hk)⟩
  case inside =>
    have hemit : emit .ac 15 0 { s with acrle := 0 } = .ok (outBits code w { s with acrle := 0 }) := emit_symbol hc
    have hwrite : outBits code w { s with acrle := 0 } = { outBits code w s with acrle := 0 } := by
      rw [outBits_outOnly code w s { s with acrle := 0 } ⟨rfl, rfl, rfl, rfl⟩, (outBits_outOnly code w).self s]
      rfl
    rw [exec_zrl_of_emit hk hemit (by simp), hwrite, outBits_k]

end Sys2Proof.Machine
end

section
/-! The DC step (42_rescale.md R172, 44_cursor.md R215). -/

namespace Sys2Proof.Machine

variable {s : State} {v raw new diff : Int}

theorem atReset_iff : atReset s = true ↔ s.cu = s.resetCu ∧ (s.part = 0 ∨ s.yparts ≤ s.part) := by
  simp only [atReset, Bool.and_eq_true, decide_eq_true_eq]

/-- The state with the new source-side predictor of the component. -/
def State.withRaw (s : State) (raw : Int) : State :=
  { s with dcraw := triSet s.dcraw s.comp (BitVec.ofInt 32 raw) }

theorem dcUpdate_overflow (h : DcNumbers s v raw new diff) (hraw : raw < -(2 ^ 31) ∨ 2 ^ 31 - 1 < raw) :
    dcUpdate v s = .fatal .arithOverflow s := by
  obtain ⟨src, dst, old, last, hsrc, hdst, hold, -, rfl, -, -⟩ := h
  simp only [dcUpdate, hsrc, hdst, hold]
  exact if_pos hraw

/-- In range, the new predictor is written and then the difference (44_cursor.md R215). -/
theorem dcUpdate_inRange (h : DcNumbers s v raw new diff) (hlow : -(2 ^ 31) ≤ raw) (hhigh : raw ≤ 2 ^ 31 - 1) :
    dcUpdate v s = (emit .dc 0 diff (s.withRaw raw)).andThen
      (fun u => .ok { u with dcemit := triSet u.dcemit u.comp (BitVec.ofInt 32 new) }) := by
  obtain ⟨src, dst, old, last, hsrc, hdst, hold, hlast, hraw, hnew, hdiff⟩ := h
  have hsum : dcSum old.toInt v src dst = raw := hraw.symm
  have hdest : toDest raw src dst = new := hnew.symm
  have hreset : (new - if atReset s = true then 0 else last.toInt) = diff := by simp only [hdiff, atReset_iff]
  simp only [dcUpdate, hsrc, hdst, hold, hsum, hdest]
  rw [if_neg (by omega), ← hreset]
  simp only [dcEmit, hlast]
  rfl

/-- The written difference goes out, and both predictors of the component are updated. -/
theorem dcUpdate_writes {code w : Nat} (h : DcNumbers s v raw new diff) (hlow : -(2 ^ 31) ≤ raw)
    (hhigh : raw ≤ 2 ^ 31 - 1) (hsize : (vencode diff).2 ≤ 15)
    (hc : huffEncode (destTable .dc s) (BitVec.ofNat 8 (vencode diff).2) = some (code, w)) :
    dcUpdate v s = .ok { emitted code w diff s with
      dcraw := triSet s.dcraw s.comp (BitVec.ofInt 32 raw)
      dcemit := triSet s.dcemit s.comp (BitVec.ofInt 32 new) } := by
  have hemit : emit .dc 0 diff (s.withRaw raw) = .ok (emitted code w diff (s.withRaw raw)) :=
    emit_ok hsize (by rw [Nat.zero_mul, Nat.zero_add]; exact hc)
  have hwrite := emitted_outOnly code w diff s (s.withRaw raw) ⟨rfl, rfl, rfl, rfl⟩
  rw [dcUpdate_inRange h hlow hhigh, hemit, Res.ok_andThen, hwrite, (emitted_outOnly code w diff).self s]
  rfl

/-- A difference that cannot be written: only the source-side predictor has changed (43_entropy_encode.md R189). -/
theorem dcUpdate_range (h : DcNumbers s v raw new diff) (hlow : -(2 ^ 31) ≤ raw) (hhigh : raw ≤ 2 ^ 31 - 1)
    (hd : 15 < (vencode diff).2 ∨ huffEncode (destTable .dc s) (BitVec.ofNat 8 (vencode diff).2) = none) :
    dcUpdate v s = .fatal .encodeRange (s.withRaw raw) := by
  have hemit : emit .dc 0 diff (s.withRaw raw) = .fatal .encodeRange (s.withRaw raw) :=
    emit_range (by rw [Nat.zero_mul, Nat.zero_add]; exact hd)
  rw [dcUpdate_inRange h hlow hhigh, hemit, Res.fatal_andThen]

/-- "No change" leaves the source-side predictor, which is a 32-bit number. -/
theorem DcNumbers.raw_of_noChange (h : DcNumbers s 0 raw new diff) : -(2 ^ 31) ≤ raw ∧ raw ≤ 2 ^ 31 - 1 := by
  obtain ⟨src, dst, old, last, -, -, -, -, hraw, -, -⟩ := h
  have hsame : raw = old.toInt := by rw [hraw]; split <;> simp
  have hlow := old.le_toInt
  have hhigh := old.toInt_lt
  omega

/-- The numbers of a step do not depend on `NEEDBITS`. -/
theorem DcNumbers.withNeedbits (h : DcNumbers s v raw new diff) (size : BitVec 4) :
    DcNumbers { s with needbits := size } v raw new diff := h

/-! The two instructions that run a DC step. -/

theorem exec_dc_noChange (hi : BitVec 4) :
    exec (.dc hi 0) s =
      (((dcUpdate 0 { s with needbits := 0 }).andThen fun u => .ok { u with k := 1 }).andThen finishStep).outcome := rfl

theorem exec_v_dc (n : BitVec 4) (f : BitVec 15) (hk : s.k = 0) :
    exec (.v n f) s =
      (((dcUpdate (vdecode f.toNat n.toNat) s).andThen fun u => .ok { u with k := u.k + 1, pstate := .huff }).andThen
        finishStep).outcome := by
  show Res.outcome (((if s.k = 0 then _ else _ : Res).andThen _).andThen _) = _
  rw [if_pos hk]

/-- Settles O26: the update writes, and `K` = 1 does not end the block. -/
theorem dcStepWritesDifference : Obligations.DcStepWritesDifference := by
  intro s v raw new diff code w hi n f hk h hlow hhigh hsize hc
  refine ⟨fun hv => ?symbol, fun hv => ?field⟩ <;> subst hv
  case symbol =>
    have hwrite := emitted_outOnly code w diff s { s with needbits := 0 } ⟨rfl, rfl, rfl, rfl⟩
    rw [exec_dc_noChange, dcUpdate_writes (h.withNeedbits 0) hlow hhigh hsize hc, Res.ok_andThen, Res.ok_andThen,
      finishStep_of_lt (by simp), hwrite, (emitted_outOnly code w diff).self s]
    rfl
  case field =>
    rw [exec_v_dc n f hk, dcUpdate_writes h hlow hhigh hsize hc, (emitted_outOnly code w diff).self s,
      Res.ok_andThen, Res.ok_andThen, finishStep_of_lt (by simp [State.withOut, hk])]
    simp [State.withOut, hk]

/-- Settles O27: the update refuses, and the refusal ends the step. -/
theorem dcStepFatals : Obligations.DcStepFatals := by
  intro s v raw new diff hi n f hk h
  refine ⟨fun hv => ?range, fun hv hraw => ?overflow, fun hlow hhigh hd => ⟨fun hv => ?symbol, fun hv => ?field⟩⟩
    <;> subst hv
  case range => exact h.raw_of_noChange
  case overflow => rw [exec_v_dc n f hk, dcUpdate_overflow h hraw]; rfl
  case symbol => rw [exec_dc_noChange, dcUpdate_range (h.withNeedbits 0) hlow hhigh hd]; rfl
  case field => rw [exec_v_dc n f hk, dcUpdate_range h hlow hhigh hd]; rfl

end Sys2Proof.Machine
end

section
/-! How a block ends (44_cursor.md R208 to R210), and the symbol and the coefficient that end one. -/

namespace Sys2Proof.Machine

variable {s b : State}

/-- What a synthesized chroma block writes, with the chroma tables' codes for "no change" and "all zero"
(44_cursor.md R210). -/
def chromaBits (dc dw ac aw : Nat) (s : State) : State := outBits ac aw (outBits dc dw s)

theorem chromaBits_outOnly (dc dw ac aw : Nat) : OutOnly (chromaBits dc dw ac aw) :=
  (outBits_outOnly ac aw).comp (outBits_outOnly dc dw)

/-- Both chroma blocks of a unit change the outbound registers only. -/
theorem chromaBits_twice_outOnly (dc dw ac aw : Nat) :
    OutOnly (fun s => chromaBits dc dw ac aw (chromaBits dc dw ac aw s)) :=
  (chromaBits_outOnly dc dw ac aw).comp (chromaBits_outOnly dc dw ac aw)

theorem chromaBits_twice_self (dc dw ac aw : Nat) (s : State) :
    chromaBits dc dw ac aw (chromaBits dc dw ac aw s) = s.withOut (chromaBits dc dw ac aw (chromaBits dc dw ac aw s)) :=
  (chromaBits_twice_outOnly dc dw ac aw).self s

/-- Past the synthesized chroma block `cc`, with the outbound registers of `u`. -/
def State.pastChroma (s u : State) (cc : Nat) : State := { s.withOut u with comp := cc, part := s.part + 1 }

theorem synthesizeChroma_writes {u : State} {cc dc dw ac aw : Nat} (hout : SameOut u s) (hcc : cc ≠ 0)
    (hdc : huffEncode s.rom.dhtDc.s1 0x00 = some (dc, dw)) (hac : huffEncode s.rom.dhtAc.s1 0x00 = some (ac, aw)) :
    synthesizeChroma cc s = .ok (s.pastChroma (chromaBits dc dw ac aw u) cc) := by
  have hchroma {α : Type} (p : Pair α) : usage p cc = p.s1 := if_neg hcc
  have hemitDc : emit .dc 0 0 { s with comp := cc } = .ok (outBits dc dw { s with comp := cc }) := by
    apply emit_symbol; rw [destTable, hchroma]; exact hdc
  have hemitAc : emit .ac 0 0 (outBits dc dw { s with comp := cc }) =
      .ok (chromaBits dc dw ac aw { s with comp := cc }) := by
    apply emit_symbol; rw [destTable, outBits_rom, outBits_comp, hchroma]; exact hac
  rw [synthesizeChroma, hemitDc, Res.ok_andThen, hemitAc, Res.ok_andThen,
    chromaBits_outOnly dc dw ac aw u { s with comp := cc } hout]
  rfl

/-- The part after the last of a unit: the unit ends (44_cursor.md R208). -/
theorem nextBlock_unitEnd (h : s.part = s.yparts + 2) :
    nextBlock s = unitEnd { s with k := 0, acrle := 0, accrle := 0 } := if_pos h

theorem nextBlock_inside (h : s.part ≠ s.yparts + 2) :
    nextBlock s = { s with comp := compOf s.yparts s.part, k := 0, acrle := 0, accrle := 0 } := if_neg h

theorem blockEnd_plain (h : ¬(s.mono = true ∧ s.part + 1 = s.yparts)) :
    blockEnd s = .ok (nextBlock { s with part := s.part + 1 }) := if_neg h

/-- The luma block of a monochrome unit: two chroma blocks, then the unit ends (44_cursor.md R210). -/
theorem blockEnd_mono {dc dw ac aw : Nat} (hmono : s.mono = true) (hpart : s.part + 1 = s.yparts)
    (hdc : huffEncode s.rom.dhtDc.s1 0x00 = some (dc, dw)) (hac : huffEncode s.rom.dhtAc.s1 0x00 = some (ac, aw)) :
    blockEnd s = .ok (unitEnd { chromaBits dc dw ac aw (chromaBits dc dw ac aw s) with
      part := s.yparts + 2, comp := 2, k := 0, acrle := 0, accrle := 0 }) := by
  have hfirst := synthesizeChroma_writes (s := { s with part := s.part + 1 }) (u := s) (cc := 1) ⟨rfl, rfl, rfl, rfl⟩
    (by decide) hdc hac
  have hsecond := synthesizeChroma_writes
    (s := ({ s with part := s.part + 1 } : State).pastChroma (chromaBits dc dw ac aw s) 1)
    (u := chromaBits dc dw ac aw s) (cc := 2) ⟨rfl, rfl, rfl, rfl⟩ (by decide) hdc hac
  have hlast : s.part + 1 + 1 + 1 = s.yparts + 2 := by omega
  rw [blockEnd, if_pos ⟨hmono, hpart⟩, hfirst, Res.ok_andThen, hsecond, Res.ok_andThen]
  refine congrArg Res.ok ((nextBlock_unitEnd ?_).trans (congrArg unitEnd ?_))
  · simp only [State.pastChroma, State.withOut, hlast]
  · rw [chromaBits_twice_self]
    simp only [State.pastChroma, State.withOut, hlast]

theorem blockEnds_blockEnd (s : State) : BlockEnds s (blockEnd s).outcome := by
  refine ⟨fun hplain hpart => ?inside, fun hplain hpart => ?unit, fun hmono hpart dc dw ac aw hdc hac => ?mono⟩
  case inside => rw [blockEnd_plain hplain, nextBlock_inside hpart]; rfl
  case unit => rw [blockEnd_plain hplain, nextBlock_unitEnd hpart]; rfl
  case mono => rw [blockEnd_mono hmono hpart hdc hac]; rfl

/-- The coefficient registers that a block's end clears play no part in it. -/
theorem BlockEnds.of_coefficients {k accrle : Nat} {acrle : BitVec 4} {o : Host.Outcome State Fault Refusal}
    (h : BlockEnds { b with k := k, acrle := acrle, accrle := accrle } o) : BlockEnds b o := by
  obtain ⟨hinside, hunit, hmono⟩ := h
  refine ⟨hinside, hunit, fun hm hpart dc dw ac aw hdc hac => (hmono hm hpart dc dw ac aw hdc hac).trans ?_⟩
  have hwrite : chromaBits dc dw ac aw (chromaBits dc dw ac aw { b with k := k, acrle := acrle, accrle := accrle }) =
      State.withOut { b with k := k, acrle := acrle, accrle := accrle }
        (chromaBits dc dw ac aw (chromaBits dc dw ac aw b)) :=
    chromaBits_twice_outOnly dc dw ac aw b _ ⟨rfl, rfl, rfl, rfl⟩
  have hself := chromaBits_twice_self dc dw ac aw b
  simp only [chromaBits] at hwrite hself
  rw [hwrite, hself]
  rfl

/-! `EOB` and the value of coefficient 63. -/

theorem exec_eob_of_emit {u : State} (h : emit .ac 0 0 { s with acrle := 0 } = .ok u) :
    exec .eob s = (blockEnd { u with k := 64 }).outcome := by
  show Res.outcome _ = _
  rw [h, Res.ok_andThen, Res.ok_andThen, finishStep_of_done (Nat.le_refl 64)]

/-- Settles O28: the code is written, and what is left of the step is the block's end. -/
theorem endOfBlockSymbol : Obligations.EndOfBlockSymbol := by
  intro s code w hc
  have hemit : emit .ac 0 0 { s with acrle := 0 } = .ok (outBits code w { s with acrle := 0 }) := emit_symbol hc
  have hwrite : ({ outBits code w { s with acrle := 0 } with k := 64 } : State) =
      { outBits code w s with k := 64, acrle := 0, accrle := s.accrle } := by
    rw [outBits_outOnly code w s { s with acrle := 0 } ⟨rfl, rfl, rfl, rfl⟩, (outBits_outOnly code w).self s]
    rfl
  rw [exec_eob_of_emit hemit, hwrite]
  exact (blockEnds_blockEnd _).of_coefficients

end Sys2Proof.Machine
end

section
/-! AC values (42_rescale.md R174, 43_entropy_encode.md R196): what one writes, and where one ends the block. -/

namespace Sys2Proof.Machine

variable {s : State} {v : Int} {src dst : Byte}

/-- The state `s` with the outbound registers of `u` and the run accumulator at `z`. -/
def State.pastRuns (s u : State) (z : Nat) : State := { s.withOut u with accrle := z }

@[simp] theorem State.pastRuns_accrle (s u : State) (z : Nat) : (s.pastRuns u z).accrle = z := rfl

/-- The runs of sixteen zeros are one write; each takes its zeros off the run accumulator. -/
theorem emitZeroRuns_writes {zc zw : Nat} (n : Nat) {s u : State} (hout : SameOut u s)
    (hc : 1 ≤ n → huffEncode (destTable .ac s) 0xF0 = some (zc, zw)) :
    emitZeroRuns n s = .ok (s.pastRuns ((outBits zc zw)^[n] u) (s.accrle - 16 * n)) := by
  induction n generalizing s u with
  | zero =>
    show Res.ok s = .ok { s.withOut u with accrle := s.accrle }
    rw [hout.withOut_eq]
  | succ n ih =>
    have hcode := hc (Nat.succ_pos n)
    have hemit : emit .ac 15 0 s = .ok (s.withOut (outBits zc zw u)) :=
      (emit_symbol hcode).trans (congrArg Res.ok (outBits_withOut zc zw hout))
    have hrest := ih (s := s.pastRuns (outBits zc zw u) (s.accrle - 16)) (u := outBits zc zw u) ⟨rfl, rfl, rfl, rfl⟩
      (fun _ => hcode)
    rw [State.pastRuns_accrle, Nat.sub_sub, Nat.add_comm, ← Nat.mul_succ] at hrest
    rw [emitZeroRuns, hemit, Res.ok_andThen, Res.ok_andThen]
    exact hrest

/-- The symbol after the runs of zeros. -/
theorem emit_pastRuns {u : State} {run z code w : Nat} (hsize : (vencode v).2 ≤ 15)
    (hc : huffEncode (destTable .ac s) (BitVec.ofNat 8 (run * 16 + (vencode v).2)) = some (code, w)) :
    emit .ac run v (s.pastRuns u z) = .ok (s.pastRuns (emitted code w v u) z) :=
  (emit_ok (s := s.pastRuns u z) hsize hc).trans
    (congrArg Res.ok (emitted_withOut code w v ⟨rfl, rfl, rfl, rfl⟩))

/-- What a value that is not zero writes: the runs of sixteen zeros, then the symbol with its field. -/
theorem acBits_outOnly (code w zc zw n : Nat) (r : Int) :
    OutOnly (fun s => emitted code w r ((outBits zc zw)^[n] s)) :=
  (emitted_outOnly code w r).comp ((outBits_outOnly zc zw).iterate n)

theorem acBits_self (code w zc zw n : Nat) (r : Int) (s : State) :
    emitted code w r ((outBits zc zw)^[n] s) = s.withOut (emitted code w r ((outBits zc zw)^[n] s)) :=
  (acBits_outOnly code w zc zw n r).self s

/-- A value that is not zero in destination units is written after the zeros that wait. -/
theorem acValue_writes {zc zw code w : Nat} {r : Int} (hsrc : sourceStep s s.k = some src)
    (hdst : destStep s s.k = some dst) (hscale : acRescale v src dst = r) (hr : r ≠ 0) (hsize : (vencode r).2 ≤ 15)
    (hz : 16 ≤ s.accrle + s.acrle.toNat → huffEncode (destTable .ac s) 0xF0 = some (zc, zw))
    (hc : huffEncode (destTable .ac s)
      (BitVec.ofNat 8 ((s.accrle + s.acrle.toNat) % 16 * 16 + (vencode r).2)) = some (code, w)) :
    acValue v s = .ok
      { emitted code w r ((outBits zc zw)^[(s.accrle + s.acrle.toNat) / 16] s) with accrle := 0 } := by
  have hruns : emitZeroRuns ((s.accrle + s.acrle.toNat) / 16) { s with accrle := s.accrle + s.acrle.toNat } =
      .ok (s.pastRuns ((outBits zc zw)^[(s.accrle + s.acrle.toNat) / 16] s) ((s.accrle + s.acrle.toNat) % 16)) := by
    rw [Nat.mod_eq_sub_mul_div]
    exact emitZeroRuns_writes (s := { s with accrle := s.accrle + s.acrle.toNat }) _ ⟨rfl, rfl, rfl, rfl⟩
      (fun hn => hz (by omega))
  simp only [acValue, hsrc, hdst, hscale, if_pos hr, hruns, Res.ok_andThen, State.pastRuns_accrle]
  rw [emit_pastRuns hsize hc, Res.ok_andThen, acBits_self]
  rfl

/-- A value that is rescaled to zero before coefficient 63 is counted with its run. -/
theorem acValue_counts (hsrc : sourceStep s s.k = some src) (hdst : destStep s s.k = some dst)
    (hr : acRescale v src dst = 0) (hk : s.k < 63) :
    acValue v s = .ok { s with accrle := s.accrle + s.acrle.toNat + 1 } := by
  simp only [acValue, hsrc, hdst, hr, ne_eq, not_true_eq_false, if_false, if_neg (Nat.not_le.mpr hk)]

/-- At coefficient 63 it is replaced by `EOB`. -/
theorem acValue_eob {code w : Nat} (hsrc : sourceStep s s.k = some src) (hdst : destStep s s.k = some dst)
    (hr : acRescale v src dst = 0) (hk : 63 ≤ s.k) (hc : huffEncode (destTable .ac s) 0x00 = some (code, w)) :
    acValue v s = .ok { outBits code w s with accrle := 0 } := by
  have hemit : emit .ac 0 0 s = .ok (outBits code w s) := emit_symbol hc
  simp only [acValue, hsrc, hdst, hr, ne_eq, not_true_eq_false, if_false, if_pos hk, hemit, Res.ok_andThen]

/-! The instruction that runs an AC value. -/

theorem exec_v_ac {t : State} (n : BitVec 4) (f : BitVec 15) (hk : s.k ≠ 0)
    (h : acValue (vdecode f.toNat n.toNat) s = .ok t) :
    exec (.v n f) s = (finishStep { t with k := t.k + 1, pstate := .huff }).outcome := by
  show Res.outcome (((if s.k = 0 then _ else _ : Res).andThen _).andThen _) = _
  rw [if_neg hk, h]
  rfl

/-- Settles O31: the value is written or counted, and the block goes on. -/
theorem acValueInBlock : Obligations.AcValueInBlock := by
  intro s n f src dst r hk1 hk63 hsrc hdst hr zeros
  have hk0 : s.k ≠ 0 := by omega
  refine ⟨fun hne hsize zc zw code w hz hc => ?written, fun hzero => ?counted⟩
  case written =>
    rw [exec_v_ac n f hk0 (acValue_writes hsrc hdst hr.symm hne hsize hz hc), acBits_self, finishStep_of_lt]
    · rfl
    · show s.k + 1 < 64
      omega
  case counted =>
    rw [exec_v_ac n f hk0 (acValue_counts hsrc hdst (hr.symm.trans hzero) hk63), finishStep_of_lt (by simp only; omega)]
    rfl

/-- Settles O32: the value is written or replaced, and what is left of the step is the block's end. -/
theorem lastCoefficientEndsBlock : Obligations.LastCoefficientEndsBlock := by
  intro s n f src dst r hk hsrc hdst hr zeros
  have hk0 : s.k ≠ 0 := by omega
  rw [← hk] at hsrc hdst
  refine ⟨fun hne hsize zc zw code w hz hc => ?written, fun hzero code w hc => ?replaced⟩
  case written =>
    rw [exec_v_ac n f hk0 (acValue_writes hsrc hdst hr.symm hne hsize hz hc), finishStep_of_done]
    · exact (blockEnds_blockEnd _).of_coefficients
    · rw [acBits_self]
      exact Nat.succ_le_succ hk.ge
  case replaced =>
    rw [exec_v_ac n f hk0 (acValue_eob hsrc hdst (hr.symm.trans hzero) hk.ge hc), finishStep_of_done]
    · exact (blockEnds_blockEnd _).of_coefficients
    · simp [hk]

end Sys2Proof.Machine
end

section
/-! What no entropy-coded symbol or value field changes. No invariant is assumed: each operation keeps the frame from
every state, whether it ends normally or in a fatal condition. -/

namespace Sys2Proof.Machine

/-- What an operation leaves is a state that satisfies `P`, whether it ends normally or in a fatal condition. -/
def Res.All (P : State → Prop) : Res → Prop
  | .ok t => P t
  | .fatal _ t => P t
  | .fault _ => True

/-- Whatever holds of the state left, and does not depend on the status, holds of the next state. -/
theorem Res.All.outcome {P : State → Prop} {r : Res} {t : State} (h : r.All P) (hP : ∀ e u, P u → P (enterFatal e u))
    (ht : r.outcome = .next t) : P t := by
  cases r with
  | ok u => cases ht; exact h
  | fatal e u => cases ht; exact hP e u h
  | fault f => cases ht

theorem Res.All.mono {P Q : State → Prop} {r : Res} (h : r.All P) (hPQ : ∀ u, P u → Q u) : r.All Q := by
  cases r with
  | ok u => exact hPQ u h
  | fatal e u => exact hPQ u h
  | fault f => trivial

/-- Sequencing: what holds after the first part is carried on by the second. -/
theorem Res.All.andThen {P Q : State → Prop} {r : Res} {k : State → Res} (h : r.All P) (hPQ : ∀ u, P u → Q u)
    (hk : ∀ u, P u → (k u).All Q) : (r.andThen k).All Q := by
  cases r with
  | ok u => exact hk u h
  | fatal e u => exact hPQ u h
  | fault f => trivial

/-- The registers that no symbol or value field writes. -/
def symbolRegs (s : State) :=
  (fixedRegs s, (s.sqt, s.shtDc, s.shtAc, s.td, s.ta, s.dri),
    (s.mkReg, s.segLen, s.lenCnt, s.segbuf, s.segCnt, s.skipCnt, s.stuffPending), s.ibits, s.ilen, s.pktSeq, s.done)

/-- The frame of a symbol or value field of component `c`: the registers it does not write, the predictors of the other
components, the packet buffer outside the bytes it appends. -/
structure Framed (c : Nat) (s t : State) : Prop where
  regs : symbolRegs t = symbolRegs s
  predictors : ∀ c', c' ≠ c → triGet? t.dcraw c' = triGet? s.dcraw c' ∧ triGet? t.dcemit c' = triGet? s.dcemit c'
  grows : s.outCount ≤ t.outCount
  buffer : ∀ a, a < s.outCount ∨ t.outCount ≤ a → memRead t.pktbuf a = memRead s.pktbuf a

variable {c : Nat} {s t u : State}

theorem Framed.refl (c : Nat) (s : State) : Framed c s s :=
  ⟨rfl, fun _ _ => ⟨rfl, rfl⟩, Nat.le_refl _, fun _ _ => rfl⟩

theorem Framed.trans (h : Framed c s t) (h' : Framed c t u) : Framed c s u where
  regs := h'.regs.trans h.regs
  predictors c' hc := ⟨(h'.predictors c' hc).1.trans (h.predictors c' hc).1,
    (h'.predictors c' hc).2.trans (h.predictors c' hc).2⟩
  grows := Nat.le_trans h.grows h'.grows
  buffer a ha := by
    have hst := h.grows
    have htu := h'.grows
    exact (h'.buffer a (by omega)).trans (h.buffer a (by omega))

/-- What else the frame names besides `symbolRegs`. -/
def predictorsAndBuffer (s : State) := (s.dcraw, s.dcemit, s.outCount, s.pktbuf)

/-- A write of registers outside the frame. -/
theorem Framed.of_write (hregs : symbolRegs t = symbolRegs s) (hrest : predictorsAndBuffer t = predictorsAndBuffer s) :
    Framed c s t := by
  simp only [predictorsAndBuffer, Prod.mk.injEq] at hrest
  obtain ⟨hraw, hemit, hcount, hbuf⟩ := hrest
  exact ⟨hregs, fun _ _ => by rw [hraw, hemit]; exact ⟨rfl, rfl⟩, hcount.ge, fun _ _ => by rw [hbuf]⟩

/-- Bits moved to the packet buffer stay inside the frame. -/
theorem Wrote.framed {n : Nat} (h : Wrote n s t) : Framed c s t where
  regs := by rw [h.frame]; rfl
  predictors _ _ := by rw [h.frame]; exact ⟨rfl, rfl⟩
  grows := h.flushed.grows
  buffer := h.flushed.below

/-! A register file is a list of three entries. -/

theorem triGet_eq_getElem {α : Type} (p : Tri α) (i : Nat) : triGet? p i = [p.c0, p.c1, p.c2][i]? :=
  match i with
  | 0 | 1 | 2 | _ + 3 => rfl

theorem triSet_entries {α : Type} (p : Tri α) (i : Nat) (a : α) :
    [(triSet p i a).c0, (triSet p i a).c1, (triSet p i a).c2] = [p.c0, p.c1, p.c2].set i a :=
  match i with
  | 0 | 1 | 2 | _ + 3 => rfl

theorem triGet_triSet_ne {α : Type} (p : Tri α) {i j : Nat} (a : α) (h : i ≠ j) :
    triGet? (triSet p j a) i = triGet? p i := by
  rw [triGet_eq_getElem, triSet_entries, List.getElem?_set_ne h.symm, ← triGet_eq_getElem]

/-! A write of the component's own predictors. -/

theorem Framed.of_dcraw (s : State) (x : BitVec 32) : Framed s.comp s { s with dcraw := triSet s.dcraw s.comp x } :=
  ⟨rfl, fun _ hc => ⟨triGet_triSet_ne _ _ hc, rfl⟩, Nat.le_refl _, fun _ _ => rfl⟩

theorem Framed.of_dcemit (s : State) (x : BitVec 32) : Framed s.comp s { s with dcemit := triSet s.dcemit s.comp x } :=
  ⟨rfl, fun _ hc => ⟨rfl, triGet_triSet_ne _ _ hc⟩, Nat.le_refl _, fun _ _ => rfl⟩

/-- Sequencing: a step whose parts keep the frame keeps it. -/
theorem Res.All.framed {r : Res} {k : State → Res} (h : r.All (Framed c s)) (hk : ∀ u, (k u).All (Framed c u)) :
    (r.andThen k).All (Framed c s) :=
  h.andThen (fun _ => id) fun u hu => (hk u).mono fun _ => hu.trans

/-- Sequencing with a write of registers that keeps the frame. -/
theorem Res.All.framed_write {r : Res} {f : State → State} (h : r.All (Framed c s)) (hf : ∀ u, Framed c u (f u)) :
    (r.andThen fun u => .ok (f u)).All (Framed c s) := h.framed hf

/-- An operation that starts after a write of registers outside the frame. -/
theorem Res.All.framed_from {r : Res} (h : r.All (Framed c u)) (hu : Framed c s u) : r.All (Framed c s) :=
  h.mono fun _ => hu.trans

/-! Writing symbols, ends of blocks, the rescaler. -/

theorem emit_wrote (cls : HuffClass) (run : Nat) (v : Int) (s : State) :
    (emit cls run v s).All (fun t => ∃ n, Wrote n s t) := by
  by_cases hsize : 15 < (vencode v).2
  · rw [emit_range (.inl hsize)]; exact ⟨0, Wrote.refl s⟩
  · cases hc : huffEncode (destTable cls s) (BitVec.ofNat 8 (run * 16 + (vencode v).2)) with
    | none => rw [emit_range (.inr hc)]; exact ⟨0, Wrote.refl s⟩
    | some p => rw [emit_ok (Nat.le_of_not_lt hsize) hc]; exact ⟨_, emitted_wrote _ _ _ _⟩

theorem emit_framed (cls : HuffClass) (run : Nat) (v : Int) (s : State) : (emit cls run v s).All (Framed c s) :=
  (emit_wrote cls run v s).mono fun _ ⟨_, hw⟩ => hw.framed

theorem unitEnd_framed (s : State) : Framed c s (unitEnd s) := by
  obtain ⟨u, n, hw, _, hend, _⟩ := unitEnd_cases s
  rw [hend]
  exact hw.framed.trans (.of_write rfl rfl)

theorem nextBlock_framed (s : State) : Framed c s (nextBlock s) := by
  by_cases hlast : s.part = s.yparts + 2
  · rw [nextBlock_unitEnd hlast]
    exact Framed.trans (t := { s with k := 0, acrle := 0, accrle := 0 }) (.of_write rfl rfl) (unitEnd_framed _)
  · rw [nextBlock_inside hlast]
    exact .of_write rfl rfl

theorem synthesizeChroma_framed (cc : Nat) (s : State) : (synthesizeChroma cc s).All (Framed c s) := by
  have hdc : (emit .dc 0 0 { s with comp := cc }).All (Framed c s) :=
    (emit_framed _ _ _ _).framed_from (.of_write rfl rfl)
  exact (hdc.framed (emit_framed .ac 0 0)).framed_write fun _ => .of_write rfl rfl

theorem blockEnd_framed (s : State) : (blockEnd s).All (Framed c s) := by
  have hpart : Framed c s { s with part := s.part + 1 } := .of_write rfl rfl
  have hchroma := ((synthesizeChroma_framed 1 _).framed_from hpart).framed (synthesizeChroma_framed 2)
  unfold blockEnd
  simp only
  split
  · exact hchroma.framed_write nextBlock_framed
  · exact hpart.trans (nextBlock_framed _)

theorem finishStep_framed (s : State) : (finishStep s).All (Framed c s) := by
  unfold finishStep
  split
  · exact blockEnd_framed s
  · exact Framed.refl c s

theorem dcEmit_framed (new : Int) (s : State) : (dcEmit new s).All (Framed s.comp s) := by
  unfold dcEmit
  split
  case h_1 => trivial
  case h_2 =>
    refine (emit_wrote _ _ _ _).andThen (fun u ⟨_, hw⟩ => hw.framed) fun u ⟨_, hw⟩ => hw.framed.trans ?_
    have hcomp : s.comp = u.comp := by rw [hw.frame]
    rw [hcomp]
    exact .of_dcemit u _

/-- A DC step writes the predictors of its own component only (44_cursor.md R215). -/
theorem dcUpdate_framed (v : Int) (s : State) : (dcUpdate v s).All (Framed s.comp s) := by
  unfold dcUpdate
  split
  · split
    · exact Framed.refl _ s
    · exact (dcEmit_framed _ _).framed_from (.of_dcraw s _)
  · trivial
  · trivial

theorem emitZeroRuns_framed (n : Nat) (s : State) : (emitZeroRuns n s).All (Framed c s) := by
  induction n generalizing s with
  | zero => exact Framed.refl c s
  | succ n ih => exact Res.All.framed (Res.All.framed_write (emit_framed .ac 15 0 s) fun _ => .of_write rfl rfl) ih

theorem acValue_framed (v : Int) (s : State) : (acValue v s).All (Framed c s) := by
  unfold acValue
  split
  case h_2 => trivial
  case h_1 =>
    split
    case isTrue =>
      have hruns := (emitZeroRuns_framed (c := c) ((s.accrle + s.acrle.toNat) / 16) _).framed_from
        (s := s) (u := { s with accrle := s.accrle + s.acrle.toNat }) (.of_write rfl rfl)
      exact (hruns.framed fun u => emit_framed .ac _ _ u).framed_write fun _ => .of_write rfl rfl
    case isFalse =>
      split
      · exact (emit_framed .ac 0 0 s).framed_write fun _ => .of_write rfl rfl
      · exact .of_write rfl rfl

/-! The meanings. -/

/-- The forms of entropy-coded data (30_encoding.md R101, R102, R105). -/
inductive IsSymbol : Instr → Prop where
  | dc (hi size : BitVec 4) : IsSymbol (.dc hi size)
  | eob : IsSymbol .eob
  | zrl : IsSymbol .zrl
  | acReserved (run : BitVec 4) : IsSymbol (.acReserved run)
  | ac (run size : BitVec 4) : IsSymbol (.ac run size)
  | v (n : BitVec 4) (f : BitVec 15) : IsSymbol (.v n f)

theorem Framed.enterFatal (e : Reason) (h : Framed c s t) : Framed c s (enterFatal e t) := h.trans (.of_write rfl rfl)

theorem execDc_framed (hi size : BitVec 4) (h : execDc hi size s = .next t) : Framed s.comp s t := by
  refine Res.All.outcome ?_ (fun e _ => Framed.enterFatal e) h
  split
  · have hupdate := (dcUpdate_framed 0 { s with needbits := size }).framed_from (s := s) (.of_write rfl rfl)
    exact Res.All.framed (Res.All.framed_write hupdate fun _ => .of_write rfl rfl) finishStep_framed
  · exact (finishStep_framed _).framed_from (.of_write rfl rfl)

theorem execEob_framed (h : execEob s = .next t) : Framed c s t := by
  refine Res.All.outcome ?_ (fun e _ => Framed.enterFatal e) h
  have hemit := (emit_framed (c := c) .ac 0 0 { s with acrle := 0 }).framed_from (s := s) (.of_write rfl rfl)
  exact Res.All.framed (Res.All.framed_write hemit fun _ => .of_write rfl rfl) finishStep_framed

theorem execZrl_framed (h : execZrl s = .next t) : Framed c s t := by
  refine Res.All.outcome ?_ (fun e _ => Framed.enterFatal e) h
  split
  · exact .of_write rfl rfl
  · have hemit := (emit_framed (c := c) .ac 15 0 { s with acrle := 0 }).framed_from (s := s) (.of_write rfl rfl)
    exact Res.All.framed (Res.All.framed_write hemit fun _ => .of_write rfl rfl) finishStep_framed

theorem execAc_framed (run size : BitVec 4) (h : execAc run size s = .next t) : Framed c s t := by
  refine Res.All.outcome ?_ (fun e _ => Framed.enterFatal e) h
  split
  · exact .of_write rfl rfl
  · exact (finishStep_framed _).framed_from (.of_write rfl rfl)

theorem execV_framed (n : BitVec 4) (f : BitVec 15) (h : execV n f s = .next t) : Framed s.comp s t := by
  refine Res.All.outcome ?_ (fun e _ => Framed.enterFatal e) h
  refine Res.All.framed (Res.All.framed_write ?_ fun _ => .of_write rfl rfl) finishStep_framed
  split
  · exact dcUpdate_framed _ s
  · exact acValue_framed _ s

/-- Every symbol and value field keeps the frame of the component it belongs to. -/
theorem IsSymbol.framed {i : Instr} (hi : IsSymbol i) (h : exec i s = .next t) : Framed s.comp s t := by
  cases hi with
  | dc hi size => exact execDc_framed hi size h
  | eob => exact execEob_framed h
  | zrl => exact execZrl_framed h
  | acReserved run => cases h; exact .of_write rfl rfl
  | ac run size => exact execAc_framed run size h
  | v n f => exact execV_framed n f h

/-- Settles O39, register by register of the frame. -/
theorem entropyFrame : Obligations.EntropyFrame := by
  intro s t hi size run n f i hmem hexec
  have hsymbol : IsSymbol i := by
    simp only [List.mem_cons, List.not_mem_nil, or_false] at hmem
    obtain rfl | rfl | rfl | rfl | rfl | rfl := hmem <;> constructor
  obtain ⟨hregs, hpredictors, hgrows, hbuffer⟩ := hsymbol.framed hexec
  simp only [symbolRegs, fixedRegs, Prod.mk.injEq] at hregs
  obtain ⟨⟨hconfig, himage, hscan, hpos, hq⟩, ⟨hsqt, hdc, hac, htd, hta, hdri⟩, hparser, hibits, hilen, hseq, hdone⟩ :=
    hregs
  exact ⟨hconfig, himage, ⟨hsqt, hdc, hac, hscan, htd, hta, hdri⟩, ⟨hpos, hparser⟩, hibits, hilen, hseq, hdone, hq,
    hpredictors, hgrows, hbuffer⟩

end Sys2Proof.Machine
end

section
/-! The fixed symbols complete in every state that the invariant describes. -/

namespace Sys2Proof.Machine

variable {s t : State}

/-- A monochrome image reads part 0 only, and its unit has one luma block (44_cursor.md R209). -/
theorem mono_layout (ht : TablesOk s) (hc : CursorOk s) (he : s.pstate.entropy = true) (hm : s.mono = true) :
    s.part = 0 ∧ s.yparts = 1 := by
  have hframe := ht.frame (ht.scan (ht.entropy he)).1
  have hone : s.ncomp = 1 := by simpa [hm] using hframe.mono.symm
  refine ⟨(hc.inside he).2.2 hm, ?_⟩
  rw [hframe.yparts, hframe.layout hone]
  rfl

/-- `UnitEnd` moves neither the coefficient index nor `FAILED`. -/
theorem unitEnd_k_failed (s : State) : (unitEnd s).k = s.k ∧ (unitEnd s).failed = s.failed := by
  obtain ⟨u, n, hw, _, hend, _⟩ := unitEnd_cases s
  rw [hend, hw.frame]
  exact ⟨rfl, rfl⟩

/-- With an accepted ROM the end of a block completes and the next block begins at its first coefficient. -/
theorem blockEnd_completes (hrom : s.rom.wellFormed) (hpart : s.part ≤ s.yparts + 1)
    (hmono : s.mono = true → s.part = 0 ∧ s.yparts = 1) :
    ∃ t, blockEnd s = .ok t ∧ t.failed = s.failed ∧ t.k = 0 := by
  obtain ⟨hend, _⟩ | ⟨u, n, c, hw, _, hend⟩ := blockEnd_cases hrom hpart hmono
  case inl => exact ⟨_, hend, rfl, rfl⟩
  case inr =>
    obtain ⟨hk, hfailed⟩ := unitEnd_k_failed
      { u with part := s.yparts + 2, comp := c, k := 0, acrle := 0, accrle := 0 }
    refine ⟨_, hend, hfailed.trans ?_, hk⟩
    rw [hw.frame]

/-- Settles O40: the accepted ROM has both symbols, and the block's end completes. -/
theorem fixedSymbolsComplete : Obligations.FixedSymbolsComplete := by
  intro s h hrun hhuff hk
  have hrom := h.static.rom
  have hnf : s.failed = false := (h.static.running hrun).2
  have he : s.pstate.entropy = true := by rw [hhuff]; rfl
  have hlayout := mono_layout (h.tables hnf) (h.cursor hnf) he
  refine ⟨?eob, fun hroom => ?zrl⟩
  case eob =>
    obtain ⟨u, n, hemit, hw, _⟩ := emit_fixed (s := { s with acrle := 0 }) hrom .ac 0 (.inl rfl)
    have hpart : u.part ≤ u.yparts + 1 := by rw [hw.frame]; exact ((h.cursor hnf).inside he).1
    have hmono : u.mono = true → u.part = 0 ∧ u.yparts = 1 := by rw [hw.frame]; exact hlayout
    have hfailed : u.failed = false := by rw [hw.frame]; exact hnf
    have hrom' : u.rom.wellFormed := by rw [hw.frame]; exact hrom
    obtain ⟨t, hend, htf, htk⟩ := blockEnd_completes (s := { u with k := 64 }) hrom' hpart hmono
    exact ⟨t, by rw [exec_eob_of_emit hemit, hend, Res.outcome_ok], htf.trans hfailed, htk⟩
  case zrl =>
    obtain ⟨u, n, hemit, hw, _⟩ := emit_fixed (s := { s with acrle := 0 }) hrom .ac 15 (.inr ⟨rfl, rfl⟩)
    have huk : u.k = s.k := by rw [hw.frame]
    refine ⟨_, exec_zrl_of_emit hroom hemit huk, ?_, by simp only [huk]⟩
    rw [hw.frame]
    exact hnf

end Sys2Proof.Machine
end

section
/-! What an instruction may do to the window: only `Merge` makes it longer. -/

namespace Sys2Proof.Machine

variable {n : Nat} {s t : State}

/-- The window holds at most `n` bits. -/
def WindowLe (n : Nat) (s : State) : Prop := s.ilen ≤ n

/-- What `WindowOk` is about: the decoder state, the window, and what the window is read against. -/
def windowRegs (s : State) := (s.pstate, s.ibits, s.ilen, s.needbits, sourceTable s)

theorem WindowLe.congr (h : WindowLe n s) (hregs : windowRegs t = windowRegs s) : WindowLe n t := by
  simp only [windowRegs, Prod.mk.injEq] at hregs
  obtain ⟨-, -, hlen, -⟩ := hregs
  exact hlen.trans_le h

theorem WindowOk.congr (h : WindowOk s) (hregs : windowRegs t = windowRegs s) : WindowOk t := by
  simp only [windowRegs, Prod.mk.injEq] at hregs
  obtain ⟨hpstate, hbits, hlen, hneed, htable⟩ := hregs
  unfold WindowOk at h ⊢
  rw [hpstate, hbits, hlen, hneed, htable]
  exact h

theorem WindowOk.of_le (h : WindowLe 7 t) : WindowOk t := ⟨fun _ => .inl h, fun _ => .inl h, fun _ => h⟩

/-! The segments. -/

theorem skipSegment_windowLe (len : Half) (h : WindowLe n s) : (skipSegment len s).All (WindowLe n) := by
  unfold skipSegment
  split <;> exact h

theorem dispatch_windowLe {op : State → Res} (len : Half) (h : WindowLe n s)
    (hop : ∀ u, WindowLe n u → (op u).All (WindowLe n)) : (dispatch len s op).All (WindowLe n) := by
  unfold dispatch
  split
  · exact h
  · exact hop _ h

theorem frame_windowLe (d : List Byte) (s : State) (h : WindowLe n s) : (frame d s).All (WindowLe n) := by
  unfold frame
  split <;> exact h

/-- A scan header empties the window (44_cursor.md R205). -/
theorem scan_windowLe (d : List Byte) (s : State) (h : WindowLe n s) : (scan d s).All (WindowLe n) := by
  unfold scan
  split
  · exact h
  · exact Nat.zero_le n

theorem setInterval_windowLe (d : List Byte) (s : State) (h : WindowLe n s) : (setInterval d s).All (WindowLe n) := by
  unfold setInterval
  split <;> exact h

theorem dqtDefs_windowLe (fuel : Nat) (d : List Byte) (s : State) (h : WindowLe n s) :
    (dqtDefs fuel d s).All (WindowLe n) := by
  induction fuel generalizing d s with
  | zero => exact h
  | succ fuel ih =>
    unfold dqtDefs
    split; · exact h
    split; · exact h
    split; · exact h
    exact ih _ _ h

theorem storeHuff_windowLe (cls idx : Nat) (tab : HuffTable) (h : WindowLe n s) :
    WindowLe n (storeHuff cls idx tab s) := by
  unfold storeHuff
  split <;> exact h

theorem dhtDefs_windowLe (fuel : Nat) (d : List Byte) (s : State) (h : WindowLe n s) :
    (dhtDefs fuel d s).All (WindowLe n) := by
  induction fuel generalizing d s with
  | zero => exact h
  | succ fuel ih =>
    unfold dhtDefs
    simp only
    split; · exact h
    split; · exact h
    split; · exact h
    split; · exact h
    exact ih _ _ (storeHuff_windowLe _ _ _ h)

/-! The meanings. -/

/-- A restart marker empties the window (40_segment_parser.md R124). -/
theorem execRst_windowLe (m : BitVec 3) (h : WindowLe n s) (hexec : execRst m s = .next t) : WindowLe n t := by
  refine Res.All.outcome (r := if s.scanOk then .ok (restart s) else .fatal .sequence s) ?_ (fun _ _ => id) hexec
  split
  · exact Nat.zero_le n
  · exact h

theorem execStuff_windowRegs (b : Byte) (hexec : execStuff b s = .next t) : windowRegs t = windowRegs s := by
  by_cases hb : b = 0
  · subst hb; cases exec_stuff_zero.symm.trans hexec; rfl
  · cases (exec_stuff_nonzero hb).symm.trans hexec; rfl

theorem buildPacket_windowRegs (eoi : Bool) (s : State) : (buildPacket eoi s).All (windowRegs · = windowRegs s) := by
  unfold buildPacket
  split <;> rfl

theorem packetLoop_windowRegs (s : State) : (packetLoop s).All (windowRegs · = windowRegs s) := by
  unfold packetLoop
  split; · exact buildPacket_windowRegs _ s
  split; · exact buildPacket_windowRegs _ s
  rfl

theorem drain_windowRegs (s : State) : windowRegs (drain s) = windowRegs s := by
  rw [(drain_flushed s).frame]; rfl

/-- `NEXT_PACKET` reads and writes the outbound side only. -/
theorem execNextPacket_windowRegs (hexec : execNextPacket s = .next t) : windowRegs t = windowRegs s := by
  refine Res.All.outcome (P := (windowRegs · = windowRegs s)) ?_ (fun _ _ => id) hexec
  split; · rfl
  split; · rfl
  exact (packetLoop_windowRegs _).mono fun _ h => h.trans (drain_windowRegs s)

theorem IsSymbol.ilen_eq {i : Instr} (hi : IsSymbol i) (h : exec i s = .next t) : t.ilen = s.ilen := by
  have hregs := (hi.framed h).regs
  simp only [symbolRegs, Prod.mk.injEq] at hregs
  obtain ⟨-, -, -, -, hilen, -⟩ := hregs
  exact hilen

/-- No instruction that a command in progress runs makes the window longer. -/
theorem exec_windowLe (h : WindowLe n s) : (i : Instr) → isConstruct i = false → exec i s = .next t → WindowLe n t
  | .tem, _, hexec | .soi, _, hexec | .nonmarker _, _, hexec | .eoi, _, hexec | .sof2, _, hexec => by
    cases hexec; exact h
  | .rst m, _, hexec => execRst_windowLe m h hexec
  | .sof0 len d, _, hexec => (dispatch_windowLe len h (frame_windowLe d)).outcome (fun _ _ => id) hexec
  | .dht len d, _, hexec => (dispatch_windowLe len h (dhtDefs_windowLe _ d)).outcome (fun _ _ => id) hexec
  | .sos len d, _, hexec => (dispatch_windowLe len h (scan_windowLe d)).outcome (fun _ _ => id) hexec
  | .dqt len d, _, hexec => (dispatch_windowLe len h (dqtDefs_windowLe _ d)).outcome (fun _ _ => id) hexec
  | .dri len d, _, hexec => (dispatch_windowLe len h (setInterval_windowLe d)).outcome (fun _ _ => id) hexec
  | .skipC1 l, _, hexec | .skipC3 l, _, hexec | .skipC5 l, _, hexec | .skipC6 _ l, _, hexec | .skipC8 _ l, _, hexec
  | .skipDC l, _, hexec | .skipDE _ l, _, hexec | .skipE0 _ l, _, hexec | .skipF0 _ l, _, hexec
  | .skipF8 _ l, _, hexec | .skipFC _ l, _, hexec | .skipFE l, _, hexec =>
    (skipSegment_windowLe l h).outcome (fun _ _ => id) hexec
  | .dc hi size, _, hexec => ((IsSymbol.dc hi size).ilen_eq hexec).trans_le h
  | .eob, _, hexec => (IsSymbol.eob.ilen_eq hexec).trans_le h
  | .zrl, _, hexec => (IsSymbol.zrl.ilen_eq hexec).trans_le h
  | .acReserved run, _, hexec => ((IsSymbol.acReserved run).ilen_eq hexec).trans_le h
  | .ac run size, _, hexec => ((IsSymbol.ac run size).ilen_eq hexec).trans_le h
  | .v m f, _, hexec => ((IsSymbol.v m f).ilen_eq hexec).trans_le h
  | .stuff b, _, hexec => h.congr (execStuff_windowRegs b hexec)
  | .nextPacket, _, hexec => h.congr (execNextPacket_windowRegs hexec)

/-! The fetch of the parser: no bits at all. -/

theorem markerByte_windowLe (b : Byte) (s : State) (h : WindowLe n s) : (markerByte b s).All (WindowLe n) := by
  unfold markerByte
  simp only
  split
  · exact h
  · exact ⟨markerInstr_not_construct _ _ _, h⟩

theorem lengthByte_windowLe (b : Byte) (s : State) (h : WindowLe n s) : (lengthByte b s).All (WindowLe n) := by
  unfold lengthByte lengthDone
  simp only
  split
  · split
    · split
      · exact ⟨markerInstr_not_construct _ _ _, h⟩
      · exact h
    · exact ⟨markerInstr_not_construct _ _ _, h⟩
  · exact h

theorem payloadStep_windowLe (b : Byte) (s : State) (h : WindowLe n s) : (payloadStep b s).All (WindowLe n) := by
  unfold payloadStep
  split
  · trivial
  · simp only
    split
    · exact ⟨markerInstr_not_construct _ _ _, h⟩
    · exact h

theorem pull_windowLe {use : Byte → State → Fetched} (h : WindowLe n s)
    (huse : ∀ b u, WindowLe n u → (use b u).All (WindowLe n)) : (pull s use).All (WindowLe n) := by
  unfold pull
  simp only
  split; · exact h
  split; · exact ⟨rfl, h⟩
  split; · exact h
  exact huse _ _ h

theorem fetch_windowLe (h : WindowLe n s) (he : s.pstate.entropy = false) : (fetch s).All (WindowLe n) := by
  unfold fetch
  cases hp : s.pstate with
  | marker => exact pull_windowLe h markerByte_windowLe
  | len => exact pull_windowLe h lengthByte_windowLe
  | data => exact pull_windowLe h payloadStep_windowLe
  | huff | int => rw [hp] at he; cases he
  | finish => exact ⟨rfl, h⟩

theorem Fetched.All.run_windowLe {f : Fetched} (h : f.All (WindowLe n)) (hrun : f.run = .next t) : WindowLe n t := by
  cases f with
  | instr i u => exact exec_windowLe h.2 i h.1 hrun
  | more u => cases hrun; exact h
  | fatal e u => cases hrun; exact h
  | fault e => cases hrun

end Sys2Proof.Machine
end

section
/-! The window along a step (10_state.md R59 (c)): a symbol or value field leaves at most 7 bits of it, a byte is merged
only where it was too short, and no other step touches it in entropy mode. -/

namespace Sys2Proof.Machine

variable {s t : State}

/-! A symbol or a value field. -/

theorem isSymbol_decodeSymbol (isDc : Bool) (sym : Byte) : IsSymbol (decodeSymbol isDc sym) := by
  unfold decodeSymbol
  split; · exact .dc _ _
  split; · exact .eob
  split; · exact .zrl
  split; · exact .acReserved _
  exact .ac _ _

/-- A code that the window holds whole reaches into its newest byte: without it the window was too short. -/
theorem WindowOk.code_reaches {tab : HuffTable} {sym : Byte} {w : Nat} (hw : WindowOk s) (hp : s.pstate = .huff)
    (ht : sourceTable s = some tab) (hl : huffLookup tab s.ibits s.ilen = .found sym w) : s.ilen ≤ w + 7 := by
  by_cases hshort : s.ilen ≤ 7
  case pos => omega
  case neg =>
    obtain ⟨tab', ht', hneed⟩ := (hw.1 hp).resolve_left hshort
    cases ht.symm.trans ht'
    have hbits : s.ibits / 256 * 2 ^ 8 + s.ibits % 256 = s.ibits := Nat.div_add_mod' s.ibits 256
    have hlen : s.ilen - 8 + 8 = s.ilen := by omega
    have hbyte : s.ibits % 256 < 2 ^ 8 := Nat.mod_lt _ (by decide)
    have hextend := huffLookup_extend tab (s.ibits / 256) (s.ilen - 8) hbyte
    rw [hbits, hlen, hl, hneed] at hextend
    have hbeyond := (hextend.resolve_left (by simp)).2 sym w rfl
    omega

/-- Where the window suffices a symbol or value field is fetched, and at most 7 bits stay. -/
theorem WindowSuffices.fetch (hs : WindowSuffices s) (hw : WindowOk s) :
    ∃ i w, Machine.fetch s = .instr i (consume w s) ∧ IsSymbol i ∧ s.ilen ≤ w + 7 := by
  obtain ⟨hp, tab, sym, w, ht, hl⟩ | ⟨hp, hn⟩ := hs
  case inl => exact ⟨_, w, fetch_symbol hp ht hl, isSymbol_decodeSymbol _ _, hw.code_reaches hp ht hl⟩
  case inr =>
    refine ⟨_, _, fetch_value hp hn, .v _ _, ?_⟩
    have hlen := hw.2.1 hp
    omega

theorem WindowSuffices.run_windowLe (hs : WindowSuffices s) (hw : WindowOk s) (h : (Machine.fetch s).run = .next t) :
    WindowLe 7 t := by
  obtain ⟨i, w, hfetch, hi, hlen⟩ := hs.fetch hw
  rw [hfetch] at h
  have hilen : t.ilen = s.ilen - w := hi.ilen_eq h
  unfold WindowLe
  omega

/-! A byte for the window. -/

/-- In entropy mode a byte is asked for only while the window holds at most 15 bits. -/
theorem NeedsByte.short (h : NeedsByte s) (ht : TablesOk s) (hc : CursorOk s) (he : s.pstate.entropy = true) :
    WindowLe 15 s := by
  obtain ⟨he', _⟩ | ⟨_, tab, hsrc, hl⟩ | ⟨_, hlen⟩ := h
  case inl => rw [he] at he'; cases he'
  case inr.inl =>
    obtain ⟨tab', hsrc', hshape⟩ := sourceTable_ready ht hc he
    cases hsrc.symm.trans hsrc'
    obtain ⟨_, _, hfound, _⟩ | ⟨_, hlen⟩ | ⟨hno, _⟩ := huffLookup_cases hshape s.ibits s.ilen
    · rw [hl] at hfound; cases hfound
    · exact hlen
    · rw [hl] at hno; cases hno
  case inr.inr =>
    have hneed := s.needbits.isLt
    unfold WindowLe
    omega

/-- One byte more than a window that was too short. -/
theorem NeedsByte.windowOk_merge (h : NeedsByte s) (he : s.pstate.entropy = true) (b : Byte) :
    WindowOk (merge b s) := by
  obtain ⟨he', _⟩ | ⟨hp, tab, hsrc, hl⟩ | ⟨hp, hlen⟩ := h
  case inl => rw [he] at he'; cases he'
  case inr.inl =>
    have hold : (merge b s).ibits / 256 = s.ibits := by
      rw [merge_ibits, Nat.mul_comm, Nat.mul_add_div (by decide), Nat.div_eq_of_lt b.isLt, Nat.add_zero]
    refine ⟨fun _ => .inr ⟨tab, hsrc, ?_⟩, fun hint => ?_, fun hout => ?_⟩
    · rw [hold, merge_ilen, Nat.add_sub_cancel]; exact hl
    · rw [merge_pstate, hp] at hint; cases hint
    · rw [merge_pstate, he] at hout; cases hout
  case inr.inr =>
    refine ⟨fun hhuff => ?_, fun _ => .inr (Nat.add_lt_add_right hlen 8), fun hout => ?_⟩
    · rw [merge_pstate, hp] at hhuff; cases hhuff
    · rw [merge_pstate, he] at hout; cases hout

/-- `Merge(Pull())`: the byte is merged, or the window stays. -/
theorem needInput_window (h : (needInput s).run = .next t) :
    windowRegs t = windowRegs s ∨ ∃ b, windowRegs t = windowRegs (merge b s) := by
  unfold needInput at h
  by_cases hend : s.srcLen ≤ s.srcPos
  case pos => rw [pull_exhausted hend] at h; cases h; exact .inl rfl
  case neg =>
    have hlt : s.srcPos < s.srcLen := Nat.lt_of_not_le hend
    cases hstuff : s.stuffPending
    case true =>
      rw [pull_stuffed hlt hstuff] at h
      exact .inl (execStuff_windowRegs (s := { s with srcPos := s.srcPos + 1 }) _ h)
    case false =>
      obtain hskip | hskip := Nat.eq_zero_or_pos s.skipCnt
      · rw [pull_taken hlt hstuff hskip] at h; cases h; exact .inr ⟨_, rfl⟩
      · rw [pull_skipped hlt hstuff hskip] at h; cases h; exact .inl rfl

/-! The step. -/

/-- In entropy mode the window suffices, or it is too short, or no code matches (41_entropy_decode.md R153, R162,
R163). -/
theorem entropy_cases (ht : TablesOk s) (hc : CursorOk s) (he : s.pstate.entropy = true) :
    WindowSuffices s ∨ NeedsByte s ∨ fetch s = .fatal .corrupt s := by
  cases hp : s.pstate with
  | marker | len | data | finish => rw [hp] at he; cases he
  | huff =>
    obtain ⟨tab, hsrc, hshape⟩ := sourceTable_ready ht hc he
    obtain ⟨sym, w, hl, _⟩ | ⟨hl, _⟩ | ⟨hl, _⟩ := huffLookup_cases hshape s.ibits s.ilen
    · exact .inl (.inl ⟨hp, tab, sym, w, hsrc, hl⟩)
    · exact .inr (.inl (.inr (.inl ⟨hp, tab, hsrc, hl⟩)))
    · exact .inr (.inr (fetch_noMatch hp hsrc hl))
  | int =>
    by_cases hlen : s.ilen < s.needbits.toNat
    · exact .inr (.inl (.inr (.inr ⟨hp, hlen⟩)))
    · exact .inl (.inr ⟨hp, Nat.le_of_not_lt hlen⟩)

/-- What a step may do to the window: leave at most 7 bits, leave it alone, or merge one byte into a window that was too
short. -/
def WindowMoves (s t : State) : Prop :=
  WindowLe 7 t ∨ windowRegs t = windowRegs s
    ∨ (NeedsByte s ∧ s.pstate.entropy = true ∧ ∃ b, windowRegs t = windowRegs (merge b s))

theorem fetch_windowMoves (ht : TablesOk s) (hc : CursorOk s) (hw : WindowOk s) (h : (fetch s).run = .next t) :
    WindowMoves s t := by
  cases he : s.pstate.entropy
  case false => exact .inl ((fetch_windowLe (hw.2.2 he) he).run_windowLe h)
  case true =>
    obtain hs | hneed | hfatal := entropy_cases ht hc he
    · exact .inl (hs.run_windowLe hw h)
    · obtain ⟨use, hfetch, huse⟩ := fetch_needsByte hneed
      rw [hfetch, huse he] at h
      obtain hsame | hmerged := needInput_window h
      · exact .inr (.inl hsame)
      · exact .inr (.inr ⟨hneed, he, hmerged⟩)
    · rw [hfatal] at h; cases h; exact .inr (.inl rfl)

theorem step_windowMoves (hinv : Inv s) (hnf : s.failed = false) (hw : WindowOk s) (h : step s = .next t) :
    WindowMoves s t := by
  cases hrun : s.running
  case true =>
    by_cases hgo : s.pstate = .finish ∨ s.outCount = 237
    · rw [step_continues_packet hrun hgo] at h
      exact .inr (.inl (execNextPacket_windowRegs h))
    · obtain ⟨hfin, hroom⟩ := not_or.mp hgo
      rw [step_fetches hrun hfin hroom] at h
      exact fetch_windowMoves (hinv.tables hnf) (hinv.cursor hnf) hw h
  case false =>
    cases hq : s.hostq with
    | nil => rw [step_idle hrun hq] at h; cases h; exact .inr (.inl rfl)
    | cons c q =>
      rw [step_runs_command hrun hq] at h
      cases c with
      | construct callsign imageId quality source =>
        cases (if_pos hinv.static.rom).symm.trans h
        exact .inl (Nat.zero_le 7)
      | nextPacket => exact .inr (.inl (execNextPacket_windowRegs (s := { s with hostq := q }) h))

/-- Settles O54: `WindowOk` and the bound 23 by what a step may do to the window, the bound 7 by the symbol's code. -/
theorem windowKept : Obligations.WindowKept := by
  intro s t hinv hnf hw hstep
  have hkept : WindowOk t ∧ WindowLe 23 t := by
    obtain hseven | hsame | ⟨hneed, he, b, hmerged⟩ := step_windowMoves hinv hnf hw hstep
    · exact ⟨.of_le hseven, Nat.le_trans hseven (by decide)⟩
    · exact ⟨hw.congr hsame, WindowLe.congr (hinv.output hnf).ilen hsame⟩
    · have hshort := hneed.short (hinv.tables hnf) (hinv.cursor hnf) he
      exact ⟨(hneed.windowOk_merge he b).congr hmerged,
        WindowLe.congr (s := merge b s) (Nat.add_le_add_right hshort 8) hmerged⟩
  refine ⟨hkept.1, hkept.2, fun hrun hroom hs => ?_⟩
  have hfin : s.pstate ≠ .finish := by
    obtain ⟨hp, _⟩ | ⟨hp, _⟩ := hs <;> rw [hp] <;> decide
  rw [step_fetches hrun hfin hroom] at hstep
  exact hs.run_windowLe hw hstep

end Sys2Proof.Machine
end

/-! PROOFS. The family of 42_rescale.md: the rounding division, the destination steps of a quality level, and a value
whose steps are equal. -/

section
/-! The rounding division (42_rescale.md R170). -/

namespace Sys2Proof.Machine

variable {d : Nat}

theorem rdiv_neg (n : Int) (d : Nat) : rdiv (-n) d = -rdiv n d := by
  rw [rdiv, Int.sign_neg, Int.natAbs_neg, Int.neg_mul, rdiv]

/-- The magnitude is the quotient of the rule; for `n` = 0, where the sign is 0, that quotient is 0 as well. -/
theorem rdiv_natAbs (n : Int) (hd : 1 ≤ d) : (rdiv n d).natAbs = (2 * n.natAbs + d) / (2 * d) := by
  rw [rdiv, Int.natAbs_mul, Int.natAbs_natCast]
  obtain rfl | hn := eq_or_ne n 0
  · exact (Nat.zero_mul _).trans (Nat.div_eq_of_lt (by simp only [Int.natAbs_zero]; omega)).symm
  · rw [Int.natAbs_sign_of_ne_zero hn, Nat.one_mul]

/-- The product of divisor and quotient lies at most half a divisor above the dividend, and less than half below. -/
theorem rdiv_bounds (n : Int) (hd : 1 ≤ d) :
    2 * (d * (rdiv n d).natAbs) ≤ 2 * n.natAbs + d ∧ 2 * n.natAbs < 2 * (d * (rdiv n d).natAbs) + d := by
  have hmod : (2 * n.natAbs + d) % (2 * d) < 2 * d := Nat.mod_lt _ (by omega)
  have hdiv := Nat.div_add_mod (2 * n.natAbs + d) (2 * d)
  rw [Nat.mul_assoc, ← rdiv_natAbs n hd] at hdiv
  omega

/-- Dividend and quotient have the same sign, so the error is that of their magnitudes. -/
theorem rdiv_error (n : Int) (hd : 1 ≤ d) :
    (n - d * rdiv n d).natAbs = ((n.natAbs : Int) - (d * (rdiv n d).natAbs : Nat)).natAbs := by
  obtain rfl | hn := eq_or_ne n 0
  · simp [rdiv]
  · have hsign : n - d * rdiv n d = n.sign * ((n.natAbs : Int) - (d * (rdiv n d).natAbs : Nat)) := by
      rw [Int.mul_sub, Int.sign_mul_natAbs, rdiv_natAbs n hd, Nat.cast_mul, rdiv, Int.mul_left_comm]
    rw [hsign, Int.natAbs_mul, Int.natAbs_sign_of_ne_zero hn, Nat.one_mul]

/-- For an even divisor half of it is added before the division. -/
theorem rdiv_natAbs_of_even (n : Int) (hd : 1 ≤ d) (heven : d % 2 = 0) :
    (rdiv n d).natAbs = (n.natAbs + d / 2) / d := by
  have hdouble : 2 * n.natAbs + d = 2 * (n.natAbs + d / 2) := by omega
  rw [rdiv_natAbs n hd, hdouble, Nat.mul_div_mul_left _ _ Nat.two_pos]

theorem rdiv_natAbs_le (n : Int) (hd : 1 ≤ d) : (rdiv n d).natAbs ≤ n.natAbs := by
  have hscaled : n.natAbs ≤ d * n.natAbs := Nat.le_mul_of_pos_left _ hd
  rw [rdiv_natAbs n hd, ← Nat.lt_succ_iff]
  refine Nat.div_lt_of_lt_mul ?_
  rw [Nat.mul_assoc, Nat.mul_succ]
  omega

theorem rdiv_eq_zero_iff (n : Int) (hd : 1 ≤ d) : rdiv n d = 0 ↔ 2 * n.natAbs < d := by
  rw [← Int.natAbs_eq_zero, rdiv_natAbs n hd, Nat.div_eq_zero_iff_lt (by omega)]
  omega

/-- A multiple of the divisor is divided exactly. -/
theorem rdiv_mul_self (n : Int) (hd : 1 ≤ d) : rdiv (n * d) d = n := by
  have hquot : (2 * (n.natAbs * d) + d) / (2 * d) = n.natAbs := by
    rw [show 2 * (n.natAbs * d) + d = d + 2 * d * n.natAbs by ring, Nat.add_mul_div_left _ _ (by omega),
      Nat.div_eq_of_lt (by omega), Nat.zero_add]
  have hsign : (d : Int).sign = 1 := Int.sign_eq_one_of_pos (by omega)
  rw [rdiv, Int.sign_mul, hsign, Int.mul_one, Int.natAbs_mul, Int.natAbs_natCast, hquot, Int.sign_mul_natAbs]

theorem rdiv_one (n : Int) : rdiv n 1 = n := by
  have hself := rdiv_mul_self n (Nat.le_refl 1)
  rwa [Nat.cast_one, Int.mul_one] at hself

end Sys2Proof.Machine
end

section
/-! The destination steps of a quality level (42_rescale.md R180). -/

namespace Sys2Proof.Machine

variable {rom : Rom}

/-- The clamped value fits a byte. -/
theorem scaleStep_toNat (num den : Nat) (seed : Byte) :
    (scaleStep num den seed).toNat = min 255 (max 1 ((2 * seed.toNat * num + den) / (2 * den))) := by
  rw [scaleStep, BitVec.toNat_ofNat]
  exact Nat.mod_eq_of_lt (Nat.lt_of_le_of_lt (Nat.min_le_left _ _) (by decide))

theorem scaleStep_range (num den : Nat) (seed : Byte) :
    1 ≤ (scaleStep num den seed).toNat ∧ (scaleStep num den seed).toNat ≤ 255 := by
  rw [scaleStep_toNat]
  omega

/-- A larger ratio gives no smaller step. -/
theorem scaleStep_mono {num num' : Nat} (den : Nat) (seed : Byte) (h : num' ≤ num) :
    (scaleStep num' den seed).toNat ≤ (scaleStep num den seed).toNat := by
  rw [scaleStep_toNat, scaleStep_toNat]
  gcongr

theorem scaleTable_range {num den : Nat} {seeds : List Byte} {e : Byte} (h : e ∈ scaleTable num den seeds) :
    1 ≤ e.toNat ∧ e.toNat ≤ 255 := by
  obtain ⟨seed, _, rfl⟩ := List.mem_map.mp h
  exact scaleStep_range num den seed

theorem scaleTable_getElem? {seeds : List Byte} {k : Nat} {seed : Byte} (num den : Nat) (h : seeds[k]? = some seed) :
    (scaleTable num den seeds)[k]? = some (scaleStep num den seed) := by
  rw [scaleTable, List.getElem?_map, h, Option.map_some]

/-- Entry for entry; past the end of the seeds both tables read as 0. -/
theorem scaleTable_mono {num num' : Nat} (den : Nat) (seeds : List Byte) (k : Nat) (h : num' ≤ num) :
    ((scaleTable num' den seeds).getD k 0).toNat ≤ ((scaleTable num den seeds).getD k 0).toNat := by
  rw [scaleTable, scaleTable, List.getD_eq_getElem?_getD, List.getD_eq_getElem?_getD, List.getElem?_map,
    List.getElem?_map]
  cases seeds[k]? with
  | none => exact Nat.le_refl _
  | some seed => exact scaleStep_mono den seed h

/-- The scale factors of an accepted ROM do not grow with the level (92_eei_decisions.md D31). -/
theorem Rom.qscaleNum_antitone (h : rom.wellFormed = true) {i j : Nat} (hij : i ≤ j) :
    rom.qscaleNum.getD j 0 ≤ rom.qscaleNum.getD i 0 := by
  simp only [Rom.wellFormed, Bool.and_eq_true, decide_eq_true_eq, and_assoc] at h
  obtain ⟨_, _, _, hfalling, _⟩ := h
  obtain hj | hj := Nat.lt_or_ge j rom.qscaleNum.length
  · rw [List.getD_eq_getElem _ _ hj, List.getD_eq_getElem _ _ (Nat.lt_of_le_of_lt hij hj)]
    exact hfalling.rel_get_of_le (a := ⟨i, Nat.lt_of_le_of_lt hij hj⟩) (b := ⟨j, hj⟩) hij
  · rw [List.getD_eq_default _ _ hj]
    exact Nat.zero_le _

/-- Settles O48: both tables are scaled by the level's factor, and the factors fall with the level. (The model has the
obligation's own name, as the function.) -/
theorem destinationStepsOfLevel : Obligations.DestinationSteps := by
  refine fun rom q q' k => ⟨fun num seed hnum => ?steps, fun hrom hq _ => ?finer⟩
  case steps =>
    have hfactor : rom.qscaleNum.getD q.toNat 0 = num := by rw [List.getD_eq_getElem?_getD, hnum, Option.getD_some]
    simp only [destinationSteps, hfactor]
    exact ⟨fun h => ⟨_, scaleTable_getElem? num rom.qscaleDen h, scaleStep_toNat num rom.qscaleDen seed⟩,
      fun h => ⟨_, scaleTable_getElem? num rom.qscaleDen h, scaleStep_toNat num rom.qscaleDen seed⟩⟩
  case finer =>
    have hfactor := Rom.qscaleNum_antitone hrom hq
    exact ⟨scaleTable_mono rom.qscaleDen rom.qseed.s0 k hfactor,
      scaleTable_mono rom.qscaleDen rom.qseed.s1 k hfactor⟩

/-- Settles O35: the errors follow from `rdiv_error` and `rdiv_bounds`, the other laws stand above, and the divisors
are clamped. -/
theorem roundingDivision : Obligations.RoundingDivision := by
  refine ⟨fun n d hd => ?laws, fun rom q e he => ?divisors⟩
  case laws =>
    have herror := rdiv_error n hd
    obtain ⟨habove, hbelow⟩ := rdiv_bounds n hd
    exact ⟨rfl, by omega, fun htie => by omega, rdiv_natAbs_of_even n hd, fun hodd => by omega,
      by rw [rdiv_neg, Int.neg_neg], Int.zero_mul _, rdiv_one n, rdiv_natAbs_le n hd, rdiv_eq_zero_iff n hd,
      rdiv_mul_self n hd⟩
  case divisors =>
    obtain hluma | hchroma := List.mem_append.mp he
    · exact scaleTable_range hluma
    · exact scaleTable_range hchroma

end Sys2Proof.Machine
end

section
/-! A value whose source and destination steps are equal (42_rescale.md R173). -/

namespace Sys2Proof.Machine

/-- A run and a size make the symbol of these nibbles (30_encoding.md R102). -/
theorem ofNat_run_size (run size : BitVec 4) : BitVec.ofNat 8 (run.toNat * 16 + size.toNat) = run ++ size := by
  have hrun := congrArg BitVec.toNat (hiNibble_append run size)
  have hsize := congrArg BitVec.toNat (loNibble_append run size)
  rw [hiNibble_toNat] at hrun
  rw [loNibble_toNat] at hsize
  exact BitVec.eq_of_toNat_eq (by rw [BitVec.toNat_ofNat]; omega)

/-- The value of a well-formed field is written as that field. -/
theorem emitted_vdecode {f n : Nat} (code w : Nat) (hn : 1 ≤ n) (hf : f < 2 ^ n) (s : State) :
    emitted code w (vdecode f n) s = outBits f n (outBits code w s) := by
  rw [emitted, vencode_vdecode hn hf, if_neg (Nat.ne_of_gt hn)]

/-- Settles O33: the value is not zero and re-encodes to its own field, so O31 and O32 write that field, after no
`ZRL`. -/
theorem equalStepsPassThrough : Obligations.EqualStepsPassThrough := by
  intro s n f step' code w hk1 hk63 hnone hsrc hdst hwf hcode b
  obtain ⟨hn, hf⟩ := Bool.and_eq_true_iff.mp hwf
  have hn1 : 1 ≤ n.toNat := Nat.pos_of_ne_zero fun h => bne_iff_ne.mp hn (BitVec.eq_of_toNat_eq h)
  have hf' : f.toNat < 2 ^ n.toNat := of_decide_eq_true hf
  have hrun := s.acrle.isLt
  obtain ⟨_, _, hvalue, _⟩ := valueFieldsRoundTrip.1 f.toNat n.toNat hn1 hf'
  have hfield : (vencode (vdecode f.toNat n.toNat)).2 = n.toNat := congrArg Prod.snd (vencode_vdecode hn1 hf')
  have hzeros : (s.accrle + s.acrle.toNat) / 16 = 0 ∧ (s.accrle + s.acrle.toNat) % 16 = s.acrle.toNat := by omega
  have hsymbol : huffEncode (destTable .ac s) (BitVec.ofNat 8 ((s.accrle + s.acrle.toNat) % 16 * 16 +
      (vencode (vdecode f.toNat n.toNat)).2)) = some (code, w) := by
    rw [hzeros.2, hfield, ofNat_run_size, hcode]
  have hwrite : emitted code w (vdecode f.toNat n.toNat) ((outBits 0 0)^[(s.accrle + s.acrle.toNat) / 16] s) =
      outBits f.toNat n.toNat (outBits code w s) := by
    rw [hzeros.1, Function.iterate_zero_apply, emitted_vdecode code w hn1 hf']
  refine ⟨fun hinside => ?inside, fun hlast => ?last⟩
  case inside =>
    have hexec := (acValueInBlock s n f step' step' _ hk1 hinside hsrc hdst (if_pos rfl).symm).1 hvalue (by omega)
      0 0 code w (by omega) hsymbol
    rw [hexec, hwrite]
  case last =>
    rw [hlast] at hsrc hdst
    have hends := (lastCoefficientEndsBlock s n f step' step' _ hlast hsrc hdst (if_pos rfl).symm).1 hvalue (by omega)
      0 0 code w (by omega) hsymbol
    rwa [hwrite] at hends

end Sys2Proof.Machine
end

/-! PROOFS. The family of 43_entropy_encode.md: the codes that the encoder chooses and the lookup of them, the outbound
stream, the packets that carry it on, and the AC symbols and values that cannot be written. -/

section
/-! The code of a symbol and its lookup (43_entropy_encode.md R187; 41_entropy_decode.md R154). -/

namespace Sys2Proof.Machine

variable {sym c : Byte} {cs syms : List Byte} {L first code w : Nat}

/-- Where a search finds the symbol: among the codes of the first length, or at a later one. -/
theorem huffFind_cons (h : huffFind sym (c :: cs) L first syms = some (code, w)) :
    (∃ i, i < c.toNat ∧ syms[i]? = some sym ∧ code = first + i ∧ w = L)
    ∨ huffFind sym cs (L + 1) ((first + c.toNat) * 2) (syms.drop c.toNat) = some (code, w) := by
  unfold huffFind at h
  split at h
  · rename_i i hfind
    obtain ⟨rfl, rfl⟩ := Prod.mk.inj (Option.some.inj h)
    obtain ⟨hi, hsym, -⟩ := List.findIdx?_eq_some_iff_getElem.mp hfind
    rw [List.length_take] at hi
    rw [List.getElem_take, beq_iff_eq] at hsym
    exact .inl ⟨i, by omega, by rw [List.getElem?_eq_getElem (by omega), hsym], rfl, rfl⟩
  · exact .inr h

/-- Codes of length `L` that end at `last` and the next length's first code, twice that, meet at the same place among
the codes of `n` bits (30_encoding.md R100). -/
theorem nextFirst_mul_pow {n : Nat} (last : Nat) (h : L + 1 ≤ n) :
    last * 2 * 2 ^ (n - (L + 1)) = last * 2 ^ (n - L) := by
  rw [Nat.mul_assoc, ← Nat.pow_succ', show (n - (L + 1)).succ = n - L by omega]

/-- The code of a symbol begins at or above the first code of every length up to its own. -/
theorem huffFind_ge_first (h : huffFind sym cs L first syms = some (code, w)) : first * 2 ^ (w - L) ≤ code := by
  induction cs generalizing L first syms with
  | nil => cases h
  | cons c cs ih =>
    obtain ⟨i, -, -, rfl, rfl⟩ | hlater := huffFind_cons h
    · rw [Nat.sub_self, Nat.pow_zero, Nat.mul_one]
      exact Nat.le_add_right _ _
    · have hwidth := (huffFind_width hlater).1
      calc first * 2 ^ (w - L)
          ≤ (first + c.toNat) * 2 ^ (w - L) := Nat.mul_le_mul_right _ (Nat.le_add_right _ _)
        _ = (first + c.toNat) * 2 * 2 ^ (w - (L + 1)) := (nextFirst_mul_pow _ hwidth).symm
        _ ≤ code := ih hlater

/-- Counts within the bound of 30_encoding.md R100 give codes that fit their width. -/
theorem huffFind_fits (h : huffFind sym cs L first syms = some (code, w)) (hlen : L + cs.length ≤ 17)
    (hkraft : first * 2 ^ (16 - L) + kraftFrom L cs ≤ 2 ^ 16) : code < 2 ^ w := by
  induction cs generalizing L first syms with
  | nil => cases h
  | cons c cs ih =>
    rw [List.length_cons] at hlen
    rw [kraftFrom, ← Nat.add_assoc, ← Nat.add_mul] at hkraft
    obtain ⟨i, hi, -, rfl, rfl⟩ | hlater := huffFind_cons h
    · have hall : (first + c.toNat) * 2 ^ (16 - w) ≤ 2 ^ w * 2 ^ (16 - w) := by
        rw [← Nat.pow_add, Nat.add_sub_cancel' (by omega)]
        omega
      have hend := Nat.le_of_mul_le_mul_right hall (Nat.two_pow_pos _)
      omega
    · have hwidth := huffFind_width hlater
      exact ih hlater (by omega) (by rwa [nextFirst_mul_pow _ (by omega)])

/-- Only a symbol of the table has a code. -/
theorem huffFind_mem (h : huffFind sym cs L first syms = some (code, w)) : sym ∈ syms := by
  induction cs generalizing L first syms with
  | nil => cases h
  | cons c cs ih =>
    obtain ⟨i, -, hsym, -, -⟩ | hlater := huffFind_cons h
    · exact List.mem_of_getElem? hsym
    · exact List.mem_of_mem_drop (ih hlater)

/-- The walk over the bits of a symbol's own code passes every shorter length, whose codes all lie below the code's
leading bits, and matches at the code's width. -/
theorem huffWalk_of_huffFind (h : huffFind sym cs L first syms = some (code, w)) (hfits : code < 2 ^ w) :
    huffWalk code w cs L first syms = .found sym w := by
  induction cs generalizing L first syms with
  | nil => cases h
  | cons c cs ih =>
    have hwidth := (huffFind_width h).1
    have hhead : oldest code w L = code / 2 ^ (w - L) := by
      refine Nat.mod_eq_of_lt (Nat.div_lt_of_lt_mul ?_)
      rwa [← Nat.pow_add, Nat.sub_add_cancel hwidth]
    rw [huffWalk, if_neg (Nat.not_lt.mpr hwidth), hhead]
    obtain ⟨i, hi, hsym, rfl, rfl⟩ | hlater := huffFind_cons h
    · rw [Nat.sub_self, Nat.pow_zero, Nat.div_one, if_pos (by omega), Nat.add_sub_cancel_left, hsym]
    · have hpast : first + c.toNat ≤ code / 2 ^ (w - L) := by
        rw [Nat.le_div_iff_mul_le (Nat.two_pow_pos _), ← nextFirst_mul_pow _ (huffFind_width hlater).1]
        exact huffFind_ge_first hlater
      rw [if_neg (by omega)]
      exact ih hlater

/-- Settles O10: the counts of a well-formed table give a code that fits its width, and the walk over its bits finds
the symbol. -/
theorem lookupInvertsEncode : Obligations.LookupInvertsEncode := by
  intro t sym hwf
  simp only [HuffTable.wellFormed, Bool.and_eq_true, decide_eq_true_eq] at hwf
  obtain ⟨⟨hshape, hkraft⟩, -⟩ := hwf
  have hcount := HuffTable.shaped_count hshape
  refine ⟨⟨huffEncode_isSome hshape, fun hsome => ?member⟩, fun code w hcode => ?found⟩
  case member =>
    obtain ⟨⟨code, w⟩, hcode⟩ := Option.isSome_iff_exists.mp hsome
    exact huffFind_mem hcode
  case found =>
    obtain ⟨hlow, hhigh⟩ := huffEncode_width hcount hcode
    have hfits : code < 2 ^ w := huffFind_fits hcode (by omega) (by rwa [Nat.zero_mul, Nat.zero_add])
    exact ⟨hlow, hhigh, hfits, huffWalk_of_huffFind hcode hfits⟩

end Sys2Proof.Machine
end

section
/-! The outbound stream (43_entropy_encode.md R190 to R193). -/

namespace Sys2Proof.Machine

variable {s t : State}

theorem memReadN_snoc (m : Memory) (a n : Nat) : memReadN m a (n + 1) = memReadN m a n ++ [memRead m (a + n)] := by
  simp only [memReadN, List.range_succ, List.map_append, List.map_cons, List.map_nil]

theorem memReadN_congr {m m' : Memory} {a n : Nat} (h : ∀ i < n, memRead m (a + i) = memRead m' (a + i)) :
    memReadN m a n = memReadN m' a n :=
  List.map_congr_left fun i hi => h i (List.mem_range.mp hi)

theorem bitsOf_ones (n : Nat) : bitsOf n (2 ^ n - 1) = List.replicate n true := by
  refine List.eq_replicate_iff.mpr ⟨bitsOf_length _ _, fun b hb => ?_⟩
  obtain ⟨i, hi, rfl⟩ := List.mem_map.mp hb
  rw [List.mem_range] at hi
  rw [Nat.testBit_two_pow_sub_one, decide_eq_true_eq]
  omega

/-- The byte moved is the accumulator's oldest, and the buffer's last. -/
theorem outStream_drainByte (hwf : Memory.wf s.pktbuf) (h8 : 8 ≤ s.olen) : outStream (drainByte s) = outStream s := by
  have hbefore : memReadN (drainByte s).pktbuf 0 s.outCount = memReadN s.pktbuf 0 s.outCount :=
    memReadN_congr fun i hi => memRead_memWrite_other _ _ (by omega)
  have hlast : memRead (drainByte s).pktbuf (0 + s.outCount) = BitVec.ofNat 8 (oldest s.obits s.olen 8) := by
    rw [Nat.zero_add]
    exact memRead_memWrite_same _ hwf
  have hbyte : bitsOf 8 (BitVec.ofNat 8 (oldest s.obits s.olen 8)).toNat = bitsOf 8 (oldest s.obits s.olen 8) := by
    rw [BitVec.toNat_ofNat, bitsOf_mod _ (Nat.le_refl 8)]
  rw [outStream, drainByte_outCount, drainByte_olen, drainByte_obits, memReadN_snoc, hbefore, hlast,
    List.flatMap_append, List.flatMap_singleton, hbyte, bitsOf_mod _ (Nat.le_refl _), List.append_assoc,
    ← bitsOf_window s.obits h8, outStream]

theorem outStream_drainUpTo (n : Nat) {s : State} (hwf : Memory.wf s.pktbuf) :
    outStream (drainUpTo n s) = outStream s := by
  induction n generalizing s with
  | zero => rfl
  | succ n ih =>
    unfold drainUpTo
    split
    · rename_i hmove
      exact (ih (memWrite_wf _ _ hwf)).trans (outStream_drainByte hwf hmove.1)
    · rfl

/-- `Drain` moves bits, it appends none (43_entropy_encode.md R191). -/
theorem outStream_drain (hwf : Memory.wf s.pktbuf) : outStream (drain s) = outStream s := outStream_drainUpTo _ hwf

/-- `OutBits` appends the bits of its operand (43_entropy_encode.md R190). -/
theorem outStream_outBits (x n : Nat) (hwf : Memory.wf s.pktbuf) :
    outStream (outBits x n s) = outStream s ++ bitsOf n x := by
  have hdrain : outStream (outBits x n s) =
      outStream { s with obits := s.obits * 2 ^ n + x % 2 ^ n, olen := s.olen + n } := outStream_drain hwf
  rw [hdrain, outStream, outStream, bitsOf_append, List.append_assoc]

/-- `Sync` appends one-bits (43_entropy_encode.md R193). -/
theorem outStream_sync (hwf : Memory.wf s.pktbuf) :
    outStream (sync s) = outStream s ++ List.replicate ((8 - s.olen % 8) % 8) true := by
  unfold sync
  split
  · rename_i haligned
    simp [haligned]
  · rename_i hmiss
    have hpad : (8 - s.olen % 8) % 8 = 8 - s.olen % 8 := Nat.mod_eq_of_lt (by omega)
    rw [outStream_outBits _ _ hwf, Config.padBits, bitsOf_ones, hpad]

/-- Settles O36: `Flushed` has what each operation leaves unchanged, and what it appends stands above. -/
theorem outboundStream : Obligations.OutboundStream := by
  intro s x n hwf hroom frame
  have framed {m : Nat} {t : State} (h : Flushed m s t) : frame t := ⟨h.frame, h.grows, h.room hroom, h.below⟩
  exact ⟨⟨framed (outBits_flushed x n s), outStream_outBits x n hwf, outBits_settled x n hroom⟩,
    ⟨framed (drain_flushed s), outStream_drain hwf, drain_settled hroom⟩,
    ⟨framed (sync_flushed s), outStream_sync hwf, sync_aligned s⟩⟩

end Sys2Proof.Machine
end

section
/-! The packet that a request gets, and the stream in its payload (45_packet.md R237, R240, R247, R253). -/

namespace Sys2Proof.Machine

variable {s t : State} {p : List Byte}

/-- The state after a packet has been returned. -/
def State.packetReturned (s : State) (eoi : Bool) : State :=
  answer (.packet (packetBytes eoi s)) { afterPacket s with done := s.done || eoi }

/-- Building a packet ends in the state with the packet, or in `E_SEQ_OVERFLOW` (45_packet.md R254). -/
theorem buildPacket_packet {eoi : Bool} (h : (buildPacket eoi s).outcome = .next t) (hp : t.reply = some (.packet p)) :
    t = s.packetReturned eoi := by
  unfold buildPacket at h
  split at h <;> obtain rfl := Host.Outcome.next.inj h
  · cases hp
  · rfl

theorem packetLoop_packet (h : (packetLoop s).outcome = .next t) (hp : t.reply = some (.packet p)) :
    ∃ eoi, t = s.packetReturned eoi := by
  unfold packetLoop at h
  split at h
  · exact ⟨_, buildPacket_packet h hp⟩
  · split at h
    · exact ⟨_, buildPacket_packet h hp⟩
    · obtain rfl := Host.Outcome.next.inj h
      cases hp

/-- A request that is answered with a packet gets the one built after `Drain` (45_packet.md R235). -/
theorem exec_nextPacket_packet (h : exec .nextPacket s = .next t) (hp : t.reply = some (.packet p)) :
    ∃ eoi, t = (drain s).packetReturned eoi := by
  change execNextPacket s = _ at h
  unfold execNextPacket at h
  split at h
  · obtain rfl := Host.Outcome.next.inj h
    cases hp
  · split at h
    · obtain rfl := Host.Outcome.next.inj h
      cases hp
    · exact packetLoop_packet h hp

/-- The payload bytes of a packet follow its 15 header bytes (45_packet.md R247). -/
theorem packetBytes_payload (eoi : Bool) (s : State) :
    ((packetBytes eoi s).drop 15).take s.outCount = memReadN s.pktbuf 0 s.outCount := by
  have hheader : (packetHeader eoi s).length = 15 := rfl
  have hpayload : (memReadN s.pktbuf 0 s.outCount).length = s.outCount := by simp [memReadN]
  rw [packetBytes, packetBody, packetPayload, List.append_assoc, List.append_assoc, List.drop_left' hheader,
    List.take_left' hpayload]

/-- With an empty buffer the stream is what waits in the accumulator. -/
theorem outStream_of_empty (h : s.outCount = 0) : outStream s = bitsOf s.olen s.obits := by
  rw [outStream, h]
  rfl

/-- Settles O49: `Drain` keeps the stream, the packet takes its whole bytes and the accumulator the rest. -/
theorem packetCarriesStream : Obligations.PacketCarriesStream := by
  intro s t p hwf _ hnext hreply
  obtain ⟨eoi, rfl⟩ := exec_nextPacket_packet hnext hreply
  have hp : packetBytes eoi (drain s) = p := Reply.packet.inj (Option.some.inj hreply)
  refine ⟨rfl, ?_⟩
  rw [outStream_of_empty (s := (drain s).packetReturned eoi) rfl, ← hp, packetBytes_payload, ← outStream_drain hwf]
  rfl

end Sys2Proof.Machine
end

section
/-! AC symbols and values that cannot be written (43_entropy_encode.md R188, R189, R196). -/

namespace Sys2Proof.Machine

variable {s t : State} {v r : Int} {src dst : Byte}

/-- One of the fixed symbols is missing. -/
theorem emit_symbol_missing {cls : HuffClass} {run : Nat}
    (h : huffEncode (destTable cls s) (BitVec.ofNat 8 (run * 16)) = none) :
    emit cls run 0 s = .fatal .encodeRange s := emit_range (v := 0) (.inr h)

/-- Without `ZRL` the first run of sixteen zeros is refused before it writes anything. -/
theorem emitZeroRuns_missing {n : Nat} (hn : 1 ≤ n) (h : huffEncode (destTable .ac s) 0xF0 = none) :
    emitZeroRuns n s = .fatal .encodeRange s := by
  obtain ⟨n, rfl⟩ := Nat.exists_eq_add_of_le' hn
  rw [emitZeroRuns, emit_symbol_missing h, Res.fatal_andThen, Res.fatal_andThen]

/-- The zeros that wait, with those of the symbol, go out in runs of sixteen; what is left of them stays in the run
accumulator. -/
theorem emitZeroRuns_waiting {zc zw : Nat}
    (hz : 16 ≤ s.accrle + s.acrle.toNat → huffEncode (destTable .ac s) 0xF0 = some (zc, zw)) :
    emitZeroRuns ((s.accrle + s.acrle.toNat) / 16) { s with accrle := s.accrle + s.acrle.toNat } =
      .ok (s.pastRuns ((outBits zc zw)^[(s.accrle + s.acrle.toNat) / 16] s) ((s.accrle + s.acrle.toNat) % 16)) := by
  rw [Nat.mod_eq_sub_mul_div]
  exact emitZeroRuns_writes _ ⟨rfl, rfl, rfl, rfl⟩ fun hn => hz (by omega)

/-- The symbol after the runs of zeros cannot be written. -/
theorem emit_pastRuns_range {u : State} {run z : Nat}
    (h : 15 < (vencode v).2 ∨ huffEncode (destTable .ac s) (BitVec.ofNat 8 (run * 16 + (vencode v).2)) = none) :
    emit .ac run v (s.pastRuns u z) = .fatal .encodeRange (s.pastRuns u z) := emit_range h

/-- The runs of zeros go out before a symbol that cannot be written. -/
theorem acValue_range {zc zw : Nat} (hsrc : sourceStep s s.k = some src) (hdst : destStep s s.k = some dst)
    (hscale : acRescale v src dst = r) (hr : r ≠ 0)
    (hz : 16 ≤ s.accrle + s.acrle.toNat → huffEncode (destTable .ac s) 0xF0 = some (zc, zw))
    (h : 15 < (vencode r).2 ∨ huffEncode (destTable .ac s)
      (BitVec.ofNat 8 ((s.accrle + s.acrle.toNat) % 16 * 16 + (vencode r).2)) = none) :
    acValue v s = .fatal .encodeRange
      (s.pastRuns ((outBits zc zw)^[(s.accrle + s.acrle.toNat) / 16] s) ((s.accrle + s.acrle.toNat) % 16)) := by
  simp only [acValue, hsrc, hdst, hscale, if_pos hr, emitZeroRuns_waiting hz, Res.ok_andThen, State.pastRuns_accrle]
  rw [emit_pastRuns_range h, Res.fatal_andThen]

theorem acValue_zrl_missing (hsrc : sourceStep s s.k = some src) (hdst : destStep s s.k = some dst)
    (hr : acRescale v src dst ≠ 0) (hz : 16 ≤ s.accrle + s.acrle.toNat)
    (h : huffEncode (destTable .ac s) 0xF0 = none) :
    acValue v s = .fatal .encodeRange { s with accrle := s.accrle + s.acrle.toNat } := by
  have hruns := emitZeroRuns_missing (s := { s with accrle := s.accrle + s.acrle.toNat })
    (n := (s.accrle + s.acrle.toNat) / 16) (by omega) h
  simp only [acValue, hsrc, hdst, if_pos hr, hruns, Res.fatal_andThen]

/-- A value rescaled to zero at coefficient 63 calls for `EOB`. -/
theorem acValue_eob_missing (hsrc : sourceStep s s.k = some src) (hdst : destStep s s.k = some dst)
    (hr : acRescale v src dst = 0) (hk : 63 ≤ s.k) (h : huffEncode (destTable .ac s) 0x00 = none) :
    acValue v s = .fatal .encodeRange s := by
  have hemit : emit .ac 0 0 s = .fatal .encodeRange s := emit_symbol_missing h
  simp only [acValue, hsrc, hdst, hr, ne_eq, not_true_eq_false, if_false, if_pos hk, hemit, Res.fatal_andThen]

/-! The instructions that such a refusal ends. -/

theorem exec_v_ac_fatal {e : Reason} (n : BitVec 4) (f : BitVec 15) (hk : s.k ≠ 0)
    (h : acValue (vdecode f.toNat n.toNat) s = .fatal e t) : exec (.v n f) s = .next (enterFatal e t) := by
  show Res.outcome (((if s.k = 0 then _ else _ : Res).andThen _).andThen _) = _
  rw [if_neg hk, h]
  rfl

theorem exec_eob_missing (h : huffEncode (destTable .ac s) 0x00 = none) :
    exec .eob s = .next (enterFatal .encodeRange { s with acrle := 0 }) := by
  have hemit : emit .ac 0 0 { s with acrle := 0 } = .fatal .encodeRange { s with acrle := 0 } := emit_symbol_missing h
  show Res.outcome _ = _
  rw [hemit]
  rfl

theorem exec_zrl_missing (hk : s.k + 16 ≤ 63) (h : huffEncode (destTable .ac s) 0xF0 = none) :
    exec .zrl s = .next (enterFatal .encodeRange { s with acrle := 0 }) := by
  have hemit : emit .ac 15 0 { s with acrle := 0 } = .fatal .encodeRange { s with acrle := 0 } :=
    emit_symbol_missing h
  show Res.outcome _ = _
  rw [if_neg (Nat.not_lt.mpr hk), hemit]
  rfl

/-- Settles O59: the value or the symbol is refused where its zeros or its own code cannot go out, and the refusal ends
the step. -/
theorem acEncodeRange : Obligations.AcEncodeRange := by
  intro s n f src dst r zeros
  refine ⟨fun hk hsrc hdst hr => ?value, exec_eob_missing, exec_zrl_missing⟩
  have hk0 : s.k ≠ 0 := by omega
  have hscale : acRescale (vdecode f.toNat n.toNat) src dst = r := hr.symm
  refine ⟨fun hne zc zw hz hrange => ?symbol, fun hne hz hzrl => ?zeroRun, fun hzero hlast heob => ?endOfBlock⟩
  case symbol =>
    rw [exec_v_ac_fatal n f hk0 (acValue_range hsrc hdst hscale hne hz hrange),
      ((outBits_outOnly zc zw).iterate (zeros / 16)).self s]
    rfl
  case zeroRun => exact exec_v_ac_fatal n f hk0 (acValue_zrl_missing hsrc hdst (hscale ▸ hne) hz hzrl)
  case endOfBlock => exact exec_v_ac_fatal n f hk0 (acValue_eob_missing hsrc hdst (hscale.trans hzero) hlast heob)

end Sys2Proof.Machine
end

/-! PROOFS. The family of 44_cursor.md: the boundary that a unit records, the end of a unit, and how control moves. -/

section
/-! The boundary that `RecordBoundary` stores and the end of a unit (44_cursor.md R211 to R216). -/

namespace Sys2Proof.Machine

variable {s : State}

theorem recordBoundary_self (hidx : s.pktCuIdx ≠ 0xFFFF) (hroom : s.outCount < 237) : recordBoundary s = s :=
  if_neg (not_or.mpr ⟨hidx, hroom.ne⟩)

theorem recordBoundary_stores (h : s.pktCuIdx = 0xFFFF ∨ s.outCount = 237) :
    recordBoundary s = storeBoundary (sync s) := if_pos h

theorem storeBoundary_here (h : boundaryPos s < 237) :
    storeBoundary s = { s with
      pktCuIdx := BitVec.ofNat 16 s.cu, pktCuOff := BitVec.ofNat 8 (boundaryPos s), resetCu := s.cu } := if_pos h

theorem storeBoundary_deferred (h : 237 ≤ boundaryPos s) :
    storeBoundary s = { s with
      nextCuIdx := BitVec.ofNat 16 s.cu, nextCuOff := BitVec.ofNat 8 (boundaryPos s - 237), resetCu := s.cu } :=
  if_neg (Nat.not_lt.mpr h)

/-- `Sync` rounds the position up to the next byte (43_entropy_encode.md R193). -/
theorem boundaryPos_sync (s : State) : boundaryPos (sync s) = s.outCount + (s.olen + 7) / 8 := by
  have haligned := sync_aligned s
  have htotal := (sync_flushed s).total
  unfold syncBits at htotal
  unfold boundaryPos
  split at htotal <;> omega

/-- With room in the buffer no bit waits after `Sync`: the byte it completes still fits. -/
theorem sync_olen_of_room (hroom : s.outCount < 237) (hwait : s.olen < 8) : (sync s).olen = 0 := by
  have haligned := sync_aligned s
  have hpos := boundaryPos_sync s
  unfold boundaryPos at hpos
  obtain hfew | hfull := sync_settled hroom.le (.inl hwait)
  · omega
  · have hpayload : Config.payload = 237 := rfl
    omega

/-- A full buffer stays full. -/
theorem sync_outCount_of_full (hfull : s.outCount = 237) : (sync s).outCount = 237 :=
  Nat.le_antisymm ((sync_flushed s).room hfull.le) (hfull.ge.trans (sync_flushed s).grows)

/-- Settles O37: the position after `Sync` decides which pair is stored. -/
theorem recordedBoundary : Obligations.RecordedBoundary := by
  intro s hcount hwait
  refine ⟨recordBoundary_self, ?_⟩
  intro hrecord u pos
  refine ⟨fun hhere => ?here, fun hpast => ?deferred, sync_aligned s, fun hroom => ?room, fun hfull => ?full⟩
  case here => rw [recordBoundary_stores hrecord, storeBoundary_here hhere, sync_cu]; rfl
  case deferred => rw [recordBoundary_stores hrecord, storeBoundary_deferred hpast, sync_cu]; rfl
  case room =>
    have hempty : u.olen = 0 := sync_olen_of_room hroom (hwait.resolve_right hroom.ne)
    have hpos : pos = u.outCount := by simp only [pos, hempty, Nat.zero_div, Nat.add_zero]
    exact ⟨hempty, hpos, boundaryPos_sync s⟩
  case full =>
    have hpos : pos = s.outCount + (s.olen + 7) / 8 := boundaryPos_sync s
    exact ⟨sync_outCount_of_full hfull, by omega⟩

/-! The restart arbiter after the boundary. -/

theorem arbitrate_restart (hdri : 0 < s.dri.toNat) (hmultiple : s.cu % s.dri.toNat = 0) :
    arbitrate s = { s with pstate := .marker } := if_pos ⟨hdri, hmultiple⟩

theorem arbitrate_continue (h : s.dri.toNat = 0 ∨ s.cu % s.dri.toNat ≠ 0) : arbitrate s = s :=
  if_neg fun ⟨hdri, hmultiple⟩ => h.elim hdri.ne' fun hno => hno hmultiple

/-- The boundary's record moves neither the cursor nor the restart interval. -/
theorem recordBoundary_cu_dri (s : State) : (recordBoundary s).cu = s.cu ∧ (recordBoundary s).dri = s.dri := by
  obtain hsame | ⟨u, hw, -, hstore⟩ := recordBoundary_cases s
  · rw [hsame]; exact ⟨rfl, rfl⟩
  · rw [hstore, storeBoundary_frame, hw.frame]; exact ⟨rfl, rfl⟩

theorem unitEnd_last (h : s.cu + 1 = s.nunits) :
    unitEnd s = { sync { s with part := 0, comp := 0, cu := s.cu + 1 } with pstate := .finish } := if_pos h

theorem unitEnd_more (h : s.cu + 1 ≠ s.nunits) :
    unitEnd s = arbitrate (recordBoundary { s with part := 0, comp := 0, cu := s.cu + 1 }) := if_neg h

/-- Settles O38: after the record the arbiter sees the new unit and the interval as they were. -/
theorem unitEndRule : Obligations.UnitEndRule := by
  intro s u
  obtain ⟨hcu, hdri⟩ := recordBoundary_cu_dri u
  refine ⟨unitEnd_last, fun hmore hinterval hmultiple => ?restart, fun hmore hno => ?carryOn⟩
  case restart =>
    rw [unitEnd_more hmore]
    exact arbitrate_restart (by rw [hdri]; exact hinterval) (by rw [hcu, hdri]; exact hmultiple)
  case carryOn =>
    rw [unitEnd_more hmore]
    exact arbitrate_continue (by rw [hcu, hdri]; exact hno)

end Sys2Proof.Machine
end

section
/-! `PSTATE` along the entropy-coded forms: from entropy mode the list of 44_cursor.md R222 allows every state but the
two inside a segment, so it is enough that no symbol or value field enters one of these. No invariant is assumed. -/

namespace Sys2Proof.Machine

/-- The parser is not inside a segment. -/
def OutsideSegment (s : State) : Prop := s.pstate ≠ .len ∧ s.pstate ≠ .data

/-- `PSTATE` stays, or changes as 44_cursor.md R222 lists. -/
abbrev MayMove (p q : PState) : Prop := q = p ∨ allowedTransfer p q = true

variable {s t : State}

theorem OutsideSegment.of_pstate (h : OutsideSegment s) (hp : t.pstate = s.pstate) : OutsideSegment t := by
  unfold OutsideSegment
  rw [hp]
  exact h

theorem outsideSegment_of_entropy (he : s.pstate.entropy = true) : OutsideSegment s := by
  constructor <;> intro hp <;> rw [hp] at he <;> cases he

/-- From entropy mode control may move to every state outside a segment. -/
theorem OutsideSegment.mayMove (h : OutsideSegment t) (he : s.pstate.entropy = true) : MayMove s.pstate t.pstate := by
  obtain ⟨hlen, hdata⟩ := h
  revert he hlen hdata
  generalize s.pstate = p
  generalize t.pstate = q
  cases p <;> cases q <;> decide

/-- Sequencing: a predicate that both parts keep. -/
theorem Res.All.keeping {P : State → Prop} {r : Res} {k : State → Res} (h : r.All P) (hk : ∀ u, P u → (k u).All P) :
    (r.andThen k).All P := h.andThen (fun _ => id) hk

/-- Sequencing with a write of registers. -/
theorem Res.All.keeping_write {P : State → Prop} {r : Res} {f : State → State} (h : r.All P)
    (hf : ∀ u, P u → P (f u)) : (r.andThen fun u => .ok (f u)).All P := h.keeping hf

theorem Wrote.outside {n : Nat} (hw : Wrote n s t) (h : OutsideSegment s) : OutsideSegment t :=
  h.of_pstate (by rw [hw.frame])

theorem emit_outside (cls : HuffClass) (run : Nat) (v : Int) (h : OutsideSegment s) :
    (emit cls run v s).All OutsideSegment :=
  (emit_wrote cls run v s).mono fun _ ⟨_, hw⟩ => hw.outside h

/-- A fatal condition moves no control. -/
theorem Res.All.outside {r : Res} (h : r.All OutsideSegment) (ht : r.outcome = .next t) : OutsideSegment t :=
  h.outcome (fun _ _ => id) ht

/-! The ends of blocks and units. -/

theorem unitEnd_outside (h : OutsideSegment s) : OutsideSegment (unitEnd s) := by
  obtain ⟨_, _, _, _, _, hlast, hmore, _⟩ := unitEnd_cases s
  by_cases hl : s.cu + 1 = s.nunits
  · unfold OutsideSegment
    rw [(hlast hl).1]
    decide
  · obtain hsame | hmarker := hmore hl
    · exact h.of_pstate hsame
    · unfold OutsideSegment
      rw [hmarker]
      decide

theorem nextBlock_outside (h : OutsideSegment s) : OutsideSegment (nextBlock s) := by
  by_cases hlast : s.part = s.yparts + 2
  · rw [nextBlock_unitEnd hlast]
    exact unitEnd_outside h
  · rw [nextBlock_inside hlast]
    exact h

theorem synthesizeChroma_outside (cc : Nat) (h : OutsideSegment s) : (synthesizeChroma cc s).All OutsideSegment := by
  have hdc : (emit .dc 0 0 { s with comp := cc }).All OutsideSegment := emit_outside _ _ _ h
  exact (hdc.keeping fun _ => emit_outside .ac 0 0).keeping_write fun _ => id

theorem blockEnd_outside (h : OutsideSegment s) : (blockEnd s).All OutsideSegment := by
  have hpart : OutsideSegment { s with part := s.part + 1 } := h
  unfold blockEnd
  simp only
  split
  · exact ((synthesizeChroma_outside 1 hpart).keeping fun _ => synthesizeChroma_outside 2).keeping
      fun _ => nextBlock_outside
  · exact nextBlock_outside hpart

theorem finishStep_outside (h : OutsideSegment s) : (finishStep s).All OutsideSegment := by
  unfold finishStep
  split
  · exact blockEnd_outside h
  · exact h

/-! The rescaler. -/

theorem dcEmit_outside (new : Int) (h : OutsideSegment s) : (dcEmit new s).All OutsideSegment := by
  unfold dcEmit
  split
  · trivial
  · exact (emit_outside _ _ _ h).keeping_write fun _ => id

theorem dcUpdate_outside (v : Int) (h : OutsideSegment s) : (dcUpdate v s).All OutsideSegment := by
  unfold dcUpdate
  split
  · split
    · exact h
    · exact dcEmit_outside _ h
  · trivial
  · trivial

theorem emitZeroRuns_outside (n : Nat) (h : OutsideSegment s) : (emitZeroRuns n s).All OutsideSegment := by
  induction n generalizing s with
  | zero => exact h
  | succ n ih => exact Res.All.keeping ((emit_outside .ac 15 0 h).keeping_write fun _ => id) fun _ => ih

theorem acValue_outside (v : Int) (h : OutsideSegment s) : (acValue v s).All OutsideSegment := by
  unfold acValue
  split
  case h_2 => trivial
  case h_1 =>
    split
    · have hruns := emitZeroRuns_outside ((s.accrle + s.acrle.toNat) / 16)
        (s := { s with accrle := s.accrle + s.acrle.toNat }) h
      exact (hruns.keeping fun _ => emit_outside .ac _ _).keeping_write fun _ => id
    · split
      · exact (emit_outside .ac 0 0 h).keeping_write fun _ => id
      · exact h

/-! The meanings. -/

/-- No symbol or value field leads into a segment: it stays in entropy mode, goes to the other state of it, or ends a
unit. -/
theorem IsSymbol.outside {i : Instr} (hi : IsSymbol i) (h : OutsideSegment s) (hexec : exec i s = .next t) :
    OutsideSegment t := by
  cases hi with
  | dc hi size =>
    refine Res.All.outside ?_ hexec
    split
    · exact Res.All.keeping ((dcUpdate_outside 0 (s := { s with needbits := size }) h).keeping_write fun _ => id)
        fun _ => finishStep_outside
    · exact finishStep_outside ⟨nofun, nofun⟩
  | eob =>
    refine Res.All.outside ?_ hexec
    exact Res.All.keeping ((emit_outside .ac 0 0 (s := { s with acrle := 0 }) h).keeping_write fun _ => id)
      fun _ => finishStep_outside
  | zrl =>
    refine Res.All.outside ?_ hexec
    split
    · exact h
    · exact Res.All.keeping ((emit_outside .ac 15 0 (s := { s with acrle := 0 }) h).keeping_write fun _ => id)
        fun _ => finishStep_outside
  | acReserved run => cases hexec; exact h
  | ac run size =>
    refine Res.All.outside ?_ hexec
    split
    · exact h
    · exact finishStep_outside ⟨nofun, nofun⟩
  | v n f =>
    refine Res.All.outside ?_ hexec
    refine Res.All.keeping (Res.All.keeping_write (P := OutsideSegment) ?_ fun _ _ => ⟨by nofun, by nofun⟩)
      fun _ => finishStep_outside
    split
    · exact dcUpdate_outside _ h
    · exact acValue_outside _ h

end Sys2Proof.Machine
end

section
/-! `PSTATE` along the markers and segments (40_segment_parser.md R120 to R127). -/

namespace Sys2Proof.Machine

variable {s t : State} {len : Half} {d : List Byte}

/-! A definition writes tables only; an accepted scan header enters entropy mode, and needs a payload for it. -/

theorem frame_pstate (d : List Byte) (s : State) : (frame d s).All (·.pstate = s.pstate) := by
  unfold frame
  split <;> rfl

theorem setInterval_pstate (d : List Byte) (s : State) : (setInterval d s).All (·.pstate = s.pstate) := by
  unfold setInterval
  split <;> rfl

theorem dqtDefs_pstate (fuel : Nat) (d : List Byte) (s : State) : (dqtDefs fuel d s).All (·.pstate = s.pstate) := by
  induction fuel generalizing d s with
  | zero => rfl
  | succ fuel ih =>
    unfold dqtDefs
    split; · rfl
    split; · rfl
    split; · rfl
    exact ih _ _

theorem storeHuff_pstate (cls idx : Nat) (tab : HuffTable) (s : State) :
    (storeHuff cls idx tab s).pstate = s.pstate := by
  unfold storeHuff
  split <;> rfl

theorem dhtDefs_pstate (fuel : Nat) (d : List Byte) (s : State) : (dhtDefs fuel d s).All (·.pstate = s.pstate) := by
  induction fuel generalizing d s with
  | zero => rfl
  | succ fuel ih =>
    unfold dhtDefs
    simp only
    split; · rfl
    split; · rfl
    split; · rfl
    split; · rfl
    exact (ih _ _).mono fun _ h => h.trans (storeHuff_pstate _ _ _ _)

theorem scanError_nil (s : State) : scanError s [] ≠ none := by
  simp only [scanError, List.length_nil, Nat.zero_lt_one, if_true]
  split; · simp
  split <;> simp

theorem scan_pstate (d : List Byte) (s : State) :
    (scan d s).All fun t => t.pstate = s.pstate ∨ (t.pstate = .huff ∧ d ≠ []) := by
  unfold scan
  split
  · exact .inl rfl
  case h_2 haccepted =>
    refine .inr ⟨rfl, fun hd => ?_⟩
    rw [hd] at haccepted
    exact scanError_nil s haccepted

/-- Where a segment with the payload `d` leaves control. -/
def SegmentLeaves (d : List Byte) (s t : State) : Prop :=
  t.pstate = s.pstate ∨ t.pstate = .marker ∨ (t.pstate = .huff ∧ d ≠ [])

theorem dispatch_leaves {op : State → Res}
    (hop : ∀ u, (op u).All fun t => t.pstate = u.pstate ∨ (t.pstate = .huff ∧ d ≠ []))
    (h : (dispatch len s op).outcome = .next t) : SegmentLeaves d s t := by
  refine Res.All.outcome ?_ (fun _ _ => id) h
  unfold dispatch
  split
  · exact .inl rfl
  · exact (hop { s with pstate := .marker }).mono fun _ => .inr

theorem skipSegment_leaves (len : Half) (d : List Byte) (s : State) : (skipSegment len s).All (SegmentLeaves d s) := by
  unfold skipSegment
  split
  · exact .inl rfl
  · exact .inr (.inl rfl)

/-! The rows of the markers. -/

theorem exec_bufferedRow_leaves {w : Half} {mk : Half → List Byte → Instr} (hrow : BufferedRow w mk)
    (h : exec (mk len d) s = .next t) : SegmentLeaves d s t := by
  cases hrow with
  | sof0 => exact dispatch_leaves (fun u => (frame_pstate d u).mono fun _ => .inl) h
  | dht => exact dispatch_leaves (fun u => (dhtDefs_pstate _ d u).mono fun _ => .inl) h
  | sos => exact dispatch_leaves (scan_pstate d) h
  | dqt => exact dispatch_leaves (fun u => (dqtDefs_pstate _ d u).mono fun _ => .inl) h
  | dri => exact dispatch_leaves (fun u => (setInterval_pstate d u).mono fun _ => .inl) h

theorem exec_skippedRow {w : Half} {mk : Half → Instr} (hrow : SkippedRow w mk) (len : Half) (s : State) :
    exec (mk len) s = (skipSegment len s).outcome := by
  cases hrow <;> rfl

/-- A marker with a length field is a row of class (b) or (c). -/
theorem exec_segment_leaves {w : Half} (hw : hasLengthField w = true)
    (h : exec (markerInstr w len d) s = .next t) : SegmentLeaves d s t := by
  obtain hbuffered | hskipped := Bool.or_eq_true_iff.mp hw
  · obtain ⟨mk, hrow⟩ := exists_bufferedRow hbuffered
    rw [hrow.markerInstr_eq] at h
    exact exec_bufferedRow_leaves hrow h
  · obtain ⟨mk, hrow⟩ := exists_skippedRow hskipped
    rw [hrow.markerInstr_eq, exec_skippedRow hrow] at h
    exact (skipSegment_leaves len d s).outcome (fun _ _ => id) h

/-- Of the markers without a length field only a restart marker moves control. -/
theorem exec_standaloneRow_pstate {w : Half} {i : Instr} (hrow : StandaloneRow w i) (h : exec i s = .next t) :
    t.pstate = s.pstate ∨ t.pstate = .huff := by
  cases hrow with
  | tem | soi | eoi | sof2 | nonmarker => cases h; exact .inl rfl
  | rst n =>
    refine Res.All.outcome (P := fun t => t.pstate = s.pstate ∨ t.pstate = .huff) ?_ (fun _ _ => id) h
    split
    · exact .inr rfl
    · exact .inl rfl

/-! The byte that the parser takes. -/

theorem markerByte_mayMove (hp : s.pstate = .marker) (b : Byte) (h : (markerByte b s).run = .next t) :
    MayMove s.pstate t.pstate := by
  rw [hp]
  cases hw : hasLengthField (s.mkReg.extractLsb' 0 8 ++ b) with
  | true => rw [markerByte_more hw] at h; cases h; exact .inr rfl
  | false =>
    obtain ⟨i, hrow⟩ := exists_standaloneRow hw
    rw [markerByte_instr hw, hrow.markerInstr_eq] at h
    obtain hsame | hhuff := exec_standaloneRow_pstate hrow h
    · exact .inl (hsame.trans hp)
    · rw [hhuff]; decide

/-- A segment that the length field ends has no payload, so it is no accepted scan header. -/
theorem SegmentLeaves.mayMove_len (h : SegmentLeaves [] s t) (hp : s.pstate = .len) : MayMove .len t.pstate := by
  obtain hsame | hmarker | ⟨_, hpayload⟩ := h
  · exact .inl (hsame.trans hp)
  · rw [hmarker]; decide
  · exact absurd rfl hpayload

theorem lengthByte_mayMove (hp : s.pstate = .len) (hw : hasLengthField s.mkReg = true) (b : Byte)
    (h : (lengthByte b s).run = .next t) : MayMove s.pstate t.pstate := by
  rw [hp]
  unfold lengthByte lengthDone at h
  simp only at h
  split at h
  · split at h
    · split at h
      · exact (exec_segment_leaves hw h).mayMove_len hp
      · cases h; exact .inr rfl
    · exact (exec_segment_leaves hw h).mayMove_len hp
  · cases h; exact .inl hp

theorem payloadStep_mayMove (hp : s.pstate = .data) (hw : hasLengthField s.mkReg = true) (b : Byte)
    (h : (payloadStep b s).run = .next t) : MayMove s.pstate t.pstate := by
  rw [hp]
  unfold payloadStep at h
  split at h
  · cases h
  · simp only at h
    split at h
    · obtain hsame | hmarker | ⟨hhuff, _⟩ := exec_segment_leaves hw h
      · exact .inl (hsame.trans hp)
      · rw [hmarker]; decide
      · rw [hhuff]; decide
    · cases h; exact .inl hp

end Sys2Proof.Machine
end

section
/-! `PSTATE` along a step (44_cursor.md R222). -/

namespace Sys2Proof.Machine

variable {s t : State}

theorem pstate_of_windowRegs (h : windowRegs t = windowRegs s) : t.pstate = s.pstate := congrArg Prod.fst h

/-- `Pull()` itself moves no control: only the use of the byte may. -/
theorem pull_mayMove {use : Byte → State → Fetched} (h : (pull s use).run = .next t)
    (huse : ∀ b, (use b { s with srcPos := s.srcPos + 1 }).run = .next t → MayMove s.pstate t.pstate) :
    MayMove s.pstate t.pstate := by
  unfold pull at h
  simp only at h
  split at h
  · cases h; exact .inl rfl
  split at h
  · exact .inl (pstate_of_windowRegs (execStuff_windowRegs (s := { s with srcPos := s.srcPos + 1 }) _ h))
  split at h
  · cases h; exact .inl rfl
  · exact huse _ h

/-- Where the window suffices, what is fetched is a symbol or a value field. -/
theorem WindowSuffices.fetch_isSymbol (hs : WindowSuffices s) :
    ∃ i w, Machine.fetch s = .instr i (consume w s) ∧ IsSymbol i := by
  obtain ⟨hp, tab, sym, w, ht, hl⟩ | ⟨hp, hn⟩ := hs
  · exact ⟨_, w, fetch_symbol hp ht hl, isSymbol_decodeSymbol _ _⟩
  · exact ⟨_, _, fetch_value hp hn, .v _ _⟩

/-- In entropy mode a symbol or value field runs, or a byte is merged, or the stream is corrupt. -/
theorem fetch_mayMove_entropy (ht : TablesOk s) (hc : CursorOk s) (he : s.pstate.entropy = true)
    (h : (fetch s).run = .next t) : MayMove s.pstate t.pstate := by
  obtain hs | hneed | hcorrupt := entropy_cases ht hc he
  · obtain ⟨i, w, hfetch, hi⟩ := hs.fetch_isSymbol
    rw [hfetch] at h
    have houtside : OutsideSegment (consume w s) := outsideSegment_of_entropy he
    exact (hi.outside houtside h).mayMove he
  · obtain ⟨use, hfetch, huse⟩ := fetch_needsByte hneed
    rw [hfetch, huse he] at h
    exact pull_mayMove h fun b hb => by cases hb; exact .inl rfl
  · rw [hcorrupt] at h; cases h; exact .inl rfl

/-- What the parser and the decoder fetch moves control as the list allows: the marker in the window is one with a
length field wherever a segment is read. -/
theorem fetch_mayMove (ht : TablesOk s) (hpar : ParserOk s) (hc : CursorOk s) (hfin : s.pstate ≠ .finish)
    (h : (fetch s).run = .next t) : MayMove s.pstate t.pstate := by
  cases hp : s.pstate with
  | marker =>
    rw [fetch_marker hp] at h
    exact hp ▸ pull_mayMove h (markerByte_mayMove (s := { s with srcPos := s.srcPos + 1 }) hp)
  | len =>
    rw [fetch_len hp] at h
    have hw := (hpar.len hp).2
    exact hp ▸ pull_mayMove h (lengthByte_mayMove (s := { s with srcPos := s.srcPos + 1 }) hp hw)
  | data =>
    rw [fetch_data hp] at h
    have hw := hasLengthField_of_isBufferedCode (hpar.data hp).1
    exact hp ▸ pull_mayMove h (payloadStep_mayMove (s := { s with srcPos := s.srcPos + 1 }) hp hw)
  | huff | int => exact hp ▸ fetch_mayMove_entropy ht hc (by rw [hp]; rfl) h
  | finish => exact absurd hp hfin

/-- Settles O55: `NEXT_PACKET` itself moves no control, and the fetch moves it by the list. -/
theorem pstateTransfers : Obligations.PstateTransfers := by
  intro s t hinv hrun hstep
  have hnf : s.failed = false := (hinv.static.running hrun).2
  by_cases hgo : s.pstate = .finish ∨ s.outCount = 237
  · rw [step_continues_packet hrun hgo] at hstep
    exact .inl (pstate_of_windowRegs (execNextPacket_windowRegs hstep))
  · obtain ⟨hfin, hroom⟩ := not_or.mp hgo
    rw [step_fetches hrun hfin hroom] at hstep
    exact fetch_mayMove (hinv.tables hnf) (hinv.parser hnf) (hinv.cursor hnf) hfin hstep

end Sys2Proof.Machine
end

/-! PROOFS. The family of 45_packet.md: the two host commands, the bytes of a packet, and what the host gets from any
number of requests. -/

section
/-! `CONSTRUCT` and `NEXT_PACKET` as equations (45_packet.md R230, R235 to R237, R253, R254). -/

namespace Sys2Proof.Machine

variable {s : State} {eoi : Bool}

theorem exec_construct_accepted (callsign : Callsign) (imageId : Byte) (quality : BitVec 3) (source : List Byte)
    (h : s.rom.wellFormed = true) :
    exec (.construct callsign imageId quality source) s = .next
      { State.constructed s.rom (memOfBytes 0 source) source.length callsign imageId quality with hostq := s.hostq } :=
  if_pos h

theorem exec_construct_refused (callsign : Callsign) (imageId : Byte) (quality : BitVec 3) (source : List Byte)
    (h : s.rom.wellFormed = false) :
    exec (.construct callsign imageId quality source) s = .refused .romNotAccepted :=
  if_neg (Bool.not_eq_true _ ▸ h)

/-- Settles O41: `CONSTRUCT` leaves `State.constructed`, and the source is read back byte by byte. -/
theorem constructResets : Obligations.ConstructResets := by
  intro s callsign imageId quality source
  refine ⟨fun hrom => ⟨_, exec_construct_accepted callsign imageId quality source hrom, fun a => ?_, ?_⟩,
    exec_construct_refused callsign imageId quality source⟩
  · have hread := memRead_memOfBytes 0 source a
    rwa [Nat.zero_add] at hread
  · and_intros <;> rfl

theorem exec_nextPacket_failed (hf : s.failed = true) : exec .nextPacket s = .next (answer (.fatal s.reason) s) :=
  congrArg Res.outcome (if_pos hf)

theorem exec_nextPacket_done (hf : s.failed = false) (hd : s.done = true) :
    exec .nextPacket s = .next (answer .done s) := by
  show Res.outcome _ = _
  rw [hf, hd]
  rfl

theorem exec_nextPacket_runs (hf : s.failed = false) (hd : s.done = false) :
    exec .nextPacket s = (packetLoop (drain s)).outcome := by
  show Res.outcome _ = _
  rw [hf, hd]
  rfl

/-- The packet that is ready is the flagged one: the image is finished and no bit waits (45_packet.md R237). -/
def lastPacket (s : State) : Bool := decide (s.pstate = .finish ∧ s.olen = 0)

theorem packetLoop_continues (hp : s.pstate ≠ .finish) (ho : s.outCount ≠ 237) :
    packetLoop s = .ok { s with running := true, reply := none } :=
  (if_neg hp).trans (if_neg ho)

theorem packetLoop_ready (h : s.pstate = .finish ∨ s.outCount = 237) :
    packetLoop s = buildPacket (lastPacket s) s := by
  unfold packetLoop lastPacket
  by_cases hp : s.pstate = .finish
  · simp only [hp, if_true, true_and]
  · simp only [hp, if_false, false_and, decide_false, if_pos (show s.outCount = Config.payload from h.resolve_left hp)]

theorem buildPacket_overflow (h : 65535 < s.pktSeq) : buildPacket eoi s = .fatal .seqOverflow s := if_pos h

theorem buildPacket_returns (h : s.pktSeq ≤ 65535) : buildPacket eoi s = .ok (s.packetReturned eoi) :=
  if_neg (Nat.not_lt.mpr h)

/-- With room in the buffer and the image not finished the command stays in progress. -/
theorem exec_nextPacket_continues (hf : s.failed = false) (hd : s.done = false) (hp : s.pstate ≠ .finish)
    (ho : (drain s).outCount ≠ 237) :
    exec .nextPacket s = .next { drain s with running := true, reply := none } := by
  have hp' : (drain s).pstate ≠ .finish := by rwa [drain_pstate]
  rw [exec_nextPacket_runs hf hd, packetLoop_continues hp' ho, Res.outcome_ok]

theorem exec_nextPacket_ready (hf : s.failed = false) (hd : s.done = false)
    (h : s.pstate = .finish ∨ (drain s).outCount = 237) :
    exec .nextPacket s = (buildPacket (lastPacket (drain s)) (drain s)).outcome := by
  rw [exec_nextPacket_runs hf hd, packetLoop_ready (by rwa [drain_pstate])]

theorem exec_nextPacket_overflow (hf : s.failed = false) (hd : s.done = false)
    (h : s.pstate = .finish ∨ (drain s).outCount = 237) (hseq : 65535 < s.pktSeq) :
    exec .nextPacket s = .next (enterFatal .seqOverflow (drain s)) := by
  rw [exec_nextPacket_ready hf hd h, buildPacket_overflow (by rwa [drain_pktSeq]), Res.outcome_fatal]

theorem exec_nextPacket_returns (hf : s.failed = false) (hd : s.done = false)
    (h : s.pstate = .finish ∨ (drain s).outCount = 237) (hseq : s.pktSeq ≤ 65535) :
    exec .nextPacket s = .next ((drain s).packetReturned (lastPacket (drain s))) := by
  rw [exec_nextPacket_ready hf hd h, buildPacket_returns (by rwa [drain_pktSeq]), Res.outcome_ok]

/-- Settles O42: one equation per case. -/
theorem nextPacketWithoutPacket : Obligations.NextPacketWithoutPacket := fun _ =>
  ⟨exec_nextPacket_failed, exec_nextPacket_done, exec_nextPacket_continues, exec_nextPacket_overflow⟩

/-- Settles O43: `Drain` moves none of the registers that the packet's return reads from `s`. -/
theorem nextPacketReturnsPacket : Obligations.NextPacketReturnsPacket := by
  intro s hf hd hseq h last
  have hlast : lastPacket (drain s) = last := by rw [lastPacket, drain_pstate]
  rw [exec_nextPacket_returns hf hd h hseq, hlast]
  simp only [State.packetReturned, answer, afterPacket, drain_done, hd, Bool.false_or, drain_pktSeq, drain_nextCuIdx,
    drain_nextCuOff]
  rfl

end Sys2Proof.Machine
end

section
/-! The station identifier: six digits in base 40 (45_packet.md R232, R233). -/

namespace Sys2Proof.Machine

theorem digit40_lt (ch : Byte) : digit40 ch < 40 := by
  unfold digit40
  split; · omega
  split; · omega
  split <;> omega

/-- The characters that the code tells apart: the digits 1 to 9 and the upper-case letters (45_packet.md R233). -/
abbrev IsCallChar (ch : Byte) : Prop :=
  (0x31 ≤ ch.toNat ∧ ch.toNat ≤ 0x39) ∨ (0x41 ≤ ch.toNat ∧ ch.toNat ≤ 0x5A)

/-- The digits have the values 1 to 9, the letters those from 14 on. -/
theorem IsCallChar.digit40_eq {ch : Byte} (h : IsCallChar ch) :
    (digit40 ch ≤ 9 ∧ ch.toNat = digit40 ch + 0x30) ∨ (14 ≤ digit40 ch ∧ ch.toNat = digit40 ch + 0x33) := by
  obtain hdigit | hletter := h
  · have heq : digit40 ch = ch.toNat - 0x30 := if_pos hdigit
    omega
  · have heq : digit40 ch = ch.toNat - 0x41 + 14 := (if_neg (by omega)).trans (if_pos hletter)
    omega

theorem digit40_injOn {ch ch' : Byte} (h : IsCallChar ch) (h' : IsCallChar ch') (heq : digit40 ch = digit40 ch') :
    ch = ch' := by
  have := h.digit40_eq
  have := h'.digit40_eq
  exact BitVec.eq_of_toNat_eq (by omega)

theorem callsignValue_cons (ch : Byte) (cells : List Byte) :
    callsignValue (ch :: cells) = callsignValue cells * 40 + digit40 ch := rfl

theorem callsignValue_lt (cells : List Byte) : callsignValue cells < 40 ^ cells.length := by
  induction cells with
  | nil => exact Nat.one_pos
  | cons ch cells ih =>
    have := digit40_lt ch
    rw [callsignValue_cons, List.length_cons, Nat.pow_succ]
    omega

/-- A base-40 value has one list of digits of a given length. -/
theorem callsignValue_injOn : {l l' : List Byte} → l.length = l'.length → (∀ ch ∈ l, IsCallChar ch) →
    (∀ ch ∈ l', IsCallChar ch) → callsignValue l = callsignValue l' → l = l'
  | [], [], _, _, _, _ => rfl
  | ch :: l, ch' :: l', hlen, h, h', heq => by
    have := digit40_lt ch
    have := digit40_lt ch'
    obtain ⟨hch, hl⟩ := List.forall_mem_cons.mp h
    obtain ⟨hch', hl'⟩ := List.forall_mem_cons.mp h'
    rw [callsignValue_cons, callsignValue_cons] at heq
    rw [digit40_injOn hch hch' (by omega), callsignValue_injOn (Nat.succ.inj hlen) hl hl' (by omega)]

/-- Six cells fit the 32 bits of the code. -/
theorem callsignEncode_toNat (c : Callsign) : (callsignEncode c).toNat = callsignValue (callsignCells c) :=
  Nat.mod_eq_of_lt (Nat.lt_trans (callsignValue_lt (callsignCells c)) (show 40 ^ 6 < 2 ^ 32 by decide))

/-- Settles O47: the code is the value of six digits below 40, and such a value has one list of six digits. -/
theorem callsignCode : Obligations.CallsignCode := by
  refine ⟨fun c => ⟨?value, ?bound⟩, fun c c' hcells hcode => ?injective⟩
  case value =>
    have hnil : callsignValue [] = 0 := rfl
    simp only [callsignEncode_toNat, callsignCells, callsignValue_cons, hnil]
    omega
  case bound =>
    rw [callsignEncode_toNat]
    exact Nat.le_sub_one_of_lt (callsignValue_lt (callsignCells c))
  case injective =>
    have hvalue := congrArg BitVec.toNat hcode
    rw [callsignEncode_toNat, callsignEncode_toNat] at hvalue
    have hlist : callsignCells c = callsignCells c' := callsignValue_injOn rfl
      (fun ch h => hcells ch (List.mem_append_left _ h)) (fun ch h => hcells ch (List.mem_append_right _ h)) hvalue
    simp only [callsignCells, List.cons.injEq] at hlist
    obtain ⟨h0, h1, h2, h3, h4, h5, -⟩ := hlist
    cases c
    cases c'
    rw [Callsign.mk.injEq]
    exact ⟨h0, h1, h2, h3, h4, h5⟩

end Sys2Proof.Machine
end

section
/-! The padding: the iterates of the recurrence (45_packet.md R250, R251). -/

namespace Sys2Proof.Machine

theorem padFrom_length (x : Byte) (n : Nat) : (padFrom x n).length = n := by
  induction n generalizing x with
  | zero => rfl
  | succ n ih => exact congrArg (· + 1) (ih (lcgNext x))

theorem padFrom_getD {n i : Nat} (x : Byte) (h : i < n) : (padFrom x n).getD i 0 = lcgNext^[i + 1] x := by
  induction n generalizing x i with
  | zero => omega
  | succ n ih =>
    cases i with
    | zero => rfl
    | succ i => exact ih (lcgNext x) (Nat.lt_of_succ_lt_succ h)

theorem lcgNext_toNat (x : Byte) : (lcgNext x).toNat = (x.toNat * 254 + 45) % 256 := by
  simp [lcgNext, Config.lcgMul, Config.lcgInc, BitVec.toNat_add, BitVec.toNat_mul]

/-- From the eighth byte on the padding is the recurrence's fixed point 15 (45_packet.md R251). -/
theorem lcgNext_iterate_eight (i : Nat) : lcgNext^[i + 8] 0 = 15 := by
  have hfixed : lcgNext 15 = 15 := by decide
  have heighth : lcgNext^[8] 0 = 15 := by decide
  rw [Function.iterate_add_apply, heighth, Function.iterate_fixed hfixed]

theorem pad_table (i : Nat) : (lcgNext^[i + 1] 0).toNat = [45, 211, 135, 31, 239, 79, 143].getD i 15 :=
  match i with
  | 0 | 1 | 2 | 3 | 4 | 5 | 6 => by decide
  | i + 7 => congrArg BitVec.toNat (lcgNext_iterate_eight i)

/-- Settles O45: byte `i` is the iterate `i + 1` of the recurrence from the seed 0. -/
theorem paddingSequence : Obligations.PaddingSequence := by
  intro n i hi
  rw [padFrom_getD 0 hi]
  refine ⟨padFrom_length 0 n, ?_, pad_table i⟩
  rw [Function.iterate_succ_apply', lcgNext_toNat]
  cases i with
  | zero => rfl
  | succ j => rw [if_neg j.succ_ne_zero, Nat.add_sub_cancel, padFrom_getD 0 (by omega)]

end Sys2Proof.Machine
end

section
/-! The checksum: its register keeps apart what one byte has set apart (45_packet.md R252). -/

namespace Sys2Proof.Machine

/-- The polynomial's top bit is set, so the top bit after a shift is the bit that left. -/
theorem crcBit_msb (c : BitVec 32) : (crcBit c).getLsbD 31 = c.getLsbD 0 := by
  unfold crcBit
  split
  case isTrue h => simp [h, Config.crcPoly]
  case isFalse h => simpa using h

theorem crcBit_injective : Function.Injective crcBit := by
  intro c d h
  have hlow : c.getLsbD 0 = d.getLsbD 0 := by rw [← crcBit_msb, h, crcBit_msb]
  have hshift : c >>> 1 = d >>> 1 := by
    unfold crcBit at h
    rw [hlow] at h
    split at h
    · exact (BitVec.xor_left_inj _).mp h
    · exact h
  refine BitVec.eq_of_getLsbD_eq fun i _ => ?_
  cases i with
  | zero => exact hlow
  | succ j =>
    have hj := congrArg (BitVec.getLsbD · j) hshift
    simpa only [BitVec.getLsbD_ushiftRight, Nat.add_comm 1] using hj

theorem crcBits_injective (n : Nat) : Function.Injective (crcBits n) := by
  induction n with
  | zero => exact Function.injective_id
  | succ n ih => exact ih.comp crcBit_injective

/-- A byte keeps different registers different. -/
theorem crcByte_injective (b : Byte) : Function.Injective (crcByte · b) := fun _ _ h =>
  (BitVec.xor_left_inj _).mp (crcBits_injective 8 h)

/-- Two bytes set one register apart. -/
theorem crcByte_byte_injective (x : BitVec 32) : Function.Injective (crcByte x) := by
  intro b c h
  have hwide := (BitVec.xor_right_inj _).mp (crcBits_injective 8 h)
  simpa using congrArg (BitVec.setWidth 8) hwide

theorem crcBytes_injective (r : List Byte) : Function.Injective (r.foldl crcByte) := by
  induction r with
  | nil => exact Function.injective_id
  | cons b r ih => exact ih.comp (crcByte_injective b)

/-- Settles O46: the bytes that differ set the register apart, and the bytes after them keep it apart. -/
theorem checksumDetectsOneByte : Obligations.ChecksumDetectsOneByte := by
  refine ⟨by decide +kernel, fun l r b c hne h => hne ?_⟩
  have hfold := (BitVec.xor_left_inj _).mp h
  simp only [List.foldl_append, List.foldl_cons] at hfold
  exact crcByte_byte_injective _ (crcBytes_injective r hfold)

end Sys2Proof.Machine
end

section
/-! The bytes of a packet, by their places (45_packet.md R240 to R252). -/

namespace Sys2Proof.Machine

variable {s : State} {eoi : Bool}

/-! Fields of more than a byte. -/

theorem halfBytes_value (w : Half) : (w.extractLsb' 8 8).toNat * 256 + (w.extractLsb' 0 8).toNat = w.toNat := by
  have := w.isLt
  simp only [BitVec.extractLsb'_toNat, Nat.shiftRight_eq_div_pow]
  omega

theorem wordBytes_value (w : BitVec 32) :
    (w.extractLsb' 24 8).toNat * 2 ^ 24 + (w.extractLsb' 16 8).toNat * 2 ^ 16 + (w.extractLsb' 8 8).toNat * 2 ^ 8
      + (w.extractLsb' 0 8).toNat = w.toNat := by
  have := w.isLt
  simp only [BitVec.extractLsb'_toNat, Nat.shiftRight_eq_div_pow]
  omega

/-- A dimension in sixteens (45_packet.md R244). -/
theorem dimByte_value (x : BitVec 12) : ((x >>> 4).setWidth 8).toNat = x.toNat / 16 := by
  have := x.isLt
  rw [BitVec.toNat_setWidth, BitVec.toNat_ushiftRight, Nat.shiftRight_eq_div_pow]
  omega

theorem flagsByte_value (quality : BitVec 3) (eoi : Bool) (mode : BitVec 2) :
    (flagsByte quality eoi mode).toNat =
      (quality.toNat + 4) % 8 * 8 + (if eoi = true then 4 else 0) + mode.toNat := by
  revert quality eoi mode
  decide

theorem flagsByte_eoi (quality : BitVec 3) (eoi : Bool) (mode : BitVec 2) :
    (flagsByte quality eoi mode).getLsbD 2 = eoi := by
  revert quality eoi mode
  decide

/-! The parts of a packet. -/

theorem packetHeader_length (eoi : Bool) (s : State) : (packetHeader eoi s).length = 15 := rfl

theorem memReadN_length (m : Memory) (a n : Nat) : (memReadN m a n).length = n := by simp [memReadN]

theorem packetBody_length (h : s.outCount ≤ 237) : (packetBody eoi s).length = 252 := by
  rw [packetBody, packetPayload, List.length_append, packetHeader_length, List.length_append, memReadN_length,
    padFrom_length, Config.payload]
  omega

theorem packetBytes_take (h : s.outCount ≤ 237) : (packetBytes eoi s).take 252 = packetBody eoi s :=
  List.take_left' (packetBody_length h)

theorem packetBytes_checksum (h : s.outCount ≤ 237) :
    (packetBytes eoi s).drop 252 = wordBytes (crc32 (((packetBytes eoi s).take 252).drop 1)) := by
  rw [packetBytes_take h]
  exact List.drop_left' (packetBody_length h)

theorem packetBytes_length (h : s.outCount ≤ 237) : (packetBytes eoi s).length = 256 := by
  rw [packetBytes, List.length_append, packetBody_length h]
  rfl

/-- Checksum byte `i` (45_packet.md R252). -/
theorem packetBytes_getD_checksum (h : s.outCount ≤ 237) (i : Nat) :
    (packetBytes eoi s).getD (252 + i) 0 = (wordBytes (crc32 (((packetBytes eoi s).take 252).drop 1))).getD i 0 := by
  rw [← packetBytes_checksum h, List.getD_eq_getElem?_getD, List.getD_eq_getElem?_getD, List.getElem?_drop]

/-- Byte `i` after the header is byte `i` of the payload area (45_packet.md R247). -/
theorem packetBytes_getD_payload {i : Nat} (h : s.outCount ≤ 237) (hi : i < 237) :
    (packetBytes eoi s).getD (15 + i) 0 = (packetPayload s).getD i 0 := by
  have hbody := packetBody_length (eoi := eoi) h
  rw [packetBytes, List.getD_append _ _ _ _ (by omega), packetBody, ← packetHeader_length eoi s,
    List.getD_append_right _ _ _ _ (Nat.le_add_right _ _), Nat.add_sub_cancel_left]

theorem packetBytes_getD_data {i : Nat} (h : s.outCount ≤ 237) (hi : i < s.outCount) :
    (packetBytes eoi s).getD (15 + i) 0 = memRead s.pktbuf i := by
  have hlen := memReadN_length s.pktbuf 0 s.outCount
  rw [packetBytes_getD_payload h (by omega), packetPayload, List.getD_append _ _ _ _ (by omega),
    List.getD_eq_getElem _ _ (by omega)]
  simp [memReadN]

/-- The padding starts from its own seed after the last payload byte (45_packet.md R250). -/
theorem packetBytes_getD_padding {j : Nat} (h : s.outCount ≤ 237) (hj : s.outCount + j < 237) :
    (packetBytes eoi s).getD (15 + s.outCount + j) 0 = (padFrom 0 (j + 1)).getD j 0 := by
  have hlen := memReadN_length s.pktbuf 0 s.outCount
  have hroom : j < Config.payload - s.outCount := Nat.lt_sub_of_add_lt (Nat.add_comm j _ ▸ hj)
  rw [Nat.add_assoc, packetBytes_getD_payload h hj, packetPayload, List.getD_append_right _ _ _ _ (by omega), hlen,
    Nat.add_sub_cancel_left, padFrom_getD _ hroom, padFrom_getD _ j.lt_succ_self]
  rfl

/-- Settles O44: the header's bytes are a fixed list, the rest has its place above. -/
theorem packetLayout : Obligations.PacketLayout := by
  intro s eoi h p byte
  refine ⟨packetBytes_length h, rfl, rfl, wordBytes_value _, rfl, ?sequence, dimByte_value _, dimByte_value _,
    flagsByte_value _ _ _, rfl, halfBytes_value _, fun i => packetBytes_getD_data h,
    fun j => packetBytes_getD_padding h, ?checksum⟩
  case sequence => exact (halfBytes_value _).trans (BitVec.toNat_ofNat _ _)
  case checksum =>
    simp only [byte, p, packetBytes_getD_checksum h 0, packetBytes_getD_checksum h 1, packetBytes_getD_checksum h 2,
      packetBytes_getD_checksum h 3]
    exact wordBytes_value _

/-- Every packet built is whole and verifies (45_packet.md R240 to R252). -/
theorem packetBytes_ok (h : s.outCount ≤ 237) : packetOk s.pktSeq eoi (packetBytes eoi s) :=
  ⟨packetBytes_length h, upper_append_lower (m := 8) (n := 8) _, flagsByte_eoi _ _ _, packetBytes_checksum h⟩

end Sys2Proof.Machine
end

section
/-! A command in progress along the instructions that it runs: only `NEXT_PACKET` itself and a fatal condition end it,
and no instruction but `NEXT_PACKET` counts a packet. No invariant is assumed. -/

namespace Sys2Proof.Machine

/-- A `NEXT_PACKET` is in progress, and its packet will have the number `n`. -/
def InCommand (n : Nat) (s : State) : Prop := s.running = true ∧ s.pktSeq = n

/-- A fatal condition has ended the command, and its code is the answer (60_exceptions.md R270). -/
def AnsweredFatal (s : State) : Prop :=
  s.running = false ∧ s.failed = true ∧ s.reply = some (.fatal s.reason)

theorem enterFatal_answeredFatal (e : Reason) (s : State) : AnsweredFatal (enterFatal e s) := ⟨rfl, rfl, rfl⟩

/-- What an instruction other than `NEXT_PACKET` may do to the command that runs it. -/
def GoesOn (n : Nat) (t : State) : Prop := InCommand n t ∨ AnsweredFatal t

variable {n : Nat} {s t : State} {len : Half} {d : List Byte}

theorem Res.All.goesOn {r : Res} (h : r.All (InCommand n)) (ht : r.outcome = .next t) : GoesOn n t := by
  cases r with
  | ok u => cases ht; exact .inl h
  | fatal e u => cases ht; exact .inr (enterFatal_answeredFatal e u)
  | fault f => cases ht

/-! Writing symbols, ends of blocks, the rescaler. -/

theorem Wrote.inCommand {m : Nat} (hw : Wrote m s t) (h : InCommand n s) : InCommand n t := by
  rw [hw.frame]
  exact h

theorem emit_inCommand (cls : HuffClass) (run : Nat) (v : Int) (h : InCommand n s) :
    (emit cls run v s).All (InCommand n) :=
  (emit_wrote cls run v s).mono fun _ ⟨_, hw⟩ => hw.inCommand h

theorem unitEnd_inCommand (h : InCommand n s) : InCommand n (unitEnd s) := by
  obtain ⟨u, _, hw, _, hend, _⟩ := unitEnd_cases s
  rw [hend]
  exact hw.inCommand h

theorem nextBlock_inCommand (h : InCommand n s) : InCommand n (nextBlock s) := by
  by_cases hlast : s.part = s.yparts + 2
  · rw [nextBlock_unitEnd hlast]
    exact unitEnd_inCommand h
  · rw [nextBlock_inside hlast]
    exact h

theorem synthesizeChroma_inCommand (cc : Nat) (h : InCommand n s) : (synthesizeChroma cc s).All (InCommand n) := by
  have hdc : (emit .dc 0 0 { s with comp := cc }).All (InCommand n) := emit_inCommand _ _ _ h
  exact (hdc.keeping fun _ => emit_inCommand .ac 0 0).keeping_write fun _ => id

theorem blockEnd_inCommand (h : InCommand n s) : (blockEnd s).All (InCommand n) := by
  have hpart : InCommand n { s with part := s.part + 1 } := h
  unfold blockEnd
  simp only
  split
  · exact ((synthesizeChroma_inCommand 1 hpart).keeping fun _ => synthesizeChroma_inCommand 2).keeping
      fun _ => nextBlock_inCommand
  · exact nextBlock_inCommand hpart

theorem finishStep_inCommand (h : InCommand n s) : (finishStep s).All (InCommand n) := by
  unfold finishStep
  split
  · exact blockEnd_inCommand h
  · exact h

theorem dcEmit_inCommand (new : Int) (h : InCommand n s) : (dcEmit new s).All (InCommand n) := by
  unfold dcEmit
  split
  · trivial
  · exact (emit_inCommand _ _ _ h).keeping_write fun _ => id

theorem dcUpdate_inCommand (v : Int) (h : InCommand n s) : (dcUpdate v s).All (InCommand n) := by
  unfold dcUpdate
  split
  · split
    · exact h
    · exact dcEmit_inCommand _ h
  · trivial
  · trivial

theorem emitZeroRuns_inCommand (m : Nat) (h : InCommand n s) : (emitZeroRuns m s).All (InCommand n) := by
  induction m generalizing s with
  | zero => exact h
  | succ m ih => exact Res.All.keeping ((emit_inCommand .ac 15 0 h).keeping_write fun _ => id) fun _ => ih

theorem acValue_inCommand (v : Int) (h : InCommand n s) : (acValue v s).All (InCommand n) := by
  unfold acValue
  split
  case h_2 => trivial
  case h_1 =>
    split
    · have hruns := emitZeroRuns_inCommand ((s.accrle + s.acrle.toNat) / 16)
        (s := { s with accrle := s.accrle + s.acrle.toNat }) h
      exact (hruns.keeping fun _ => emit_inCommand .ac _ _).keeping_write fun _ => id
    · split
      · exact (emit_inCommand .ac 0 0 h).keeping_write fun _ => id
      · exact h

/-- A symbol or value field counts no packet, and ends the command only by a fatal condition. -/
theorem IsSymbol.goesOn {i : Instr} (hi : IsSymbol i) (h : InCommand n s) (hexec : exec i s = .next t) :
    GoesOn n t := by
  cases hi with
  | dc hi size =>
    refine Res.All.goesOn ?_ hexec
    split
    · exact Res.All.keeping ((dcUpdate_inCommand 0 (s := { s with needbits := size }) h).keeping_write fun _ => id)
        fun _ => finishStep_inCommand
    · exact finishStep_inCommand h
  | eob =>
    refine Res.All.goesOn ?_ hexec
    exact Res.All.keeping ((emit_inCommand .ac 0 0 (s := { s with acrle := 0 }) h).keeping_write fun _ => id)
      fun _ => finishStep_inCommand
  | zrl =>
    refine Res.All.goesOn ?_ hexec
    split
    · exact h
    · exact Res.All.keeping ((emit_inCommand .ac 15 0 (s := { s with acrle := 0 }) h).keeping_write fun _ => id)
        fun _ => finishStep_inCommand
  | acReserved run => cases hexec; exact .inr (enterFatal_answeredFatal _ _)
  | ac run size =>
    refine Res.All.goesOn ?_ hexec
    split
    · exact h
    · exact finishStep_inCommand h
  | v m f =>
    refine Res.All.goesOn ?_ hexec
    refine Res.All.keeping (Res.All.keeping_write (P := InCommand n) ?_ fun _ => id) fun _ => finishStep_inCommand
    split
    · exact dcUpdate_inCommand _ h
    · exact acValue_inCommand _ h

/-! Markers and segments. -/

theorem frame_inCommand (d : List Byte) (h : InCommand n s) : (frame d s).All (InCommand n) := by
  unfold frame
  split <;> exact h

theorem scan_inCommand (d : List Byte) (h : InCommand n s) : (scan d s).All (InCommand n) := by
  unfold scan
  split <;> exact h

theorem setInterval_inCommand (d : List Byte) (h : InCommand n s) : (setInterval d s).All (InCommand n) := by
  unfold setInterval
  split <;> exact h

theorem dqtDefs_inCommand (fuel : Nat) (d : List Byte) (h : InCommand n s) :
    (dqtDefs fuel d s).All (InCommand n) := by
  induction fuel generalizing d s with
  | zero => exact h
  | succ fuel ih =>
    unfold dqtDefs
    split; · exact h
    split; · exact h
    split; · exact h
    exact ih _ h

theorem storeHuff_inCommand (cls idx : Nat) (tab : HuffTable) (h : InCommand n s) :
    InCommand n (storeHuff cls idx tab s) := by
  unfold storeHuff
  split <;> exact h

theorem dhtDefs_inCommand (fuel : Nat) (d : List Byte) (h : InCommand n s) :
    (dhtDefs fuel d s).All (InCommand n) := by
  induction fuel generalizing d s with
  | zero => exact h
  | succ fuel ih =>
    unfold dhtDefs
    simp only
    split; · exact h
    split; · exact h
    split; · exact h
    split; · exact h
    exact ih _ (storeHuff_inCommand _ _ _ h)

theorem dispatch_inCommand {op : State → Res} (h : InCommand n s)
    (hop : ∀ u, InCommand n u → (op u).All (InCommand n)) : (dispatch len s op).All (InCommand n) := by
  unfold dispatch
  split
  · exact h
  · exact hop _ h

theorem skipSegment_inCommand (len : Half) (h : InCommand n s) : (skipSegment len s).All (InCommand n) := by
  unfold skipSegment
  split <;> exact h

theorem bufferedRow_goesOn {w : Half} {mk : Half → List Byte → Instr} (hrow : BufferedRow w mk) (h : InCommand n s)
    (hexec : exec (mk len d) s = .next t) : GoesOn n t := by
  cases hrow with
  | sof0 => exact (dispatch_inCommand h fun _ => frame_inCommand d).goesOn hexec
  | dht => exact (dispatch_inCommand h fun _ => dhtDefs_inCommand _ d).goesOn hexec
  | sos => exact (dispatch_inCommand h fun _ => scan_inCommand d).goesOn hexec
  | dqt => exact (dispatch_inCommand h fun _ => dqtDefs_inCommand _ d).goesOn hexec
  | dri => exact (dispatch_inCommand h fun _ => setInterval_inCommand d).goesOn hexec

theorem standaloneRow_goesOn {w : Half} {i : Instr} (hrow : StandaloneRow w i) (h : InCommand n s)
    (hexec : exec i s = .next t) : GoesOn n t := by
  cases hrow with
  | tem | soi | nonmarker => cases hexec; exact .inl h
  | eoi | sof2 => cases hexec; exact .inr (enterFatal_answeredFatal _ _)
  | rst m =>
    refine Res.All.goesOn (r := if s.scanOk then .ok (restart s) else .fatal .sequence s) ?_ hexec
    split <;> exact h

/-- Whatever the window, its instruction counts no packet and ends the command only by a fatal condition. -/
theorem exec_markerInstr_goesOn {w : Half} (hexec : exec (markerInstr w len d) s = .next t) (h : InCommand n s) :
    GoesOn n t := by
  cases hw : hasLengthField w with
  | false =>
    obtain ⟨i, hrow⟩ := exists_standaloneRow hw
    rw [hrow.markerInstr_eq] at hexec
    exact standaloneRow_goesOn hrow h hexec
  | true =>
    obtain hbuffered | hskipped := Bool.or_eq_true_iff.mp hw
    · obtain ⟨mk, hrow⟩ := exists_bufferedRow hbuffered
      rw [hrow.markerInstr_eq] at hexec
      exact bufferedRow_goesOn hrow h hexec
    · obtain ⟨mk, hrow⟩ := exists_skippedRow hskipped
      rw [hrow.markerInstr_eq, exec_skippedRow hrow] at hexec
      exact (skipSegment_inCommand len h).goesOn hexec

/-! The fetch. -/

theorem execStuff_goesOn (b : Byte) (h : InCommand n s) (hexec : execStuff b s = .next t) : GoesOn n t := by
  refine Res.All.goesOn ?_ hexec
  split <;> exact h

theorem markerByte_goesOn (b : Byte) (h : InCommand n s) (hrun : (markerByte b s).run = .next t) : GoesOn n t := by
  unfold markerByte at hrun
  simp only at hrun
  split at hrun
  · cases hrun; exact .inl h
  · exact exec_markerInstr_goesOn hrun h

theorem lengthByte_goesOn (b : Byte) (h : InCommand n s) (hrun : (lengthByte b s).run = .next t) : GoesOn n t := by
  unfold lengthByte lengthDone at hrun
  simp only at hrun
  split at hrun
  · split at hrun
    · split at hrun
      · exact exec_markerInstr_goesOn hrun h
      · cases hrun; exact .inl h
    · exact exec_markerInstr_goesOn hrun h
  · cases hrun; exact .inl h

theorem payloadStep_goesOn (b : Byte) (h : InCommand n s) (hrun : (payloadStep b s).run = .next t) : GoesOn n t := by
  unfold payloadStep at hrun
  split at hrun
  · cases hrun
  · simp only at hrun
    split at hrun
    · exact exec_markerInstr_goesOn hrun h
    · cases hrun; exact .inl h

theorem pull_goesOn {use : Byte → State → Fetched} (h : InCommand n s)
    (huse : ∀ b u, InCommand n u → (use b u).run = .next t → GoesOn n t) (hrun : (pull s use).run = .next t) :
    GoesOn n t := by
  unfold pull at hrun
  simp only at hrun
  split at hrun
  · cases hrun; exact .inr (enterFatal_answeredFatal _ _)
  split at hrun
  · exact execStuff_goesOn (s := { s with srcPos := s.srcPos + 1 }) _ h hrun
  split at hrun
  · cases hrun; exact .inl h
  · exact huse _ { s with srcPos := s.srcPos + 1 } h hrun

theorem fetch_goesOn (ht : TablesOk s) (hc : CursorOk s) (hfin : s.pstate ≠ .finish) (h : InCommand n s)
    (hrun : (fetch s).run = .next t) : GoesOn n t := by
  cases hp : s.pstate with
  | marker => rw [fetch_marker hp] at hrun; exact pull_goesOn h (fun b _ => markerByte_goesOn b) hrun
  | len => rw [fetch_len hp] at hrun; exact pull_goesOn h (fun b _ => lengthByte_goesOn b) hrun
  | data => rw [fetch_data hp] at hrun; exact pull_goesOn h (fun b _ => payloadStep_goesOn b) hrun
  | finish => exact absurd hp hfin
  | huff | int =>
    have he : s.pstate.entropy = true := by rw [hp]; rfl
    obtain hs | hneed | hcorrupt := entropy_cases ht hc he
    · obtain ⟨i, w, hfetch, hi⟩ := hs.fetch_isSymbol
      rw [hfetch] at hrun
      exact hi.goesOn (s := consume w s) h hrun
    · obtain ⟨use, hfetch, huse⟩ := fetch_needsByte hneed
      rw [hfetch, huse he] at hrun
      exact pull_goesOn h (fun b u hu hmerge => by cases hmerge; exact .inl hu) hrun
    · rw [hcorrupt] at hrun; cases hrun; exact .inr (enterFatal_answeredFatal _ _)

end Sys2Proof.Machine
end

section
/-! Each step of a command in progress brings its end nearer (70_reset_and_hazards.md R316): it pulls a byte, which
brings at most 8 bits, or it consumes a bit of the window. -/

namespace Sys2Proof.Machine

variable {s t : State}

theorem stepsLeft_bounds (s : State) :
    18 * (s.srcLen - s.srcPos) + 2 * s.ilen ≤ stepsLeft s
      ∧ stepsLeft s ≤ 18 * (s.srcLen - s.srcPos) + 2 * s.ilen + 1 := by
  unfold stepsLeft
  split <;> omega

theorem stepsLeft_lt_of_pull (hlen : t.srcLen = s.srcLen) (hpos : t.srcPos = s.srcPos + 1) (hlt : s.srcPos < s.srcLen)
    (hilen : t.ilen ≤ s.ilen + 8) : stepsLeft t < stepsLeft s := by
  have := stepsLeft_bounds s
  have := stepsLeft_bounds t
  omega

theorem stepsLeft_lt_of_consume (hlen : t.srcLen = s.srcLen) (hpos : t.srcPos = s.srcPos) (hilen : t.ilen < s.ilen) :
    stepsLeft t < stepsLeft s := by
  have := stepsLeft_bounds s
  have := stepsLeft_bounds t
  omega

theorem Keeps.srcLen (h : Keeps s t) : t.srcLen = s.srcLen := h.config.2.1

/-- Running what was fetched without a move of the program position moves it no more. -/
theorem Fetched.All.run_keeps {f : Fetched} (h : f.All (fun u => fixedRegs u = fixedRegs s)) (hrun : f.run = .next t) :
    Keeps s t := by
  cases f with
  | instr i u => exact (Keeps.of_fixed h.2).trans (exec_keeps i h.1 hrun)
  | more u => cases hrun; exact .of_fixed h
  | fatal e u => cases hrun; exact .of_fixed h
  | fault e => cases hrun

/-- A `Pull()` moves the program position by one byte, or the source is exhausted (20_memory.md R63). -/
theorem pull_progress {use : Byte → State → Fetched}
    (huse : ∀ b u, (use b u).All (fun v => fixedRegs v = fixedRegs u)) (hrun : (pull s use).run = .next t)
    (hilen : t.ilen ≤ s.ilen + 8) : AnsweredFatal t ∨ stepsLeft t < stepsLeft s := by
  by_cases hend : s.srcLen ≤ s.srcPos
  case pos => rw [pull_exhausted hend] at hrun; cases hrun; exact .inl (enterFatal_answeredFatal _ _)
  case neg =>
    have hlt : s.srcPos < s.srcLen := Nat.lt_of_not_le hend
    have hkeeps : Keeps { s with srcPos := s.srcPos + 1 } t := by
      by_cases hstuff : s.stuffPending = true
      case pos =>
        rw [pull_stuffed hlt hstuff] at hrun
        exact exec_keeps (.stuff _) rfl hrun
      case neg =>
        rw [Bool.not_eq_true] at hstuff
        obtain hskip | hskip := Nat.eq_zero_or_pos s.skipCnt
        · rw [pull_taken hlt hstuff hskip] at hrun; exact (huse _ _).run_keeps hrun
        · rw [pull_skipped hlt hstuff hskip] at hrun; cases hrun; exact .of_fixed rfl
    exact .inr (stepsLeft_lt_of_pull hkeeps.srcLen hkeeps.srcPos hlt hilen)

/-- Outside entropy mode every fetch is a `Pull()`. -/
theorem fetch_pulls (he : s.pstate.entropy = false) (hfin : s.pstate ≠ .finish) :
    ∃ use, fetch s = pull s use ∧ ∀ b u, (use b u).All (fun v => fixedRegs v = fixedRegs u) := by
  cases hp : s.pstate with
  | marker => exact ⟨_, fetch_marker hp, markerByte_fixedRegs⟩
  | len => exact ⟨_, fetch_len hp, lengthByte_fixedRegs⟩
  | data => exact ⟨_, fetch_data hp, payloadStep_fixedRegs⟩
  | huff | int => rw [hp] at he; cases he
  | finish => exact absurd hp hfin

/-- A symbol or a value field takes at least one bit of the window, and none that is not there. -/
theorem WindowSuffices.fetch_consumes (hs : WindowSuffices s) (ht : TablesOk s) (hc : CursorOk s)
    (he : s.pstate.entropy = true) :
    ∃ i w, Machine.fetch s = .instr i (consume w s) ∧ IsSymbol i ∧ 1 ≤ w ∧ w ≤ s.ilen := by
  obtain ⟨hp, tab, sym, w, hsrc, hl⟩ | ⟨hp, hn⟩ := hs
  case inl =>
    obtain ⟨tab', hsrc', hshape⟩ := sourceTable_ready ht hc he
    cases hsrc.symm.trans hsrc'
    refine ⟨_, w, fetch_symbol hp hsrc hl, isSymbol_decodeSymbol _ _, ?_⟩
    obtain ⟨sym', w', hl', hpos, hle, _⟩ | ⟨hl', _⟩ | ⟨hl', _⟩ := huffLookup_cases hshape s.ibits s.ilen <;>
      cases hl.symm.trans hl'
    exact ⟨hpos, hle⟩
  case inr => exact ⟨_, _, fetch_value hp hn, .v _ _, hc.needbits hp, hn⟩

theorem IsSymbol.keeps {i : Instr} (hi : IsSymbol i) (h : exec i s = .next t) : Keeps s t := by
  have hregs := (hi.framed h).regs
  simp only [symbolRegs, Prod.mk.injEq] at hregs
  exact .of_fixed hregs.1

theorem fetch_progress (ht : TablesOk s) (hc : CursorOk s) (hfin : s.pstate ≠ .finish)
    (hrun : (fetch s).run = .next t) : AnsweredFatal t ∨ stepsLeft t < stepsLeft s := by
  cases he : s.pstate.entropy
  case false =>
    have hilen : t.ilen ≤ s.ilen := (fetch_windowLe (Nat.le_refl s.ilen) he).run_windowLe hrun
    obtain ⟨use, hfetch, huse⟩ := fetch_pulls he hfin
    rw [hfetch] at hrun
    exact pull_progress huse hrun (Nat.le_add_right_of_le hilen)
  case true =>
    obtain hs | hneed | hcorrupt := entropy_cases ht hc he
    · obtain ⟨i, w, hfetch, hi, hpos, hle⟩ := hs.fetch_consumes ht hc he
      rw [hfetch] at hrun
      have hkeeps : Keeps s t := Keeps.trans (t := consume w s) (.of_fixed rfl) (hi.keeps hrun)
      have hilen : t.ilen = s.ilen - w := hi.ilen_eq hrun
      exact .inr (stepsLeft_lt_of_consume hkeeps.srcLen hkeeps.srcPos (by omega))
    · obtain ⟨use, hfetch, huse⟩ := fetch_needsByte hneed
      rw [hfetch, huse he] at hrun
      refine pull_progress (use := fun b s => .more (merge b s)) (fun _ _ => rfl) hrun ?_
      obtain hsame | ⟨b, hmerged⟩ := needInput_window hrun
      · exact WindowLe.congr (n := s.ilen + 8) (Nat.le_add_right _ 8) hsame
      · exact WindowLe.congr (s := merge b s) (n := s.ilen + 8) (Nat.le_refl _) hmerged
    · rw [hcorrupt] at hrun; cases hrun; exact .inl (enterFatal_answeredFatal _ _)

end Sys2Proof.Machine
end

section
/-! One request, run to its end: it is answered with the next packet or with a fatal code (45_packet.md R235, R256). -/

namespace Sys2Proof.Machine

variable {n : Nat} {s t : State} {eoi : Bool} {p : List Byte}

/-- Packet `n`, whole and verified, has been returned; the flagged one is the last (45_packet.md R237). -/
structure AnsweredPacket (n : Nat) (eoi : Bool) (p : List Byte) (t : State) : Prop where
  reply : t.reply = some (.packet p)
  packet : packetOk n eoi p
  running : t.running = false
  failed : t.failed = false
  done : t.done = eoi
  pktSeq : t.pktSeq = n + 1

/-- The command for packet `n` has returned. -/
def Answered (n : Nat) (t : State) : Prop := (∃ eoi p, AnsweredPacket n eoi p t) ∨ AnsweredFatal t

theorem Answered.running (h : Answered n t) : t.running = false := by
  obtain ⟨_, _, h⟩ | ⟨h, _⟩ := h
  · exact h.running
  · exact h

theorem packetReturned_answered (hf : s.failed = false) (hd : s.done = false) (ho : s.outCount ≤ 237) :
    AnsweredPacket s.pktSeq eoi (packetBytes eoi s) (s.packetReturned eoi) where
  reply := rfl
  packet := packetBytes_ok ho
  running := rfl
  failed := hf
  done := by
    show (s.done || eoi) = eoi
    rw [hd, Bool.false_or]
  pktSeq := rfl

/-- With a packet ready the command returns it, or there are too many (45_packet.md R254). -/
theorem exec_nextPacket_answers (hf : s.failed = false) (hd : s.done = false) (ho : s.outCount ≤ 237)
    (h : s.pstate = .finish ∨ (drain s).outCount = 237) (hexec : exec .nextPacket s = .next t) :
    Answered s.pktSeq t := by
  by_cases hseq : s.pktSeq ≤ 65535
  · cases (exec_nextPacket_returns hf hd h hseq).symm.trans hexec
    rw [← drain_pktSeq s]
    exact .inl ⟨_, _, packetReturned_answered ((drain_failed s).trans hf) ((drain_done s).trans hd)
      ((drain_flushed s).room ho)⟩
  · cases (exec_nextPacket_overflow hf hd h (Nat.lt_of_not_le hseq)).symm.trans hexec
    exact .inr (enterFatal_answeredFatal _ _)

/-- A step of a command in progress answers it, or brings its end nearer. -/
theorem step_answers (hinv : Inv s) (hrun : s.running = true) (h : step s = .next t) :
    Answered s.pktSeq t ∨ (InCommand s.pktSeq t ∧ stepsLeft t < stepsLeft s) := by
  obtain ⟨hd, hf⟩ := hinv.static.running hrun
  have hroom := (hinv.output hf).outCount
  by_cases hgo : s.pstate = .finish ∨ s.outCount = 237
  case pos =>
    rw [step_continues_packet hrun hgo] at h
    have hready : s.pstate = .finish ∨ (drain s).outCount = 237 :=
      hgo.imp_right fun hfull => by rw [drain_eq_self (.inr hfull.ge), hfull]
    exact .inl (exec_nextPacket_answers hf hd hroom hready h)
  case neg =>
    obtain ⟨hfin, hnotFull⟩ := not_or.mp hgo
    rw [step_fetches hrun hfin hnotFull] at h
    have ht := hinv.tables hf
    have hc := hinv.cursor hf
    obtain hgoes | hfatal := fetch_goesOn ht hc hfin ⟨hrun, rfl⟩ h
    · obtain hfatal | hless := fetch_progress ht hc hfin h
      · exact .inl (.inr hfatal)
      · exact .inr ⟨hgoes, hless⟩
    · exact .inl (.inr hfatal)

theorem finishCommand_idle (fuel : Nat) (hr : s.running = false) : finishCommand fuel s = .next s := by
  cases fuel with
  | zero => rfl
  | succ fuel => rw [finishCommand, if_neg (by rw [hr]; decide)]

theorem finishCommand_step (fuel : Nat) (hr : s.running = true) (h : step s = .next t) :
    finishCommand (fuel + 1) s = finishCommand fuel t := by
  rw [finishCommand, if_pos hr, h]

/-- A command in progress is answered within its bound (70_reset_and_hazards.md R316). -/
theorem finishCommand_answers {fuel : Nat} (hinv : Inv s) (hrun : s.running = true) (hfuel : stepsLeft s < fuel) :
    ∃ t, finishCommand fuel s = .next t ∧ Inv t ∧ Answered s.pktSeq t := by
  induction fuel generalizing s with
  | zero => omega
  | succ fuel ih =>
    obtain ⟨u, hstep, hu⟩ := step_inv hinv
    rw [finishCommand_step fuel hrun hstep]
    obtain hanswered | ⟨⟨hrun', hseq⟩, hless⟩ := step_answers hinv hrun hstep
    · exact ⟨u, finishCommand_idle fuel hanswered.running, hu, hanswered⟩
    · rw [← hseq]
      exact ih hu hrun' (by omega)

theorem requestPacket_eq (h : exec .nextPacket s = .next t) :
    requestPacket s = finishCommand (stepsLeft t + 1) t := by
  rw [requestPacket, h]

theorem requestPacket_done (hf : s.failed = false) (hd : s.done = true) :
    requestPacket s = .next (answer .done s) :=
  (requestPacket_eq (exec_nextPacket_done hf hd)).trans (finishCommand_idle _ rfl)

theorem requestPacket_failed (hf : s.failed = true) : requestPacket s = .next (answer (.fatal s.reason) s) :=
  (requestPacket_eq (exec_nextPacket_failed hf)).trans (finishCommand_idle _ rfl)

/-- A request before the end is answered with its next packet or with a fatal code. -/
theorem requestPacket_answers (hinv : Inv s) (hf : s.failed = false) (hd : s.done = false) :
    ∃ t, requestPacket s = .next t ∧ Inv t ∧ Answered s.pktSeq t := by
  obtain ⟨u, hexec, hu⟩ : ToInv (exec .nextPacket s) := execNextPacket_inv hinv
  rw [requestPacket_eq hexec]
  by_cases hready : s.pstate = .finish ∨ (drain s).outCount = 237
  case pos =>
    have hanswered := exec_nextPacket_answers hf hd (hinv.output hf).outCount hready hexec
    exact ⟨u, finishCommand_idle _ hanswered.running, hu, hanswered⟩
  case neg =>
    obtain ⟨hfin, hroom⟩ := not_or.mp hready
    cases (exec_nextPacket_continues hf hd hfin hroom).symm.trans hexec
    rw [← drain_pktSeq s]
    exact finishCommand_answers hu rfl (Nat.lt_succ_self _)

end Sys2Proof.Machine
end

section
/-! The answers to any number of requests (45_packet.md R256). -/

namespace Sys2Proof.Machine

variable {i n : Nat} {s t : State} {l : List Reply} {p : List Byte}

/-- The output contract for `n` answers, the packets among them numbered from `i`. -/
def Contract (i n : Nat) (l : List Reply) : Prop :=
  ∃ (ps : List (List Byte)) (tail : List Reply),
    l = ps.map Reply.packet ++ tail
    ∧ l.length = n
    ∧ (∀ j p, ps[j]? = some p → packetOk (i + j) false p)
    ∧ (tail = []
      ∨ (∃ p m, tail = Reply.packet p :: List.replicate m Reply.done ∧ packetOk (i + ps.length) true p)
      ∨ (∃ c m, tail = List.replicate (m + 1) (Reply.fatal c) ∧ 1 ≤ c.toNat ∧ c.toNat ≤ 20))

theorem Contract.nil (i : Nat) : Contract i 0 [] := ⟨[], [], rfl, rfl, nofun, .inl rfl⟩

/-- One more packet in front. -/
theorem Contract.cons (hp : packetOk i false p) (h : Contract (i + 1) n l) : Contract i (n + 1) (.packet p :: l) := by
  obtain ⟨ps, tail, hl, hlen, hps, htail⟩ := h
  refine ⟨p :: ps, tail, congrArg _ hl, congrArg _ hlen, fun j q hq => ?_, ?_⟩
  · cases j with
    | zero => cases hq; exact hp
    | succ j =>
      rw [← Nat.add_assoc, Nat.add_right_comm]
      exact hps j q hq
  · rw [List.length_cons, ← Nat.add_assoc, Nat.add_right_comm]
    exact htail

theorem Contract.last (n : Nat) (hp : packetOk i true p) : Contract i (n + 1) (.packet p :: List.replicate n .done) :=
  ⟨[], _, rfl, congrArg (· + 1) List.length_replicate, nofun, .inr (.inl ⟨p, n, rfl, hp⟩)⟩

theorem Contract.fatal (i n : Nat) {c : BitVec 5} (hc : 1 ≤ c.toNat ∧ c.toNat ≤ 20) :
    Contract i (n + 1) (List.replicate (n + 1) (.fatal c)) :=
  ⟨[], _, rfl, List.length_replicate, nofun, .inr (.inr ⟨c, n, rfl, hc⟩)⟩

theorem replies_succ {r : Reply} (n : Nat) (h : requestPacket s = .next t) (hr : t.reply = some r) :
    replies (n + 1) s = r :: replies n t := by
  rw [replies, h]
  simp only [hr, Option.toList_some, List.singleton_append]

theorem replies_done (n : Nat) (hf : s.failed = false) (hd : s.done = true) :
    replies n s = List.replicate n .done := by
  induction n generalizing s with
  | zero => rfl
  | succ n ih => rw [replies_succ n (requestPacket_done hf hd) rfl, ih (s := answer _ s) hf hd, List.replicate_succ]

theorem replies_failed (n : Nat) (hf : s.failed = true) : replies n s = List.replicate n (.fatal s.reason) := by
  induction n generalizing s with
  | zero => rfl
  | succ n ih =>
    rw [replies_succ n (requestPacket_failed hf) rfl, ih (s := answer _ s) hf, List.replicate_succ, answer_reason]

theorem replies_contract (n : Nat) (hinv : Inv s) (hf : s.failed = false) (hd : s.done = false) :
    Contract s.pktSeq n (replies n s) := by
  induction n generalizing s with
  | zero => exact .nil s.pktSeq
  | succ n ih =>
    obtain ⟨t, hrequest, ht, ⟨eoi, p, hp⟩ | ⟨-, hfailed, hreply⟩⟩ := requestPacket_answers hinv hf hd
    · rw [replies_succ n hrequest hp.reply]
      cases eoi with
      | false => exact .cons hp.packet (hp.pktSeq ▸ ih ht hp.failed hp.done)
      | true =>
        rw [replies_done n hp.failed hp.done]
        exact .last n hp.packet
    · rw [replies_succ n hrequest hreply, replies_failed n hfailed]
      exact .fatal _ n (ht.static.reason.2 hfailed)

/-- Settles O58: each request is answered with the next packet or with the end, and after the end the
answer repeats. -/
theorem outputContract : Obligations.OutputContract := by
  intro s n hinv _ hd hf hseq
  obtain ⟨ps, tail, hl, hlen, hps, htail⟩ := hseq ▸ replies_contract n hinv hf hd
  simp only [Nat.zero_add] at hps htail
  exact ⟨ps, tail, hl, hlen, hps, htail⟩

end Sys2Proof.Machine
end

/-! PROOFS. The family of 60_exceptions.md: what the end of an instance, by a fatal condition or by its last packet,
leaves for the requests after it. -/

section
/-! An instance that has ended repeats its answer until the next `CONSTRUCT` (60_exceptions.md R270, R275). -/

namespace Sys2Proof.Machine

variable {s : State}

/-- What an instance that has ended answers: the reason of its fatal condition, or `END`. -/
def endedReply (s : State) : Reply := if s.failed = true then .fatal s.reason else .done

theorem endedReply_failed (hf : s.failed = true) : endedReply s = .fatal s.reason := if_pos hf

theorem endedReply_done (hf : s.failed = false) : endedReply s = .done := if_neg (Bool.eq_false_iff.mp hf)

theorem exec_nextPacket_ended (hend : s.failed = true ∨ s.done = true) :
    exec .nextPacket s = .next (answer (endedReply s) s) := by
  cases hf : s.failed with
  | true => rw [endedReply_failed hf, exec_nextPacket_failed hf]
  | false =>
    have hd : s.done = true := hend.resolve_left (Bool.eq_false_iff.mp hf)
    rw [endedReply_done hf, exec_nextPacket_done hf hd]

theorem StaticOk.notRunning_of_ended (h : StaticOk s) (hend : s.failed = true ∨ s.done = true) :
    s.running = false :=
  Bool.eq_false_iff.mpr fun hrun => by
    obtain ⟨hd, hf⟩ := h.running hrun
    rw [hf, hd] at hend
    exact hend.elim nofun nofun

/-- A result returned while no command is in progress changes the result only. -/
theorem answer_of_notRunning (r : Reply) (hr : s.running = false) : answer r s = { s with reply := some r } := by
  rw [answer, ← hr]

/-- A request to an ended instance is taken and answered in one step, which touches nothing else. -/
theorem step_ended {q : List Command} (hr : s.running = false) (hend : s.failed = true ∨ s.done = true)
    (hq : s.hostq = .nextPacket :: q) : step s = .next { s with hostq := q, reply := some (endedReply s) } := by
  rw [step_runs_command hr hq]
  exact (exec_nextPacket_ended (s := { s with hostq := q }) hend).trans (congrArg _ (answer_of_notRunning _ hr))

/-- Settles O57: an ended instance has no command in progress, so the host's queue decides the step. -/
theorem endedInstanceStays : Obligations.EndedInstanceStays := by
  intro s t hinv hend hstep hconstruct
  have hr : s.running = false := hinv.static.notRunning_of_ended hend
  match hq : s.hostq with
  | [] =>
    cases (step_idle hr hq).symm.trans hstep
    exact ⟨by rw [List.tail_nil, ← hq], absurd rfl⟩
  | .nextPacket :: q =>
    cases (step_ended hr hend hq).symm.trans hstep
    exact ⟨rfl, fun _ => rfl⟩
  | .construct c i quality source :: q => exact absurd hq (hconstruct c i quality source q)

end Sys2Proof.Machine
end

/-! PROOFS. The family of 70_reset_and_hazards.md: every command comes to an end and returns a result. -/

section
/-! The end of a command in progress (70_reset_and_hazards.md R316). -/

namespace Sys2Proof.Machine

variable {n : Nat} {t : State}

/-- The host gets a result either way: a packet or a fatal code. -/
theorem Answered.reply_ne_none (h : Answered n t) : t.reply ≠ none := by
  obtain ⟨_, _, hpacket⟩ | ⟨_, _, hfatal⟩ := h
  · exact hpacket.reply ▸ Option.some_ne_none _
  · exact hfatal ▸ Option.some_ne_none _

/-- Settles O53: every step answers the command or lowers `stepsLeft`, so one step more than that bound is enough. -/
theorem commandTerminates : Obligations.CommandTerminates := by
  intro s hinv hrun
  obtain ⟨t, hfinish, -, hanswered⟩ := finishCommand_answers hinv hrun (Nat.lt_succ_self (stepsLeft s))
  exact ⟨t, hfinish, hanswered.running, hanswered.reply_ne_none⟩

end Sys2Proof.Machine
end
